-- ==== Sys2Proof/Word.lean ====
section
/-! DEFINITION. The plain types of the block's quantities: symbols, node indices, counters, weights,
bit sequences (00_scope.md R8, R10). Every quantity is unsigned; there is no signed type. -/

namespace Sys2Proof

/-- A bit sequence, first bit in time at the head (R10). -/
abbrev Bits := List Bool

/-- A symbol of the alphabet: 0 to 255 are literal bytes, 256 is the sentinel `EOF_SYM` (R8, R13). -/
abbrev Sym := Fin 257

/-- A node index: an entry of the node store, 0 to `NODE_CAP` - 1 = 512 (R26, R29; 10 bits in the block). -/
abbrev Idx := Fin 513

/-- A frequency counter, `W_CNT` = 32 bits (R8, R111). -/
abbrev Count := BitVec 32

/-- A node weight, `W_WT` = 41 bits (R8, R124). -/
abbrev Weight := BitVec 41

/-- The end-of-stream sentinel symbol, `EOF_SYM` = 256 (R8). -/
def sentinel : Sym := 256

end Sys2Proof
end

