-- ==== Sys2Proof/Syntax.lean ====
section
/-! DEFINITION. The rows of spec/opcode_table.json, one constructor each: the sixteen command codes of
30_encoding.md R81, and the five units of the streams (R84, R85, R87, R88), which the block takes from `IN`
while a command that reads them runs. -/

namespace Sys2Proof

/-- One row of spec/opcode_table.json. Commands have no operand field (R80); a stream unit carries its field. -/
inductive Instr where
  | reserved0
  | count
  | build
  | generate
  | wrmagic
  | serialize
  | encode
  | close
  | rdmagic
  | deserialize
  | decode
  | compress
  | decompress
  | clear
  | reservedE
  | reservedF
  /-- The 32-bit field that opens a compressed stream (R84). -/
  | magic (m : BitVec 32)
  /-- Header token `0`: an internal node (R85). -/
  | hdrInternal
  /-- Header token `1` and a 9-bit field: a leaf (R85). The field may hold 257 to 511, which R91 refuses by a fault. -/
  | hdrLeaf (s : BitVec 9)
  /-- One variable-length code of the body, root edge first (R87). -/
  | bodyCode (c : List Bool)
  /-- One byte of uncompressed data (R88). -/
  | literal8 (v : BitVec 8)
  deriving DecidableEq, Repr

end Sys2Proof
end

