-- ==== Sys2Proof/WellFormed.lean ====
section
/-! DEFINITION. Which terms of `Instr` the encoding tables can hold without a reserved field. -/

namespace Sys2Proof

/-- Legal fields: a leaf token names a symbol 0 to 256 (R85, R91); a body code has 1 to `MAXLEN` = 256 bits
(R28, R63). Every other row has no field, or a field all of whose values are legal. -/
def Instr.wellFormed : Instr → Bool
  | .hdrLeaf s => decide (s.toNat ≤ 256)
  | .bodyCode c => decide (1 ≤ c.length) && decide (c.length ≤ 256)
  | .reserved0 => true
  | .count => true
  | .build => true
  | .generate => true
  | .wrmagic => true
  | .serialize => true
  | .encode => true
  | .close => true
  | .rdmagic => true
  | .deserialize => true
  | .decode => true
  | .compress => true
  | .decompress => true
  | .clear => true
  | .reservedE => true
  | .reservedF => true
  | .magic _ => true
  | .hdrInternal => true
  | .literal8 _ => true

end Sys2Proof
end

