-- ==== Sys2Proof/Decode.lean ====
section
/-! DEFINITION. Field assembly (R10, R62, R88), the decoder, total on any bits and rejecting by name, and the
encoder, both written from 30_encoding.md R81, R84, R85, R87, R88. -/

namespace Sys2Proof

/-- `bits_n(v)`: the low `n` bits of `v`, most significant first (R10). -/
def bits : Nat → Nat → Bits
  | 0, _ => []
  | n + 1, v => v.testBit n :: bits n v

/-- `val(b)`: the unsigned value of a bit sequence read most significant bit first (R10). -/
def val : Bits → Nat
  | [] => 0
  | b :: bs => b.toNat * 2 ^ bs.length + val bs

/-- The first `n` bits as one field and the bits after it; `none` when fewer than `n` are left. -/
def takeField (n : Nat) (bs : Bits) : Option (BitVec n × Bits) :=
  if n ≤ bs.length then some (BitVec.ofNat n (val (bs.take n)), bs.drop n) else none

/-- The encoding spaces of spec/opcode_table.json: which one applies is told by where the bits stand (the command
port, or the part of the stream the running command is reading: R80, R83, R88), never by the bits. The length of
a body code is found by walking the tree (R89), so it is given with the space. -/
inductive Space where
  | command
  | magic
  | header
  | body (len : Nat)
  | literal
  deriving DecidableEq, Repr

/-- Why bits are no row of a space. -/
inductive Reject where
  /-- Fewer than the four bits of a command word (R80). -/
  | shortCommand
  /-- Fewer than 32 bits for the magic field (R91). -/
  | shortMagic
  /-- No tag bit, or a leaf tag with fewer than nine bits after it (R91). -/
  | truncatedToken
  /-- Fewer bits than the code has, or a length outside 1 to 256 (R63). -/
  | badCode
  /-- Fewer than eight bits for a literal (R51). -/
  | shortLiteral
  deriving DecidableEq, Repr

/-- The command set (R81), total on the sixteen codes. -/
def decodeCommand (c : BitVec 4) : Instr :=
  match c.toNat with
  | 0x0 => .reserved0
  | 0x1 => .count
  | 0x2 => .build
  | 0x3 => .generate
  | 0x4 => .wrmagic
  | 0x5 => .serialize
  | 0x6 => .encode
  | 0x7 => .close
  | 0x8 => .rdmagic
  | 0x9 => .deserialize
  | 0xA => .decode
  | 0xB => .compress
  | 0xC => .decompress
  | 0xD => .clear
  | 0xE => .reservedE
  | _ => .reservedF

/-- One header token: a tag bit, and for a leaf nine bits more (R85, R89). -/
def decodeHeader : Bits → Except Reject (Instr × Bits)
  | [] => .error .truncatedToken
  | false :: rest => .ok (.hdrInternal, rest)
  | true :: rest =>
    match takeField 9 rest with
    | some (s, rest') => .ok (.hdrLeaf s, rest')
    | none => .error .truncatedToken

/-- The instruction at the head of `bs` in a space, and the bits after it. -/
def decode (sp : Space) (bs : Bits) : Except Reject (Instr × Bits) :=
  match sp with
  | .command =>
    match takeField 4 bs with
    | some (c, rest) => .ok (decodeCommand c, rest)
    | none => .error .shortCommand
  | .magic =>
    match takeField 32 bs with
    | some (m, rest) => .ok (.magic m, rest)
    | none => .error .shortMagic
  | .header => decodeHeader bs
  | .body n =>
    if 1 ≤ n ∧ n ≤ 256 ∧ n ≤ bs.length then .ok (.bodyCode (bs.take n), bs.drop n) else .error .badCode
  | .literal =>
    match takeField 8 bs with
    | some (v, rest) => .ok (.literal8 v, rest)
    | none => .error .shortLiteral

/-- The space a row belongs to. -/
def Instr.space : Instr → Space
  | .reserved0 => .command
  | .count => .command
  | .build => .command
  | .generate => .command
  | .wrmagic => .command
  | .serialize => .command
  | .encode => .command
  | .close => .command
  | .rdmagic => .command
  | .deserialize => .command
  | .decode => .command
  | .compress => .command
  | .decompress => .command
  | .clear => .command
  | .reservedE => .command
  | .reservedF => .command
  | .magic _ => .magic
  | .hdrInternal => .header
  | .hdrLeaf _ => .header
  | .bodyCode c => .body c.length
  | .literal8 _ => .literal

/-- The bits of an instruction, first bit in time at the head (R81, R84, R85, R87, R88). -/
def encode : Instr → Bits
  | .reserved0 => [false, false, false, false]
  | .count => [false, false, false, true]
  | .build => [false, false, true, false]
  | .generate => [false, false, true, true]
  | .wrmagic => [false, true, false, false]
  | .serialize => [false, true, false, true]
  | .encode => [false, true, true, false]
  | .close => [false, true, true, true]
  | .rdmagic => [true, false, false, false]
  | .deserialize => [true, false, false, true]
  | .decode => [true, false, true, false]
  | .compress => [true, false, true, true]
  | .decompress => [true, true, false, false]
  | .clear => [true, true, false, true]
  | .reservedE => [true, true, true, false]
  | .reservedF => [true, true, true, true]
  | .magic m => bits 32 m.toNat
  | .hdrInternal => [false]
  | .hdrLeaf s => true :: bits 9 s.toNat
  | .bodyCode c => c
  | .literal8 v => bits 8 v.toNat

/-- How a word of spec/opcode_table.json, given as a number of `nbits` bits, is laid out for the decoder: the space it
is read in and its bits in the order of time, most significant first (R62). One byte holds a 4-bit command, or,
from 16 up, a literal; two bytes hold a 10-bit header token; 32 bits the magic field; any other width is the
table's row of variable width, a body code (no width at all standing for the shortest code, `"0"`).
(Assumption 13.) -/
def tableLayout (nbits w : Nat) : Space × Bits :=
  if nbits = 1 then (.header, bits 1 w)
  else if nbits = 4 then (.command, bits 4 w)
  else if nbits = 8 then (if w < 16 then (.command, bits 4 w) else (.literal, bits 8 w))
  else if nbits = 10 ∨ nbits = 16 then (.header, bits 10 w)
  else if nbits = 32 then (.magic, bits 32 w)
  else (.body (max nbits 1), bits (max nbits 1) w)

/-- The instruction the decoder reads from a word of the opcode table; none where it refuses. -/
def decodeTableWord (nbits w : Nat) : Option Instr :=
  match decode (tableLayout nbits w).1 (tableLayout nbits w).2 with
  | .ok (i, _) => some i
  | .error _ => none

end Sys2Proof
end

