-- ==== Sys2Proof/Config.lean ====
section
/-! DEFINITION. The parameters of a run (00_scope.md R8, R9; 10_state.md R33): fixed for the machine, changed by
no command. -/

namespace Sys2Proof

/-- `MAGIC`, an OPEN parameter: the spec gives no value and forbids a model to hard-wire one (R9, D5). It has no
body, so no proof can see its value. (Assumption 1.) -/
opaque Config.magic : BitVec 32

/-- The parameters that R8 says a model may take as arguments. The meanings take them so, and the machine
runs them at `Config.params`. -/
structure Params where
  /-- `MAGIC` (R9). -/
  magic : BitVec 32
  /-- `W_CNT`, at most the 32 bits a counter is stored in (R111). -/
  wCnt : Nat
  /-- `NODE_CAP`, at most the 513 entries of the store (R26). -/
  nodeCap : Nat
  deriving DecidableEq, Repr

/-- The parameters of this hardware: `W_CNT` = 32, `NODE_CAP` = 513, `MAGIC` open (R8). -/
def Config.params : Params := { magic := Config.magic, wCnt := 32, nodeCap := 513 }

end Sys2Proof
end

