-- ==== Sys2Proof/Machine/State.lean ====
section
/-! DEFINITION. The state of the block and of the two transports attached to it, as plain data (10_state.md,
20_memory.md R50), the reasons a step can stop, and the state after reset (R35). -/

namespace Sys2Proof.Machine

open Sys2Proof

/-- `PHASE` (R21, R22): 2 bits, of which the value 3 never occurs. -/
inductive Phase where
  | idle
  | busy
  | fault
  deriving DecidableEq, Repr

/-- An entry of the node store (R26): the fields that are meaningful for its kind. -/
inductive Node where
  | leaf (sym : Sym) (weight : Weight)
  | internal (left right : Idx) (weight : Weight)
  deriving DecidableEq, Repr

/-- A frame of DESERIALIZE's stack (R12, R155): an internal node whose left subtree is being read, or
whose left subtree is node `l` and whose right one is being read. -/
inductive Pending where
  | left
  | right (l : Idx)
  deriving DecidableEq, Repr

/-- The faults of R200. -/
inductive Cause where
  | format
  | truncation
  | corruption
  | missingCode
  | emptyCode
  | counterOverflow
  | symbolRange
  | nodeCapacity
  | emptyTable
  | sequence
  | illegalCommand
  deriving DecidableEq, Repr

/-- The parts of the commands' pseudocode in which a running command can stand (R22). A part named Loop, Merge or
Walk takes one unit of work per iteration, `encEmit` one per bit; every other part is one unit. No unit makes more than
one transport call, so that what lies between two calls is a state of the machine (R11, R64). -/
inductive Stage where
  /-- COUNT: all counters to 0 (R110). -/
  | countClear
  /-- COUNT: read a literal and count it, until `EOS` (R110). -/
  | countLoop
  /-- COUNT: the sentinel's count and `FREQ_VALID` (R110, R112). -/
  | countSeal
  /-- BUILD: empty the store and the queue, allocate the leaves (R120, R122). -/
  | buildLeaves
  /-- BUILD: the empty table and the single leaf (R125, R126). -/
  | buildFew
  /-- BUILD: one merge; with one node left, the root (R123). -/
  | buildMerge
  /-- GENERATE: clear the table, refuse a root that is a leaf (R140, R143). -/
  | genStart
  /-- GENERATE: visit one node in preorder (R141). -/
  | genWalk
  /-- WRMAGIC (R150). -/
  | wrMagic
  /-- SERIALIZE: start at the root (R151). -/
  | serStart
  /-- SERIALIZE: visit one node in preorder: its tag (R151). -/
  | serWalk
  /-- SERIALIZE: the symbol field of a leaf whose tag is written (R151). -/
  | serField (v : Sym)
  /-- ENCODE: rewind `IN` (R170). -/
  | encRewind
  /-- ENCODE: read a literal and look up its code, until `EOS` (R170). -/
  | encLoop
  /-- ENCODE: look up the sentinel's code (R170). -/
  | encSentinel
  /-- ENCODE: the bits of a code that are still to be written (R170, R172). -/
  | encEmit (c : Bits)
  /-- RDMAGIC (R152). -/
  | rdMagic
  /-- DESERIALIZE: empty the store (R153). -/
  | desStart
  /-- DESERIALIZE: read the tag of one token (R153, R155). -/
  | desLoop
  /-- DESERIALIZE: read the symbol field of a leaf whose tag is read (R154). -/
  | desField
  /-- DECODE: `CUR` to the root (R180). -/
  | decStart
  /-- DECODE: read one bit and move (R181 to R183). -/
  | decLoop
  /-- DECODE: write the byte of the leaf reached and return to the root (R182). -/
  | decEmit (v : Sym)
  /-- `OUT.close()` and `OUT_CLOSED` (R54, R173). -/
  | closeOut
  /-- The implicit clear of COMPRESS and DECOMPRESS (R192). -/
  | implicitClear
  /-- The discard at the end of COMPRESS (R190). -/
  | discardAll
  /-- The discard at the end of DECOMPRESS (R191). -/
  | discardTree
  /-- CLEAR: its pseudocode (R193). -/
  | clearAll
  /-- A fault raised and not yet entered: nothing of the pseudocode is left but its entry (R215, R222). -/
  | raise (c : Cause)
  deriving DecidableEq, Repr

/-- `IN` (R32, R50): a bit sequence and a read position. -/
structure Inp where
  data : Bits
  pos : Nat
  deriving DecidableEq, Repr

/-- `OUT` (R32, R50): the bits appended so far and the closed mark. -/
structure Out where
  bits : Bits
  closed : Bool
  deriving DecidableEq, Repr

/-- One thing the host does at the block's ports (R230, R231, R236). -/
inductive HostAction where
  /-- Presents a command code and does nothing more until the run of it is over (R82, R231). -/
  | present (op : BitVec 4)
  /-- Presents a command code and goes on acting: an accepted command is then `BUSY`, and later steps do its work
  (R231, R240). -/
  | start (op : BitVec 4)
  /-- Leaves the block alone while it takes one stream unit from `IN`, or does one unit of work. -/
  | wait
  /-- Leaves the block alone for one unit of work: at most one transport call. -/
  | tick
  /-- Drives the `rst` port: asserts it, or releases it (R230). -/
  | rst (on : Bool)
  /-- Attaches an input of the given content, standing at the given position (R193, R233, R237). -/
  | attachIn (data : Bits) (pos : Nat)
  /-- Attaches a fresh, open, empty output (R239). -/
  | attachOut
  /-- Closes the output itself, as after a run it has abandoned (R230, R236). -/
  | closeOut
  deriving DecidableEq, Repr

/-- Everything the spec gives the machine. `todo` and `host` are the model's own (Assumptions 4, 5): the place the
running command has reached, and what the host will do. `rst` is the level of the input port of that name. -/
structure State where
  /-- `ROOT`, 10 bits: node index of the tree root (R21). -/
  root : Idx
  /-- `NNODES`, 11 bits: entries of `NODE` allocated so far, 0 to 513 (R21). -/
  nnodes : Fin 514
  /-- `CUR`, 10 bits: the decoder's pointer (R21). -/
  cur : Idx
  /-- `OP`: code of the last accepted command (R21). -/
  op : BitVec 4
  /-- `PHASE` (R21, R22). -/
  phase : Phase
  /-- `ERR`: fault code, 0 for none (R21, R200). -/
  err : BitVec 4
  /-- `STATUS`: the flags of R23. -/
  status : BitVec 8
  /-- `FREQ`: 257 counters (R25). -/
  freq : Vector Count 257
  /-- `NODE`: the node store of 513 entries (R26). -/
  node : Vector Node 513
  /-- `CODE`: 257 bit sequences, `[]` for no entry (R28). -/
  code : Vector Bits 257
  /-- `PQ`: the queue of BUILD, a set of node indices (R30), kept in the order of insertion. -/
  pq : List Idx
  /-- The stack and path accumulator of GENERATE and SERIALIZE (R31): subtrees still to visit, next one first. -/
  walk : List (Idx × Bits)
  /-- The stack of DESERIALIZE (R31), innermost frame first. -/
  pending : List Pending
  /-- What is left of the running command's pseudocode, current part first; `[]` when it is complete (R22). -/
  todo : List Stage
  /-- `IN` (R50). -/
  inp : Inp
  /-- `OUT` (R50). -/
  out : Out
  /-- The level of port `rst`: whether the host holds it asserted (R230). -/
  rst : Bool
  /-- What the host does next (R14, R82). -/
  host : List HostAction
  deriving DecidableEq, Repr

/-- Reasons for which the machine stops. None is a fault of R200: those are entered as R215 says, and the step answers
a next state. Both are safe: they stop only in states that R26, R27 rule out, where the spec gives no behaviour. -/
inductive Fault where
  /-- Raised by the run of a whole command that does more units of work than the bound every command keeps on a tree
  that R27 allows (R244): a walk over a store whose nodes form a cycle never ends. Safe. (Assumption 7.) -/
  | endlessRun
  /-- Raised by GENERATE at a leaf more than `MAXLEN` = 256 edges below the root: no tree that R27 allows has one, and
  an entry of `CODE` cannot hold its path (R28). Safe. (Assumption 7.) -/
  | codeTooLong
  deriving DecidableEq, Repr

/-- Reasons for which an instruction is given no meaning. -/
inductive Refusal where
  /-- Raised by exec's arm of an instruction that is not modelled yet; no arm raises it now. Safe. -/
  | notModelled (mnemonic : String)
  deriving DecidableEq, Repr

/-- The machine right after reset (R35, R232). `ROOT`, `CUR` and the tables are unspecified and unreadable there: the
value 0 (no code, a leaf of symbol 0 and weight 0) is the model's (Assumption 2). The transports, the `rst` port and the
host's script are not block state: nothing is attached yet, `rst` is released, and the host does nothing
(Assumption 3). -/
def State.reset : State where
  root := 0
  nnodes := 0
  cur := 0
  op := 0
  phase := .idle
  err := 0
  status := 0
  freq := Vector.replicate 257 0
  node := Vector.replicate 513 (.leaf 0 0)
  code := Vector.replicate 257 []
  pq := []
  walk := []
  pending := []
  todo := []
  inp := { data := [], pos := 0 }
  out := { bits := [], closed := false }
  rst := false
  host := []

end Sys2Proof.Machine
end

