-- ==== Sys2Proof/Machine/Flags.lean ====
section
/-! DEFINITION. The fields of `STATUS` (10_state.md R23) and the bits of `PHASE` (R21). -/

namespace Sys2Proof.Machine

open Sys2Proof

/-- The flags of `STATUS` (R23). Bit 7 is reserved and has no name. -/
inductive Flag where
  | busy
  | done
  | fault
  | freqValid
  | treeValid
  | codeValid
  | outClosed
  deriving DecidableEq, Repr

/-- The bit a flag stands at (R23). -/
def Flag.bit : Flag → Nat
  | .busy => 0
  | .done => 1
  | .fault => 2
  | .freqValid => 3
  | .treeValid => 4
  | .codeValid => 5
  | .outClosed => 6

/-- Bit `i` of `w` set to `b`, the other bits kept. -/
def putBit (w : BitVec 8) (i : Nat) (b : Bool) : BitVec 8 :=
  if b then w ||| (1#8 <<< i) else w &&& ~~~(1#8 <<< i)

/-- Reads a flag. -/
def State.flag (s : State) (f : Flag) : Bool := s.status.getLsbD f.bit

/-- Writes a flag. -/
def State.setFlag (s : State) (f : Flag) (b : Bool) : State := { s with status := putBit s.status f.bit b }

/-- Writes 0 to each flag of a list. -/
def State.lower (s : State) : List Flag → State
  | [] => s
  | f :: fs => (s.setFlag f false).lower fs

/-- The two bits of `PHASE` (R21). -/
def Phase.code : Phase → BitVec 2
  | .idle => 0
  | .busy => 1
  | .fault => 2

end Sys2Proof.Machine
end

