-- ==== Sys2Proof/Machine/Operands.lean ====
section
/-! DEFINITION. Every operand form a command has (R80: none is encoded, all are fixed): the four transport calls
(20_memory.md R51 to R54) and the table accesses (R59), each in one place. -/

namespace Sys2Proof.Machine

open Sys2Proof

/-- The bits of `IN` from the read position on. -/
def Inp.rest (i : Inp) : Bits := i.data.drop i.pos

/-- `IN.readBits(n)` (R51): the next `n` bits as a value, or `none` for `EOS`, which consumes what is left. -/
def State.readBits (s : State) (n : Nat) : Option (BitVec n) × State :=
  if s.inp.pos + n ≤ s.inp.data.length then
    (some (BitVec.ofNat n (val (s.inp.rest.take n))), { s with inp := { s.inp with pos := s.inp.pos + n } })
  else (none, { s with inp := { s.inp with pos := s.inp.data.length } })

/-- `IN.rewind()` (R53). -/
def State.rewind (s : State) : State := { s with inp := { s.inp with pos := 0 } }

/-- Appends a bit sequence to `OUT`: any grouping into `writeBits` calls gives the same bits (R55, R172). -/
def State.writeSeq (s : State) (b : Bits) : State := { s with out := { s.out with bits := s.out.bits ++ b } }

/-- `OUT.writeBits(n, v)` (R52): the low `n` bits, most significant first. -/
def State.writeBits (s : State) (n v : Nat) : State := s.writeSeq (bits n v)

/-- `OUT.close()` and the mirror `OUT_CLOSED` (R54, R173). The content of `OUT.bits` does not change. -/
def State.closeOutput (s : State) : State :=
  { s with out := { s.out with closed := true } }.setFlag .outClosed true

/-- An 8-bit literal denotes the symbol of the same value (R88). -/
def literalSym (v : BitVec 8) : Sym := ⟨v.toNat, by omega⟩

/-- `FREQ[v] <- k` (R25). -/
def State.setFreq (s : State) (v : Sym) (k : Count) : State := { s with freq := s.freq.set v k }

/-- `CODE[v] <- c` (R28). -/
def State.setCode (s : State) (v : Sym) (c : Bits) : State := { s with code := s.code.set v c }

/-- The weight of an entry (R26). -/
def Node.weight : Node → Weight
  | .leaf _ w => w
  | .internal _ _ w => w

/-- The weight field of node `i`. -/
def State.weightOf (s : State) (i : Idx) : Weight := s.node[i].weight

/-- The reference transport's packing into bytes (R60), which no rule of the block depends on: first bit in bit 7, the
last byte completed with 0 bits. The fuel is the number of bits. -/
def packBytes : Nat → Bits → List (BitVec 8)
  | 0, _ => []
  | _ + 1, [] => []
  | n + 1, b :: bs =>
    BitVec.ofNat 8 (val ((b :: bs).take 8 ++ List.replicate (8 - (b :: bs).length) false)) ::
      packBytes n ((b :: bs).drop 8)

/-- The reference transport's reading side (R60): each byte's bits from bit 7 down. -/
def unpackBytes : List (BitVec 8) → Bits
  | [] => []
  | v :: vs => bits 8 v.toNat ++ unpackBytes vs

/-- What the reference transport has delivered once `OUT` is closed (R60, R65). -/
def Out.delivered (o : Out) : Option (List (BitVec 8)) :=
  if o.closed then some (packBytes o.bits.length o.bits) else none

end Sys2Proof.Machine
end

