-- ==== Sys2Proof/Machine/Ops.lean ====
section
/-! DEFINITION. The operations the commands share: node allocation (R26), the faults and their one entry (60_exceptions.md
R200, R215), acceptance (R80), completion, CLEAR, reset, the output ports (R230), and how one unit of work ends. -/

namespace Sys2Proof.Machine

open Sys2Proof

/-- The value a fault writes to `ERR` (R200). -/
def Cause.code : Cause → BitVec 4
  | .format => 1
  | .truncation => 2
  | .corruption => 3
  | .missingCode => 4
  | .emptyCode => 5
  | .counterOverflow => 6
  | .symbolRange => 7
  | .nodeCapacity => 8
  | .emptyTable => 9
  | .sequence => 10
  | .illegalCommand => 11

/-- `alloc(rec)` (R26): the index of the new entry and the state with it, or `none` where it raises
`NodeCapacityFault` and writes nothing. -/
def State.alloc (p : Params) (n : Node) (s : State) : Option (Idx × State) :=
  if h : s.nnodes.val < 513 ∧ s.nnodes.val ≠ p.nodeCap then
    some (⟨s.nnodes.val, h.1⟩,
      { s with node := s.node.set s.nnodes.val n h.1, nnodes := ⟨s.nnodes.val + 1, by omega⟩ })
  else none

/-- The working stores of a command are empty outside it (R30, R31, R35). -/
def State.emptyWork (s : State) : State := { s with pq := [], walk := [], pending := [], todo := [] }

/-- `raise F` (R215): the cause is recorded, `OUT` is closed unless the block has closed it, the command
ends. The valid flags, the tables and the transports keep what they held (R216, R222). -/
def State.raise (c : Cause) (s : State) : State :=
  let s1 := { s with err := c.code }
  let s2 := if s1.flag .outClosed then s1 else s1.closeOutput
  { ((s2.setFlag .busy false).setFlag .done false).setFlag .fault true with phase := .fault }.emptyWork

/-- Acceptance of a command (R80). -/
def State.accept (op : BitVec 4) (s : State) : State :=
  { (s.setFlag .busy true).setFlag .done false with op := op, phase := .busy }

/-- Completion: `DONE <- 1 ; BUSY <- 0 ; PHASE <- IDLE`, the end of every command's pseudocode. -/
def State.finish (s : State) : State :=
  { (s.setFlag .done true).setFlag .busy false with phase := .idle }.emptyWork

/-- Acceptance of CLEAR, in `IDLE` (R80) or in `FAULT` (R193, R217). From `FAULT` it ends the fault state at once: `ERR` and
the flag `FAULT` become 0 together with `PHASE`, so that they agree while CLEAR runs as R23 and R236 say; its pseudocode
would clear them in the same run. (DESIGN CHOICE, Assumption 19.) -/
def State.acceptClear (s : State) : State := { (s.accept 0xD).setFlag .fault false with err := 0, todo := [.clearAll] }

/-- The pseudocode of CLEAR (R193, R35). -/
def State.clearBlock (s : State) : State :=
  { s with err := 0, status := 0, nnodes := 0, op := 0xD, phase := .idle }.emptyWork.setFlag .done true

/-- The implicit clear (R192). -/
def State.implicitClear (s : State) : State :=
  { s.lower [.freqValid, .treeValid, .codeValid, .outClosed] with nnodes := 0 }

/-- `rst` asserted (R230, R232): the block takes the values of `State.reset`; the transports and the host keep theirs,
and a command in progress is abandoned without `OUT.close()`. -/
def State.afterRst (s : State) : State := { State.reset with inp := s.inp, out := s.out, host := s.host, rst := true }

/-- The host drives `rst` (R230). At its release the block is in the reset state, having been held there. -/
def State.driveRst (on : Bool) (s : State) : State := if on then s.afterRst else { s with rst := false }

/-- The host closes the output attached (R230, R236). The block does not see it (R239). -/
def State.closeByHost (s : State) : State := { s with out := { s.out with closed := true } }

/-- The host attaches an input (R233); the position is at most the length of the content (R50). -/
def State.attachIn (data : Bits) (pos : Nat) (s : State) : State :=
  { s with inp := { data := data, pos := min pos data.length } }

/-- The host attaches a fresh output (R239): open and empty. -/
def State.attachOut (s : State) : State := { s with out := { bits := [], closed := false } }

/-- Port `cmd_ready` (R230). -/
def State.cmdReady (s : State) : Bool := decide (s.phase = .idle)

/-- Port `status` (R230). -/
def State.statusPort (s : State) : BitVec 8 := s.status

/-- Port `err` (R230). -/
def State.errPort (s : State) : BitVec 4 := s.err

/-- Port `op` (R230). -/
def State.opPort (s : State) : BitVec 4 := s.op

/-- How one unit of work of a running command ends: in the same part of the pseudocode, past it, in a part that comes
first, in a part that replaces it, with the command ended (CLEAR's last statement, or a fault's entry), in `raise c`, or
in a stop of the model. The state is the one right after the unit's last statement (R222). -/
inductive Turn where
  | again (s : State)
  | leave (s : State)
  | first (st : Stage) (s : State)
  | instead (st : Stage) (s : State)
  | ended (s : State)
  | raise (c : Cause) (s : State)
  | stop (f : Fault)
  deriving DecidableEq, Repr

/-- A turn that would stay in its part goes back to part `st`. -/
def Turn.backTo (st : Stage) : Turn → Turn
  | .again s => .instead st s
  | .leave s => .leave s
  | .first st' s => .first st' s
  | .instead st' s => .instead st' s
  | .ended s => .ended s
  | .raise c s => .raise c s
  | .stop f => .stop f

/-- A unit's end as the outcome of a step: the part left is taken off `todo`, and after a raise nothing is left to do
but the fault's entry, whose `OUT.close()` is a transport call of its own (R215). -/
def Turn.settle : Turn → Host.Outcome State Fault Refusal
  | .again s => .next s
  | .leave s => .next { s with todo := s.todo.tail }
  | .first st s => .next { s with todo := st :: s.todo }
  | .instead st s => .next { s with todo := st :: s.todo.tail }
  | .ended s => .next s
  | .raise c s => .next { s with todo := [.raise c] }
  | .stop f => .fault f

/-- The same end, a fault being entered at once: what a whole stream unit leads to. -/
def Turn.settleWhole : Turn → Host.Outcome State Fault Refusal
  | .raise c s => .next (s.raise c)
  | T => T.settle

/-- The part of the pseudocode in which a running command stands. -/
def State.running (s : State) : Option Stage :=
  if s.phase = .busy then s.todo.head? else none

end Sys2Proof.Machine
end

