-- ==== Sys2Proof/Machine/Builder.lean ====
section
/-! DEFINITION. TreeBuilder: the parts of BUILD's body (41_tree_builder.md). -/

namespace Sys2Proof.Machine

open Sys2Proof

/-- `i` comes out of the queue before `j`: the pair (weight, index) is less (R121). -/
def before (s : State) (i j : Idx) : Bool :=
  decide (s.weightOf i < s.weightOf j) || (decide (s.weightOf i = s.weightOf j) && decide (i < j))

/-- The member of `m :: l` that comes out first. -/
def least (s : State) (m : Idx) : List Idx → Idx
  | [] => m
  | i :: l => least s (if before s i m then i else m) l

/-- `removeMin(PQ)` (R121): the member that comes out first and the queue without it. -/
def removeMin (s : State) : List Idx → Option (Idx × List Idx)
  | [] => none
  | i :: l => some (least s i l, (i :: l).erase (least s i l))

/-- A leaf for every symbol of the list with a positive count, in the order of the list (R122). -/
def buildLeavesFrom (p : Params) : List Sym → State → Turn
  | [], s => .leave s
  | v :: vs, s =>
    if s.freq[v] = 0 then buildLeavesFrom p vs s
    else
      match s.alloc p (.leaf v (s.freq[v].setWidth 41)) with
      | some (i, s') => buildLeavesFrom p vs { s' with pq := s'.pq ++ [i] }
      | none => .raise .nodeCapacity s

/-- `NNODES <- 0 ; PQ <- {}` and the leaves, in ascending order of symbol (R120, R122). -/
def buildLeaves (p : Params) (s : State) : Turn :=
  buildLeavesFrom p (List.finRange 257) { s with nnodes := 0, pq := [] }

/-- The symbol of the filler leaf beside the real leaf's symbol `v` (R125). -/
def fillerSym (v : Sym) : Sym := if v = 0 then 1 else 0

/-- The symbol field of a node, 0 for an internal one; asked only of leaves. -/
def Node.symOr0 : Node → Sym
  | .leaf v _ => v
  | .internal _ _ _ => 0

/-- The empty table (R126) and the single leaf (R125); otherwise nothing. -/
def buildFew (p : Params) (s : State) : Turn :=
  match s.pq with
  | [] => .raise .emptyTable s
  | [a] =>
    match s.alloc p (.leaf (fillerSym s.node[a].symOr0) 0) with
    | none => .raise .nodeCapacity s
    | some (f, s1) =>
      match s1.alloc p (.internal a f (s1.weightOf a)) with
      | none => .raise .nodeCapacity s1
      | some (r, s2) => .leave { s2 with pq := [r] }
  | _ => .leave s

/-- One merge while two nodes are left (R123); with one left it is the root, and the queue ends empty (R120, R30). -/
def buildMerge (p : Params) (s : State) : Turn :=
  match removeMin s s.pq with
  | none => .raise .emptyTable s
  | some (a, q) =>
    match removeMin s q with
    | none => .leave ({ s with root := a, pq := [] }.setFlag .treeValid true)
    | some (b, q') =>
      match s.alloc p (.internal a b (s.weightOf a + s.weightOf b)) with
      | none => .raise .nodeCapacity { s with pq := q' }
      | some (r, s') => .again { s' with pq := q' ++ [r] }

end Sys2Proof.Machine
end

