-- ==== Sys2Proof/Machine/CodeGen.lean ====
section
/-! DEFINITION. CodeTableGenerator: the parts of GENERATE's body (42_code_table_generator.md). -/

namespace Sys2Proof.Machine

open Sys2Proof

/-- `for s = 0 to 256: CODE[s] <- ""`; a root that is a leaf raises `EmptyCodeFault` (R140, R143). -/
def genStart (s : State) : Turn :=
  let s1 := { s with code := Vector.replicate 257 [] }
  match s1.node[s1.root] with
  | .leaf _ _ => .raise .emptyCode s1
  | .internal _ _ _ => .leave { s1 with walk := [(s1.root, [])] }

/-- One node of the walk, preorder, left before right (R140, R141): a leaf's path becomes its symbol's code, the last
write staying (R142). With nothing left to visit the table is valid. -/
def genWalk (s : State) : Turn :=
  match s.walk with
  | [] => .leave (s.setFlag .codeValid true)
  | (i, path) :: rest =>
    match s.node[i] with
    | .leaf v _ =>
      if path.length ≤ 256 then .again ({ s with walk := rest }.setCode v path) else .stop .codeTooLong
    | .internal l r _ => .again { s with walk := (l, path ++ [false]) :: (r, path ++ [true]) :: rest }

end Sys2Proof.Machine
end

