-- ==== Sys2Proof/Machine/Composite.lean ====
section
/-! DEFINITION. The parts of COMPRESS and DECOMPRESS that are no body of another command (46_composite.md). -/

namespace Sys2Proof.Machine

open Sys2Proof

/-- The implicit clear (R192). -/
def clearForRun (s : State) : Turn := .leave s.implicitClear

/-- `FREQ_VALID <- 0 ; TREE_VALID <- 0 ; CODE_VALID <- 0` (R190). -/
def discardAll (s : State) : Turn := .leave (s.lower [.freqValid, .treeValid, .codeValid])

/-- `TREE_VALID <- 0` (R191). -/
def discardTree (s : State) : Turn := .leave (s.lower [.treeValid])

end Sys2Proof.Machine
end

