-- ==== Sys2Proof/Machine/Counter.lean ====
section
/-! DEFINITION. FrequencyCounter: the parts of COUNT's body (40_frequency_counter.md). -/

namespace Sys2Proof.Machine

open Sys2Proof

/-- `for s = 0 to 256: FREQ[s] <- 0` (R110). -/
def countClear (s : State) : Turn := .leave { s with freq := Vector.replicate 257 0 }

/-- One literal counted, or `CounterOverflowFault` before an increment that would wrap (R110, R111). -/
def countLiteral (p : Params) (v : BitVec 8) (s : State) : Turn :=
  if s.freq[literalSym v].toNat = 2 ^ p.wCnt - 1 then .raise .counterOverflow s
  else .again (s.setFreq (literalSym v) (s.freq[literalSym v] + 1))

/-- One iteration of COUNT's loop (R110). -/
def countLoop (p : Params) (s : State) : Turn :=
  match s.readBits 8 with
  | (none, s') => .leave s'
  | (some v, s') => countLiteral p v s'

/-- `FREQ[256] <- 1` and `FREQ_VALID <- 1` (R110, R112). -/
def countSeal (s : State) : Turn := .leave ((s.setFreq sentinel 1).setFlag .freqValid true)

end Sys2Proof.Machine
end

