-- ==== Sys2Proof/Machine/Decoder.lean ====
section
/-! DEFINITION. Decoder: the parts of DECODE's body (45_decoder.md). -/

namespace Sys2Proof.Machine

open Sys2Proof

/-- `CUR <- ROOT` (R180). -/
def decStart (s : State) : Turn := .leave { s with cur := s.root }

/-- The byte of a leaf written, and the return to the root (R182). -/
def decByte (v : Sym) (s : State) : State := { s.writeBits 8 v.val with cur := s.root }

/-- One iteration of DECODE's loop on a bit already read (R180): the missing child (R183), the move (R181), the
arrival at a leaf (R182), where `byte` says what follows at the leaf of a byte. -/
def decMove (byte : Sym → State → Turn) (b : Bool) (s : State) : Turn :=
  match s.node[s.cur] with
  | .leaf _ _ => .raise .corruption s
  | .internal l r _ =>
    let s1 := { s with cur := if b then r else l }
    match s1.node[s1.cur] with
    | .internal _ _ _ => .again s1
    | .leaf v _ => if v = sentinel then .leave s1 else byte v s1

/-- One iteration of DECODE's loop (R180): the read comes first, and `EOS` is a truncation (R183). A byte's write is the
next unit. -/
def decLoop (s : State) : Turn :=
  match s.readBits 1 with
  | (none, s') => .raise .truncation s'
  | (some b, s') => decMove (fun v s1 => .first (.decEmit v) s1) (b == 1#1) s'

/-- `OUT.writeBits(8, NODE[CUR].sym) ; CUR <- ROOT` (R180). -/
def decEmit (v : Sym) (s : State) : Turn := .leave (decByte v s)

/-- One iteration on a bit already read, the byte of a leaf written at once. -/
def decBit (b : Bool) (s : State) : Turn := decMove (fun v s1 => .again (decByte v s1)) b s

/-- DECODE's iterations on several bits, until one of them leaves the loop. -/
def decBits : Bits → State → Turn
  | [], s => .again s
  | b :: bs, s =>
    match decBit b s with
    | .again s' => decBits bs s'
    | T => T

end Sys2Proof.Machine
end

