-- ==== Sys2Proof/Machine/Encoder.lean ====
section
/-! DEFINITION. Encoder: the parts of the bodies of ENCODE and CLOSE (44_encoder.md). -/

namespace Sys2Proof.Machine

open Sys2Proof

/-- `IN.rewind()` (R170). -/
def encRewind (s : State) : Turn := .leave s.rewind

/-- The look-up of `emit(v)` (R170): what is done with the code, or `MissingCodeFault` where there is none (R171). -/
def withCode (v : Sym) (use : Bits → Turn) (s : State) : Turn :=
  if s.code[v] = [] then .raise .missingCode s else use s.code[v]

/-- The bits of a code, first path bit first, one `writeBits` each (R170, R172). -/
def encEmit (c : Bits) (s : State) : Turn :=
  match c with
  | [] => .leave s
  | b :: bs => .instead (.encEmit bs) (s.writeSeq [b])

/-- One literal encoded, all its bits at once (R170, R171). -/
def encLiteral (v : BitVec 8) (s : State) : Turn := withCode (literalSym v) (fun c => .again (s.writeSeq c)) s

/-- One iteration of ENCODE's loop: the read and the look-up (R170). -/
def encLoop (s : State) : Turn :=
  match s.readBits 8 with
  | (none, s') => .leave s'
  | (some v, s') => withCode (literalSym v) (fun c => .first (.encEmit c) s') s'

/-- `emit(256)` (R170). -/
def encSentinel (s : State) : Turn := withCode sentinel (fun c => .instead (.encEmit c) s) s

/-- `OUT.close() ; OUT_CLOSED <- 1` (R173, and the end of R190 and R191). -/
def closeOut (s : State) : Turn := .leave s.closeOutput

end Sys2Proof.Machine
end

