-- ==== Sys2Proof/Machine/Header.lean ====
section
/-! DEFINITION. HeaderCodec: the parts of the bodies of WRMAGIC, SERIALIZE, RDMAGIC and DESERIALIZE
(43_header_codec.md). -/

namespace Sys2Proof.Machine

open Sys2Proof

/-- `OUT.writeBits(32, MAGIC)` (R150). -/
def wrMagic (p : Params) (s : State) : Turn := .leave (s.writeBits 32 p.magic.toNat)

/-- SERIALIZE starts at the root (R151). -/
def serStart (s : State) : Turn := .leave { s with walk := [(s.root, [])] }

/-- One node of SERIALIZE's preorder walk: its tag (R151). -/
def serWalk (s : State) : Turn :=
  match s.walk with
  | [] => .leave s
  | (i, _) :: rest =>
    match s.node[i] with
    | .leaf v _ => .first (.serField v) ({ s with walk := rest }.writeBits 1 1)
    | .internal l r _ => .again ({ s with walk := (l, []) :: (r, []) :: rest }.writeBits 1 0)

/-- The symbol field of a leaf (R151). -/
def serField (v : Sym) (s : State) : Turn := .leave (s.writeBits 9 v.val)

/-- The check of a 32-bit value against `MAGIC` (R152). -/
def checkMagic (p : Params) (m : BitVec 32) (s : State) : Turn :=
  if m = p.magic then .leave s else .raise .format s

/-- RDMAGIC (R152): `EOS` is a value other than `MAGIC`. -/
def rdMagic (p : Params) (s : State) : Turn :=
  match s.readBits 32 with
  | (none, s') => .raise .format s'
  | (some m, s') => checkMagic p m s'

/-- `NNODES <- 0` (R153); the stack of the reader starts empty (R31). -/
def desStart (s : State) : Turn := .leave { s with nnodes := 0, pending := [] }

/-- Subtree `i` is complete: it is the tree, or the left child of the innermost open internal node, or its right child,
and then that node is allocated, after its children, and is complete in turn (R153, R155). -/
def attach (p : Params) : Idx → List Pending → State → Turn
  | i, [], s => .leave ({ s with root := i, pending := [] }.setFlag .treeValid true)
  | i, .left :: st, s => .again { s with pending := .right i :: st }
  | i, .right l :: st, s =>
    match s.alloc p (.internal l i 0) with
    | none => .raise .nodeCapacity { s with pending := st }
    | some (j, s') => attach p j st s'

/-- The internal arm (R155): its two subtrees are read first. -/
def desInternal (s : State) : Turn := .again { s with pending := .left :: s.pending }

/-- The leaf arm on its 9-bit field (R154): the range check, then `alloc`. -/
def desLeaf (p : Params) (f : BitVec 9) (s : State) : Turn :=
  if h : f.toNat ≤ 256 then
    match s.alloc p (.leaf ⟨f.toNat, by omega⟩ 0) with
    | none => .raise .nodeCapacity s
    | some (i, s') => attach p i s'.pending s'
  else .raise .symbolRange s

/-- The tag of one token of the header (R153). -/
def desLoop (s : State) : Turn :=
  match s.readBits 1 with
  | (none, s') => .raise .truncation s'
  | (some t, s') =>
    if t = 1#1 then .instead .desField s' else desInternal s'

/-- The field of a leaf token whose tag has been read (R154); then the next token. -/
def desField (p : Params) (s : State) : Turn :=
  match s.readBits 9 with
  | (none, s') => .raise .truncation s'
  | (some f, s') => (desLeaf p f s').backTo .desLoop

end Sys2Proof.Machine
end

