-- ==== Sys2Proof/Machine/Run.lean ====
section
/-! DEFINITION. How a command runs: what each one clears and needs at acceptance (R23, R210), the parts of its
pseudocode in their order, one unit of work, and the run to its end (R22, R231). -/

namespace Sys2Proof.Machine

open Sys2Proof

/-- What distinguishes one command from another. -/
structure Command where
  /-- Its code (R81). -/
  op : BitVec 4
  /-- The flags it clears on acceptance (R23). -/
  clears : List Flag
  /-- The flags it needs, each with the value needed (R210). -/
  needs : List (Flag × Bool)
  /-- The parts of its pseudocode, in order. -/
  parts : List Stage
  deriving DecidableEq, Repr

/-- COUNT (R110). -/
def Command.count : Command where
  op := 0x1
  clears := [.freqValid, .treeValid, .codeValid]
  needs := []
  parts := [.countClear, .countLoop, .countSeal]

/-- BUILD (R120). -/
def Command.build : Command where
  op := 0x2
  clears := [.treeValid, .codeValid]
  needs := [(.freqValid, true)]
  parts := [.buildLeaves, .buildFew, .buildMerge]

/-- GENERATE (R140). -/
def Command.generate : Command where
  op := 0x3
  clears := [.codeValid]
  needs := [(.treeValid, true)]
  parts := [.genStart, .genWalk]

/-- WRMAGIC (R150). -/
def Command.wrmagic : Command where
  op := 0x4
  clears := []
  needs := [(.outClosed, false)]
  parts := [.wrMagic]

/-- SERIALIZE (R151). -/
def Command.serialize : Command where
  op := 0x5
  clears := []
  needs := [(.treeValid, true), (.outClosed, false)]
  parts := [.serStart, .serWalk]

/-- ENCODE (R170). -/
def Command.encode : Command where
  op := 0x6
  clears := []
  needs := [(.codeValid, true), (.outClosed, false)]
  parts := [.encRewind, .encLoop, .encSentinel]

/-- CLOSE (R173). -/
def Command.close : Command where
  op := 0x7
  clears := []
  needs := [(.outClosed, false)]
  parts := [.closeOut]

/-- RDMAGIC (R152). -/
def Command.rdmagic : Command where
  op := 0x8
  clears := []
  needs := []
  parts := [.rdMagic]

/-- DESERIALIZE (R153). -/
def Command.deserialize : Command where
  op := 0x9
  clears := [.treeValid, .codeValid]
  needs := []
  parts := [.desStart, .desLoop]

/-- DECODE (R180). -/
def Command.decode : Command where
  op := 0xA
  clears := []
  needs := [(.treeValid, true), (.outClosed, false)]
  parts := [.decStart, .decLoop]

/-- COMPRESS (R190): the bodies of the compression flow between the implicit clear and the close and discard. -/
def Command.compress : Command where
  op := 0xB
  clears := []
  needs := []
  parts := [.implicitClear] ++ Command.count.parts ++ Command.build.parts ++ Command.generate.parts ++
    Command.wrmagic.parts ++ Command.serialize.parts ++ Command.encode.parts ++ [.closeOut, .discardAll]

/-- DECOMPRESS (R191): the bodies of the decompression flow between the implicit clear and the close and discard. -/
def Command.decompress : Command where
  op := 0xC
  clears := []
  needs := []
  parts := [.implicitClear] ++ Command.rdmagic.parts ++ Command.deserialize.parts ++ Command.decode.parts ++
    [.closeOut, .discardTree]

/-- Every flag a command needs has the value it needs (R24, R210). -/
def State.meets (s : State) (needs : List (Flag × Bool)) : Bool := needs.all fun n => s.flag n.1 == n.2

/-- The acceptance of a command presented in `IDLE` (R80), its flag clears (R23) and its precondition, whose failure
raises `SequenceFault` (R210). In `BUSY` and in `FAULT` the command has no effect (R217, R240). -/
def Command.issue (c : Command) (s : State) : State :=
  if s.phase = .idle then
    let s1 := (s.accept c.op).lower c.clears
    { s1 with todo := if s1.meets c.needs then c.parts else [.raise .sequence] }
  else s

/-- A reserved code presented in `IDLE`: `OP` records it, and `IllegalCommandFault` is raised (R90, R211). -/
def issueReserved (op : BitVec 4) (s : State) : State :=
  if s.phase = .idle then { s.accept op with todo := [.raise .illegalCommand] } else s

/-- A reserved code presented in `IDLE`, with the entry of its fault (R211, R215). -/
def runReserved (op : BitVec 4) (s : State) : State :=
  if s.phase = .idle then (s.accept op).raise .illegalCommand else s

/-- CLEAR presented: accepted in `IDLE` and in `FAULT`, and then `BUSY` (R193, R217, R231). -/
def issueClear (s : State) : State := if s.phase = .busy then s else s.acceptClear

/-- CLEAR presented, with its run to the end (R193). -/
def runClear (s : State) : State := if s.phase = .busy then s else s.acceptClear.clearBlock

/-- One unit of work in one part of the pseudocode. -/
def turn (p : Params) : Stage → State → Turn
  | .countClear, s => countClear s
  | .countLoop, s => countLoop p s
  | .countSeal, s => countSeal s
  | .buildLeaves, s => buildLeaves p s
  | .buildFew, s => buildFew p s
  | .buildMerge, s => buildMerge p s
  | .genStart, s => genStart s
  | .genWalk, s => genWalk s
  | .wrMagic, s => wrMagic p s
  | .serStart, s => serStart s
  | .serWalk, s => serWalk s
  | .serField v, s => serField v s
  | .encRewind, s => encRewind s
  | .encLoop, s => encLoop s
  | .encSentinel, s => encSentinel s
  | .encEmit c, s => encEmit c s
  | .rdMagic, s => rdMagic p s
  | .desStart, s => desStart s
  | .desLoop, s => desLoop s
  | .desField, s => desField p s
  | .decStart, s => decStart s
  | .decLoop, s => decLoop s
  | .decEmit v, s => decEmit v s
  | .closeOut, s => closeOut s
  | .implicitClear, s => clearForRun s
  | .discardAll, s => discardAll s
  | .discardTree, s => discardTree s
  | .clearAll, s => .ended s.clearBlock
  | .raise c, s => .ended (s.raise c)

/-- One unit of work of the running command; with no part left it completes. -/
def unit (p : Params) (s : State) : Host.Outcome State Fault Refusal :=
  match s.todo with
  | [] => .next s.finish
  | st :: _ => (turn p st s).settle

/-- Units of work until `PHASE` ≠ `BUSY` (R231), at most `n` of them. -/
def runBusy (p : Params) : Nat → State → Host.Outcome State Fault Refusal
  | 0, _ => .fault .endlessRun
  | n + 1, s =>
    match unit p s with
    | .next s' => if s'.phase = .busy then runBusy p n s' else .next s'
    | .fault f => .fault f
    | .refused r => .refused r

/-- The length of the longest code that ENCODE may meet: those in the table now, or, after GENERATE, `MAXLEN` = 256
(R28). -/
def State.longestCode (s : State) : Nat := s.code.toList.foldl (fun m c => max m c.length) 256

/-- A bound on the units of work of any command on a tree that R27 allows: the walks visit at most 513 nodes, BUILD
merges at most 256 times, DECODE and DESERIALIZE take at most two units for a bit of `IN`, and ENCODE a few more than a
code's bits for every byte and for the sentinel (R244). -/
def fuel (s : State) : Nat := (s.inp.data.length + 1) * (s.longestCode + 4) + 4096

/-- A command presented and run to its end (R231). -/
def Command.run (p : Params) (c : Command) (s : State) : Host.Outcome State Fault Refusal :=
  if s.phase = .idle then runBusy p (fuel s) (c.issue s) else .next s

end Sys2Proof.Machine
end

