-- ==== Sys2Proof/Machine/Commands.lean ====
section
/-! DEFINITION. The meanings of the sixteen command codes (30_encoding.md R81): each presented in the state's phase and, where
it is accepted, run to its end. -/

namespace Sys2Proof.Machine

open Sys2Proof

/-- RESERVED_0 (R90, R211). -/
def execReserved0 (s : State) : Host.Outcome State Fault Refusal := .next (runReserved 0x0 s)

/-- COUNT (R110). -/
def execCount (s : State) : Host.Outcome State Fault Refusal := Command.count.run Config.params s

/-- BUILD (R120). -/
def execBuild (s : State) : Host.Outcome State Fault Refusal := Command.build.run Config.params s

/-- GENERATE (R140). -/
def execGenerate (s : State) : Host.Outcome State Fault Refusal := Command.generate.run Config.params s

/-- WRMAGIC (R150). -/
def execWrmagic (s : State) : Host.Outcome State Fault Refusal := Command.wrmagic.run Config.params s

/-- SERIALIZE (R151). -/
def execSerialize (s : State) : Host.Outcome State Fault Refusal := Command.serialize.run Config.params s

/-- ENCODE (R170). -/
def execEncode (s : State) : Host.Outcome State Fault Refusal := Command.encode.run Config.params s

/-- CLOSE (R173). -/
def execClose (s : State) : Host.Outcome State Fault Refusal := Command.close.run Config.params s

/-- RDMAGIC (R152). -/
def execRdmagic (s : State) : Host.Outcome State Fault Refusal := Command.rdmagic.run Config.params s

/-- DESERIALIZE (R153). -/
def execDeserialize (s : State) : Host.Outcome State Fault Refusal := Command.deserialize.run Config.params s

/-- DECODE (R180). -/
def execDecode (s : State) : Host.Outcome State Fault Refusal := Command.decode.run Config.params s

/-- COMPRESS (R190). -/
def execCompress (s : State) : Host.Outcome State Fault Refusal := Command.compress.run Config.params s

/-- DECOMPRESS (R191). -/
def execDecompress (s : State) : Host.Outcome State Fault Refusal := Command.decompress.run Config.params s

/-- CLEAR (R193). -/
def execClear (s : State) : Host.Outcome State Fault Refusal := .next (runClear s)

/-- RESERVED_E (R90, R211). -/
def execReservedE (s : State) : Host.Outcome State Fault Refusal := .next (runReserved 0xE s)

/-- RESERVED_F (R90, R211). -/
def execReservedF (s : State) : Host.Outcome State Fault Refusal := .next (runReserved 0xF s)

/-- A command presented, with only its acceptance done (R80, R231). A stream unit is no command. -/
def issueInstr (i : Instr) (s : State) : State :=
  match i with
  | .reserved0 => issueReserved 0x0 s
  | .count => Command.count.issue s
  | .build => Command.build.issue s
  | .generate => Command.generate.issue s
  | .wrmagic => Command.wrmagic.issue s
  | .serialize => Command.serialize.issue s
  | .encode => Command.encode.issue s
  | .close => Command.close.issue s
  | .rdmagic => Command.rdmagic.issue s
  | .deserialize => Command.deserialize.issue s
  | .decode => Command.decode.issue s
  | .compress => Command.compress.issue s
  | .decompress => Command.decompress.issue s
  | .clear => issueClear s
  | .reservedE => issueReserved 0xE s
  | .reservedF => issueReserved 0xF s
  | .magic _ => s
  | .hdrInternal => s
  | .hdrLeaf _ => s
  | .bodyCode _ => s
  | .literal8 _ => s

end Sys2Proof.Machine
end

