-- ==== Sys2Proof/Machine/StreamUnits.lean ====
section
/-! DEFINITION. The meanings of the five stream rows of the opcode table: what the running command does with the whole unit it has
just taken from `IN` (20_memory.md R55), a fault it raises included. In a state in which no command stands at a read of such a unit it has no
effect (Assumption 6). -/

namespace Sys2Proof.Machine

open Sys2Proof

/-- MAGIC: the 32-bit value RDMAGIC has read (R84, R152). -/
def execMagic (m : BitVec 32) (s : State) : Host.Outcome State Fault Refusal :=
  match s.running with
  | some .rdMagic => (checkMagic Config.params m s).settleWhole
  | _ => .next s

/-- HDR_INTERNAL: the token DESERIALIZE has read (R85, R155). -/
def execHdrInternal (s : State) : Host.Outcome State Fault Refusal :=
  match s.running with
  | some .desLoop => (desInternal s).settleWhole
  | _ => .next s

/-- HDR_LEAF: the token DESERIALIZE has read (R85, R154). -/
def execHdrLeaf (f : BitVec 9) (s : State) : Host.Outcome State Fault Refusal :=
  match s.running with
  | some .desLoop => (desLeaf Config.params f s).settleWhole
  | _ => .next s

/-- BODY_CODE: the bits of one code, which DECODE has read from the tree's root on (R87, R181, R182). -/
def execBodyCode (c : Bits) (s : State) : Host.Outcome State Fault Refusal :=
  match s.running with
  | some .decLoop => (decBits c s).settleWhole
  | _ => .next s

/-- LITERAL8: the byte COUNT or ENCODE has read (R88, R110, R170). -/
def execLiteral8 (v : BitVec 8) (s : State) : Host.Outcome State Fault Refusal :=
  match s.running with
  | some .countLoop => (countLiteral Config.params v s).settleWhole
  | some .encLoop => (encLiteral v s).settleWhole
  | _ => .next s

end Sys2Proof.Machine
end

