-- ==== Sys2Proof/Machine/Dispatch.lean ====
section
/-! DEFINITION. One arm per row of spec/opcode_table.json: each a direct call of its meaning. -/

namespace Sys2Proof.Machine

open Sys2Proof

def exec (i : Instr) (s : State) : Host.Outcome State Fault Refusal :=
  match i with
  | .reserved0 => Sys2Proof.Machine.execReserved0 s
  | .count => Sys2Proof.Machine.execCount s
  | .build => Sys2Proof.Machine.execBuild s
  | .generate => Sys2Proof.Machine.execGenerate s
  | .wrmagic => Sys2Proof.Machine.execWrmagic s
  | .serialize => Sys2Proof.Machine.execSerialize s
  | .encode => Sys2Proof.Machine.execEncode s
  | .close => Sys2Proof.Machine.execClose s
  | .rdmagic => Sys2Proof.Machine.execRdmagic s
  | .deserialize => Sys2Proof.Machine.execDeserialize s
  | .decode => Sys2Proof.Machine.execDecode s
  | .compress => Sys2Proof.Machine.execCompress s
  | .decompress => Sys2Proof.Machine.execDecompress s
  | .clear => Sys2Proof.Machine.execClear s
  | .reservedE => Sys2Proof.Machine.execReservedE s
  | .reservedF => Sys2Proof.Machine.execReservedF s
  | .magic m => Sys2Proof.Machine.execMagic m s
  | .hdrInternal => Sys2Proof.Machine.execHdrInternal s
  | .hdrLeaf f => Sys2Proof.Machine.execHdrLeaf f s
  | .bodyCode c => Sys2Proof.Machine.execBodyCode c s
  | .literal8 v => Sys2Proof.Machine.execLiteral8 v s

end Sys2Proof.Machine
end

