-- ==== Sys2Proof/Machine/Fetch.lean ====
section
/-! DEFINITION. Where the next instruction comes from: the stream unit at `IN`'s position, in the space that the
running command's part reads (R55, R89), and how a word of the opcode table is put there or on the command port. -/

namespace Sys2Proof.Machine

open Sys2Proof

/-- The bits that lead from node `i` down to the first leaf, if `bs` holds them all (R89, R181). -/
def codeAhead (s : State) : Idx → Bits → Option Bits
  | _, [] => none
  | i, b :: bs =>
    match s.node[i] with
    | .leaf _ _ => none
    | .internal l r _ =>
      match s.node[if b then r else l] with
      | .leaf _ _ => some [b]
      | .internal _ _ _ => (codeAhead s (if b then r else l) bs).map (b :: ·)

/-- The space of the stream unit the running command reads next; none where it reads none. -/
def State.readSpace (s : State) : Option Space :=
  match s.running with
  | some .countLoop => some .literal
  | some .encLoop => some .literal
  | some .rdMagic => some .magic
  | some .desLoop => some .header
  | some .decLoop => (codeAhead s s.cur s.inp.rest).map fun c => .body c.length
  | _ => none

/-- The stream unit at `IN`'s position and the state with `IN` past it; none where no whole unit is there to read. -/
def State.fetch (s : State) : Option (Instr × State) :=
  match s.readSpace with
  | none => none
  | some sp =>
    match decode sp s.inp.rest with
    | .ok (i, rest) => some (i, { s with inp := { s.inp with pos := s.inp.data.length - rest.length } })
    | .error _ => none

/-- A command code on the port, before all else the host does, with `rst` released. -/
def State.putCommand (op : BitVec 4) (s : State) : State := { s with host := .present op :: s.host, rst := false }

/-- A running command, standing at the given parts of its pseudocode, with `bs` as the content of `IN`, and a host that
leaves the block alone for one unit. -/
def State.putStream (op : BitVec 4) (parts : List Stage) (bs : Bits) (s : State) : State :=
  { s.accept op with todo := parts, inp := { data := bs, pos := 0 }, host := .wait :: s.host }

/-- A node store whose chain of internal nodes at the even indices follows the code `c` from node 0 down to a leaf;
every other entry is a leaf of symbol 0. -/
def chainStore (c : Bits) : Vector Node 513 :=
  Vector.ofFn fun i =>
    if i.val % 2 = 0 then
      match (c.drop (i.val / 2)).head? with
      | none => .leaf 0 0
      | some b =>
        let next : Idx := Fin.ofNat 513 (i.val + 2)
        let side : Idx := Fin.ofNat 513 (i.val + 1)
        if b then .internal side next 0 else .internal next side 0
    else .leaf 0 0

/-- The state with the instruction whose bits are `bs` in space `sp` placed where the next step takes it: a command on
the port; a stream unit on `IN`, with the command that reads it running (a body code also with a tree it leads
through). (Assumption 13.) -/
def State.place (sp : Space) (bs : Bits) (s : State) : State :=
  match sp with
  | .command => s.putCommand (BitVec.ofNat 4 (val bs))
  | .magic => s.putStream 0x8 [.rdMagic] bs
  | .header => { s.putStream 0x9 [.desLoop] bs with pending := [] }
  | .body _ => { s.putStream 0xA [.decLoop] bs with node := chainStore bs, root := 0, cur := 0 }
  | .literal => s.putStream 0x1 [.countLoop, .countSeal] bs

end Sys2Proof.Machine
end

