-- ==== Sys2Proof/Machine/Step.lean ====
section
/-! DEFINITION. One step: what the host does next at the ports, or, when it does nothing, the next stream unit or unit of
the running command's work. -/

namespace Sys2Proof.Machine

open Sys2Proof

/-- The block left alone: while `BUSY` it takes the stream unit at `IN` and executes it, or does the next unit of work that
reads none; otherwise it waits (R22, R57, R232). -/
def work (s : State) : Host.Outcome State Fault Refusal :=
  if s.phase = .busy then
    match s.fetch with
    | some (i, s') => exec i s'
    | none => unit Config.params s
  else .next s

/-- One unit of work of a running command, and no more: at most one transport call. -/
def tick (s : State) : Host.Outcome State Fault Refusal :=
  if s.phase = .busy then unit Config.params s else .next s

/-- A code on the command port: while `rst` is asserted the block stays in the reset state, whatever is presented
(R230). -/
def port (s : State) (o : Host.Outcome State Fault Refusal) : Host.Outcome State Fault Refusal :=
  if s.rst then .next s else o

/-- One step of the machine: the host's next action (R230, R231, R236), or the block's own work. -/
def step (s : State) : Host.Outcome State Fault Refusal :=
  match s.host with
  | [] => work s
  | .present op :: rest => port { s with host := rest } (exec (decodeCommand op) { s with host := rest })
  | .start op :: rest => port { s with host := rest } (.next (issueInstr (decodeCommand op) { s with host := rest }))
  | .wait :: rest => work { s with host := rest }
  | .tick :: rest => tick { s with host := rest }
  | .rst on :: rest => .next ({ s with host := rest }.driveRst on)
  | .attachIn data pos :: rest => .next ({ s with host := rest }.attachIn data pos)
  | .attachOut :: rest => .next { s with host := rest }.attachOut
  | .closeOut :: rest => .next { s with host := rest }.closeByHost

/-- The state in which the next step fetches and runs the instruction a word of the opcode table stands for. -/
def State.withFetchWord (s : State) (nbits w : Nat) : State :=
  s.place (tableLayout nbits w).1 (tableLayout nbits w).2

end Sys2Proof.Machine
end

