-- ==== Sys2Proof/Safety.lean ====
section
/-! DEFINITION. The terms in which claims are stated: the trees of the spec and how the node store holds one (R26, R27),
whole bytes, a flag change, sequences of commands and steps, the duties of the host (R236 to R243) and the
invariants of the block. -/

namespace Sys2Proof.Machine

open Sys2Proof

/-- A Huffman tree as R13 defines it: a leaf carries a symbol, an internal node exactly two children. -/
inductive HTree where
  | leaf (v : Sym)
  | node (l r : HTree)
  deriving DecidableEq, Repr

/-- Number of nodes. -/
def HTree.size : HTree → Nat
  | .leaf _ => 1
  | .node l r => l.size + r.size + 1

/-- Number of leaves. -/
def HTree.leafCount : HTree → Nat
  | .leaf _ => 1
  | .node l r => l.leafCount + r.leafCount

/-- Whether the root is internal. -/
def HTree.isNode : HTree → Bool
  | .leaf _ => false
  | .node _ _ => true

/-- The symbols of the leaves, in preorder. -/
def HTree.syms : HTree → List Sym
  | .leaf v => [v]
  | .node l r => l.syms ++ r.syms

/-- Every leaf's symbol with its path from the root, `0` for left, `1` for right, in preorder (R28, R140). -/
def HTree.paths : HTree → List (Sym × Bits)
  | .leaf v => [(v, [])]
  | .node l r => l.paths.map (fun p => (p.1, false :: p.2)) ++ r.paths.map (fun p => (p.1, true :: p.2))

/-- The path of the last leaf in preorder that carries `v`; `[]` when none does (R140, R142). -/
def HTree.codeOf (t : HTree) (v : Sym) : Bits :=
  match (t.paths.filter fun p => p.1 == v).getLast? with
  | some p => p.2
  | none => []

/-- The header: the preorder sequence of the encoded tokens (R83, R85). -/
def HTree.header : HTree → Bits
  | .leaf v => encode (.hdrLeaf (BitVec.ofNat 9 v.val))
  | .node l r => encode .hdrInternal ++ l.header ++ r.header

/-- The sum of the counts of the leaves (R13, R123). -/
def HTree.weight (freq : Vector Count 257) : HTree → Nat
  | .leaf v => freq[v].toNat
  | .node l r => l.weight freq + r.weight freq

/-- The nodes under index `i` of the store form the tree (R26, R27). -/
def holds (store : Vector Node 513) (i : Idx) : HTree → Bool
  | .leaf v =>
    match store[i] with
    | .leaf v' _ => v' == v
    | .internal _ _ _ => false
  | .node l r =>
    match store[i] with
    | .leaf _ _ => false
    | .internal a b _ => holds store a l && holds store b r

/-- The nodes under index `i` form the tree, and every weight is the sum of the counts of the leaves below it
(R13, R123). -/
def holdsWeighted (freq : Vector Count 257) (store : Vector Node 513) (i : Idx) : HTree → Bool
  | .leaf v =>
    match store[i] with
    | .leaf v' w => v' == v && w.toNat == freq[v].toNat
    | .internal _ _ _ => false
  | .node l r =>
    match store[i] with
    | .leaf _ _ => false
    | .internal a b w =>
      holdsWeighted freq store a l && holdsWeighted freq store b r && w.toNat == (HTree.node l r).weight freq

/-- The symbols with a positive count, in ascending order (R25, R122). -/
def State.present (s : State) : List Sym := (List.finRange 257).filter fun v => decide (s.freq[v] ≠ 0)

/-- The whole bytes at the head of a bit sequence; the 1 to 7 bits that may be left over are no byte (R51). -/
def wholeBytes : Bits → List (BitVec 8)
  | a :: b :: c :: d :: e :: f :: g :: h :: rest => BitVec.ofNat 8 (val [a, b, c, d, e, f, g, h]) :: wholeBytes rest
  | _ => []

/-- The codes of a list of bytes, one after the other (R87). -/
def codesOf (code : Sym → Bits) : List (BitVec 8) → Bits
  | [] => []
  | v :: vs => code (literalSym v) ++ codesOf code vs

/-- The paths of a list of leaves, one after the other (R87). -/
def pathBits : List (Sym × Bits) → Bits
  | [] => []
  | p :: ps => p.2 ++ pathBits ps

/-- The recovered bytes of a list of leaves, eight bits each (R88). -/
def symBytes : List (Sym × Bits) → Bits
  | [] => []
  | p :: ps => bits 8 p.1.val ++ symBytes ps

/-- From `s` to `t` the flags of `on` become 1, those of `off` become 0, and every other bit of `STATUS`
keeps its value. -/
def flagsMove (s t : State) (on off : List Flag) : Bool :=
  [Flag.busy, .done, .fault, .freqValid, .treeValid, .codeValid, .outClosed].all (fun f =>
    t.flag f == (if f ∈ on then true else if f ∈ off then false else s.flag f)) &&
  t.status.getLsbD 7 == s.status.getLsbD 7

/-- The twelve commands that are accepted in `IDLE` alone (R80, R81): all but CLEAR. -/
def Command.all : List Command :=
  [.count, .build, .generate, .wrmagic, .serialize, .encode, .close, .rdmagic, .deserialize, .decode, .compress,
    .decompress]

/-- Commands presented one after the other, each when the run of the one before is over (R82). -/
def execAll : List Instr → State → Host.Outcome State Fault Refusal
  | [], s => .next s
  | i :: is, s =>
    match exec i s with
    | .next t => execAll is t
    | .fault f => .fault f
    | .refused r => .refused r

/-- `n` steps. -/
def steps : Nat → State → Host.Outcome State Fault Refusal
  | 0, s => .next s
  | n + 1, s =>
    match step s with
    | .next t => steps n t
    | .fault f => .fault f
    | .refused r => .refused r

/-- A run has succeeded so far (R217). -/
def State.successful (s : State) : Bool := s.err == 0 && s.phase != .fault

/-- Host duty R237: `IN` stands at its start. -/
def State.inputAtStart (s : State) : Bool := s.inp.pos == 0

/-- Host duty R239: `OUT` is open and empty. -/
def State.outputFresh (s : State) : Bool := s.out.bits.isEmpty && !s.out.closed

/-- Where `IN` stands in an operation that the host composes from single commands (R194, R242). -/
inductive InStage where
  /-- At the start of an input the host attached there. -/
  | fresh
  /-- Just after the magic that RDMAGIC has read. -/
  | afterMagic
  /-- Just after the header that DESERIALIZE has read: at the first body bit. -/
  | afterHeader
  /-- Anywhere else. -/
  | elsewhere
  deriving DecidableEq, Repr

/-- What the attached `OUT` holds of such an operation (R194, R241). -/
inductive OutStage where
  /-- Nothing: the host has attached it for this operation. -/
  | nothing
  /-- The magic. -/
  | magic
  /-- The magic and the header. -/
  | header
  /-- The magic, the header and the body. -/
  | body
  /-- The bytes DECODE has recovered. -/
  | bytes
  /-- An operation that has ended: closed, or to be discarded. -/
  | ended
  deriving DecidableEq, Repr

/-- What the host has to remember in order to keep its duties (R233, R236 to R243). It is no state of the block, which
checks none of them: claims carry it beside the state, as the named premise section 4 of 70_reset_and_hazards.md asks
for. -/
structure Ledger where
  inAt : InStage
  outHolds : OutStage
  /-- The input that the frequency table counts (R238). -/
  freqOf : Option Bits
  /-- The input whose counts the tree rests on; none for a tree read from a header. -/
  treeOf : Option Bits
  /-- The input whose counts the code table rests on. -/
  codeOf : Option Bits
  /-- An input must be attached before `IN` is used: none is yet (R233), or it belongs to a failed or abandoned run
  (R217, R236). -/
  needIn : Bool
  /-- The same for `OUT`. -/
  needOut : Bool
  /-- The run abandoned by `rst` has left `OUT` open: the host must close it (R230, R236). -/
  mustClose : Bool
  deriving DecidableEq, Repr

/-- Before anything is attached (R233). -/
def Ledger.empty : Ledger :=
  { inAt := .elsewhere, outHolds := .ended, freqOf := none, treeOf := none, codeOf := none, needIn := true,
    needOut := true, mustClose := false }

/-- A code presented now is accepted: `rst` is released, and the block is in `IDLE`, or in `FAULT` and the code is CLEAR's
(R80, R217, R230). -/
def State.accepts (s : State) (op : BitVec 4) : Bool :=
  !s.rst && (s.phase == .idle || s.phase == .fault && op == 0xD)

/-- `IN` is the host's to use and stands at its start (R233, R237). -/
def Ledger.inReady (l : Ledger) (s : State) : Bool := !l.needIn && s.inputAtStart

/-- `OUT` is open and empty and attached for the operation that begins (R233, R239). -/
def Ledger.outReady (l : Ledger) (s : State) : Bool := !l.needOut && s.outputFresh && l.outHolds == .nothing

/-- `OUT` is open and holds what the operation has written so far (R239, R241). -/
def Ledger.outStands (l : Ledger) (s : State) (h : OutStage) : Bool := !l.needOut && !s.out.closed && l.outHolds == h

/-- What the duties ask before a command that is going to be accepted: the valid flags in the orders of R194, WRMAGIC,
SERIALIZE, ENCODE, CLOSE in that order on one `OUT`, RDMAGIC, DESERIALIZE, DECODE in that order on one `IN` that is not
repositioned between them (R241, R242), `IN` at its start (R237), the input encoded being the one counted (R238), and `OUT`
open and empty where an operation begins (R239). -/
def Ledger.ready (l : Ledger) (s : State) : Instr → Bool
  | .count => l.inReady s
  | .build => s.meets Command.build.needs
  | .generate => s.meets Command.generate.needs
  | .wrmagic => s.meets Command.wrmagic.needs && l.outReady s
  | .serialize => s.meets Command.serialize.needs && l.outStands s .magic
  | .encode =>
    s.meets Command.encode.needs && l.outStands s .header && !l.needIn &&
      (l.codeOf == none || l.codeOf == some s.inp.data)
  | .close => s.meets Command.close.needs && (l.outStands s .body || l.outStands s .bytes)
  | .rdmagic => l.inReady s
  | .deserialize => !l.needIn && l.inAt == .afterMagic
  | .decode => s.meets Command.decode.needs && !l.needIn && l.inAt == .afterHeader && l.outReady s
  | .compress => l.inReady s && l.outReady s
  | .decompress => l.inReady s && l.outReady s
  | .clear => true
  | .reserved0 => true
  | .reservedE => true
  | .reservedF => true
  | .magic _ => true
  | .hdrInternal => true
  | .hdrLeaf _ => true
  | .bodyCode _ => true
  | .literal8 _ => true

/-- R239 to the letter at CLEAR: where the block has closed its `OUT`, a fresh one is attached before CLEAR re-enables
writing. R193 and program P5 of 95_test_vectors.md let the host attach it after CLEAR, before a command writes, so
`Ledger.kept` asks no more than that (`Ledger.outReady`); a claim may take this premise beside it. -/
def Ledger.freshBeforeClear (l : Ledger) (s : State) : Bool := !s.flag .outClosed || l.outReady s

/-- The duties of the host in one action (R236 to R243). Any code may be presented at any time: one that is not accepted
has no effect, and asks nothing (R236, R240). While an operation is in progress the transports are its own (R243), and
the `OUT` of an abandoned run is closed before another takes its place (R236). -/
def Ledger.kept (l : Ledger) (s : State) : HostAction → Bool
  | .present op => !s.accepts op || l.ready s (decodeCommand op)
  | .start op => !s.accepts op || l.ready s (decodeCommand op)
  | .wait => true
  | .tick => true
  | .rst _ => true
  | .attachIn _ _ => s.phase != .busy
  | .attachOut => s.phase != .busy && !l.mustClose
  | .closeOut => s.phase != .busy

/-- Nothing the block holds rests on an input that was counted. -/
def Ledger.noTables (l : Ledger) : Ledger := { l with freqOf := none, treeOf := none, codeOf := none }

/-- After a run abandoned by `rst` both transports are the host's to discard, `OUT` to be closed first where it is open
(R230, R236). Which `OUT` is the run's, where the command writes none (R233 asks none for COUNT or BUILD), the spec leaves
open: here it is the one the host has attached, whether or not the command writes it, and where it has attached none since
the last was given up (`needOut`) there is nothing to close. (DESIGN CHOICE, Assumption 20.) -/
def Ledger.abandoned (l : Ledger) (s : State) : Ledger :=
  { Ledger.empty with mustClose := l.mustClose || !l.needOut && !s.out.closed }

/-- After CLEAR or `rst` outside a run an operation begun from single commands is over; transports not yet used may be
used (R233). -/
def Ledger.restarted (l : Ledger) : Ledger :=
  { l.noTables with
    inAt := if l.inAt = .fresh then .fresh else .elsewhere
    outHolds := if l.outHolds = .nothing then .nothing else .ended }

/-- The same in `FAULT`: the transports of the failed run are the host's to discard, and those it has attached afresh stay
(R217, R239). -/
def Ledger.recovered (l : Ledger) (s : State) : Ledger :=
  { l.restarted with
    needIn := l.needIn || l.inAt != .fresh
    needOut := !l.outReady s
    outHolds := if l.outReady s then .nothing else .ended }

/-- What an accepted command changes of the ledger. -/
def Ledger.accepted (l : Ledger) (s : State) : Instr → Ledger
  | .count => { l with inAt := .elsewhere, freqOf := some s.inp.data, treeOf := none, codeOf := none }
  | .build => { l with treeOf := l.freqOf, codeOf := none }
  | .generate => { l with codeOf := l.treeOf }
  | .wrmagic => { l with outHolds := .magic }
  | .serialize => { l with outHolds := .header }
  | .encode => { l with inAt := .elsewhere, outHolds := .body }
  | .close => { l with outHolds := .ended }
  | .rdmagic => { l with inAt := .afterMagic }
  | .deserialize => { l with inAt := .afterHeader, treeOf := none, codeOf := none }
  | .decode => { l with inAt := .elsewhere, outHolds := .bytes }
  | .compress => { l.noTables with inAt := .elsewhere, outHolds := .ended }
  | .decompress => { l.noTables with inAt := .elsewhere, outHolds := .ended }
  | .clear => if s.phase = .fault then l.recovered s else l.restarted
  | .reserved0 => l
  | .reservedE => l
  | .reservedF => l
  | .magic _ => l
  | .hdrInternal => l
  | .hdrLeaf _ => l
  | .bodyCode _ => l
  | .literal8 _ => l

/-- The ledger after one action in state `s`. CLEAR uses no transport, and its ledger is that of its acceptance, so `rst` in
its run abandons none. An input attached stands at no place of an operation begun before, so
repositioning `IN` between RDMAGIC, DESERIALIZE and DECODE leaves the next of them not ready (R242). -/
def Ledger.after (l : Ledger) (s : State) : HostAction → Ledger
  | .present op => if s.accepts op then l.accepted s (decodeCommand op) else l
  | .start op => if s.accepts op then l.accepted s (decodeCommand op) else l
  | .wait => l
  | .tick => l
  | .rst false => l
  | .rst true =>
    match s.phase with
    | .busy => if s.todo = [.clearAll] then l else l.abandoned s
    | .fault => l.recovered s
    | .idle => l.restarted
  | .attachIn _ pos => { l with inAt := if pos = 0 then .fresh else .elsewhere, needIn := false }
  | .attachOut => { l with outHolds := .nothing, needOut := false }
  | .closeOut => { l with outHolds := .ended, needOut := true, mustClose := false }

/-- The premise of a run of `n` steps: the host keeps its duties at every one (R236 to R243). -/
def dutiful : Nat → Ledger → State → Bool
  | 0, _, _ => true
  | n + 1, l, s =>
    (s.host.head?.all fun a => l.kept s a) &&
      match step s with
      | .next t => dutiful n ((s.host.head?.map (l.after s)).getD l) t
      | .fault _ => true
      | .refused _ => true

/-- Between two states at most one transport call lies, of the calls and widths the block uses (R51 to R55). -/
def State.OneCall (s t : State) : Prop :=
  t.inp = s.inp ∧ t.out = s.out ∨
  (∃ n ∈ [1, 8, 9, 32], t.inp = (s.readBits n).2.inp) ∧ t.out = s.out ∨
  t.inp = s.rewind.inp ∧ t.out = s.out ∨
  (∃ n ∈ [1, 8, 9, 32], ∃ v, t.out = (s.writeBits n v).out) ∧ t.inp = s.inp ∨
  t.out = s.closeOutput.out ∧ t.inp = s.inp

/-- What `STATUS`, `ERR` and `PHASE` say together (R21, R23, R236), the working stores empty outside a run (R30, R31),
`IN`'s position within its content (R50), and the block held in the reset state while `rst` is asserted (R230). -/
structure State.Orderly (s : State) : Prop where
  busy : s.flag .busy = decide (s.phase = .busy)
  fault : s.flag .fault = decide (s.phase = .fault)
  done : s.flag .done = true → s.phase = .idle
  reserved : s.status.getLsbD 7 = false
  err : s.err ≠ 0 ↔ s.phase = .fault
  idle : s.phase ≠ .busy → s.pq = [] ∧ s.walk = [] ∧ s.pending = [] ∧ s.todo = []
  pos : s.inp.pos ≤ s.inp.data.length
  held : s.rst = true → s.phase = .idle ∧ s.err = 0 ∧ s.status = 0 ∧ s.op = 0 ∧ s.nnodes = 0

/-- R27: while `TREE_VALID` = 1 the nodes under `ROOT` form a tree of at most `NODE_CAP` = 513 nodes. -/
def State.TreeOk (s : State) : Prop :=
  s.flag .treeValid = true → ∃ t : HTree, holds s.node s.root t = true ∧ t.size ≤ 513

/-- The children named by the allocated entries of the store, in index order. -/
def State.children (s : State) : List Idx :=
  (s.node.toList.take s.nnodes.val).flatMap fun n =>
    match n with
    | .leaf _ _ => []
    | .internal l r _ => [l, r]

/-- R26, ownership: while `TREE_VALID` = 1 no index is stored in two child fields, every one of them is an allocated
entry, and each is smaller than its parent's index, so no node is its own descendant; the root is the last entry. -/
def State.Owned (s : State) : Prop :=
  s.flag .treeValid = true →
    s.children.Nodup ∧ (∀ i ∈ s.children, i.val < s.nnodes.val) ∧ s.root.val + 1 = s.nnodes.val ∧
    ∀ (i l r : Idx) (w : Weight), i.val < s.nnodes.val → s.node[i] = .internal l r w → l < i ∧ r < i

/-- R28: no entry of the code table is longer than `MAXLEN` = 256. -/
def State.CodesFit (s : State) : Prop := ∀ v : Sym, s.code[v].length ≤ 256

end Sys2Proof.Machine
end

