-- ==== Sys2Proof/Certificates/Slice0/Obligations.lean ====
section
/-! DEFINITION. The statements for the provers, each a `def Obligations.<Name> : Prop` that says what the block does by the rules
of spec/ named in OBLIGATIONS.json. Where a statement speaks of the terms of Safety.lean (a tree held by the store, its
paths and header, a move of flags, whole bytes), those are the spec's own notions; nothing here is about a program. -/

open Sys2Proof Sys2Proof.Machine

/-! ### Reset, acceptance, faults -/

/-- R35: the values after reset that the spec gives, and the empty working stores. The tables, `ROOT` and `CUR` are left
out: their values are the model's (Assumption 2). -/
def Obligations.ResetLeavesBlockIdle : Prop :=
  State.reset.phase = .idle ∧ State.reset.err = 0 ∧ State.reset.status = 0 ∧ State.reset.op = 0 ∧
  State.reset.nnodes = 0 ∧ State.reset.pq = [] ∧ State.reset.walk = [] ∧ State.reset.pending = [] ∧
  State.reset.todo = []

/-- R230 and R232: `rst`, at any time (a command in progress included), gives the values of R35 and does not act on the
transports; while it is held every code presented is without effect, its release leaves the block as it is, and then the
block waits. Any time: a run can be taken unit by unit, between units `rst` may come, and a unit makes at most one
transport call. That a call is not cut in two, and that a code presented under `rst` has no effect, is deduced
(Assumption 17). -/
def Obligations.RstGivesResetState : Prop :=
  (∀ (s : State) (rest : List HostAction), s.host = .rst true :: rest →
    ∃ t, step s = .next t ∧ t.phase = .idle ∧ t.err = 0 ∧ t.status = 0 ∧ t.op = 0 ∧ t.nnodes = 0 ∧ t.pq = [] ∧
      t.walk = [] ∧ t.pending = [] ∧ t.todo = [] ∧ t.inp = s.inp ∧ t.out = s.out ∧ t.rst = true ∧ t.host = rest) ∧
  (∀ (s : State) (rest : List HostAction) (op : BitVec 4), s.rst = true →
    s.host = .present op :: rest ∨ s.host = .start op :: rest → step s = .next { s with host := rest }) ∧
  (∀ (s : State) (rest : List HostAction), s.host = .rst false :: rest →
    step s = .next { s with rst := false, host := rest }) ∧
  (∀ (s t : State) (rest : List HostAction), s.host = .tick :: rest → step s = .next t → s.OneCall t) ∧
  (∀ s : State, s.phase ≠ .busy → s.host = [] → step s = .next s)

/-- R80 and R23: a command presented in `IDLE` whose precondition holds is accepted: `OP`, `PHASE`, `BUSY`, `DONE` are
written, the flags its rule clears on acceptance are cleared, and nothing else changes. Where the precondition fails it is
accepted too, with the entry of `SequenceFault` before it (R210). Presented while `BUSY` it is not accepted and has no
effect. CLEAR is accepted in `IDLE` and in `FAULT` and is `BUSY` too (R231); that `ERR` and the flag `FAULT` are 0 from its
acceptance on is the model's choice (Assumption 19). -/
def Obligations.AcceptanceStartsTheCommand : Prop :=
  (∀ (s : State) (rest : List HostAction), s.phase ≠ .busy → s.rst = false → s.host = .start 0xD :: rest →
    ∃ t, step s = .next t ∧ flagsMove s t [.busy] [.done, .fault] = true ∧
      t = { s with op := 0xD, phase := .busy, err := 0, status := t.status, host := rest, todo := [.clearAll] }) ∧
  ∀ (s : State) (rest : List HostAction) (c : Command), c ∈ Command.all → s.rst = false → s.host = .start c.op :: rest →
    (s.phase = .idle →
      ∃ t, step s = .next t ∧ flagsMove s t [.busy] (.done :: c.clears) = true ∧
        t = { s with op := c.op, phase := .busy, status := t.status, host := rest,
                     todo := if s.meets c.needs then c.parts else [.raise .sequence] }) ∧
    (s.phase = .busy → step s = .next { s with host := rest })

/-- R240: a code presented while the block is `BUSY` has no effect, whether the host then waits for it or not. -/
def Obligations.BusyIgnoresCommands : Prop :=
  ∀ (s : State) (rest : List HostAction) (op : BitVec 4), s.phase = .busy →
    (s.host = .present op :: rest → step s = .next { s with host := rest }) ∧
    (s.host = .start op :: rest → step s = .next { s with host := rest })

/-- R217: in `FAULT` every code but CLEAR's is refused and changes nothing; CLEAR (run to its end, or only accepted) and
`rst` leave the state. R231 makes an accepted CLEAR `BUSY`; that one unit then does its whole pseudocode, and that `start`
is an action of its own, is the model's choice (Assumptions 5, 19). -/
def Obligations.FaultIsStickyUntilClear : Prop :=
  ∀ (s : State) (rest : List HostAction), s.phase = .fault →
    (∀ op : BitVec 4, op ≠ 0xD → s.host = .present op :: rest ∨ s.host = .start op :: rest →
      step s = .next { s with host := rest }) ∧
    (s.rst = false → s.host = .present 0xD :: rest → ∃ t, step s = .next t ∧ t.phase = .idle ∧ t.err = 0) ∧
    (s.rst = false → s.host = .start 0xD :: rest →
      ∃ t, step s = .next t ∧ t.phase = .busy ∧ t.op = 0xD ∧ tick t = .next t.clearBlock ∧ t.clearBlock.phase = .idle ∧
        t.clearBlock.err = 0) ∧
    (s.host = .rst true :: rest → ∃ t, step s = .next t ∧ t.phase = .idle ∧ t.err = 0)

/-- R193: CLEAR, in `IDLE` and in `FAULT`; the tables, `ROOT`, `CUR` and the transports keep what they hold. -/
def Obligations.ClearReturnsToResetState : Prop :=
  ∀ s : State, s.phase ≠ .busy →
    exec .clear s = .next { s with
      err := 0, status := 0x02, nnodes := 0, op := 0xD, phase := .idle, pq := [], walk := [], pending := [], todo := [] }

/-- R200 and R215: what a fault leaves: its code in `ERR`, `OUT` closed once, `BUSY` and `DONE` 0, `FAULT` 1, `PHASE` =
`FAULT`, nothing left of the command; everything else keeps its value. -/
def Obligations.FaultEntryRecordsAndCloses : Prop :=
  (∀ (s : State) (c : Cause),
    flagsMove s (s.raise c) [.fault, .outClosed] [.busy, .done] = true ∧
    s.raise c = { s with
      err := c.code, phase := .fault, status := (s.raise c).status, pq := [], walk := [], pending := [], todo := [],
      out := if s.flag .outClosed then s.out else { s.out with closed := true } }) ∧
  [Cause.format, .truncation, .corruption, .missingCode, .emptyCode, .counterOverflow, .symbolRange, .nodeCapacity,
    .emptyTable, .sequence, .illegalCommand].map Cause.code = [1, 2, 3, 4, 5, 6, 7, 8, 9, 10, 11]

/-- R211: a reserved code in `IDLE` raises `IllegalCommandFault` (code 11), and `OP` records it. -/
def Obligations.ReservedCodesRaiseIllegalCommand : Prop :=
  ∀ s : State, s.phase = .idle →
    ∀ x ∈ [(Instr.reserved0, (0x0 : BitVec 4)), (.reservedE, 0xE), (.reservedF, 0xF)],
      ∃ t, exec x.1 s = .next t ∧ t.err = 11 ∧ t.op = x.2 ∧ t.phase = .fault ∧
        flagsMove s t [.fault, .outClosed] [.busy, .done] = true ∧
        t = { s with
          err := t.err, op := t.op, phase := t.phase, status := t.status, pq := [], walk := [], pending := [], todo := [],
          out := if s.flag .outClosed then s.out else { s.out with closed := true } }

/-- R210: the table of preconditions. A command one of whose flags is wrong is accepted, clears what its rule clears on
acceptance, and raises `SequenceFault` (code 10) with no other effect; the six commands without a precondition never
raise it. -/
def Obligations.WrongFlagRaisesSequenceFault : Prop :=
  (∀ (s t : State) (i : Instr), i ∈ [Instr.count, .rdmagic, .deserialize, .compress, .decompress, .clear] →
    s.phase = .idle → s.err = 0 → exec i s = .next t → t.err ≠ 10) ∧
  ∀ s : State, s.phase = .idle →
    ∀ x ∈ [(Instr.build, (0x2 : BitVec 4), [(Flag.freqValid, true)], [Flag.treeValid, .codeValid]),
        (.generate, 0x3, [(.treeValid, true)], [.codeValid]),
        (.wrmagic, 0x4, [(.outClosed, false)], []),
        (.serialize, 0x5, [(.treeValid, true), (.outClosed, false)], []),
        (.encode, 0x6, [(.codeValid, true), (.outClosed, false)], []),
        (.close, 0x7, [(.outClosed, false)], []),
        (.decode, 0xA, [(.treeValid, true), (.outClosed, false)], [])],
      s.meets x.2.2.1 = false →
      ∃ t, exec x.1 s = .next t ∧ t.err = 10 ∧ t.op = x.2.1 ∧ t.phase = .fault ∧
        flagsMove s t [.fault, .outClosed] (.busy :: .done :: x.2.2.2) = true ∧
        t = { s with
          err := t.err, op := t.op, phase := t.phase, status := t.status, pq := [], walk := [], pending := [], todo := [],
          out := if s.flag .outClosed then s.out else { s.out with closed := true } }

/-! ### FrequencyCounter -/

/-- R110, R111, R112: COUNT counts the whole bytes from `IN`'s position on, every symbol from 0, and gives the sentinel
exactly 1; `IN` is exhausted. If some byte occurs 2^32 times or more it raises `CounterOverflowFault` (code 6) instead,
with `FREQ_VALID` 0 and nothing written to `OUT`. -/
def Obligations.CountTalliesTheInput : Prop :=
  ∀ s : State, s.phase = .idle →
    ((∀ v : BitVec 8, (wholeBytes s.inp.rest).count v < 2 ^ 32) →
      ∃ t, exec .count s = .next t ∧
        (∀ v : BitVec 8, t.freq[literalSym v].toNat = (wholeBytes s.inp.rest).count v) ∧ t.freq[sentinel] = 1 ∧
        flagsMove s t [.done, .freqValid] [.busy, .treeValid, .codeValid] = true ∧
        t = { s with op := 0x1, freq := t.freq, status := t.status,
                     inp := { s.inp with pos := s.inp.data.length } }.emptyWork) ∧
    ((∃ v : BitVec 8, 2 ^ 32 ≤ (wholeBytes s.inp.rest).count v) →
      ∃ t, exec .count s = .next t ∧ t.err = 6 ∧ t.phase = .fault ∧
        flagsMove s t [.fault, .outClosed] [.busy, .done, .freqValid, .treeValid, .codeValid] = true ∧
        t.out.bits = s.out.bits ∧ t.node = s.node ∧ t.code = s.code)

/-- R111 and R206: the literal whose counter already holds 2^32 - 1 raises `CounterOverflowFault`, and no counter
changes. -/
def Obligations.LiteralOverflowFaults : Prop :=
  ∀ (s : State) (v : BitVec 8), s.phase = .busy → s.todo.head? = some .countLoop →
    s.freq[literalSym v].toNat = 2 ^ 32 - 1 →
    exec (.literal8 v) s = .next (s.raise .counterOverflow) ∧ (s.raise .counterOverflow).err = 6 ∧
      (s.raise .counterOverflow).freq = s.freq

/-- R110 and R88: a literal read by COUNT adds one to the counter of the symbol of the same value, and does nothing
else. -/
def Obligations.LiteralIsCounted : Prop :=
  ∀ (s : State) (v : BitVec 8), s.phase = .busy → s.todo.head? = some .countLoop →
    s.freq[literalSym v].toNat < 2 ^ 32 - 1 →
    ∃ t, exec (.literal8 v) s = .next t ∧ t = { s with freq := t.freq } ∧
      t.freq[literalSym v].toNat = s.freq[literalSym v].toNat + 1 ∧
      ∀ w : Sym, w ≠ literalSym v → t.freq[w] = s.freq[w]

/-! ### TreeBuilder -/

/-- R121: `removeMin` takes out the member whose pair (weight, index) is least, and only that one. -/
def Obligations.RemoveMinTakesTheLeast : Prop :=
  ∀ (s : State) (q : List Idx), q ≠ [] →
    ∃ a q', removeMin s q = some (a, q') ∧ q.Perm (a :: q') ∧
      ∀ j ∈ q, s.weightOf a < s.weightOf j ∨ (s.weightOf a = s.weightOf j ∧ a ≤ j)

/-- R123: one merge. The first removed becomes the left child, the second the right, the new node's weight is their sum
(as numbers, where it fits 41 bits, which R124 says it always does), and the queue is one shorter. -/
def Obligations.MergeJoinsTheTwoLeast : Prop :=
  ∀ (s : State) (rest : List Stage), s.phase = .busy → s.host = [] → s.todo = .buildMerge :: rest → s.nnodes.val < 513 →
    ∀ (a b : Idx) (q q' : List Idx), removeMin s s.pq = some (a, q) → removeMin s q = some (b, q') →
      (s.weightOf a).toNat + (s.weightOf b).toNat < 2 ^ 41 →
      ∃ (t : State) (r : Idx) (w : Weight), step s = .next t ∧ r.val = s.nnodes.val ∧
        t.node[r] = .internal a b w ∧ w.toNat = (s.weightOf a).toNat + (s.weightOf b).toNat ∧
        t.nnodes.val = s.nnodes.val + 1 ∧ t.pq = q' ++ [r] ∧ t.pq.length + 1 = s.pq.length ∧
        (∀ i : Idx, i ≠ r → t.node[i] = s.node[i]) ∧
        t = { s with node := t.node, nnodes := t.nnodes, pq := t.pq }

/-- R120, R123, R124, R127(a), (b), (d): on a table with at least two symbols BUILD leaves a full binary tree whose leaves
are exactly those symbols, every weight the sum of the counts below it, 2L - 1 nodes, the root the last of them. -/
def Obligations.BuildMakesTheTree : Prop :=
  ∀ s : State, s.phase = .idle → s.flag .freqValid = true → 2 ≤ s.present.length →
    ∃ (t : State) (T : HTree), exec .build s = .next t ∧ T.isNode = true ∧
      holdsWeighted s.freq t.node t.root T = true ∧ T.syms.Perm s.present ∧
      t.nnodes.val = 2 * s.present.length - 1 ∧ t.root.val = t.nnodes.val - 1 ∧
      flagsMove s t [.done, .treeValid] [.busy, .codeValid] = true ∧
      t = { s with op := 0x2, node := t.node, nnodes := t.nnodes, root := t.root, status := t.status }.emptyWork

/-- R122: the leaves are allocated in ascending order of symbol, the k-th symbol present at index k - 1, with its count as
weight. -/
def Obligations.BuildAllocatesLeavesInOrder : Prop :=
  ∀ s : State, s.phase = .idle → s.flag .freqValid = true → s.present ≠ [] →
    ∃ t, exec .build s = .next t ∧ ∀ (k : Idx) (v : Sym), s.present[k.val]? = some v →
      ∃ w : Weight, t.node[k] = .leaf v w ∧ w.toNat = s.freq[v].toNat

/-- R125: with one symbol present BUILD makes the wrapper of three nodes: the real leaf on the left, the filler leaf of
weight 0 for symbol 0 (1 if the real symbol is 0) on the right; GENERATE then gives the real symbol the code `"0"` and
the filler's the code `"1"`. -/
def Obligations.BuildWrapsASingleLeaf : Prop :=
  ∀ (s : State) (v : Sym), s.phase = .idle → s.flag .freqValid = true → s.present = [v] →
    ∃ (t : State) (w : Weight), exec .build s = .next t ∧ w.toNat = s.freq[v].toNat ∧
      t.node[(0 : Idx)] = .leaf v w ∧ t.node[(1 : Idx)] = .leaf (if v = 0 then 1 else 0) 0 ∧
      t.node[(2 : Idx)] = .internal 0 1 w ∧ t.root = 2 ∧ t.nnodes = 3 ∧
      (∃ g, exec .generate t = .next g ∧ g.code[v] = [false] ∧ g.code[(if v = 0 then 1 else 0 : Sym)] = [true]) ∧
      flagsMove s t [.done, .treeValid] [.busy, .codeValid] = true ∧
      t = { s with op := 0x2, node := t.node, nnodes := t.nnodes, root := t.root, status := t.status }.emptyWork

/-- R126: BUILD on a table with no positive count raises `EmptyTableFault` (code 9); `TREE_VALID` stays 0. -/
def Obligations.BuildRefusesAnEmptyTable : Prop :=
  ∀ s : State, s.phase = .idle → s.flag .freqValid = true → s.present = [] →
    ∃ t, exec .build s = .next t ∧ t.err = 9 ∧ t.phase = .fault ∧ t.op = 0x2 ∧
      flagsMove s t [.fault, .outClosed] [.busy, .done, .treeValid, .codeValid] = true ∧
      t.freq = s.freq ∧ t.code = s.code ∧ t.inp = s.inp ∧ t.out.bits = s.out.bits

/-! ### CodeTableGenerator -/

/-- R140 and R142: GENERATE gives every symbol the path of its last leaf in preorder, of 1 to 256 bits, and every symbol
without a leaf no code; it changes nothing else but `OP` and the flags. -/
def Obligations.GenerateRecordsThePaths : Prop :=
  ∀ (s : State) (T : HTree), s.phase = .idle → s.flag .treeValid = true → holds s.node s.root T = true →
    T.isNode = true → T.size ≤ 513 →
    ∃ t, exec .generate s = .next t ∧ (∀ v : Sym, t.code[v] = T.codeOf v) ∧
      (∀ v ∈ T.syms, 1 ≤ t.code[v].length ∧ t.code[v].length ≤ 256) ∧ (∀ v : Sym, v ∉ T.syms → t.code[v] = []) ∧
      flagsMove s t [.done, .codeValid] [.busy] = true ∧
      t = { s with op := 0x3, code := t.code, status := t.status }.emptyWork

/-- R28, R127(c), R142: no code of a generated table is a prefix of another symbol's code, whichever tree it came from. -/
def Obligations.GeneratedCodesArePrefixFree : Prop :=
  ∀ (s : State) (T : HTree), s.phase = .idle → s.flag .treeValid = true → holds s.node s.root T = true →
    T.isNode = true → T.size ≤ 513 →
    ∃ t, exec .generate s = .next t ∧ ∀ v w : Sym, v ≠ w → t.code[v] ≠ [] → ¬ (t.code[v] <+: t.code[w])

/-- R143: a root that is a leaf raises `EmptyCodeFault` (code 5); no code is written and `CODE_VALID` stays 0. -/
def Obligations.GenerateRefusesALeafRoot : Prop :=
  ∀ (s : State) (v : Sym) (w : Weight), s.phase = .idle → s.flag .treeValid = true → s.node[s.root] = .leaf v w →
    ∃ t, exec .generate s = .next t ∧ t.err = 5 ∧ t.phase = .fault ∧ (∀ u : Sym, t.code[u] = []) ∧
      flagsMove s t [.fault, .outClosed] [.busy, .done, .codeValid] = true ∧
      t.node = s.node ∧ t.root = s.root ∧ t.freq = s.freq ∧ t.inp = s.inp ∧ t.out.bits = s.out.bits

/-! ### HeaderCodec -/

/-- R150 and R84: WRMAGIC appends the 32 bits of `MAGIC`, most significant first, and changes nothing else but `OP`
and the flags. -/
def Obligations.WrmagicWritesMagic : Prop :=
  ∀ s : State, s.phase = .idle → s.flag .outClosed = false →
    ∃ t, exec .wrmagic s = .next t ∧ flagsMove s t [.done] [.busy] = true ∧
      t = { s with op := 0x4, status := t.status,
                   out := { s.out with bits := s.out.bits ++ bits 32 Config.magic.toNat } }.emptyWork

/-- R151 and R86: SERIALIZE appends the header of the tree, 11 L - 1 bits for L leaves, and changes nothing else but
`OP` and the flags. -/
def Obligations.SerializeWritesTheHeader : Prop :=
  ∀ (s : State) (T : HTree), s.phase = .idle → s.flag .treeValid = true → s.flag .outClosed = false →
    holds s.node s.root T = true → T.size ≤ 513 →
    ∃ t, exec .serialize s = .next t ∧ T.header.length = 11 * T.leafCount - 1 ∧ flagsMove s t [.done] [.busy] = true ∧
      t = { s with op := 0x5, status := t.status, out := { s.out with bits := s.out.bits ++ T.header } }.emptyWork

/-- R152: RDMAGIC takes 32 bits and completes if they are `MAGIC`; any other value, or fewer than 32 bits, raises
`FormatFault` (code 1). Nothing is written to `OUT`. -/
def Obligations.RdmagicChecksMagic : Prop :=
  ∀ s : State, s.phase = .idle →
    (∀ tail : Bits, s.inp.rest = bits 32 Config.magic.toNat ++ tail →
      ∃ t, exec .rdmagic s = .next t ∧ flagsMove s t [.done] [.busy] = true ∧
        t = { s with op := 0x8, status := t.status, inp := { s.inp with pos := s.inp.pos + 32 } }.emptyWork) ∧
    (∀ (m : BitVec 32) (tail : Bits), m ≠ Config.magic → s.inp.rest = bits 32 m.toNat ++ tail →
      ∃ t, exec .rdmagic s = .next t ∧ t.err = 1 ∧ t.phase = .fault ∧ t.out.bits = s.out.bits ∧
        t.inp = { s.inp with pos := s.inp.pos + 32 }) ∧
    (s.inp.rest.length < 32 →
      ∃ t, exec .rdmagic s = .next t ∧ t.err = 1 ∧ t.phase = .fault ∧ t.out.bits = s.out.bits ∧
        t.inp = { s.inp with pos := s.inp.data.length })

/-- R84 and R152: the magic field as RDMAGIC takes it: `MAGIC` lets the command go on, any other value raises
`FormatFault`. -/
def Obligations.MagicFieldIsChecked : Prop :=
  ∀ (s : State) (rest : List Stage) (m : BitVec 32), s.phase = .busy → s.todo = .rdMagic :: rest →
    (m = Config.magic → exec (.magic m) s = .next { s with todo := rest }) ∧
    (m ≠ Config.magic → exec (.magic m) s = .next (s.raise .format) ∧ (s.raise .format).err = 1)

/-- R153, R154, R155: DESERIALIZE on the header of a tree that fits the store reads exactly that header and holds the tree,
its root the last node. -/
def Obligations.DeserializeRebuildsTheTree : Prop :=
  ∀ (s : State) (T : HTree) (tail : Bits), s.phase = .idle → s.inp.rest = T.header ++ tail → T.size ≤ 513 →
    ∃ t, exec .deserialize s = .next t ∧ holds t.node t.root T = true ∧ t.nnodes.val = T.size ∧
      t.root.val + 1 = t.nnodes.val ∧ flagsMove s t [.done, .treeValid] [.busy, .codeValid] = true ∧
      t = { s with op := 0x9, node := t.node, nnodes := t.nnodes, root := t.root, status := t.status,
                   inp := { s.inp with pos := s.inp.pos + T.header.length } }.emptyWork

/-- R202 and R153, R154: a header cut short raises `TruncationFault` (code 2), `IN` exhausted, `TREE_VALID` 0. -/
def Obligations.DeserializeFindsTruncation : Prop :=
  ∀ (s : State) (T : HTree), s.phase = .idle → T.size ≤ 513 → s.inp.rest <+: T.header → s.inp.rest ≠ T.header →
    ∃ t, exec .deserialize s = .next t ∧ t.err = 2 ∧ t.phase = .fault ∧
      flagsMove s t [.fault, .outClosed] [.busy, .done, .treeValid, .codeValid] = true ∧
      t.inp = { s.inp with pos := s.inp.data.length } ∧ t.out.bits = s.out.bits ∧ t.freq = s.freq ∧ t.code = s.code

/-- R208: the header of a tree of more than 513 nodes raises `NodeCapacityFault` (code 8), with the store full. -/
def Obligations.DeserializeFindsOverfullStore : Prop :=
  ∀ (s : State) (T : HTree) (tail : Bits), s.phase = .idle → s.inp.rest = T.header ++ tail → 513 < T.size →
    ∃ t, exec .deserialize s = .next t ∧ t.err = 8 ∧ t.phase = .fault ∧ t.nnodes.val = 513 ∧
      flagsMove s t [.fault, .outClosed] [.busy, .done, .treeValid, .codeValid] = true ∧
      t.out.bits = s.out.bits ∧ t.freq = s.freq ∧ t.code = s.code

/-- R85 and R155: an INTERNAL token opens an internal node whose left subtree comes next; no entry is allocated yet. -/
def Obligations.InternalTokenOpensANode : Prop :=
  ∀ s : State, s.phase = .busy → s.todo.head? = some .desLoop →
    exec .hdrInternal s = .next { s with pending := .left :: s.pending }

/-- R154 and R155: a LEAF token allocates its leaf; every internal node whose right subtree it completes is allocated after
it, innermost first; then either the next open node waits for its right subtree or the tree is complete. -/
def Obligations.LeafTokenAllocates : Prop :=
  ∀ (s : State) (rest : List Stage) (f : BitVec 9) (ls : List Idx), s.phase = .busy → s.todo = .desLoop :: rest →
    f.toNat ≤ 256 → s.nnodes.val + 1 + ls.length ≤ 513 →
    ∃ t, exec (.hdrLeaf f) { s with pending := ls.map .right ++ s.pending } = .next t ∧
      (s.pending = [] ∨ s.pending.head? = some .left →
        t.nnodes.val = s.nnodes.val + 1 + ls.length ∧
        (∀ i : Idx, i.val = s.nnodes.val → ∃ v : Sym, v.val = f.toNat ∧ t.node[i] = .leaf v 0) ∧
        (∀ i j l : Idx, s.nnodes.val < i.val → j.val + 1 = i.val → ls[i.val - s.nnodes.val - 1]? = some l →
          t.node[i] = .internal l j 0) ∧
        (∀ i : Idx, i.val < s.nnodes.val ∨ t.nnodes.val ≤ i.val → t.node[i] = s.node[i]) ∧
        (s.pending = [] → t.root.val + 1 = t.nnodes.val ∧ flagsMove s t [.treeValid] [] = true ∧
          t = { s with node := t.node, nnodes := t.nnodes, root := t.root, status := t.status, todo := rest }) ∧
        (∀ st : List Pending, s.pending = .left :: st →
          ∃ i : Idx, i.val + 1 = t.nnodes.val ∧
            t = { s with node := t.node, nnodes := t.nnodes, pending := .right i :: st }))

/-- R207, R208, R214: a leaf field of 257 to 511 raises `SymbolRangeFault` (code 7) before the store is looked at; a legal
one with the store full raises `NodeCapacityFault` (code 8). -/
def Obligations.LeafTokenIsRefused : Prop :=
  ∀ (s : State) (f : BitVec 9), s.phase = .busy → s.todo.head? = some .desLoop →
    (256 < f.toNat → exec (.hdrLeaf f) s = .next (s.raise .symbolRange) ∧ (s.raise .symbolRange).err = 7) ∧
    (f.toNat ≤ 256 → s.nnodes.val = 513 →
      exec (.hdrLeaf f) s = .next (s.raise .nodeCapacity) ∧ (s.raise .nodeCapacity).err = 8)

/-- R157: what SERIALIZE writes for a tree, DESERIALIZE reads back, bit for bit and no further, into a tree of the same shape
and leaf symbols; GENERATE then gives the same code table on both. -/
def Obligations.HeaderRoundTrip : Prop :=
  ∀ (s u : State) (T : HTree) (tail : Bits), s.phase = .idle → s.flag .treeValid = true → s.flag .outClosed = false →
    holds s.node s.root T = true → T.size ≤ 513 → u.phase = .idle →
    ∃ (t : State) (h : Bits), exec .serialize s = .next t ∧ t.out.bits = s.out.bits ++ h ∧
      (u.inp.rest = h ++ tail →
        ∃ w, exec .deserialize u = .next w ∧ w.phase = .idle ∧ holds w.node w.root T = true ∧
          w.inp.pos = u.inp.pos + h.length ∧
          (T.isNode = true → ∃ a b, exec .generate t = .next a ∧ exec .generate w = .next b ∧ a.code = b.code))

/-! ### Encoder -/

/-- R170: ENCODE rewinds `IN` and writes, for every byte of the whole input and then for the sentinel, its code, first path
bit first; it changes nothing else but `OP` and the flags. -/
def Obligations.EncodeWritesTheCodes : Prop :=
  ∀ s : State, s.phase = .idle → s.flag .codeValid = true → s.flag .outClosed = false →
    (∀ v ∈ wholeBytes s.inp.data, s.code[literalSym v] ≠ []) → s.code[sentinel] ≠ [] →
    ∃ t, exec .encode s = .next t ∧ flagsMove s t [.done] [.busy] = true ∧
      t = { s with op := 0x6, status := t.status, inp := { s.inp with pos := s.inp.data.length },
                   out := { s.out with bits := s.out.bits ++ (codesOf (fun v => s.code[v]) (wholeBytes s.inp.data) ++
                     s.code[sentinel]) } }.emptyWork

/-- R171 and R204, R216: the first symbol without a code, a byte or at the end the sentinel, raises `MissingCodeFault`
(code 4); the codes written before it stay. -/
def Obligations.EncodeFindsAMissingCode : Prop :=
  ∀ (s : State) (pre post : List (BitVec 8)), s.phase = .idle → s.flag .codeValid = true → s.flag .outClosed = false →
    (∀ v ∈ pre, s.code[literalSym v] ≠ []) →
    ((∃ v, wholeBytes s.inp.data = pre ++ v :: post ∧ s.code[literalSym v] = []) ∨
      (wholeBytes s.inp.data = pre ∧ s.code[sentinel] = [])) →
    ∃ t, exec .encode s = .next t ∧ t.err = 4 ∧ t.phase = .fault ∧
      flagsMove s t [.fault, .outClosed] [.busy, .done] = true ∧
      t.out = { bits := s.out.bits ++ codesOf (fun v => s.code[v]) pre, closed := true } ∧
      t.code = s.code ∧ t.node = s.node ∧ t.freq = s.freq

/-- R170 and R171: a literal read by ENCODE appends its symbol's code and does nothing else; without a code it raises
`MissingCodeFault`. -/
def Obligations.LiteralIsEncoded : Prop :=
  ∀ (s : State) (v : BitVec 8), s.phase = .busy → s.todo.head? = some .encLoop →
    (s.code[literalSym v] ≠ [] →
      exec (.literal8 v) s = .next { s with out := { s.out with bits := s.out.bits ++ s.code[literalSym v] } }) ∧
    (s.code[literalSym v] = [] → exec (.literal8 v) s = .next (s.raise .missingCode) ∧ (s.raise .missingCode).err = 4)

/-- R173: CLOSE closes `OUT` and sets `OUT_CLOSED`; `OUT.bits`, the tables and the tree stay. -/
def Obligations.CloseClosesTheOutput : Prop :=
  ∀ s : State, s.phase = .idle → s.flag .outClosed = false →
    ∃ t, exec .close s = .next t ∧ flagsMove s t [.done, .outClosed] [.busy] = true ∧
      t = { s with op := 0x7, status := t.status, out := { s.out with closed := true } }.emptyWork

/-! ### Decoder -/

/-- R180, R181, R182: DECODE on the codes of any leaves that are no sentinel leaf, then the code of a sentinel leaf, writes
the symbols' bytes, stops at that leaf, reads no further, and changes nothing else but `OP` and the flags. -/
def Obligations.DecodeRecoversTheBytes : Prop :=
  ∀ (s : State) (T : HTree) (ps : List (Sym × Bits)) (c tail : Bits), s.phase = .idle → s.flag .treeValid = true →
    s.flag .outClosed = false → holds s.node s.root T = true → T.isNode = true →
    (∀ p ∈ ps, p ∈ T.paths ∧ p.1 ≠ sentinel) → (sentinel, c) ∈ T.paths → s.inp.rest = pathBits ps ++ c ++ tail →
    ∃ (t : State) (w : Weight), exec .decode s = .next t ∧ flagsMove s t [.done] [.busy] = true ∧
      t.node[t.cur] = .leaf sentinel w ∧
      t = { s with op := 0xA, status := t.status, cur := t.cur,
                   inp := { s.inp with pos := s.inp.pos + (pathBits ps).length + c.length },
                   out := { s.out with bits := s.out.bits ++ symBytes ps } }.emptyWork

/-- R184, R202, R222: bits that end between codes or inside one, before a sentinel leaf, raise `TruncationFault` (code 2)
with exactly the bytes of the complete codes written and `IN` exhausted. -/
def Obligations.DecodeFindsTruncation : Prop :=
  ∀ (s : State) (T : HTree) (ps : List (Sym × Bits)) (p : Sym × Bits) (q : Bits), s.phase = .idle →
    s.flag .treeValid = true → s.flag .outClosed = false → holds s.node s.root T = true → T.isNode = true →
    (∀ x ∈ ps, x ∈ T.paths ∧ x.1 ≠ sentinel) → p ∈ T.paths → q <+: p.2 → q ≠ p.2 → s.inp.rest = pathBits ps ++ q →
    ∃ t, exec .decode s = .next t ∧ t.err = 2 ∧ t.phase = .fault ∧
      flagsMove s t [.fault, .outClosed] [.busy, .done] = true ∧
      t.out = { bits := s.out.bits ++ symBytes ps, closed := true } ∧
      t.inp = { s.inp with pos := s.inp.data.length } ∧ t.node = s.node ∧ t.freq = s.freq ∧ t.code = s.code

/-- R183: with a root that is a leaf, the first body bit raises `CorruptionFault` (code 3), even if the leaf is the
sentinel's; with no body bit it is `TruncationFault` (code 2). With a root that is internal in a tree, DECODE can only end
in success or in `TruncationFault`. -/
def Obligations.DecodeFaultsOnALeafRoot : Prop :=
  ∀ s : State, s.phase = .idle → s.flag .treeValid = true → s.flag .outClosed = false →
    (∀ (v : Sym) (w : Weight), s.node[s.root] = .leaf v w → s.inp.rest ≠ [] →
      ∃ t, exec .decode s = .next t ∧ t.err = 3 ∧ t.phase = .fault ∧ t.inp.pos = s.inp.pos + 1 ∧
        t.out = { bits := s.out.bits, closed := true }) ∧
    (∀ (v : Sym) (w : Weight), s.node[s.root] = .leaf v w → s.inp.rest = [] →
      ∃ t, exec .decode s = .next t ∧ t.err = 2 ∧ t.phase = .fault ∧ t.out = { bits := s.out.bits, closed := true }) ∧
    (∀ T : HTree, holds s.node s.root T = true → T.isNode = true →
      ∃ t, exec .decode s = .next t ∧ (t.phase = .idle ∨ t.phase = .fault ∧ t.err = 2))

/-- R87, R181, R182: the code of a leaf, taken from the root on: a byte's leaf writes its eight bits and returns `CUR` to the
root; a sentinel leaf ends the body with `CUR` on it and writes nothing. -/
def Obligations.BodyCodeReachesItsLeaf : Prop :=
  ∀ (s : State) (rest : List Stage) (T : HTree) (v : Sym) (c : Bits), s.phase = .busy → s.todo = .decLoop :: rest →
    s.cur = s.root → holds s.node s.root T = true → T.isNode = true → (v, c) ∈ T.paths →
    (v ≠ sentinel →
      exec (.bodyCode c) s = .next { s with out := { s.out with bits := s.out.bits ++ bits 8 v.val } }) ∧
    (v = sentinel → ∃ (t : State) (w : Weight), exec (.bodyCode c) s = .next t ∧ t.node[t.cur] = .leaf sentinel w ∧
      t = { s with cur := t.cur, todo := rest })

/-! ### Composite commands -/

/-- R190, R84, R87: COMPRESS on an input at its start writes `MAGIC`, the header of one tree whose distinct leaves include
every byte of the input and the sentinel, and the body in that tree's codes, then closes `OUT` and discards the tables. -/
def Obligations.CompressWritesTheStream : Prop :=
  ∀ s : State, s.phase = .idle → s.inp.pos = 0 → (∀ v : BitVec 8, (wholeBytes s.inp.data).count v < 2 ^ 32) →
    ∃ (t : State) (T : HTree), exec .compress s = .next t ∧ T.isNode = true ∧ T.syms.Nodup ∧
      (∀ v ∈ wholeBytes s.inp.data, literalSym v ∈ T.syms) ∧ sentinel ∈ T.syms ∧
      t.out = { bits := s.out.bits ++ bits 32 Config.magic.toNat ++ T.header ++
                  codesOf T.codeOf (wholeBytes s.inp.data) ++ T.codeOf sentinel, closed := true } ∧
      t.op = 0xB ∧ t.phase = .idle ∧ t.err = s.err ∧ t.inp = { s.inp with pos := s.inp.data.length } ∧
      t.cur = s.cur ∧ t.host = s.host ∧
      flagsMove s t [.done, .outClosed] [.busy, .freqValid, .treeValid, .codeValid] = true

/-- R190: COMPRESS is its parts: it leaves the transports, the tables and `ERR` as COUNT, BUILD, GENERATE, WRMAGIC,
SERIALIZE, ENCODE and CLOSE leave them when presented one after the other, a fault among them included. -/
def Obligations.CompressEqualsItsCommands : Prop :=
  ∀ s u : State, s.phase = .idle → s.flag .outClosed = false →
    execAll [.count, .build, .generate, .wrmagic, .serialize, .encode, .close] s = .next u →
    ∃ t, exec .compress s = .next t ∧ t.phase = u.phase ∧ t.err = u.err ∧ t.inp = u.inp ∧ t.out = u.out ∧
      t.freq = u.freq ∧ t.node = u.node ∧ t.root = u.root ∧ t.code = u.code ∧ t.cur = u.cur ∧
      (u.phase = .idle → t.nnodes = u.nnodes)

/-- R191: DECOMPRESS on `MAGIC`, the header of a tree and a body in its codes recovers the bytes, stops after the sentinel's
code, closes `OUT` and discards the tree; `FREQ` and `CODE` are not touched. -/
def Obligations.DecompressRecoversTheBytes : Prop :=
  ∀ (s : State) (T : HTree) (ps : List (Sym × Bits)) (c tail : Bits), s.phase = .idle → T.isNode = true → T.size ≤ 513 →
    (∀ p ∈ ps, p ∈ T.paths ∧ p.1 ≠ sentinel) → (sentinel, c) ∈ T.paths →
    s.inp.rest = bits 32 Config.magic.toNat ++ T.header ++ pathBits ps ++ c ++ tail →
    ∃ t, exec .decompress s = .next t ∧ t.op = 0xC ∧ t.phase = .idle ∧ t.err = s.err ∧
      t.out = { bits := s.out.bits ++ symBytes ps, closed := true } ∧
      t.inp = { s.inp with pos := s.inp.pos + 32 + T.header.length + (pathBits ps).length + c.length } ∧
      holds t.node t.root T = true ∧ t.nnodes.val = T.size ∧ t.freq = s.freq ∧ t.code = s.code ∧ t.host = s.host ∧
      flagsMove s t [.done, .outClosed] [.busy, .freqValid, .treeValid, .codeValid] = true

/-- R191: DECOMPRESS is its parts: it leaves the transports, the node store, `CUR` and `ERR` as RDMAGIC, DESERIALIZE, DECODE
and CLOSE leave them when presented one after the other, a fault among them included. -/
def Obligations.DecompressEqualsItsCommands : Prop :=
  ∀ s u : State, s.phase = .idle → s.flag .outClosed = false →
    execAll [.rdmagic, .deserialize, .decode, .close] s = .next u →
    ∃ t, exec .decompress s = .next t ∧ t.phase = u.phase ∧ t.err = u.err ∧ t.inp = u.inp ∧ t.out = u.out ∧
      t.cur = u.cur ∧ t.freq = u.freq ∧ t.code = u.code ∧ t.node = u.node ∧ t.root = u.root ∧
      (u.phase = .idle → t.nnodes = u.nnodes)

/-- R195: the round-trip law: what COMPRESS writes for a byte sequence, DECOMPRESS turns back into it, whatever follows in
the input, for every value of `MAGIC`. -/
def Obligations.RoundTrip : Prop :=
  ∀ (s : State) (X : List (BitVec 8)), s.phase = .idle → s.inp = { data := unpackBytes X, pos := 0 } →
    s.out = { bits := [], closed := false } → (∀ v : BitVec 8, X.count v < 2 ^ 32) →
    ∃ t, exec .compress s = .next t ∧ t.phase = .idle ∧
      ∀ (u : State) (tail : Bits), u.phase = .idle → u.inp = { data := t.out.bits ++ tail, pos := 0 } →
        u.out = { bits := [], closed := false } →
        ∃ w, exec .decompress u = .next w ∧ w.phase = .idle ∧ w.out = { bits := unpackBytes X, closed := true } ∧
          w.inp.pos = t.out.bits.length

/-! ### The whole machine -/

/-- R21, R23, R30, R31, R50, R230, R236: `STATUS`, `ERR` and `PHASE` agree, bit 7 reads 0, the working stores are empty
outside a run, `IN`'s position is within its content, and while `rst` is held the registers are those of reset: every step
keeps this. -/
def Obligations.EveryStepKeepsOrder : Prop :=
  ∀ s t : State, s.Orderly → step s = .next t → t.Orderly

/-- The reset state is orderly. -/
def Obligations.ResetIsOrderly : Prop := State.reset.Orderly

/-- R27: every command keeps the tree-shape invariant: after BUILD and DESERIALIZE, and whatever follows. -/
def Obligations.EveryCommandKeepsTheTree : Prop :=
  ∀ (i : Instr) (s t : State), s.phase ≠ .busy → s.TreeOk → exec i s = .next t → t.TreeOk

/-- R26: every command keeps the ownership of nodes: no index in two child fields, children allocated and before their
parents, the root last. -/
def Obligations.EveryCommandKeepsOwnership : Prop :=
  ∀ (i : Instr) (s t : State), s.phase ≠ .busy → s.Owned → exec i s = .next t → t.Owned

/-- The reset state meets the invariants of the tree and of the code table. -/
def Obligations.ResetMeetsTheInvariants : Prop := State.reset.TreeOk ∧ State.reset.Owned ∧ State.reset.CodesFit

/-- R28: every step keeps every code within `MAXLEN` = 256 bits. -/
def Obligations.EveryStepKeepsCodesShort : Prop :=
  ∀ s t : State, s.CodesFit → step s = .next t → t.CodesFit

/-- R59 and R244: with a tree as R27 says, every command and every stream unit presented outside a run answers a next state: no
command runs on for ever, and none meets an index out of range. -/
def Obligations.EveryCommandEnds : Prop :=
  ∀ (i : Instr) (s : State), s.phase ≠ .busy → s.TreeOk → ∃ t, exec i s = .next t ∧ t.phase ≠ .busy

/-- R231 and R244: how much of a command one step does is not observable: presented and then worked off step by step, or
unit by unit, a command ends in the state it ends in when it is run at once. -/
def Obligations.RunEqualsItsSteps : Prop :=
  ∀ (op : BitVec 4) (s t : State), s.host = [] → exec (decodeCommand op) s = .next t →
    (∃ n, steps n (issueInstr (decodeCommand op) s) = .next t) ∧
    (∃ n, steps n { issueInstr (decodeCommand op) s with host := List.replicate n .tick } = .next t)

/-- R56 and R216: what is written to `OUT` stays written: a step appends bits or leaves them, unless the host attaches a fresh
`OUT`. -/
def Obligations.OutputOnlyGrows : Prop :=
  ∀ s t : State, s.host.head? ≠ some .attachOut → step s = .next t → s.out.bits <+: t.out.bits

/-- R52 and R54: after the block has closed `OUT`, no command writes to it until an implicit clear, CLEAR or reset; every
fault leaves it closed; and where the host keeps its duties (R239) no command writes to an `OUT` that is closed. -/
def Obligations.NothingWrittenAfterClose : Prop :=
  (∀ (i : Instr) (s t : State), s.phase ≠ .busy → s.flag .outClosed = true → i ≠ .compress → i ≠ .decompress →
    exec i s = .next t → t.out = s.out) ∧
  (∀ (i : Instr) (s t : State), s.phase = .idle → (s.flag .outClosed = true → s.out.closed = true) →
    exec i s = .next t → t.phase = .fault → t.out.closed = true ∧ t.flag .outClosed = true) ∧
  (∀ (l : Ledger) (s t : State) (op : BitVec 4) (rest : List HostAction), s.phase ≠ .busy → s.host = .present op :: rest →
    l.kept s (.present op) = true → s.out.closed = true → step s = .next t → t.out.bits = s.out.bits)

/-- R21, R25, R26, R28, R29, R33, R55: who writes what. `ROOT`, `NNODES`, `CUR`, `FREQ`, `NODE`, `CODE`, `IN`'s position and
`OUT.bits` each change only under the commands the spec names as the writers, or under the stream unit such a command is
reading; the content of `IN` never changes. -/
def Obligations.OnlyTheNamedWritersWrite : Prop :=
  ∀ (i : Instr) (s t : State), exec i s = .next t →
    t.inp.data = s.inp.data ∧ t.host = s.host ∧
    (t.freq ≠ s.freq → i ∈ [Instr.count, .compress] ∨ (∃ v, i = .literal8 v) ∧ s.running = some .countLoop) ∧
    (t.node ≠ s.node ∨ t.root ≠ s.root →
      i ∈ [Instr.build, .deserialize, .compress, .decompress] ∨ (∃ f, i = .hdrLeaf f) ∧ s.running = some .desLoop) ∧
    (t.nnodes ≠ s.nnodes →
      i ∈ [Instr.build, .deserialize, .compress, .decompress, .clear] ∨
        (∃ f, i = .hdrLeaf f) ∧ s.running = some .desLoop) ∧
    (t.code ≠ s.code → i ∈ [Instr.generate, .compress]) ∧
    (t.cur ≠ s.cur → i ∈ [Instr.decode, .decompress] ∨ (∃ c, i = .bodyCode c) ∧ s.running = some .decLoop) ∧
    (t.inp.pos ≠ s.inp.pos → i ∈ [Instr.count, .encode, .rdmagic, .deserialize, .decode, .compress, .decompress]) ∧
    (t.out.bits ≠ s.out.bits →
      i ∈ [Instr.wrmagic, .serialize, .encode, .decode, .compress, .decompress] ∨
        (∃ v, i = .literal8 v) ∧ s.running = some .encLoop ∨ (∃ c, i = .bodyCode c) ∧ s.running = some .decLoop)

/-- A step runs the decoded instruction: the command on the port, `rst` being released, is executed on the state with the action taken off the
host's script; a stream unit is executed on the state with `IN` past it. -/
def Obligations.StepRunsTheInstruction : Prop :=
  (∀ (s : State) (op : BitVec 4) (rest : List HostAction), s.rst = false → s.host = .present op :: rest →
    step s = exec (decodeCommand op) { s with host := rest }) ∧
  (∀ (s : State) (sp : Space) (i : Instr) (rest : Bits), s.host = [] → s.phase = .busy → s.readSpace = some sp →
    decode sp s.inp.rest = .ok (i, rest) →
    step s = exec i { s with inp := { s.inp with pos := s.inp.data.length - rest.length } })

/-! ### Encoding -/

/-- R81, R84, R85, R87, R88: for every well-formed row, and for a leaf token with any 9-bit field (257 to 511 are read too,
and refused later), the decoder reads the encoder's bits back and leaves what follows. -/
def Obligations.DecodeEncode : Prop :=
  ∀ (i : Instr) (rest : Bits), i.wellFormed = true ∨ (∃ f, i = .hdrLeaf f) →
    decode i.space (encode i ++ rest) = .ok (i, rest)

/-- The other direction: what the decoder accepts in a space is the encoding of the row it answers, and a row of that
space. -/
def Obligations.EncodeDecode : Prop :=
  ∀ (sp : Space) (bs rest : Bits) (i : Instr), decode sp bs = .ok (i, rest) → encode i ++ rest = bs ∧ i.space = sp

/-- R81, R85, S2: words written out from the spec: COMPRESS is 1011, an INTERNAL token `0`, the sentinel's LEAF token
`1100000000`, the leaf of symbol 66 `1001000010`, the literal 65 `01000001`. -/
def Obligations.SpecWordsDecode : Prop :=
  decode .command [true, false, true, true] = .ok (.compress, []) ∧
  decode .header [false] = .ok (.hdrInternal, []) ∧
  decode .header [true, true, false, false, false, false, false, false, false, false] = .ok (.hdrLeaf 256, []) ∧
  decode .header [true, false, false, true, false, false, false, false, true, false] = .ok (.hdrLeaf 66, []) ∧
  decode .literal [false, true, false, false, false, false, false, true] = .ok (.literal8 65, [])
end

