-- ==== Sys2Proof/Laws/Bits.lean ====
section
/-! SUPPORT. Field assembly (R10): `bits` and `val` are inverse to each other, and a field followed by other bits is
taken off whole. -/

namespace Sys2Proof

@[simp] theorem bits_length (n v : Nat) : (bits n v).length = n := by
  induction n with
  | zero => rfl
  | succ n ih => simp [bits, ih]

theorem val_lt (bs : Bits) : val bs < 2 ^ bs.length := by
  induction bs with
  | nil => simp [val]
  | cons b bs ih => cases b <;> simp [val, Nat.pow_succ] <;> omega

theorem val_bits (n v : Nat) : val (bits n v) = v % 2 ^ n := by
  induction n with
  | zero => simp [bits, val, Nat.mod_one]
  | succ n ih =>
    rw [bits, val, ih, bits_length, Nat.testBit_eq_decide_div_mod_eq, Nat.pow_succ, Nat.mod_mul]
    rcases Nat.mod_two_eq_zero_or_one (v / 2 ^ n) with h | h <;> simp [h, Nat.add_comm]

theorem bits_congr {n v w : Nat} (h : v % 2 ^ n = w % 2 ^ n) : bits n v = bits n w := by
  induction n generalizing v w with
  | zero => rfl
  | succ n ih =>
    have hb : v.testBit n = w.testBit n := by
      simpa [Nat.testBit_mod_two_pow] using congrArg (·.testBit n) h
    have hl : v % 2 ^ n = w % 2 ^ n := by
      have := congrArg (· % 2 ^ n) h
      simpa [Nat.pow_succ, Nat.mod_mul_right_mod] using this
    rw [bits, bits, hb, ih hl]

theorem bits_val (bs : Bits) : bits bs.length (val bs) = bs := by
  induction bs with
  | nil => rfl
  | cons b bs ih =>
    have hlt := val_lt bs
    have hb : (b.toNat * 2 ^ bs.length + val bs).testBit bs.length = b := by
      rw [Nat.testBit_eq_decide_div_mod_eq, Nat.add_comm, Nat.add_mul_div_right _ _ (Nat.two_pow_pos _),
        Nat.div_eq_of_lt hlt]
      cases b <;> simp
    have hr : bits bs.length (b.toNat * 2 ^ bs.length + val bs) = bits bs.length (val bs) :=
      bits_congr (by simp [Nat.add_mod])
    rw [List.length_cons, bits, val, hb, hr, ih]

/-- A field followed by other bits is taken off, and the bits after it are left (R51, R62). -/
theorem takeField_bits {n : Nat} (v : BitVec n) (rest : Bits) :
    takeField n (bits n v.toNat ++ rest) = some (v, rest) := by
  have h : n ≤ (bits n v.toNat ++ rest).length := by simp
  rw [takeField, if_pos h, List.take_append_of_le_length (by simp), List.drop_append_of_le_length (by simp),
    List.take_of_length_le (by simp), List.drop_of_length_le (by simp), val_bits, Nat.mod_eq_of_lt v.isLt]
  simp

/-- What `takeField` answers is the field's own bits and the rest. -/
theorem takeField_eq_some {n : Nat} {bs rest : Bits} {v : BitVec n} (h : takeField n bs = some (v, rest)) :
    bs = bits n v.toNat ++ rest := by
  rw [takeField] at h
  split at h
  · rename_i hn
    obtain ⟨rfl, rfl⟩ := Prod.mk.inj (Option.some.inj h)
    have hl : (bs.take n).length = n := by simp [hn]
    have hv := bits_val (bs.take n)
    have hlt := val_lt (bs.take n)
    rw [hl] at hv hlt
    rw [BitVec.toNat_ofNat, Nat.mod_eq_of_lt hlt, hv, List.take_append_drop]
  · cases h

end Sys2Proof
end

