-- ==== Sys2Proof/Laws/State.lean ====
section
/-! SUPPORT. One lemma per field per named update of the state: what the update leaves in the field. They are the only
place where these updates are unfolded. -/

namespace Sys2Proof.Machine

open Sys2Proof

/-! ### `State.setFlag` -/

@[simp] theorem State.setFlag_root (s : State) (f : Flag) (b : Bool) : (s.setFlag f b).root = s.root := rfl
@[simp] theorem State.setFlag_nnodes (s : State) (f : Flag) (b : Bool) : (s.setFlag f b).nnodes = s.nnodes := rfl
@[simp] theorem State.setFlag_cur (s : State) (f : Flag) (b : Bool) : (s.setFlag f b).cur = s.cur := rfl
@[simp] theorem State.setFlag_op (s : State) (f : Flag) (b : Bool) : (s.setFlag f b).op = s.op := rfl
@[simp] theorem State.setFlag_phase (s : State) (f : Flag) (b : Bool) : (s.setFlag f b).phase = s.phase := rfl
@[simp] theorem State.setFlag_err (s : State) (f : Flag) (b : Bool) : (s.setFlag f b).err = s.err := rfl
@[simp] theorem State.setFlag_status (s : State) (f : Flag) (b : Bool) : (s.setFlag f b).status = putBit s.status f.bit b := rfl
@[simp] theorem State.setFlag_freq (s : State) (f : Flag) (b : Bool) : (s.setFlag f b).freq = s.freq := rfl
@[simp] theorem State.setFlag_node (s : State) (f : Flag) (b : Bool) : (s.setFlag f b).node = s.node := rfl
@[simp] theorem State.setFlag_code (s : State) (f : Flag) (b : Bool) : (s.setFlag f b).code = s.code := rfl
@[simp] theorem State.setFlag_pq (s : State) (f : Flag) (b : Bool) : (s.setFlag f b).pq = s.pq := rfl
@[simp] theorem State.setFlag_walk (s : State) (f : Flag) (b : Bool) : (s.setFlag f b).walk = s.walk := rfl
@[simp] theorem State.setFlag_pending (s : State) (f : Flag) (b : Bool) : (s.setFlag f b).pending = s.pending := rfl
@[simp] theorem State.setFlag_todo (s : State) (f : Flag) (b : Bool) : (s.setFlag f b).todo = s.todo := rfl
@[simp] theorem State.setFlag_inp (s : State) (f : Flag) (b : Bool) : (s.setFlag f b).inp = s.inp := rfl
@[simp] theorem State.setFlag_out (s : State) (f : Flag) (b : Bool) : (s.setFlag f b).out = s.out := rfl
@[simp] theorem State.setFlag_rst (s : State) (f : Flag) (b : Bool) : (s.setFlag f b).rst = s.rst := rfl
@[simp] theorem State.setFlag_host (s : State) (f : Flag) (b : Bool) : (s.setFlag f b).host = s.host := rfl

/-! ### `State.emptyWork` -/

@[simp] theorem State.emptyWork_root (s : State) : (s.emptyWork).root = s.root := rfl
@[simp] theorem State.emptyWork_nnodes (s : State) : (s.emptyWork).nnodes = s.nnodes := rfl
@[simp] theorem State.emptyWork_cur (s : State) : (s.emptyWork).cur = s.cur := rfl
@[simp] theorem State.emptyWork_op (s : State) : (s.emptyWork).op = s.op := rfl
@[simp] theorem State.emptyWork_phase (s : State) : (s.emptyWork).phase = s.phase := rfl
@[simp] theorem State.emptyWork_err (s : State) : (s.emptyWork).err = s.err := rfl
@[simp] theorem State.emptyWork_status (s : State) : (s.emptyWork).status = s.status := rfl
@[simp] theorem State.emptyWork_freq (s : State) : (s.emptyWork).freq = s.freq := rfl
@[simp] theorem State.emptyWork_node (s : State) : (s.emptyWork).node = s.node := rfl
@[simp] theorem State.emptyWork_code (s : State) : (s.emptyWork).code = s.code := rfl
@[simp] theorem State.emptyWork_pq (s : State) : (s.emptyWork).pq = [] := rfl
@[simp] theorem State.emptyWork_walk (s : State) : (s.emptyWork).walk = [] := rfl
@[simp] theorem State.emptyWork_pending (s : State) : (s.emptyWork).pending = [] := rfl
@[simp] theorem State.emptyWork_todo (s : State) : (s.emptyWork).todo = [] := rfl
@[simp] theorem State.emptyWork_inp (s : State) : (s.emptyWork).inp = s.inp := rfl
@[simp] theorem State.emptyWork_out (s : State) : (s.emptyWork).out = s.out := rfl
@[simp] theorem State.emptyWork_rst (s : State) : (s.emptyWork).rst = s.rst := rfl
@[simp] theorem State.emptyWork_host (s : State) : (s.emptyWork).host = s.host := rfl

/-! ### `State.writeSeq` -/

@[simp] theorem State.writeSeq_root (s : State) (b : Bits) : (s.writeSeq b).root = s.root := rfl
@[simp] theorem State.writeSeq_nnodes (s : State) (b : Bits) : (s.writeSeq b).nnodes = s.nnodes := rfl
@[simp] theorem State.writeSeq_cur (s : State) (b : Bits) : (s.writeSeq b).cur = s.cur := rfl
@[simp] theorem State.writeSeq_op (s : State) (b : Bits) : (s.writeSeq b).op = s.op := rfl
@[simp] theorem State.writeSeq_phase (s : State) (b : Bits) : (s.writeSeq b).phase = s.phase := rfl
@[simp] theorem State.writeSeq_err (s : State) (b : Bits) : (s.writeSeq b).err = s.err := rfl
@[simp] theorem State.writeSeq_status (s : State) (b : Bits) : (s.writeSeq b).status = s.status := rfl
@[simp] theorem State.writeSeq_freq (s : State) (b : Bits) : (s.writeSeq b).freq = s.freq := rfl
@[simp] theorem State.writeSeq_node (s : State) (b : Bits) : (s.writeSeq b).node = s.node := rfl
@[simp] theorem State.writeSeq_code (s : State) (b : Bits) : (s.writeSeq b).code = s.code := rfl
@[simp] theorem State.writeSeq_pq (s : State) (b : Bits) : (s.writeSeq b).pq = s.pq := rfl
@[simp] theorem State.writeSeq_walk (s : State) (b : Bits) : (s.writeSeq b).walk = s.walk := rfl
@[simp] theorem State.writeSeq_pending (s : State) (b : Bits) : (s.writeSeq b).pending = s.pending := rfl
@[simp] theorem State.writeSeq_todo (s : State) (b : Bits) : (s.writeSeq b).todo = s.todo := rfl
@[simp] theorem State.writeSeq_inp (s : State) (b : Bits) : (s.writeSeq b).inp = s.inp := rfl
@[simp] theorem State.writeSeq_out (s : State) (b : Bits) : (s.writeSeq b).out = { s.out with bits := s.out.bits ++ b } := rfl
@[simp] theorem State.writeSeq_rst (s : State) (b : Bits) : (s.writeSeq b).rst = s.rst := rfl
@[simp] theorem State.writeSeq_host (s : State) (b : Bits) : (s.writeSeq b).host = s.host := rfl

/-! ### `State.writeBits` -/

@[simp] theorem State.writeBits_root (s : State) (n v : Nat) : (s.writeBits n v).root = s.root := rfl
@[simp] theorem State.writeBits_nnodes (s : State) (n v : Nat) : (s.writeBits n v).nnodes = s.nnodes := rfl
@[simp] theorem State.writeBits_cur (s : State) (n v : Nat) : (s.writeBits n v).cur = s.cur := rfl
@[simp] theorem State.writeBits_op (s : State) (n v : Nat) : (s.writeBits n v).op = s.op := rfl
@[simp] theorem State.writeBits_phase (s : State) (n v : Nat) : (s.writeBits n v).phase = s.phase := rfl
@[simp] theorem State.writeBits_err (s : State) (n v : Nat) : (s.writeBits n v).err = s.err := rfl
@[simp] theorem State.writeBits_status (s : State) (n v : Nat) : (s.writeBits n v).status = s.status := rfl
@[simp] theorem State.writeBits_freq (s : State) (n v : Nat) : (s.writeBits n v).freq = s.freq := rfl
@[simp] theorem State.writeBits_node (s : State) (n v : Nat) : (s.writeBits n v).node = s.node := rfl
@[simp] theorem State.writeBits_code (s : State) (n v : Nat) : (s.writeBits n v).code = s.code := rfl
@[simp] theorem State.writeBits_pq (s : State) (n v : Nat) : (s.writeBits n v).pq = s.pq := rfl
@[simp] theorem State.writeBits_walk (s : State) (n v : Nat) : (s.writeBits n v).walk = s.walk := rfl
@[simp] theorem State.writeBits_pending (s : State) (n v : Nat) : (s.writeBits n v).pending = s.pending := rfl
@[simp] theorem State.writeBits_todo (s : State) (n v : Nat) : (s.writeBits n v).todo = s.todo := rfl
@[simp] theorem State.writeBits_inp (s : State) (n v : Nat) : (s.writeBits n v).inp = s.inp := rfl
@[simp] theorem State.writeBits_out (s : State) (n v : Nat) : (s.writeBits n v).out = { s.out with bits := s.out.bits ++ bits n v } := rfl
@[simp] theorem State.writeBits_rst (s : State) (n v : Nat) : (s.writeBits n v).rst = s.rst := rfl
@[simp] theorem State.writeBits_host (s : State) (n v : Nat) : (s.writeBits n v).host = s.host := rfl

/-! ### `State.closeOutput` -/

@[simp] theorem State.closeOutput_root (s : State) : (s.closeOutput).root = s.root := rfl
@[simp] theorem State.closeOutput_nnodes (s : State) : (s.closeOutput).nnodes = s.nnodes := rfl
@[simp] theorem State.closeOutput_cur (s : State) : (s.closeOutput).cur = s.cur := rfl
@[simp] theorem State.closeOutput_op (s : State) : (s.closeOutput).op = s.op := rfl
@[simp] theorem State.closeOutput_phase (s : State) : (s.closeOutput).phase = s.phase := rfl
@[simp] theorem State.closeOutput_err (s : State) : (s.closeOutput).err = s.err := rfl
@[simp] theorem State.closeOutput_status (s : State) : (s.closeOutput).status = putBit s.status 6 true := rfl
@[simp] theorem State.closeOutput_freq (s : State) : (s.closeOutput).freq = s.freq := rfl
@[simp] theorem State.closeOutput_node (s : State) : (s.closeOutput).node = s.node := rfl
@[simp] theorem State.closeOutput_code (s : State) : (s.closeOutput).code = s.code := rfl
@[simp] theorem State.closeOutput_pq (s : State) : (s.closeOutput).pq = s.pq := rfl
@[simp] theorem State.closeOutput_walk (s : State) : (s.closeOutput).walk = s.walk := rfl
@[simp] theorem State.closeOutput_pending (s : State) : (s.closeOutput).pending = s.pending := rfl
@[simp] theorem State.closeOutput_todo (s : State) : (s.closeOutput).todo = s.todo := rfl
@[simp] theorem State.closeOutput_inp (s : State) : (s.closeOutput).inp = s.inp := rfl
@[simp] theorem State.closeOutput_out (s : State) : (s.closeOutput).out = { s.out with closed := true } := rfl
@[simp] theorem State.closeOutput_rst (s : State) : (s.closeOutput).rst = s.rst := rfl
@[simp] theorem State.closeOutput_host (s : State) : (s.closeOutput).host = s.host := rfl

/-! ### `State.rewind` -/

@[simp] theorem State.rewind_root (s : State) : (s.rewind).root = s.root := rfl
@[simp] theorem State.rewind_nnodes (s : State) : (s.rewind).nnodes = s.nnodes := rfl
@[simp] theorem State.rewind_cur (s : State) : (s.rewind).cur = s.cur := rfl
@[simp] theorem State.rewind_op (s : State) : (s.rewind).op = s.op := rfl
@[simp] theorem State.rewind_phase (s : State) : (s.rewind).phase = s.phase := rfl
@[simp] theorem State.rewind_err (s : State) : (s.rewind).err = s.err := rfl
@[simp] theorem State.rewind_status (s : State) : (s.rewind).status = s.status := rfl
@[simp] theorem State.rewind_freq (s : State) : (s.rewind).freq = s.freq := rfl
@[simp] theorem State.rewind_node (s : State) : (s.rewind).node = s.node := rfl
@[simp] theorem State.rewind_code (s : State) : (s.rewind).code = s.code := rfl
@[simp] theorem State.rewind_pq (s : State) : (s.rewind).pq = s.pq := rfl
@[simp] theorem State.rewind_walk (s : State) : (s.rewind).walk = s.walk := rfl
@[simp] theorem State.rewind_pending (s : State) : (s.rewind).pending = s.pending := rfl
@[simp] theorem State.rewind_todo (s : State) : (s.rewind).todo = s.todo := rfl
@[simp] theorem State.rewind_inp (s : State) : (s.rewind).inp = { s.inp with pos := 0 } := rfl
@[simp] theorem State.rewind_out (s : State) : (s.rewind).out = s.out := rfl
@[simp] theorem State.rewind_rst (s : State) : (s.rewind).rst = s.rst := rfl
@[simp] theorem State.rewind_host (s : State) : (s.rewind).host = s.host := rfl

/-! ### `State.setFreq` -/

@[simp] theorem State.setFreq_root (s : State) (v : Sym) (k : Count) : (s.setFreq v k).root = s.root := rfl
@[simp] theorem State.setFreq_nnodes (s : State) (v : Sym) (k : Count) : (s.setFreq v k).nnodes = s.nnodes := rfl
@[simp] theorem State.setFreq_cur (s : State) (v : Sym) (k : Count) : (s.setFreq v k).cur = s.cur := rfl
@[simp] theorem State.setFreq_op (s : State) (v : Sym) (k : Count) : (s.setFreq v k).op = s.op := rfl
@[simp] theorem State.setFreq_phase (s : State) (v : Sym) (k : Count) : (s.setFreq v k).phase = s.phase := rfl
@[simp] theorem State.setFreq_err (s : State) (v : Sym) (k : Count) : (s.setFreq v k).err = s.err := rfl
@[simp] theorem State.setFreq_status (s : State) (v : Sym) (k : Count) : (s.setFreq v k).status = s.status := rfl
@[simp] theorem State.setFreq_freq (s : State) (v : Sym) (k : Count) : (s.setFreq v k).freq = s.freq.set v k := rfl
@[simp] theorem State.setFreq_node (s : State) (v : Sym) (k : Count) : (s.setFreq v k).node = s.node := rfl
@[simp] theorem State.setFreq_code (s : State) (v : Sym) (k : Count) : (s.setFreq v k).code = s.code := rfl
@[simp] theorem State.setFreq_pq (s : State) (v : Sym) (k : Count) : (s.setFreq v k).pq = s.pq := rfl
@[simp] theorem State.setFreq_walk (s : State) (v : Sym) (k : Count) : (s.setFreq v k).walk = s.walk := rfl
@[simp] theorem State.setFreq_pending (s : State) (v : Sym) (k : Count) : (s.setFreq v k).pending = s.pending := rfl
@[simp] theorem State.setFreq_todo (s : State) (v : Sym) (k : Count) : (s.setFreq v k).todo = s.todo := rfl
@[simp] theorem State.setFreq_inp (s : State) (v : Sym) (k : Count) : (s.setFreq v k).inp = s.inp := rfl
@[simp] theorem State.setFreq_out (s : State) (v : Sym) (k : Count) : (s.setFreq v k).out = s.out := rfl
@[simp] theorem State.setFreq_rst (s : State) (v : Sym) (k : Count) : (s.setFreq v k).rst = s.rst := rfl
@[simp] theorem State.setFreq_host (s : State) (v : Sym) (k : Count) : (s.setFreq v k).host = s.host := rfl

/-! ### `State.setCode` -/

@[simp] theorem State.setCode_root (s : State) (v : Sym) (c : Bits) : (s.setCode v c).root = s.root := rfl
@[simp] theorem State.setCode_nnodes (s : State) (v : Sym) (c : Bits) : (s.setCode v c).nnodes = s.nnodes := rfl
@[simp] theorem State.setCode_cur (s : State) (v : Sym) (c : Bits) : (s.setCode v c).cur = s.cur := rfl
@[simp] theorem State.setCode_op (s : State) (v : Sym) (c : Bits) : (s.setCode v c).op = s.op := rfl
@[simp] theorem State.setCode_phase (s : State) (v : Sym) (c : Bits) : (s.setCode v c).phase = s.phase := rfl
@[simp] theorem State.setCode_err (s : State) (v : Sym) (c : Bits) : (s.setCode v c).err = s.err := rfl
@[simp] theorem State.setCode_status (s : State) (v : Sym) (c : Bits) : (s.setCode v c).status = s.status := rfl
@[simp] theorem State.setCode_freq (s : State) (v : Sym) (c : Bits) : (s.setCode v c).freq = s.freq := rfl
@[simp] theorem State.setCode_node (s : State) (v : Sym) (c : Bits) : (s.setCode v c).node = s.node := rfl
@[simp] theorem State.setCode_code (s : State) (v : Sym) (c : Bits) : (s.setCode v c).code = s.code.set v c := rfl
@[simp] theorem State.setCode_pq (s : State) (v : Sym) (c : Bits) : (s.setCode v c).pq = s.pq := rfl
@[simp] theorem State.setCode_walk (s : State) (v : Sym) (c : Bits) : (s.setCode v c).walk = s.walk := rfl
@[simp] theorem State.setCode_pending (s : State) (v : Sym) (c : Bits) : (s.setCode v c).pending = s.pending := rfl
@[simp] theorem State.setCode_todo (s : State) (v : Sym) (c : Bits) : (s.setCode v c).todo = s.todo := rfl
@[simp] theorem State.setCode_inp (s : State) (v : Sym) (c : Bits) : (s.setCode v c).inp = s.inp := rfl
@[simp] theorem State.setCode_out (s : State) (v : Sym) (c : Bits) : (s.setCode v c).out = s.out := rfl
@[simp] theorem State.setCode_rst (s : State) (v : Sym) (c : Bits) : (s.setCode v c).rst = s.rst := rfl
@[simp] theorem State.setCode_host (s : State) (v : Sym) (c : Bits) : (s.setCode v c).host = s.host := rfl

/-! ### `State.accept` -/

@[simp] theorem State.accept_root (s : State) (x : BitVec 4) : (s.accept x).root = s.root := rfl
@[simp] theorem State.accept_nnodes (s : State) (x : BitVec 4) : (s.accept x).nnodes = s.nnodes := rfl
@[simp] theorem State.accept_cur (s : State) (x : BitVec 4) : (s.accept x).cur = s.cur := rfl
@[simp] theorem State.accept_op (s : State) (x : BitVec 4) : (s.accept x).op = x := rfl
@[simp] theorem State.accept_phase (s : State) (x : BitVec 4) : (s.accept x).phase = .busy := rfl
@[simp] theorem State.accept_err (s : State) (x : BitVec 4) : (s.accept x).err = s.err := rfl
@[simp] theorem State.accept_status (s : State) (x : BitVec 4) : (s.accept x).status = putBit (putBit s.status 0 true) 1 false := rfl
@[simp] theorem State.accept_freq (s : State) (x : BitVec 4) : (s.accept x).freq = s.freq := rfl
@[simp] theorem State.accept_node (s : State) (x : BitVec 4) : (s.accept x).node = s.node := rfl
@[simp] theorem State.accept_code (s : State) (x : BitVec 4) : (s.accept x).code = s.code := rfl
@[simp] theorem State.accept_pq (s : State) (x : BitVec 4) : (s.accept x).pq = s.pq := rfl
@[simp] theorem State.accept_walk (s : State) (x : BitVec 4) : (s.accept x).walk = s.walk := rfl
@[simp] theorem State.accept_pending (s : State) (x : BitVec 4) : (s.accept x).pending = s.pending := rfl
@[simp] theorem State.accept_todo (s : State) (x : BitVec 4) : (s.accept x).todo = s.todo := rfl
@[simp] theorem State.accept_inp (s : State) (x : BitVec 4) : (s.accept x).inp = s.inp := rfl
@[simp] theorem State.accept_out (s : State) (x : BitVec 4) : (s.accept x).out = s.out := rfl
@[simp] theorem State.accept_rst (s : State) (x : BitVec 4) : (s.accept x).rst = s.rst := rfl
@[simp] theorem State.accept_host (s : State) (x : BitVec 4) : (s.accept x).host = s.host := rfl

/-! ### `State.finish` -/

@[simp] theorem State.finish_root (s : State) : (s.finish).root = s.root := rfl
@[simp] theorem State.finish_nnodes (s : State) : (s.finish).nnodes = s.nnodes := rfl
@[simp] theorem State.finish_cur (s : State) : (s.finish).cur = s.cur := rfl
@[simp] theorem State.finish_op (s : State) : (s.finish).op = s.op := rfl
@[simp] theorem State.finish_phase (s : State) : (s.finish).phase = .idle := rfl
@[simp] theorem State.finish_err (s : State) : (s.finish).err = s.err := rfl
@[simp] theorem State.finish_status (s : State) : (s.finish).status = putBit (putBit s.status 1 true) 0 false := rfl
@[simp] theorem State.finish_freq (s : State) : (s.finish).freq = s.freq := rfl
@[simp] theorem State.finish_node (s : State) : (s.finish).node = s.node := rfl
@[simp] theorem State.finish_code (s : State) : (s.finish).code = s.code := rfl
@[simp] theorem State.finish_pq (s : State) : (s.finish).pq = [] := rfl
@[simp] theorem State.finish_walk (s : State) : (s.finish).walk = [] := rfl
@[simp] theorem State.finish_pending (s : State) : (s.finish).pending = [] := rfl
@[simp] theorem State.finish_todo (s : State) : (s.finish).todo = [] := rfl
@[simp] theorem State.finish_inp (s : State) : (s.finish).inp = s.inp := rfl
@[simp] theorem State.finish_out (s : State) : (s.finish).out = s.out := rfl
@[simp] theorem State.finish_rst (s : State) : (s.finish).rst = s.rst := rfl
@[simp] theorem State.finish_host (s : State) : (s.finish).host = s.host := rfl

/-! ### `State.acceptClear` -/

@[simp] theorem State.acceptClear_root (s : State) : (s.acceptClear).root = s.root := rfl
@[simp] theorem State.acceptClear_nnodes (s : State) : (s.acceptClear).nnodes = s.nnodes := rfl
@[simp] theorem State.acceptClear_cur (s : State) : (s.acceptClear).cur = s.cur := rfl
@[simp] theorem State.acceptClear_op (s : State) : (s.acceptClear).op = 0xD := rfl
@[simp] theorem State.acceptClear_phase (s : State) : (s.acceptClear).phase = .busy := rfl
@[simp] theorem State.acceptClear_err (s : State) : (s.acceptClear).err = 0 := rfl
@[simp] theorem State.acceptClear_status (s : State) : (s.acceptClear).status = putBit (putBit (putBit s.status 0 true) 1 false) 2 false := rfl
@[simp] theorem State.acceptClear_freq (s : State) : (s.acceptClear).freq = s.freq := rfl
@[simp] theorem State.acceptClear_node (s : State) : (s.acceptClear).node = s.node := rfl
@[simp] theorem State.acceptClear_code (s : State) : (s.acceptClear).code = s.code := rfl
@[simp] theorem State.acceptClear_pq (s : State) : (s.acceptClear).pq = s.pq := rfl
@[simp] theorem State.acceptClear_walk (s : State) : (s.acceptClear).walk = s.walk := rfl
@[simp] theorem State.acceptClear_pending (s : State) : (s.acceptClear).pending = s.pending := rfl
@[simp] theorem State.acceptClear_todo (s : State) : (s.acceptClear).todo = [.clearAll] := rfl
@[simp] theorem State.acceptClear_inp (s : State) : (s.acceptClear).inp = s.inp := rfl
@[simp] theorem State.acceptClear_out (s : State) : (s.acceptClear).out = s.out := rfl
@[simp] theorem State.acceptClear_rst (s : State) : (s.acceptClear).rst = s.rst := rfl
@[simp] theorem State.acceptClear_host (s : State) : (s.acceptClear).host = s.host := rfl

/-! ### `State.clearBlock` -/

@[simp] theorem State.clearBlock_root (s : State) : (s.clearBlock).root = s.root := rfl
@[simp] theorem State.clearBlock_nnodes (s : State) : (s.clearBlock).nnodes = 0 := rfl
@[simp] theorem State.clearBlock_cur (s : State) : (s.clearBlock).cur = s.cur := rfl
@[simp] theorem State.clearBlock_op (s : State) : (s.clearBlock).op = 0xD := rfl
@[simp] theorem State.clearBlock_phase (s : State) : (s.clearBlock).phase = .idle := rfl
@[simp] theorem State.clearBlock_err (s : State) : (s.clearBlock).err = 0 := rfl
@[simp] theorem State.clearBlock_status (s : State) : (s.clearBlock).status = putBit 0 1 true := rfl
@[simp] theorem State.clearBlock_freq (s : State) : (s.clearBlock).freq = s.freq := rfl
@[simp] theorem State.clearBlock_node (s : State) : (s.clearBlock).node = s.node := rfl
@[simp] theorem State.clearBlock_code (s : State) : (s.clearBlock).code = s.code := rfl
@[simp] theorem State.clearBlock_pq (s : State) : (s.clearBlock).pq = [] := rfl
@[simp] theorem State.clearBlock_walk (s : State) : (s.clearBlock).walk = [] := rfl
@[simp] theorem State.clearBlock_pending (s : State) : (s.clearBlock).pending = [] := rfl
@[simp] theorem State.clearBlock_todo (s : State) : (s.clearBlock).todo = [] := rfl
@[simp] theorem State.clearBlock_inp (s : State) : (s.clearBlock).inp = s.inp := rfl
@[simp] theorem State.clearBlock_out (s : State) : (s.clearBlock).out = s.out := rfl
@[simp] theorem State.clearBlock_rst (s : State) : (s.clearBlock).rst = s.rst := rfl
@[simp] theorem State.clearBlock_host (s : State) : (s.clearBlock).host = s.host := rfl

/-! ### `State.attachIn` -/

@[simp] theorem State.attachIn_root (s : State) (d : Bits) (p : Nat) : (s.attachIn d p).root = s.root := rfl
@[simp] theorem State.attachIn_nnodes (s : State) (d : Bits) (p : Nat) : (s.attachIn d p).nnodes = s.nnodes := rfl
@[simp] theorem State.attachIn_cur (s : State) (d : Bits) (p : Nat) : (s.attachIn d p).cur = s.cur := rfl
@[simp] theorem State.attachIn_op (s : State) (d : Bits) (p : Nat) : (s.attachIn d p).op = s.op := rfl
@[simp] theorem State.attachIn_phase (s : State) (d : Bits) (p : Nat) : (s.attachIn d p).phase = s.phase := rfl
@[simp] theorem State.attachIn_err (s : State) (d : Bits) (p : Nat) : (s.attachIn d p).err = s.err := rfl
@[simp] theorem State.attachIn_status (s : State) (d : Bits) (p : Nat) : (s.attachIn d p).status = s.status := rfl
@[simp] theorem State.attachIn_freq (s : State) (d : Bits) (p : Nat) : (s.attachIn d p).freq = s.freq := rfl
@[simp] theorem State.attachIn_node (s : State) (d : Bits) (p : Nat) : (s.attachIn d p).node = s.node := rfl
@[simp] theorem State.attachIn_code (s : State) (d : Bits) (p : Nat) : (s.attachIn d p).code = s.code := rfl
@[simp] theorem State.attachIn_pq (s : State) (d : Bits) (p : Nat) : (s.attachIn d p).pq = s.pq := rfl
@[simp] theorem State.attachIn_walk (s : State) (d : Bits) (p : Nat) : (s.attachIn d p).walk = s.walk := rfl
@[simp] theorem State.attachIn_pending (s : State) (d : Bits) (p : Nat) : (s.attachIn d p).pending = s.pending := rfl
@[simp] theorem State.attachIn_todo (s : State) (d : Bits) (p : Nat) : (s.attachIn d p).todo = s.todo := rfl
@[simp] theorem State.attachIn_inp (s : State) (d : Bits) (p : Nat) : (s.attachIn d p).inp = { data := d, pos := min p d.length } := rfl
@[simp] theorem State.attachIn_out (s : State) (d : Bits) (p : Nat) : (s.attachIn d p).out = s.out := rfl
@[simp] theorem State.attachIn_rst (s : State) (d : Bits) (p : Nat) : (s.attachIn d p).rst = s.rst := rfl
@[simp] theorem State.attachIn_host (s : State) (d : Bits) (p : Nat) : (s.attachIn d p).host = s.host := rfl

/-! ### `State.attachOut` -/

@[simp] theorem State.attachOut_root (s : State) : (s.attachOut).root = s.root := rfl
@[simp] theorem State.attachOut_nnodes (s : State) : (s.attachOut).nnodes = s.nnodes := rfl
@[simp] theorem State.attachOut_cur (s : State) : (s.attachOut).cur = s.cur := rfl
@[simp] theorem State.attachOut_op (s : State) : (s.attachOut).op = s.op := rfl
@[simp] theorem State.attachOut_phase (s : State) : (s.attachOut).phase = s.phase := rfl
@[simp] theorem State.attachOut_err (s : State) : (s.attachOut).err = s.err := rfl
@[simp] theorem State.attachOut_status (s : State) : (s.attachOut).status = s.status := rfl
@[simp] theorem State.attachOut_freq (s : State) : (s.attachOut).freq = s.freq := rfl
@[simp] theorem State.attachOut_node (s : State) : (s.attachOut).node = s.node := rfl
@[simp] theorem State.attachOut_code (s : State) : (s.attachOut).code = s.code := rfl
@[simp] theorem State.attachOut_pq (s : State) : (s.attachOut).pq = s.pq := rfl
@[simp] theorem State.attachOut_walk (s : State) : (s.attachOut).walk = s.walk := rfl
@[simp] theorem State.attachOut_pending (s : State) : (s.attachOut).pending = s.pending := rfl
@[simp] theorem State.attachOut_todo (s : State) : (s.attachOut).todo = s.todo := rfl
@[simp] theorem State.attachOut_inp (s : State) : (s.attachOut).inp = s.inp := rfl
@[simp] theorem State.attachOut_out (s : State) : (s.attachOut).out = { bits := [], closed := false } := rfl
@[simp] theorem State.attachOut_rst (s : State) : (s.attachOut).rst = s.rst := rfl
@[simp] theorem State.attachOut_host (s : State) : (s.attachOut).host = s.host := rfl

/-! ### `State.closeByHost` -/

@[simp] theorem State.closeByHost_root (s : State) : (s.closeByHost).root = s.root := rfl
@[simp] theorem State.closeByHost_nnodes (s : State) : (s.closeByHost).nnodes = s.nnodes := rfl
@[simp] theorem State.closeByHost_cur (s : State) : (s.closeByHost).cur = s.cur := rfl
@[simp] theorem State.closeByHost_op (s : State) : (s.closeByHost).op = s.op := rfl
@[simp] theorem State.closeByHost_phase (s : State) : (s.closeByHost).phase = s.phase := rfl
@[simp] theorem State.closeByHost_err (s : State) : (s.closeByHost).err = s.err := rfl
@[simp] theorem State.closeByHost_status (s : State) : (s.closeByHost).status = s.status := rfl
@[simp] theorem State.closeByHost_freq (s : State) : (s.closeByHost).freq = s.freq := rfl
@[simp] theorem State.closeByHost_node (s : State) : (s.closeByHost).node = s.node := rfl
@[simp] theorem State.closeByHost_code (s : State) : (s.closeByHost).code = s.code := rfl
@[simp] theorem State.closeByHost_pq (s : State) : (s.closeByHost).pq = s.pq := rfl
@[simp] theorem State.closeByHost_walk (s : State) : (s.closeByHost).walk = s.walk := rfl
@[simp] theorem State.closeByHost_pending (s : State) : (s.closeByHost).pending = s.pending := rfl
@[simp] theorem State.closeByHost_todo (s : State) : (s.closeByHost).todo = s.todo := rfl
@[simp] theorem State.closeByHost_inp (s : State) : (s.closeByHost).inp = s.inp := rfl
@[simp] theorem State.closeByHost_out (s : State) : (s.closeByHost).out = { s.out with closed := true } := rfl
@[simp] theorem State.closeByHost_rst (s : State) : (s.closeByHost).rst = s.rst := rfl
@[simp] theorem State.closeByHost_host (s : State) : (s.closeByHost).host = s.host := rfl

/-! ### `State.lower` -/

@[simp] theorem State.lower_root (s : State) (fs : List Flag) : (s.lower fs).root = s.root := by
  induction fs generalizing s with
  | nil => rfl
  | cons g fs ih => exact (ih _).trans rfl

@[simp] theorem State.lower_nnodes (s : State) (fs : List Flag) : (s.lower fs).nnodes = s.nnodes := by
  induction fs generalizing s with
  | nil => rfl
  | cons g fs ih => exact (ih _).trans rfl

@[simp] theorem State.lower_cur (s : State) (fs : List Flag) : (s.lower fs).cur = s.cur := by
  induction fs generalizing s with
  | nil => rfl
  | cons g fs ih => exact (ih _).trans rfl

@[simp] theorem State.lower_op (s : State) (fs : List Flag) : (s.lower fs).op = s.op := by
  induction fs generalizing s with
  | nil => rfl
  | cons g fs ih => exact (ih _).trans rfl

@[simp] theorem State.lower_phase (s : State) (fs : List Flag) : (s.lower fs).phase = s.phase := by
  induction fs generalizing s with
  | nil => rfl
  | cons g fs ih => exact (ih _).trans rfl

@[simp] theorem State.lower_err (s : State) (fs : List Flag) : (s.lower fs).err = s.err := by
  induction fs generalizing s with
  | nil => rfl
  | cons g fs ih => exact (ih _).trans rfl

@[simp] theorem State.lower_freq (s : State) (fs : List Flag) : (s.lower fs).freq = s.freq := by
  induction fs generalizing s with
  | nil => rfl
  | cons g fs ih => exact (ih _).trans rfl

@[simp] theorem State.lower_node (s : State) (fs : List Flag) : (s.lower fs).node = s.node := by
  induction fs generalizing s with
  | nil => rfl
  | cons g fs ih => exact (ih _).trans rfl

@[simp] theorem State.lower_code (s : State) (fs : List Flag) : (s.lower fs).code = s.code := by
  induction fs generalizing s with
  | nil => rfl
  | cons g fs ih => exact (ih _).trans rfl

@[simp] theorem State.lower_pq (s : State) (fs : List Flag) : (s.lower fs).pq = s.pq := by
  induction fs generalizing s with
  | nil => rfl
  | cons g fs ih => exact (ih _).trans rfl

@[simp] theorem State.lower_walk (s : State) (fs : List Flag) : (s.lower fs).walk = s.walk := by
  induction fs generalizing s with
  | nil => rfl
  | cons g fs ih => exact (ih _).trans rfl

@[simp] theorem State.lower_pending (s : State) (fs : List Flag) : (s.lower fs).pending = s.pending := by
  induction fs generalizing s with
  | nil => rfl
  | cons g fs ih => exact (ih _).trans rfl

@[simp] theorem State.lower_todo (s : State) (fs : List Flag) : (s.lower fs).todo = s.todo := by
  induction fs generalizing s with
  | nil => rfl
  | cons g fs ih => exact (ih _).trans rfl

@[simp] theorem State.lower_inp (s : State) (fs : List Flag) : (s.lower fs).inp = s.inp := by
  induction fs generalizing s with
  | nil => rfl
  | cons g fs ih => exact (ih _).trans rfl

@[simp] theorem State.lower_out (s : State) (fs : List Flag) : (s.lower fs).out = s.out := by
  induction fs generalizing s with
  | nil => rfl
  | cons g fs ih => exact (ih _).trans rfl

@[simp] theorem State.lower_rst (s : State) (fs : List Flag) : (s.lower fs).rst = s.rst := by
  induction fs generalizing s with
  | nil => rfl
  | cons g fs ih => exact (ih _).trans rfl

@[simp] theorem State.lower_host (s : State) (fs : List Flag) : (s.lower fs).host = s.host := by
  induction fs generalizing s with
  | nil => rfl
  | cons g fs ih => exact (ih _).trans rfl

/-! ### `State.raise` (R215, R216, R222): the tables and `IN` keep what they hold. -/

@[simp] theorem State.raise_root (s : State) (c : Cause) : (s.raise c).root = s.root := by
  simp only [State.raise, State.emptyWork_root, State.setFlag_root]
  split <;> rfl

@[simp] theorem State.raise_nnodes (s : State) (c : Cause) : (s.raise c).nnodes = s.nnodes := by
  simp only [State.raise, State.emptyWork_nnodes, State.setFlag_nnodes]
  split <;> rfl

@[simp] theorem State.raise_cur (s : State) (c : Cause) : (s.raise c).cur = s.cur := by
  simp only [State.raise, State.emptyWork_cur, State.setFlag_cur]
  split <;> rfl

@[simp] theorem State.raise_op (s : State) (c : Cause) : (s.raise c).op = s.op := by
  simp only [State.raise, State.emptyWork_op, State.setFlag_op]
  split <;> rfl

@[simp] theorem State.raise_phase (s : State) (c : Cause) : (s.raise c).phase = .fault := by
  simp only [State.raise, State.emptyWork_phase]

@[simp] theorem State.raise_err (s : State) (c : Cause) : (s.raise c).err = c.code := by
  simp only [State.raise, State.emptyWork_err, State.setFlag_err]
  split <;> rfl

@[simp] theorem State.raise_freq (s : State) (c : Cause) : (s.raise c).freq = s.freq := by
  simp only [State.raise, State.emptyWork_freq, State.setFlag_freq]
  split <;> rfl

@[simp] theorem State.raise_node (s : State) (c : Cause) : (s.raise c).node = s.node := by
  simp only [State.raise, State.emptyWork_node, State.setFlag_node]
  split <;> rfl

@[simp] theorem State.raise_code (s : State) (c : Cause) : (s.raise c).code = s.code := by
  simp only [State.raise, State.emptyWork_code, State.setFlag_code]
  split <;> rfl

@[simp] theorem State.raise_pq (s : State) (c : Cause) : (s.raise c).pq = [] := by
  simp only [State.raise, State.emptyWork_pq]

@[simp] theorem State.raise_walk (s : State) (c : Cause) : (s.raise c).walk = [] := by
  simp only [State.raise, State.emptyWork_walk]

@[simp] theorem State.raise_pending (s : State) (c : Cause) : (s.raise c).pending = [] := by
  simp only [State.raise, State.emptyWork_pending]

@[simp] theorem State.raise_todo (s : State) (c : Cause) : (s.raise c).todo = [] := by
  simp only [State.raise, State.emptyWork_todo]

@[simp] theorem State.raise_inp (s : State) (c : Cause) : (s.raise c).inp = s.inp := by
  simp only [State.raise, State.emptyWork_inp, State.setFlag_inp]
  split <;> rfl

@[simp] theorem State.raise_rst (s : State) (c : Cause) : (s.raise c).rst = s.rst := by
  simp only [State.raise, State.emptyWork_rst, State.setFlag_rst]
  split <;> rfl

@[simp] theorem State.raise_host (s : State) (c : Cause) : (s.raise c).host = s.host := by
  simp only [State.raise, State.emptyWork_host, State.setFlag_host]
  split <;> rfl

/-- `OUT` after a fault (R215): closed, unless the block had closed it before. -/
theorem State.raise_out (s : State) (c : Cause) :
    (s.raise c).out = if s.flag .outClosed then s.out else { s.out with closed := true } := by
  have h : ({ s with err := c.code } : State).flag .outClosed = s.flag .outClosed := rfl
  simp only [State.raise, State.emptyWork_out, State.setFlag_out, h]
  split <;> rfl

@[simp] theorem State.raise_out_bits (s : State) (c : Cause) : (s.raise c).out.bits = s.out.bits := by
  rw [State.raise_out]
  split <;> rfl

/-! ### `State.implicitClear` (R192) and `State.afterRst` (R230) -/

@[simp] theorem State.implicitClear_root (s : State) : s.implicitClear.root = s.root := by
  simp [State.implicitClear]

@[simp] theorem State.implicitClear_nnodes (s : State) : s.implicitClear.nnodes = 0 := by
  simp [State.implicitClear]

@[simp] theorem State.implicitClear_cur (s : State) : s.implicitClear.cur = s.cur := by
  simp [State.implicitClear]

@[simp] theorem State.implicitClear_op (s : State) : s.implicitClear.op = s.op := by
  simp [State.implicitClear]

@[simp] theorem State.implicitClear_phase (s : State) : s.implicitClear.phase = s.phase := by
  simp [State.implicitClear]

@[simp] theorem State.implicitClear_err (s : State) : s.implicitClear.err = s.err := by
  simp [State.implicitClear]

@[simp] theorem State.implicitClear_freq (s : State) : s.implicitClear.freq = s.freq := by
  simp [State.implicitClear]

@[simp] theorem State.implicitClear_node (s : State) : s.implicitClear.node = s.node := by
  simp [State.implicitClear]

@[simp] theorem State.implicitClear_code (s : State) : s.implicitClear.code = s.code := by
  simp [State.implicitClear]

@[simp] theorem State.implicitClear_pq (s : State) : s.implicitClear.pq = s.pq := by
  simp [State.implicitClear]

@[simp] theorem State.implicitClear_walk (s : State) : s.implicitClear.walk = s.walk := by
  simp [State.implicitClear]

@[simp] theorem State.implicitClear_pending (s : State) : s.implicitClear.pending = s.pending := by
  simp [State.implicitClear]

@[simp] theorem State.implicitClear_todo (s : State) : s.implicitClear.todo = s.todo := by
  simp [State.implicitClear]

@[simp] theorem State.implicitClear_inp (s : State) : s.implicitClear.inp = s.inp := by
  simp [State.implicitClear]

@[simp] theorem State.implicitClear_out (s : State) : s.implicitClear.out = s.out := by
  simp [State.implicitClear]

@[simp] theorem State.implicitClear_rst (s : State) : s.implicitClear.rst = s.rst := by
  simp [State.implicitClear]

@[simp] theorem State.implicitClear_host (s : State) : s.implicitClear.host = s.host := by
  simp [State.implicitClear]

@[simp] theorem State.afterRst_root (s : State) : s.afterRst.root = State.reset.root := rfl
@[simp] theorem State.afterRst_nnodes (s : State) : s.afterRst.nnodes = State.reset.nnodes := rfl
@[simp] theorem State.afterRst_cur (s : State) : s.afterRst.cur = State.reset.cur := rfl
@[simp] theorem State.afterRst_op (s : State) : s.afterRst.op = State.reset.op := rfl
@[simp] theorem State.afterRst_phase (s : State) : s.afterRst.phase = State.reset.phase := rfl
@[simp] theorem State.afterRst_err (s : State) : s.afterRst.err = State.reset.err := rfl
@[simp] theorem State.afterRst_status (s : State) : s.afterRst.status = State.reset.status := rfl
@[simp] theorem State.afterRst_freq (s : State) : s.afterRst.freq = State.reset.freq := rfl
@[simp] theorem State.afterRst_node (s : State) : s.afterRst.node = State.reset.node := rfl
@[simp] theorem State.afterRst_code (s : State) : s.afterRst.code = State.reset.code := rfl
@[simp] theorem State.afterRst_pq (s : State) : s.afterRst.pq = State.reset.pq := rfl
@[simp] theorem State.afterRst_walk (s : State) : s.afterRst.walk = State.reset.walk := rfl
@[simp] theorem State.afterRst_pending (s : State) : s.afterRst.pending = State.reset.pending := rfl
@[simp] theorem State.afterRst_todo (s : State) : s.afterRst.todo = State.reset.todo := rfl
@[simp] theorem State.afterRst_inp (s : State) : s.afterRst.inp = s.inp := rfl
@[simp] theorem State.afterRst_out (s : State) : s.afterRst.out = s.out := rfl
@[simp] theorem State.afterRst_rst (s : State) : s.afterRst.rst = true := rfl
@[simp] theorem State.afterRst_host (s : State) : s.afterRst.host = s.host := rfl

end Sys2Proof.Machine
end

