-- ==== Sys2Proof/Laws/Flags.lean ====
section
/-! SUPPORT. What each named update does to each flag of `STATUS` (R23), and to its reserved bit. -/

namespace Sys2Proof.Machine

open Sys2Proof

theorem getLsbD_putBit (w : BitVec 8) (i j : Nat) (b : Bool) (hi : i < 8) :
    (putBit w i b).getLsbD j = if j = i then b else w.getLsbD j := by
  have h1 : (1#8 <<< i).getLsbD j = decide (j = i) := by
    rw [← BitVec.twoPow_eq, BitVec.getLsbD_twoPow]
    by_cases h : j = i
    · simp [h, hi]
    · simp [h, Ne.symm h]
  by_cases hj : j < 8
  · rw [putBit]
    split <;> rename_i hb
    · rw [BitVec.getLsbD_or, h1]
      by_cases h : j = i <;> simp [h, hb]
    · rw [BitVec.getLsbD_and, BitVec.getLsbD_not, h1]
      by_cases h : j = i <;> simp [h, hb, hj]
  · have hne : j ≠ i := by omega
    rw [if_neg hne, BitVec.getLsbD_of_ge _ _ (by omega), BitVec.getLsbD_of_ge _ _ (by omega)]

theorem Flag.bit_lt (f : Flag) : f.bit < 7 := by cases f <;> decide

theorem Flag.bit_inj (f g : Flag) : f.bit = g.bit ↔ f = g := by cases f <;> cases g <;> decide

@[simp] theorem State.flag_setFlag (s : State) (f g : Flag) (b : Bool) :
    (s.setFlag f b).flag g = if g = f then b else s.flag g := by
  have h := f.bit_lt
  simp only [State.flag, State.setFlag_status, getLsbD_putBit _ _ _ _ (show f.bit < 8 by omega), Flag.bit_inj]

theorem State.reserved_setFlag (s : State) (f : Flag) (b : Bool) :
    (s.setFlag f b).status.getLsbD 7 = s.status.getLsbD 7 := by
  have h := f.bit_lt
  rw [State.setFlag_status, getLsbD_putBit _ _ _ _ (by omega), if_neg (by omega)]

@[simp] theorem State.bit7_setFlag (s : State) (f : Flag) (b : Bool) : (s.setFlag f b).status[7] = s.status[7] :=
  State.reserved_setFlag s f b

/-- Two states with the same `STATUS` have the same flags. -/
theorem State.flag_congr {s t : State} (h : s.status = t.status) (f : Flag) : s.flag f = t.flag f := by
  rw [State.flag, State.flag, h]

@[simp] theorem State.flag_emptyWork (s : State) (f : Flag) : s.emptyWork.flag f = s.flag f := rfl
@[simp] theorem State.flag_writeSeq (s : State) (b : Bits) (f : Flag) : (s.writeSeq b).flag f = s.flag f := rfl
@[simp] theorem State.flag_writeBits (s : State) (n v : Nat) (f : Flag) : (s.writeBits n v).flag f = s.flag f := rfl
@[simp] theorem State.flag_rewind (s : State) (f : Flag) : s.rewind.flag f = s.flag f := rfl
@[simp] theorem State.flag_setFreq (s : State) (v : Sym) (k : Count) (f : Flag) : (s.setFreq v k).flag f = s.flag f := rfl
@[simp] theorem State.flag_setCode (s : State) (v : Sym) (c : Bits) (f : Flag) : (s.setCode v c).flag f = s.flag f := rfl

@[simp] theorem State.flag_closeOutput (s : State) (f : Flag) :
    s.closeOutput.flag f = if f = .outClosed then true else s.flag f := by
  rw [State.closeOutput, State.flag_setFlag]
  rfl

@[simp] theorem State.flag_lower (s : State) (fs : List Flag) (f : Flag) :
    (s.lower fs).flag f = if f ∈ fs then false else s.flag f := by
  induction fs generalizing s with
  | nil => simp [State.lower]
  | cons g fs ih =>
    rw [State.lower, ih, State.flag_setFlag]
    by_cases h : f ∈ fs <;> by_cases h' : f = g <;> simp [h, h']

theorem State.reserved_lower (s : State) (fs : List Flag) :
    (s.lower fs).status.getLsbD 7 = s.status.getLsbD 7 := by
  induction fs generalizing s with
  | nil => rfl
  | cons g fs ih => rw [State.lower, ih, State.reserved_setFlag]

@[simp] theorem State.bit7_lower (s : State) (fs : List Flag) : (s.lower fs).status[7] = s.status[7] :=
  State.reserved_lower s fs

/-- R80: acceptance raises `BUSY` and lowers `DONE`. -/
@[simp] theorem State.flag_accept (s : State) (x : BitVec 4) (f : Flag) :
    (s.accept x).flag f = if f = .done then false else if f = .busy then true else s.flag f := by
  have h : (s.accept x).flag f = ((s.setFlag .busy true).setFlag .done false).flag f := rfl
  rw [h, State.flag_setFlag, State.flag_setFlag]

/-- Completion raises `DONE` and lowers `BUSY`. -/
@[simp] theorem State.flag_finish (s : State) (f : Flag) :
    s.finish.flag f = if f = .busy then false else if f = .done then true else s.flag f := by
  have h : s.finish.flag f = ((s.setFlag .done true).setFlag .busy false).flag f := rfl
  rw [h, State.flag_setFlag, State.flag_setFlag]

/-- R215: fault entry raises `FAULT` and `OUT_CLOSED`, and lowers `BUSY` and `DONE`. -/
@[simp] theorem State.flag_raise (s : State) (c : Cause) (f : Flag) :
    (s.raise c).flag f =
      if f = .fault ∨ f = .outClosed then true else if f = .busy ∨ f = .done then false else s.flag f := by
  have h0 : ∀ g, ({ s with err := c.code } : State).flag g = s.flag g := fun _ => rfl
  have hp : ∀ u : State, (({ u with phase := Phase.fault } : State).emptyWork).flag f = u.flag f := fun _ => rfl
  simp only [State.raise, hp, h0]
  split <;> rename_i hc
  · cases f <;> simp [hc, h0]
  · cases f <;> simp [h0]

/-- R193: after CLEAR only `DONE` is 1. -/
@[simp] theorem State.flag_clearBlock (s : State) (f : Flag) : s.clearBlock.flag f = decide (f = .done) := by
  have h : ∀ u : State, u.status = 0 → u.flag f = false := fun u hu => by rw [State.flag, hu]; exact BitVec.getLsbD_zero
  rw [State.clearBlock, State.flag_setFlag, h _ rfl]
  by_cases hf : f = .done <;> simp [hf]

@[simp] theorem State.flag_implicitClear (s : State) (f : Flag) :
    s.implicitClear.flag f = if f ∈ [Flag.freqValid, .treeValid, .codeValid, .outClosed] then false else s.flag f :=
  State.flag_lower s _ f

end Sys2Proof.Machine
end

