-- ==== Sys2Proof/Laws/Operands.lean ====
section
/-! SUPPORT. What a transport call and a table access do, once each (R51 to R54, R59). -/

namespace Sys2Proof.Machine

open Sys2Proof

/-- A read moves nothing but `IN`'s position. -/
theorem State.readBits_frame (s : State) (n : Nat) :
    (s.readBits n).2 = { s with inp := { s.inp with pos := (s.readBits n).2.inp.pos } } := by
  rw [State.readBits]
  split <;> rfl

/-- The position never goes back by a read, and stays within the content (R50, R56). -/
theorem State.readBits_pos (s : State) (n : Nat) :
    (s.readBits n).2.inp.pos ≤ s.inp.data.length := by
  rw [State.readBits]
  split
  · assumption
  · exact Nat.le_refl _

/-- R51: a field standing at the position is read, and the position moves past it. -/
theorem State.readBits_field (s : State) {n : Nat} (hn : 0 < n) (v : BitVec n) (tail : Bits)
    (h : s.inp.rest = bits n v.toNat ++ tail) :
    s.readBits n = (some v, { s with inp := { s.inp with pos := s.inp.pos + n } }) := by
  have hl : s.inp.data.length - s.inp.pos = n + tail.length := by
    simpa [Inp.rest] using congrArg List.length h
  have hv : BitVec.ofNat n (val (s.inp.rest.take n)) = v := by
    rw [h, List.take_append_of_le_length (by simp), List.take_of_length_le (by simp), val_bits,
      Nat.mod_eq_of_lt v.isLt]
    simp
  rw [State.readBits, if_pos (by omega), hv]

/-- R51: with fewer than `n` bits left the answer is `EOS`, and what is left is consumed. -/
theorem State.readBits_eos (s : State) {n : Nat} (h : s.inp.rest.length < n) :
    s.readBits n = (none, { s with inp := { s.inp with pos := s.inp.data.length } }) := by
  have hl : s.inp.data.length - s.inp.pos < n := by simpa [Inp.rest] using h
  rw [State.readBits, if_neg (by omega)]

/-- The bits left after a read of one field. -/
theorem Inp.rest_advance (i : Inp) (n : Nat) : ({ i with pos := i.pos + n } : Inp).rest = i.rest.drop n := by
  simp [Inp.rest, List.drop_drop]

/-- R56: what was written stays, and the new bits follow it. -/
theorem State.writeSeq_writeSeq (s : State) (a b : Bits) : (s.writeSeq a).writeSeq b = s.writeSeq (a ++ b) := by
  simp [State.writeSeq]

/-- A counter written is read back, and no other counter changes (R59, R64). -/
theorem State.freq_setFreq (s : State) (v w : Sym) (k : Count) :
    (s.setFreq v k).freq[w] = if w = v then k else s.freq[w] := by
  by_cases h : w = v
  · subst h; simp
  · simp [h, Fin.val_inj, Ne.symm h]

/-- A code written is read back, and no other code changes (R59, R64). -/
theorem State.code_setCode (s : State) (v w : Sym) (c : Bits) :
    (s.setCode v c).code[w] = if w = v then c else s.code[w] := by
  by_cases h : w = v
  · subst h; simp
  · simp [h, Fin.val_inj, Ne.symm h]

end Sys2Proof.Machine
end

