-- ==== Sys2Proof/Laws/Ops.lean ====
section
/-! SUPPORT. What node allocation can do (R26), and what each unit of work leaves alone. -/

namespace Sys2Proof.Machine

open Sys2Proof

/-- R26: an allocation answers the first free index, writes that entry and no other, and counts it. -/
theorem State.alloc_some {p : Params} {n : Node} {s t : State} {i : Idx} (h : s.alloc p n = some (i, t)) :
    i.val = s.nnodes.val ∧ t.nnodes.val = s.nnodes.val + 1 ∧ t.node[i] = n ∧
      (∀ j : Idx, j ≠ i → t.node[j] = s.node[j]) ∧ t = { s with node := t.node, nnodes := t.nnodes } := by
  rw [State.alloc] at h
  split at h
  · obtain ⟨rfl, rfl⟩ := Prod.mk.inj (Option.some.inj h)
    refine ⟨rfl, rfl, by simp, fun j hj => ?_, rfl⟩
    have : s.nnodes.val ≠ j.val := fun e => hj (Fin.ext e.symm)
    simp [this]
  · cases h

/-- R26, R208: it raises exactly when the store is full (for this hardware, at 513 entries). -/
theorem State.alloc_none_iff (n : Node) (s : State) : s.alloc Config.params n = none ↔ s.nnodes.val = 513 := by
  have hlt := s.nnodes.isLt
  rw [State.alloc]
  split <;> rename_i h <;> simp [Config.params] at h ⊢ <;> omega

/-- `P` holds of the state in which a unit of work ends, if the command goes on. -/
def Turn.Ends (P : State → Prop) : Turn → Prop
  | .again s => P s
  | .leave s => P s
  | .first _ s => P s
  | .instead _ s => P s
  | .ended _ => True
  | .raise _ s => P s
  | .stop _ => True

/-- Going back to another part changes no state. -/
theorem Turn.backTo_ends {P : State → Prop} {T : Turn} (st : Stage) (h : T.Ends P) : (T.backTo st).Ends P := by
  cases T <;> exact h

/-- What no unit of work touches: `PHASE`, `OP`, `ERR`, the flags `BUSY`, `DONE` and `FAULT`, the reserved bit, the rest of
the command, the host's script, the content of `IN`; and the bits already in `OUT` stay (R56, R216). -/
structure SameControl (s t : State) : Prop where
  phase : t.phase = s.phase
  op : t.op = s.op
  err : t.err = s.err
  todo : t.todo = s.todo
  host : t.host = s.host
  data : t.inp.data = s.inp.data
  pos : s.inp.pos ≤ s.inp.data.length → t.inp.pos ≤ t.inp.data.length
  busy : t.flag .busy = s.flag .busy
  done : t.flag .done = s.flag .done
  fault : t.flag .fault = s.flag .fault
  reserved : t.status.getLsbD 7 = s.status.getLsbD 7
  out : s.out.bits <+: t.out.bits

theorem SameControl.refl (s : State) : SameControl s s :=
  ⟨rfl, rfl, rfl, rfl, rfl, rfl, id, rfl, rfl, rfl, rfl, List.prefix_refl _⟩

theorem SameControl.trans {s t u : State} (h : SameControl s t) (k : SameControl t u) : SameControl s u :=
  ⟨k.phase.trans h.phase, k.op.trans h.op, k.err.trans h.err, k.todo.trans h.todo, k.host.trans h.host,
    k.data.trans h.data, fun hp => k.pos (h.pos hp), k.busy.trans h.busy, k.done.trans h.done, k.fault.trans h.fault,
    k.reserved.trans h.reserved, h.out.trans k.out⟩

/-- What a unit of work keeps, started from a state that has kept it. -/
theorem SameControl.ends {s t : State} {T : Turn} (h : SameControl s t) (hT : T.Ends (SameControl t)) :
    T.Ends (SameControl s) := by
  cases T with
  | again u => exact h.trans hT
  | leave u => exact h.trans hT
  | first st u => exact h.trans hT
  | instead st u => exact h.trans hT
  | ended u => trivial
  | raise c u => exact h.trans hT
  | stop f => trivial

/-- A change of tables, registers of the tree and working stores alone. -/
theorem SameControl.of_tables {s t : State}
    (h : t = { s with root := t.root, nnodes := t.nnodes, cur := t.cur, freq := t.freq, node := t.node,
                      code := t.code, pq := t.pq, walk := t.walk, pending := t.pending }) : SameControl s t := by
  rw [h]
  exact ⟨rfl, rfl, rfl, rfl, rfl, rfl, id, rfl, rfl, rfl, rfl, List.prefix_refl _⟩

theorem SameControl.readBits (s : State) (n : Nat) : SameControl s (s.readBits n).2 := by
  have hp := s.readBits_pos n
  rw [s.readBits_frame n]
  exact ⟨rfl, rfl, rfl, rfl, rfl, rfl, fun _ => hp, rfl, rfl, rfl, rfl, List.prefix_refl _⟩

theorem SameControl.writeSeq (s : State) (b : Bits) : SameControl s (s.writeSeq b) :=
  ⟨rfl, rfl, rfl, rfl, rfl, rfl, id, rfl, rfl, rfl, rfl, List.prefix_append _ _⟩

theorem SameControl.alloc {p : Params} {n : Node} {s t : State} {i : Idx} (h : s.alloc p n = some (i, t)) :
    SameControl s t := by
  have hf := (State.alloc_some h).2.2.2.2
  rw [hf]
  exact .of_tables rfl

/-- A write of a flag other than `BUSY`, `DONE` and `FAULT`. -/
theorem SameControl.setFlag (s : State) (f : Flag) (b : Bool) (h : f ≠ .busy ∧ f ≠ .done ∧ f ≠ .fault) :
    SameControl s (s.setFlag f b) :=
  ⟨rfl, rfl, rfl, rfl, rfl, rfl, id, by simp [Ne.symm h.1], by simp [Ne.symm h.2.1], by simp [Ne.symm h.2.2],
    State.reserved_setFlag s f b, List.prefix_refl _⟩

theorem SameControl.closeOutput (s : State) : SameControl s s.closeOutput :=
  ⟨rfl, rfl, rfl, rfl, rfl, rfl, id, by simp, by simp, by simp,
    State.reserved_setFlag { s with out := { s.out with closed := true } } .outClosed true, List.prefix_refl _⟩

theorem SameControl.lower (s : State) (fs : List Flag) (h : Flag.busy ∉ fs ∧ Flag.done ∉ fs ∧ Flag.fault ∉ fs) :
    SameControl s (s.lower fs) :=
  ⟨by simp, by simp, by simp, by simp, by simp, by simp, by simp, by simp [h.1], by simp [h.2.1], by simp [h.2.2],
    State.reserved_lower s fs, by simp⟩

end Sys2Proof.Machine
end

