-- ==== Sys2Proof/Laws/PerInstr.lean ====
section
/-! SUPPORT. One family of statements over all instructions: how many bits each row's encoding has (spec/opcode_table.json's
widths; R28, R80, R84, R85, R88). -/

namespace Sys2Proof.Laws.Width

open Sys2Proof

/-- The least and the greatest width the opcode table gives a row. -/
def range : Instr → Nat × Nat
  | .reserved0 => (4, 4)
  | .count => (4, 4)
  | .build => (4, 4)
  | .generate => (4, 4)
  | .wrmagic => (4, 4)
  | .serialize => (4, 4)
  | .encode => (4, 4)
  | .close => (4, 4)
  | .rdmagic => (4, 4)
  | .deserialize => (4, 4)
  | .decode => (4, 4)
  | .compress => (4, 4)
  | .decompress => (4, 4)
  | .clear => (4, 4)
  | .reservedE => (4, 4)
  | .reservedF => (4, 4)
  | .magic _ => (32, 32)
  | .hdrInternal => (1, 1)
  | .hdrLeaf _ => (10, 10)
  | .bodyCode _ => (1, 256)
  | .literal8 _ => (8, 8)

/-- The encoding of a well-formed row has the table's width. -/
def Statement (i : Instr) : Prop :=
  i.wellFormed = true → (range i).1 ≤ (Sys2Proof.encode i).length ∧ (Sys2Proof.encode i).length ≤ (range i).2

theorem reserved0 : Statement .reserved0 := fun _ => by decide

theorem count : Statement .count := fun _ => by decide

theorem build : Statement .build := fun _ => by decide

theorem generate : Statement .generate := fun _ => by decide

theorem wrmagic : Statement .wrmagic := fun _ => by decide

theorem serialize : Statement .serialize := fun _ => by decide

theorem encode : Statement .encode := fun _ => by decide

theorem close : Statement .close := fun _ => by decide

theorem rdmagic : Statement .rdmagic := fun _ => by decide

theorem deserialize : Statement .deserialize := fun _ => by decide

theorem decode : Statement .decode := fun _ => by decide

theorem compress : Statement .compress := fun _ => by decide

theorem decompress : Statement .decompress := fun _ => by decide

theorem clear : Statement .clear := fun _ => by decide

theorem reservedE : Statement .reservedE := fun _ => by decide

theorem reservedF : Statement .reservedF := fun _ => by decide

theorem magic (m : BitVec 32) : Statement (.magic m) := by
  simp [Statement, range, Sys2Proof.encode]

theorem hdrInternal : Statement .hdrInternal := fun _ => by decide

theorem hdrLeaf (s : BitVec 9) : Statement (.hdrLeaf s) := by
  simp [Statement, range, Sys2Proof.encode]

theorem bodyCode (c : List Bool) : Statement (.bodyCode c) := by
  simp [Statement, range, Sys2Proof.encode, Instr.wellFormed]

theorem literal8 (v : BitVec 8) : Statement (.literal8 v) := by
  simp [Statement, range, Sys2Proof.encode]

end Sys2Proof.Laws.Width
end

