-- ==== Sys2Proof/Laws/Run.lean ====
section
/-! SUPPORT. What one unit of work can do to the control state, one lemma per part of the pseudocode and one for all, and
how runs unfold. -/

namespace Sys2Proof.Machine

open Sys2Proof

theorem countLiteral_control (p : Params) (v : BitVec 8) (s : State) : (countLiteral p v s).Ends (SameControl s) := by
  rw [countLiteral]
  split
  · exact .refl s
  · exact .of_tables rfl

theorem countLoop_control (p : Params) (s : State) : (countLoop p s).Ends (SameControl s) := by
  have hr := SameControl.readBits s 8
  rw [countLoop]
  split <;> rename_i heq <;> rw [heq] at hr
  · exact hr
  · exact hr.ends (countLiteral_control p _ _)

theorem countSeal_control (s : State) : (countSeal s).Ends (SameControl s) :=
  SameControl.trans (t := s.setFreq sentinel 1) (.of_tables rfl) (.setFlag _ _ _ (by decide))

theorem buildLeavesFrom_control (p : Params) (vs : List Sym) (s : State) :
    (buildLeavesFrom p vs s).Ends (SameControl s) := by
  induction vs generalizing s with
  | nil => exact .refl s
  | cons v vs ih =>
    rw [buildLeavesFrom]
    split
    · exact ih s
    · split
      · rename_i i s' ha
        have h1 : SameControl s { s' with pq := s'.pq ++ [i] } := (SameControl.alloc ha).trans (.of_tables rfl)
        exact h1.ends (ih _)
      · exact .refl s

theorem buildLeaves_control (p : Params) (s : State) : (buildLeaves p s).Ends (SameControl s) :=
  (SameControl.of_tables (t := { s with nnodes := 0, pq := [] }) rfl).ends (buildLeavesFrom_control p _ _)

theorem buildFew_control (p : Params) (s : State) : (buildFew p s).Ends (SameControl s) := by
  rw [buildFew]
  split
  · exact .refl s
  · split
    · exact .refl s
    · rename_i h1
      split
      · exact .alloc h1
      · rename_i h2
        exact ((SameControl.alloc h1).trans (.alloc h2)).trans (.of_tables rfl)
  · exact .refl s

theorem buildMerge_control (p : Params) (s : State) : (buildMerge p s).Ends (SameControl s) := by
  rw [buildMerge]
  split
  · exact .refl s
  · rename_i a q _
    split
    · exact SameControl.trans (t := { s with root := a, pq := [] }) (.of_tables rfl) (.setFlag _ _ _ (by decide))
    · split
      · exact .of_tables rfl
      · rename_i h
        exact (SameControl.alloc h).trans (.of_tables rfl)

theorem genStart_control (s : State) : (genStart s).Ends (SameControl s) := by
  rw [genStart]
  split <;> exact .of_tables rfl

theorem genWalk_control (s : State) : (genWalk s).Ends (SameControl s) := by
  rw [genWalk]
  split
  · exact .setFlag _ _ _ (by decide)
  · split
    · split
      · exact .of_tables rfl
      · trivial
    · exact .of_tables rfl

theorem serWalk_control (s : State) : (serWalk s).Ends (SameControl s) := by
  rw [serWalk]
  split
  · exact .refl s
  · rename_i rest _
    split
    · exact (SameControl.of_tables (t := { s with walk := rest }) rfl).trans (.writeSeq _ _)
    · exact (SameControl.of_tables rfl).trans (.writeSeq _ _)

theorem checkMagic_control (p : Params) (m : BitVec 32) (s : State) : (checkMagic p m s).Ends (SameControl s) := by
  rw [checkMagic]
  split <;> exact .refl s

theorem rdMagic_control (p : Params) (s : State) : (rdMagic p s).Ends (SameControl s) := by
  have hr := SameControl.readBits s 32
  rw [rdMagic]
  split <;> rename_i heq <;> rw [heq] at hr
  · exact hr
  · rw [checkMagic]
    split <;> exact hr

theorem attach_control (p : Params) (i : Idx) (st : List Pending) (s : State) :
    (attach p i st s).Ends (SameControl s) := by
  induction st generalizing i s with
  | nil => exact SameControl.trans (t := { s with root := i, pending := [] }) (.of_tables rfl) (.setFlag _ _ _ (by decide))
  | cons f st ih =>
    cases f with
    | left => exact .of_tables rfl
    | right l =>
      rw [attach]
      split
      · exact .of_tables rfl
      · rename_i h
        exact (SameControl.alloc h).ends (ih _ _)

theorem desLeaf_control (p : Params) (f : BitVec 9) (s : State) : (desLeaf p f s).Ends (SameControl s) := by
  rw [desLeaf]
  split
  · split
    · exact .refl s
    · rename_i h
      exact (SameControl.alloc h).ends (attach_control p _ _ _)
  · exact .refl s

theorem desLoop_control (s : State) : (desLoop s).Ends (SameControl s) := by
  have hr := SameControl.readBits s 1
  rw [desLoop]
  split <;> rename_i heq <;> rw [heq] at hr
  · exact hr
  · split
    · exact hr
    · exact hr.trans (.of_tables rfl)

theorem desField_control (p : Params) (s : State) : (desField p s).Ends (SameControl s) := by
  have hr := SameControl.readBits s 9
  rw [desField]
  split <;> rename_i heq <;> rw [heq] at hr
  · exact hr
  · exact Turn.backTo_ends _ (hr.ends (desLeaf_control p _ _))

/-- A look-up leaves what it leads to, or the state as it is. -/
theorem withCode_control {v : Sym} {use : Bits → Turn} {s t : State} (ht : SameControl s t)
    (h : ∀ c, (use c).Ends (SameControl t)) : (withCode v use t).Ends (SameControl s) := by
  rw [withCode]
  split
  · exact ht
  · exact ht.ends (h _)

theorem encLiteral_control (v : BitVec 8) (s : State) : (encLiteral v s).Ends (SameControl s) :=
  withCode_control (.refl s) fun _ => .writeSeq _ _

theorem encLoop_control (s : State) : (encLoop s).Ends (SameControl s) := by
  have hr := SameControl.readBits s 8
  rw [encLoop]
  split <;> rename_i heq <;> rw [heq] at hr
  · exact hr
  · exact withCode_control hr fun _ => .refl _

theorem encSentinel_control (s : State) : (encSentinel s).Ends (SameControl s) :=
  withCode_control (.refl s) fun _ => .refl s

theorem encEmit_control (c : Bits) (s : State) : (encEmit c s).Ends (SameControl s) := by
  cases c with
  | nil => exact .refl s
  | cons b bs => exact .writeSeq _ _

theorem encRewind_control (s : State) : (encRewind s).Ends (SameControl s) :=
  ⟨rfl, rfl, rfl, rfl, rfl, rfl, fun _ => Nat.zero_le _, rfl, rfl, rfl, rfl, List.prefix_refl _⟩

theorem decByte_control (v : Sym) (s : State) : SameControl s (decByte v s) :=
  (SameControl.writeSeq s _).trans (.of_tables rfl)

/-- A move of DECODE leaves what it leads to at the leaf of a byte, or a state in which only `CUR` has moved. -/
theorem decMove_control {byte : Sym → State → Turn} (b : Bool) (s : State)
    (h : ∀ v t, (byte v t).Ends (SameControl t)) : (decMove byte b s).Ends (SameControl s) := by
  rw [decMove]
  split
  · exact .refl s
  · rename_i l r _ _
    have h1 : SameControl s { s with cur := if b then r else l } := .of_tables rfl
    dsimp only
    split
    · exact h1
    · split
      · exact h1
      · exact h1.ends (h _ _)

theorem decBit_control (b : Bool) (s : State) : (decBit b s).Ends (SameControl s) :=
  decMove_control b s fun v t => decByte_control v t

theorem decLoop_control (s : State) : (decLoop s).Ends (SameControl s) := by
  have hr := SameControl.readBits s 1
  rw [decLoop]
  split <;> rename_i heq <;> rw [heq] at hr
  · exact hr
  · exact hr.ends (decMove_control _ _ fun _ _ => .refl _)

theorem decBits_control (bs : Bits) (s : State) : (decBits bs s).Ends (SameControl s) := by
  induction bs generalizing s with
  | nil => exact .refl s
  | cons b bs ih =>
    have h1 := decBit_control b s
    rw [decBits]
    split
    · rename_i heq
      rw [heq] at h1
      exact h1.ends (ih _)
    · exact h1

/-- What one unit of work of any command leaves alone. -/
theorem turn_control (p : Params) (st : Stage) (s : State) : (turn p st s).Ends (SameControl s) := by
  cases st with
  | countClear => exact .of_tables rfl
  | countLoop => exact countLoop_control p s
  | countSeal => exact countSeal_control s
  | buildLeaves => exact buildLeaves_control p s
  | buildFew => exact buildFew_control p s
  | buildMerge => exact buildMerge_control p s
  | genStart => exact genStart_control s
  | genWalk => exact genWalk_control s
  | wrMagic => exact .writeSeq _ _
  | serStart => exact .of_tables rfl
  | serWalk => exact serWalk_control s
  | serField v => exact .writeSeq _ _
  | encRewind => exact encRewind_control s
  | encLoop => exact encLoop_control s
  | encSentinel => exact encSentinel_control s
  | encEmit c => exact encEmit_control c s
  | rdMagic => exact rdMagic_control p s
  | desStart => exact .of_tables rfl
  | desLoop => exact desLoop_control s
  | desField => exact desField_control p s
  | decStart => exact .of_tables rfl
  | decLoop => exact decLoop_control s
  | decEmit v => exact decByte_control v s
  | closeOut => exact .closeOutput s
  | implicitClear => exact (SameControl.lower s _ (by decide)).trans (.of_tables rfl)
  | discardAll => exact .lower s _ (by decide)
  | discardTree => exact .lower s _ (by decide)
  | clearAll => trivial
  | raise c => trivial

/-- One unit of work, by the part it stands in. -/
theorem unit_cons (p : Params) {s : State} {st : Stage} {rest : List Stage} (h : s.todo = st :: rest) :
    unit p s = (turn p st s).settle := by
  rw [unit, h]

/-- A fault raised is entered (R215). -/
theorem unit_raise (p : Params) {s : State} {c : Cause} {rest : List Stage} (h : s.todo = .raise c :: rest) :
    unit p s = .next (s.raise c) :=
  unit_cons p h

/-- CLEAR's run is one unit (R193). -/
theorem unit_clearAll (p : Params) {s : State} {rest : List Stage} (h : s.todo = .clearAll :: rest) :
    unit p s = .next s.clearBlock :=
  unit_cons p h

/-- CLEAR leaves what it leaves wherever its run starts: acceptance changes nothing that its pseudocode does not set. -/
theorem clearBlock_acceptClear (s : State) : s.acceptClear.clearBlock = s.clearBlock := rfl

/-- With no part left the command completes. -/
theorem unit_nil (p : Params) {s : State} (h : s.todo = []) : unit p s = .next s.finish := by
  rw [unit, h]

/-- A run goes on after a unit that leaves the block `BUSY`. -/
theorem runBusy_busy (p : Params) (n : Nat) {s t : State} (h : unit p s = .next t) (hb : t.phase = .busy) :
    runBusy p (n + 1) s = runBusy p n t := by
  rw [runBusy, h]
  exact if_pos hb

/-- A run ends with the unit that leaves `BUSY`. -/
theorem runBusy_end (p : Params) (n : Nat) {s t : State} (h : unit p s = .next t) (hb : t.phase ≠ .busy) :
    runBusy p (n + 1) s = .next t := by
  rw [runBusy, h]
  exact if_neg hb

/-- A run that answers ends outside `BUSY`. -/
theorem runBusy_phase (p : Params) {n : Nat} {s t : State} (h : runBusy p n s = .next t) : t.phase ≠ .busy := by
  induction n generalizing s with
  | zero => cases h
  | succ n ih =>
    rw [runBusy] at h
    split at h
    · split at h
      · exact ih h
      · cases h; assumption
    · cases h
    · cases h

/-- The unit after a raise enters the fault, so that both together are the end of a whole stream unit. -/
theorem settle_raise (p : Params) (c : Cause) (s : State) :
    (Turn.raise c s).settle = .next { s with todo := [.raise c] } ∧
      unit p { s with todo := [.raise c] } = (Turn.raise c s).settleWhole := by
  refine ⟨rfl, (unit_raise p rfl).trans (congrArg _ ?_)⟩
  have h : ({ s with todo := [.raise c], err := c.code } : State).flag .outClosed =
    ({ s with err := c.code } : State).flag .outClosed := rfl
  simp only [State.raise, h]
  split <;> rfl

/-- What the end of a unit of work is as a step: the end of the command, or a next state under the same control but for
what is left to do. -/
theorem settle_next {T : Turn} {s t : State} (hT : T.Ends (SameControl s)) (h : T.settle = .next t) :
    T = .ended t ∨ ∃ u td, SameControl s u ∧ t = { u with todo := td } := by
  cases T with
  | stop f => cases h
  | ended u => cases h; exact .inl rfl
  | again u => cases h; exact .inr ⟨_, _, hT, rfl⟩
  | leave u => cases h; exact .inr ⟨_, _, hT, rfl⟩
  | first st u => cases h; exact .inr ⟨_, _, hT, rfl⟩
  | instead st u => cases h; exact .inr ⟨_, _, hT, rfl⟩
  | raise c u => cases h; exact .inr ⟨_, _, hT, rfl⟩

/-- What one unit of work can do to the control state: complete the command, end it in a fault or in CLEAR, or go on
under the same control. -/
theorem unit_next (p : Params) {s t : State} (h : unit p s = .next t) :
    s.todo = [] ∧ t = s.finish ∨ (∃ st rest, s.todo = st :: rest ∧ turn p st s = .ended t) ∨
      ∃ u td, SameControl s u ∧ t = { u with todo := td } := by
  rw [unit] at h
  split at h
  · cases h; exact .inl ⟨‹_›, rfl⟩
  · rcases settle_next (turn_control p _ s) h with ho | hc
    · exact .inr (.inl ⟨_, _, ‹_›, ho⟩)
    · exact .inr (.inr hc)

/-- The bits of a code, written one a unit, are the code (R170, R172): a run at `encEmit c` goes on with the next part
after `c` has been written. -/
theorem runBusy_encEmit (p : Params) (c : Bits) {n : Nat} {s : State} {rest : List Stage} (hb : s.phase = .busy)
    (h : s.todo = .encEmit c :: rest) :
    runBusy p (n + c.length + 1) s = runBusy p n { s.writeSeq c with todo := rest } := by
  induction c generalizing s with
  | nil =>
    rw [runBusy_busy p (n + ([] : Bits).length) (unit_cons p h) (by simpa [turn, encEmit] using hb)]
    simp [State.writeSeq, h]
  | cons b bs ih =>
    rw [runBusy_busy p (n + (b :: bs).length) (unit_cons p h) (by simpa [turn, encEmit] using hb),
      show n + (b :: bs).length = n + bs.length + 1 from rfl, ih (by simpa using hb) (by simp [h])]
    simp [State.writeSeq]

/-- A command presented outside `IDLE` has no effect (R217, R240). -/
theorem Command.run_not_idle (p : Params) (c : Command) {s : State} (h : s.phase ≠ .idle) : c.run p s = .next s := by
  rw [Command.run, if_neg h]

end Sys2Proof.Machine
end

