-- ==== Sys2Proof/Tests/Slice0.lean ====
section
/-! SUPPORT. Tests of the model, each about one decoding or one step on a small state, with the source of its expected result; and
for every statement with hypotheses a state and operands that meet them together. -/

set_option Elab.async false

namespace Sys2Proof.Tests

open Sys2Proof Sys2Proof.Machine

/-! ### Helpers -/

/-- The outcome is a next state that passes a check. -/
def ends (o : Host.Outcome State Fault Refusal) (check : State → Bool) : Bool :=
  match o with
  | .next s => check s
  | .fault _ => false
  | .refused _ => false

/-- The parameters of the byte-level vectors of 95_test_vectors.md: `MAGIC` = 0xFACE8201. -/
def vectorParams : Params := { magic := 0xFACE8201, wCnt := 32, nodeCap := 513 }

/-- A bit sequence written as a number of `n` bits. -/
def seq (n v : Nat) : Bits := bits n v

/-- After reset with the given content of `IN`. -/
def withBits (b : Bits) : State := { State.reset with inp := { data := b, pos := 0 } }

/-- After reset with the given bytes on `IN`. -/
def withBytes (l : List (BitVec 8)) : State := withBits (unpackBytes l)

/-- The tree of R128 (V1), as BUILD leaves it. -/
def storeV1 : Vector Node 513 :=
  ((((State.reset.node.set 0 (.leaf 65 3)).set 1 (.leaf 66 1)).set 2 (.leaf 256 1)).set 3 (.internal 1 2 2)).set 4
    (.internal 3 0 5)

/-- The same tree as a term. -/
def treeV1 : HTree := .node (.node (.leaf 66) (.leaf 256)) (.leaf 65)

/-- The header of that tree (V1). -/
def headerV1 : Bits := seq 32 0x242C0241

/-- `IDLE` with that tree valid. -/
def holdingV1 : State := { State.reset with node := storeV1, root := 4, nnodes := 5 }.setFlag .treeValid true

/-- `IDLE` with that tree and its code table valid. -/
def codedV1 : State :=
  { holdingV1 with code := ((State.reset.code.set 65 [true]).set 66 [false, false]).set 256 [false, true] }.setFlag
    .codeValid true

/-- `IDLE` with a table of three symbols valid (V1). -/
def countedV1 : State :=
  { State.reset with freq := ((State.reset.freq.set 65 3).set 66 1).set 256 1 }.setFlag .freqValid true

/-- `IDLE` with the sentinel alone counted (V2). -/
def countedV2 : State := { State.reset with freq := State.reset.freq.set 256 1 }.setFlag .freqValid true

/-- A command running at the given parts of its pseudocode. -/
def runningAt (op : BitVec 4) (parts : List Stage) (s : State) : State := { s.accept op with todo := parts }

/-- A host that has attached both transports and done no more. -/
def attachedLedger : Ledger := (Ledger.empty.after State.reset (.attachIn [] 0)).after State.reset .attachOut

/-! ### Well-formedness: an ill-formed term for each check -/

theorem test_wellFormed_refuses_leaf_257 : (Instr.hdrLeaf 257).wellFormed = false := by decide
theorem test_wellFormed_refuses_empty_code : (Instr.bodyCode []).wellFormed = false := by decide
theorem test_wellFormed_refuses_code_257 : (Instr.bodyCode (List.replicate 257 true)).wellFormed = false := by
  decide +kernel
theorem test_wellFormed_takes_leaf_256 : (Instr.hdrLeaf 256).wellFormed = true := by decide

/-! ### Decoding: words written out from R81 and R85 -/

theorem test_decode_reserved0 : decode .command [false, false, false, false] = .ok (.reserved0, []) := by decide
theorem test_decode_count : decode .command [false, false, false, true] = .ok (.count, []) := by decide
theorem test_decode_build : decode .command [false, false, true, false] = .ok (.build, []) := by decide
theorem test_decode_generate : decode .command [false, false, true, true] = .ok (.generate, []) := by decide
theorem test_decode_wrmagic : decode .command [false, true, false, false] = .ok (.wrmagic, []) := by decide
theorem test_decode_serialize : decode .command [false, true, false, true] = .ok (.serialize, []) := by decide
theorem test_decode_encode : decode .command [false, true, true, false] = .ok (.encode, []) := by decide
theorem test_decode_close : decode .command [false, true, true, true] = .ok (.close, []) := by decide
theorem test_decode_rdmagic : decode .command [true, false, false, false] = .ok (.rdmagic, []) := by decide
theorem test_decode_deserialize : decode .command [true, false, false, true] = .ok (.deserialize, []) := by decide
theorem test_decode_decode : decode .command [true, false, true, false] = .ok (.decode, []) := by decide
theorem test_decode_compress : decode .command [true, false, true, true] = .ok (.compress, []) := by decide
theorem test_decode_decompress : decode .command [true, true, false, false] = .ok (.decompress, []) := by decide
theorem test_decode_clear : decode .command [true, true, false, true] = .ok (.clear, []) := by decide
theorem test_decode_reservedE : decode .command [true, true, true, false] = .ok (.reservedE, []) := by decide
theorem test_decode_reservedF : decode .command [true, true, true, true] = .ok (.reservedF, []) := by decide

/-- H3's bits of 0xFACE8201. -/
theorem test_decode_magic :
    decode .magic [true, true, true, true, true, false, true, false, true, true, false, false, true, true, true, false,
      true, false, false, false, false, false, true, false, false, false, false, false, false, false, false, true] =
      .ok (.magic 0xFACE8201, []) := by decide

theorem test_decode_internal : decode .header [false, true] = .ok (.hdrInternal, [true]) := by decide

/-- S2: `"1100000000"`. -/
theorem test_decode_leaf_sentinel :
    decode .header [true, true, false, false, false, false, false, false, false, false] = .ok (.hdrLeaf 256, []) := by
  decide

/-- V1's code of symbol 66, `"00"`. -/
theorem test_decode_body : decode (.body 2) [false, false, true] = .ok (.bodyCode [false, false], [true]) := by decide

theorem test_decode_literal :
    decode .literal [false, true, false, false, false, false, false, true] = .ok (.literal8 65, []) := by decide

/-- H10: a leaf token whose field is incomplete. -/
theorem test_decode_refuses_short_leaf : decode .header [true, false, false, true, false, false] = .error .truncatedToken := by
  decide

theorem test_table_word_leaf : decodeTableWord 16 0x242 = some (.hdrLeaf 66) := by decide
theorem test_table_word_compress : decodeTableWord 8 0xB = some .compress := by decide

/-! ### One step or one command each, from 95_test_vectors.md -/

/-- F3: `[255, 0, 255]`. -/
theorem test_count_F3 :
    ends (exec .count (withBytes [255, 0, 255])) (fun t =>
      t.freq[(0 : Sym)] == 1 && t.freq[(255 : Sym)] == 2 && t.freq[(256 : Sym)] == 1 && t.freq[(1 : Sym)] == 0 &&
      t.inp.pos == 24 && t.status == 0x0A) = true := by decide +kernel

/-- F5: `W_CNT` = 2 and four times the byte 7. -/
theorem test_count_F5 :
    ends (Command.count.run { vectorParams with wCnt := 2 } (withBytes [7, 7, 7, 7])) (fun t =>
      t.err == 6 && t.freq[(7 : Sym)] == 3 && t.status == 0x44 && t.out == { bits := [], closed := true }) = true := by
  decide +kernel

/-- B1: V1's store. -/
theorem test_build_B1 :
    ends (exec .build countedV1) (fun t =>
      t.node[(0 : Idx)] == .leaf 65 3 && t.node[(1 : Idx)] == .leaf 66 1 && t.node[(2 : Idx)] == .leaf 256 1 &&
      t.node[(3 : Idx)] == .internal 1 2 2 && t.node[(4 : Idx)] == .internal 3 0 5 && t.root == 4 && t.nnodes == 5) =
      true := by decide +kernel

/-- B8: `NODE_CAP` = 3 and three symbols. -/
theorem test_build_B8 :
    ends (Command.build.run { vectorParams with nodeCap := 3 }
      { countedV1 with freq := countedV1.freq.set 65 1 }) (fun t => t.err == 8 && t.nnodes == 3) = true := by
  decide +kernel

/-- G1: V1's codes. -/
theorem test_generate_G1 :
    ends (exec .generate holdingV1) (fun t =>
      t.code[(65 : Sym)] == [true] && t.code[(66 : Sym)] == [false, false] && t.code[(256 : Sym)] == [false, true] &&
      t.code[(0 : Sym)] == []) = true := by decide +kernel

/-- G3: a tree that is a single leaf. -/
theorem test_generate_G3 :
    ends (exec .generate { holdingV1 with root := 2 }) (fun t => t.err == 5 && !t.flag .codeValid) = true := by
  decide +kernel

/-- H3: the bits of 0xFACE8201. -/
theorem test_wrmagic_H3 :
    ends (Command.wrmagic.run vectorParams State.reset) (fun t =>
      t.out.bits == [true, true, true, true, true, false, true, false, true, true, false, false, true, true, true, false,
        true, false, false, false, false, false, true, false, false, false, false, false, false, false, false, true]) =
      true := by decide +kernel

/-- H1: V1's header. -/
theorem test_serialize_H1 : ends (exec .serialize holdingV1) (fun t => t.out.bits == headerV1) = true := by decide +kernel

/-- H4 and H5. -/
theorem test_rdmagic_H4 :
    ends (Command.rdmagic.run vectorParams (withBytes [0xFA, 0xCE, 0x82, 0x01, 0x24])) (fun t =>
      t.inp.pos == 32 && t.status == 0x02) = true := by decide +kernel
theorem test_rdmagic_H5 :
    ends (Command.rdmagic.run vectorParams (withBytes [0xFA, 0xCE, 0x82, 0x00, 0x24])) (fun t =>
      t.err == 1 && t.inp.pos == 32) = true := by decide +kernel

/-- H1, read back: children before their parents. -/
theorem test_deserialize_H1 :
    ends (exec .deserialize (withBits headerV1)) (fun t =>
      t.node[(0 : Idx)] == .leaf 66 0 && t.node[(1 : Idx)] == .leaf 256 0 && t.node[(2 : Idx)] == .internal 0 1 0 &&
      t.node[(3 : Idx)] == .leaf 65 0 && t.node[(4 : Idx)] == .internal 2 3 0 && t.root == 4 && t.nnodes == 5) = true := by
  decide +kernel

/-- H8: a leaf field of 257. -/
theorem test_deserialize_H8 :
    ends (exec .deserialize (withBits (seq 10 0x301))) (fun t => t.err == 7 && t.inp.pos == 10) = true := by decide +kernel

/-- E1: `IN` rewound and encoded. -/
theorem test_encode_E1 :
    ends (exec .encode { codedV1 with inp := { data := unpackBytes [65, 65, 65, 66], pos := 32 } }) (fun t =>
      t.out.bits == seq 7 0x71 && t.inp.pos == 32) = true := by decide +kernel

/-- E3: 67 has no code. -/
theorem test_encode_E3 :
    ends (exec .encode { codedV1 with inp := { data := unpackBytes [65, 67], pos := 0 } }) (fun t =>
      t.err == 4 && t.out == { bits := [true], closed := true }) = true := by decide +kernel

/-- E7 and E8. -/
theorem test_close_E7 :
    ends (exec .close State.reset) (fun t => t.out == { bits := [], closed := true } && t.flag .outClosed) = true := by
  decide +kernel
theorem test_close_E8 : ends (exec .close (State.reset.setFlag .outClosed true)) (fun t => t.err == 10) = true := by
  decide +kernel

/-- The worked example of R180. -/
theorem test_decode_R180 :
    ends (exec .decode { holdingV1 with inp := { data := seq 8 0xE2, pos := 0 } }) (fun t =>
      t.out.bits == unpackBytes [65, 65, 65, 66] && t.inp.pos == 7 && t.cur == 2) = true := by decide +kernel

/-- X7, its body: cut inside the sentinel's code. -/
theorem test_decode_X7 :
    ends (exec .decode { holdingV1 with inp := { data := seq 6 0x38, pos := 0 } }) (fun t =>
      t.err == 2 && t.out == { bits := unpackBytes [65, 65, 65, 66], closed := true } && t.inp.pos == 6) = true := by
  decide +kernel

/-- V2 and P1's final flags: the stream of the empty input after its 32 bits of `MAGIC`. -/
theorem test_compress_V2 :
    ends (exec .compress State.reset) (fun t =>
      t.out.bits.drop 32 == seq 22 0x180400 && t.out.closed && t.status == 0x42 && t.op == 0xB) = true := by decide +kernel

/-- V1: the nine bytes of the reference transport. -/
theorem test_compress_V1 :
    ends (Command.compress.run vectorParams (withBytes [65, 65, 65, 66])) (fun t =>
      t.out.delivered == some [0xFA, 0xCE, 0x82, 0x01, 0x24, 0x2C, 0x02, 0x41, 0xE2]) = true := by decide +kernel

/-- P2. -/
theorem test_decompress_P2 :
    ends (Command.decompress.run vectorParams (withBytes [0xFA, 0xCE, 0x82, 0x01, 0x24, 0x2C, 0x02, 0x41, 0xE2])) (fun t =>
      t.out == { bits := unpackBytes [65, 65, 65, 66], closed := true } && t.inp.pos == 71 && t.status == 0x42 &&
      t.nnodes == 5) = true := by decide +kernel

/-- X10: a header that is one leaf and one body bit. -/
theorem test_decompress_X10 :
    ends (Command.decompress.run vectorParams (withBits (seq 32 0xFACE8201 ++ seq 11 0x600))) (fun t =>
      t.err == 3 && t.status == 0x54 && t.inp.pos == 43) = true := by decide +kernel

/-- A4. -/
theorem test_clear_A4 :
    ends (exec .clear (State.reset.raise .truncation)) (fun t =>
      t.phase == .idle && t.err == 0 && t.status == 0x02 && t.op == 0xD) = true := by decide +kernel

/-- R231: from its acceptance on CLEAR is `BUSY`, and a code presented in its run has no effect. -/
theorem test_clear_busy :
    ends (steps 2 { State.reset.raise .truncation with host := [.start 0xD, .present 0x1] }) (fun t =>
      t.phase == .busy && t.status.getLsbD 0 && t.op == 0xD && t.todo == [.clearAll]) = true ∧
    ends (steps 3 { State.reset.raise .truncation with host := [.start 0xD, .present 0x1] }) (fun t =>
      t.phase == .idle && t.status == 0x02 && t.op == 0xD) = true := by decide +kernel

/-- A1, for each of the three codes. -/
theorem test_reserved0_A1 : ends (exec .reserved0 State.reset) (fun t => t.err == 11 && t.op == 0x0) = true := by
  decide +kernel
theorem test_reservedE_A1 : ends (exec .reservedE State.reset) (fun t => t.err == 11 && t.op == 0xE) = true := by
  decide +kernel
theorem test_reservedF_A1 : ends (exec .reservedF State.reset) (fun t => t.err == 11 && t.op == 0xF && t.out.closed) = true := by
  decide +kernel

/-- R152: another value than `MAGIC`, taken at the read. -/
theorem test_magic_refused :
    (checkMagic vectorParams 0xFACE8200 (runningAt 0x8 [.rdMagic] State.reset)).settleWhole =
      .next ((runningAt 0x8 [.rdMagic] State.reset).raise .format) := by rfl

/-- H7's first token opens a node; H9's leaf 256 is the whole tree. -/
theorem test_hdrInternal_H7 :
    ends (exec .hdrInternal (runningAt 0x9 [.desLoop] State.reset)) (fun t => t.pending == [.left]) = true := by
  decide +kernel
theorem test_hdrLeaf_H9 :
    ends (exec (.hdrLeaf 256) (runningAt 0x9 [.desLoop] State.reset)) (fun t =>
      t.node[(0 : Idx)] == .leaf 256 0 && t.root == 0 && t.nnodes == 1 && t.flag .treeValid) = true := by decide +kernel

/-- R180's example: `"00"` is symbol 66. -/
theorem test_bodyCode_66 :
    ends (exec (.bodyCode [false, false]) (runningAt 0xA [.decLoop] { holdingV1 with cur := 4 })) (fun t =>
      t.out.bits == seq 8 66 && t.cur == 4) = true := by decide +kernel

/-- R110: a literal is counted. -/
theorem test_literal8_counted :
    ends (exec (.literal8 7) (runningAt 0x1 [.countLoop, .countSeal] State.reset)) (fun t =>
      t.freq[(7 : Sym)] == 1 && t.freq[(8 : Sym)] == 0) = true := by decide +kernel

/-- A5 and A2 as steps: GENERATE after reset; a code presented while `BUSY`. -/
theorem test_step_A5 :
    ends (step { State.reset with host := [.present 0x3] }) (fun t => t.err == 10 && t.phase == .fault) = true := by
  decide +kernel
theorem test_step_A2 :
    ends (step { runningAt 0x1 [.countLoop] State.reset with host := [.present 0xB] }) (fun t =>
      t.phase == .busy && t.op == 0x1 && t.todo == [.countLoop] && t.host == [] && t.status == 0x01) = true := by decide +kernel

/-! ### Reset within a command, and the host's duties -/

/-- R230: `rst` between the tag and the field of a leaf token leaves `IN` one bit on, and `OUT` open. -/
theorem test_rst_inside_leaf_token :
    ends (steps 2 { runningAt 0x9 [.desLoop] (withBits (seq 10 0x300)) with host := [.tick, .rst true] }) (fun t =>
      t.inp.pos == 1 && t.phase == .idle && !t.out.closed) = true := by decide +kernel

/-- R230: `rst` inside the code `"00"` of ENCODE leaves its first bit written. -/
theorem test_rst_inside_code :
    ends (steps 3 { runningAt 0x6 [.encLoop, .encSentinel] { codedV1 with inp := (withBytes [66]).inp } with
      host := [.tick, .tick, .rst true] }) (fun t => t.out == { bits := [false], closed := false } && t.inp.pos == 8) =
      true := by decide +kernel

/-- R230: `rst` after the read that finds the end of a body and before the close of the fault's entry. -/
theorem test_rst_before_close :
    ends (steps 2 { runningAt 0xA [.decLoop] holdingV1 with host := [.tick, .rst true] }) (fun t =>
      t.status == 0 && t.err == 0 && !t.out.closed) = true := by decide +kernel

/-- R240: any code may be presented while `BUSY`; R237: COUNT asks for `IN` at its start. -/
theorem test_duty_codes :
    attachedLedger.kept (runningAt 0x1 [.countLoop] State.reset) (.present 0x5) = true ∧
    attachedLedger.kept { withBytes [65] with inp := { data := seq 8 65, pos := 8 } } (.present 0x1) = false := by
  decide +kernel

/-- R241: SERIALIZE before WRMAGIC, and ENCODE a second time, break the order; in the order of R194 they keep it. -/
theorem test_duty_order :
    attachedLedger.kept codedV1 (.present 0x5) = false ∧
    ({ attachedLedger with outHolds := .magic }).kept codedV1 (.present 0x5) = true ∧
    ({ attachedLedger with outHolds := .header }).kept codedV1 (.present 0x6) = true ∧
    (({ attachedLedger with outHolds := .header }).after codedV1 (.present 0x6)).kept codedV1 (.present 0x6) = false := by
  decide +kernel

/-- R242: DESERIALIZE after RDMAGIC keeps the duty, with `IN` attached anew between them it does not. -/
theorem test_duty_reposition :
    (attachedLedger.after State.reset (.present 0x8)).kept State.reset (.present 0x9) = true ∧
    ((attachedLedger.after State.reset (.present 0x8)).after State.reset (.attachIn [] 32)).kept State.reset (.present 0x9) =
      false := by decide +kernel

/-- R236: after `rst` in a run the host closes `OUT` and attaches fresh transports before it presents a command. -/
theorem test_duty_abandoned :
    let l := attachedLedger.after (runningAt 0xB [.countLoop] State.reset) (.rst true)
    l.kept State.reset (.present 0xB) = false ∧ l.kept State.reset .attachOut = false ∧
    (((l.after State.reset .closeOut).after State.reset .attachOut).after State.reset (.attachIn [] 0)).kept State.reset
      (.present 0xB) = true := by decide +kernel

/-- R233: a COUNT for which no `OUT` was attached leaves none to close when `rst` abandons it. -/
theorem test_duty_abandoned_without_out :
    let l := (Ledger.empty.after State.reset (.attachIn [] 0)).after (runningAt 0x1 [.countLoop] State.reset) (.rst true)
    l.mustClose = false ∧ l.kept State.reset .attachOut = true := by decide +kernel

/-- R238: the tables of a counted input may encode no other, whatever was deserialized in between; those of a header may. -/
theorem test_duty_stable :
    let l := (attachedLedger.after State.reset (.present 0x1)).after State.reset (.attachIn [true] 0)
    let rebuilt := (((l.after State.reset (.present 0x8)).after State.reset (.present 0x9)).after State.reset
      (.present 0x2)).after State.reset (.present 0x3)
    ({ rebuilt with outHolds := .header }).kept { codedV1 with inp := { data := [true], pos := 1 } } (.present 0x6) = false ∧
    ({ rebuilt with outHolds := .header }).kept codedV1 (.present 0x6) = true ∧
    (({ rebuilt with outHolds := .header }).after State.reset (.present 0x9)).codeOf = none := by decide +kernel

/-- R239: an `OUT` attached in `FAULT` before CLEAR serves the COMPRESS after it (with `IN` attached afresh, R217); in P5 both
are attached after CLEAR. -/
theorem test_duty_fresh_out :
    let s := (State.reset.raise .truncation).attachOut
    let failed := attachedLedger.after State.reset (.present 0xC)
    let l := (failed.after s .attachOut).after s (.attachIn [] 0)
    failed.kept s (.present 0xD) = true ∧ failed.freshBeforeClear (State.reset.raise .truncation) = false ∧
    l.freshBeforeClear s = true ∧ (l.after s (.present 0xD)).kept s.clearBlock (.present 0xB) = true ∧
    (failed.after s (.present 0xD)).kept s.clearBlock (.present 0xB) = false ∧
    (((failed.after s (.present 0xD)).after s.clearBlock .attachOut).after s.clearBlock (.attachIn [] 0)).kept s.clearBlock
      (.present 0xB) = true := by decide +kernel

/-! ### Witnesses: the hypotheses of every statement can be met -/

/-- Each clause: `rst` in a run, a code while it is held, its release, a unit of work, and the wait. -/
theorem witness_RstGivesResetState :
    ({ runningAt 0x1 [.countLoop] State.reset with host := [.rst true] } : State).host = .rst true :: [] ∧
    ({ State.reset with rst := true, host := [.present 0x1] } : State).rst = true ∧
    ({ State.reset with rst := true, host := [.present 0x1] } : State).host = .present 0x1 :: [] ∧
    ({ State.reset with rst := true, host := [.start 0x1] } : State).host = .start 0x1 :: [] ∧
    ({ State.reset with rst := true, host := [.rst false] } : State).host = .rst false :: [] ∧
    ({ runningAt 0x1 [.countLoop] State.reset with host := [.tick] } : State).host = .tick :: [] ∧
    ends (step { runningAt 0x1 [.countLoop] State.reset with host := [.tick] }) (fun _ => true) = true ∧
    State.reset.phase ≠ .busy ∧ State.reset.host = [] := by decide +kernel

theorem witness_AcceptanceStartsTheCommand :
    ({ State.reset.raise .truncation with host := [.start 0xD] } : State).host = .start 0xD :: [] ∧
    (State.reset.raise .truncation).phase ≠ .busy ∧ (State.reset.raise .truncation).rst = false ∧ State.reset.phase ≠ .busy ∧
    Command.build ∈ Command.all ∧ ({ countedV1 with host := [.start 0x2] } : State).host = .start Command.build.op :: [] ∧
    ({ countedV1 with host := [.start 0x2] } : State).phase = .idle ∧
    ({ countedV1 with host := [.start 0x2] } : State).rst = false ∧
    ({ countedV1 with host := [.start 0x2] } : State).meets Command.build.needs = true ∧
    ({ State.reset with host := [.start 0x2] } : State).meets Command.build.needs = false ∧
    (runningAt 0x1 [.countLoop] State.reset).rst = false ∧
    ({ runningAt 0x1 [.countLoop] State.reset with host := [.start 0x2] } : State).host = .start Command.build.op :: [] ∧
    ({ runningAt 0x1 [.countLoop] State.reset with host := [.start 0x2] } : State).phase = .busy := by decide +kernel

theorem witness_BusyIgnoresCommands :
    ({ runningAt 0x1 [.countLoop] State.reset with host := [.present 0x2] } : State).phase = .busy ∧
    ({ runningAt 0x1 [.countLoop] State.reset with host := [.present 0x2] } : State).host = .present 0x2 :: [] ∧
    ({ runningAt 0x1 [.countLoop] State.reset with host := [.start 0xF] } : State).host = .start 0xF :: [] := by
  decide +kernel

theorem witness_FaultIsStickyUntilClear :
    (State.reset.raise .truncation).phase = .fault ∧ (0xC : BitVec 4) ≠ 0xD ∧
    ({ State.reset.raise .truncation with host := [.present 0xC] } : State).host = .present 0xC :: [] ∧
    ({ State.reset.raise .truncation with host := [.start 0xC] } : State).host = .start 0xC :: [] ∧
    ({ State.reset.raise .truncation with host := [.present 0xD] } : State).host = .present 0xD :: [] ∧
    ({ State.reset.raise .truncation with host := [.start 0xD] } : State).host = .start 0xD :: [] ∧
    (State.reset.raise .truncation).rst = false ∧
    ({ State.reset.raise .truncation with host := [.rst true] } : State).host = .rst true :: [] := by decide +kernel

theorem witness_ClearReturnsToResetState :
    State.reset.phase ≠ .busy ∧ (State.reset.raise .truncation).phase ≠ .busy := by decide +kernel

theorem witness_ReservedCodesRaiseIllegalCommand : State.reset.phase = .idle := by decide

/-- With every valid flag 0 and `OUT_CLOSED` = 1 each row's precondition fails. -/
theorem witness_WrongFlagRaisesSequenceFault :
    (State.reset.setFlag .outClosed true).phase = .idle ∧
    (State.reset.setFlag .outClosed true).meets [(.freqValid, true)] = false ∧
    (State.reset.setFlag .outClosed true).meets [(.treeValid, true)] = false ∧
    (State.reset.setFlag .outClosed true).meets [(.outClosed, false)] = false ∧
    (State.reset.setFlag .outClosed true).meets [(.treeValid, true), (.outClosed, false)] = false ∧
    (State.reset.setFlag .outClosed true).meets [(.codeValid, true), (.outClosed, false)] = false ∧
    State.reset.phase = .idle ∧ State.reset.err = 0 ∧
    ends (exec .rdmagic State.reset) (fun t => t.err == 1) = true := by decide +kernel

theorem witness_CountTalliesTheInput :
    (withBytes [65, 65, 65, 66]).phase = .idle ∧
    ∀ v : BitVec 8, (wholeBytes (withBytes [65, 65, 65, 66]).inp.rest).count v < 2 ^ 32 := by
  refine ⟨by decide, fun v => Nat.lt_of_le_of_lt List.count_le_length ?_⟩
  decide +kernel

theorem val_bits_byte (v : BitVec 8) :
    BitVec.ofNat 8 (val [v.toNat.testBit 7, v.toNat.testBit 6, v.toNat.testBit 5, v.toNat.testBit 4, v.toNat.testBit 3,
      v.toNat.testBit 2, v.toNat.testBit 1, v.toNat.testBit 0]) = v := by
  revert v
  decide +kernel

/-- The whole bytes of unpacked bytes are those bytes (R60, R51). -/
theorem wholeBytes_unpackBytes (l : List (BitVec 8)) : wholeBytes (unpackBytes l) = l := by
  induction l with
  | nil => rfl
  | cons v l ih =>
    simp only [unpackBytes, bits, List.cons_append, List.nil_append, wholeBytes, ih, val_bits_byte]

/-- The other clause: an input of 2^32 times the byte 7. -/
theorem witness_CountOverflow :
    (withBytes (List.replicate (2 ^ 32) 7)).phase = .idle ∧
    2 ^ 32 ≤ (wholeBytes (withBytes (List.replicate (2 ^ 32) 7)).inp.rest).count 7 := by
  refine ⟨rfl, ?_⟩
  simp only [withBytes, withBits, Inp.rest, List.drop_zero, wholeBytes_unpackBytes, List.count_replicate_self, Nat.le_refl]

theorem witness_LiteralOverflowFaults :
    let s := runningAt 0x1 [.countLoop] (State.reset.setFreq 7 0xFFFFFFFF)
    s.phase = .busy ∧ s.todo.head? = some .countLoop ∧ s.freq[literalSym 7].toNat = 2 ^ 32 - 1 := by decide +kernel

theorem witness_LiteralIsCounted :
    let s := runningAt 0x1 [.countLoop] (State.reset.setFreq 255 0xFFFFFFFE)
    s.phase = .busy ∧ s.todo.head? = some .countLoop ∧ s.freq[literalSym 255].toNat < 2 ^ 32 - 1 := by decide +kernel

theorem witness_RemoveMinTakesTheLeast : ([0, 1, 2] : List Idx) ≠ [] := by decide

theorem witness_MergeJoinsTheTwoLeast :
    let s := runningAt 0x2 [.buildMerge] { holdingV1 with nnodes := 3, pq := [0, 1, 2] }
    s.phase = .busy ∧ s.host = [] ∧ s.todo = .buildMerge :: [] ∧ s.nnodes.val < 513 ∧
    removeMin s s.pq = some (1, [0, 2]) ∧ removeMin s [0, 2] = some (2, [0]) ∧
    (s.weightOf 1).toNat + (s.weightOf 2).toNat < 2 ^ 41 := by decide +kernel

theorem witness_BuildMakesTheTree :
    countedV1.phase = .idle ∧ countedV1.flag .freqValid = true ∧ 2 ≤ countedV1.present.length := by decide +kernel

theorem witness_BuildAllocatesLeavesInOrder :
    countedV1.phase = .idle ∧ countedV1.flag .freqValid = true ∧ countedV1.present ≠ [] ∧
    countedV1.present[(2 : Idx).val]? = some 256 := by decide +kernel

theorem witness_BuildWrapsASingleLeaf :
    countedV2.phase = .idle ∧ countedV2.flag .freqValid = true ∧ countedV2.present = [256] := by decide +kernel

/-- B3: the real symbol is 0, so the filler's is 1. -/
theorem witness_BuildWrapsSymbol0 :
    let s := { State.reset with freq := State.reset.freq.set 0 5 }.setFlag .freqValid true
    s.phase = .idle ∧ s.flag .freqValid = true ∧ s.present = [0] := by decide +kernel

theorem witness_BuildRefusesAnEmptyTable :
    (State.reset.setFlag .freqValid true).phase = .idle ∧ (State.reset.setFlag .freqValid true).flag .freqValid = true ∧
    (State.reset.setFlag .freqValid true).present = [] := by decide +kernel

theorem witness_GenerateRecordsThePaths :
    holdingV1.phase = .idle ∧ holdingV1.flag .treeValid = true ∧ holds holdingV1.node holdingV1.root treeV1 = true ∧
    treeV1.isNode = true ∧ treeV1.size ≤ 513 := by decide +kernel

theorem witness_GeneratedCodesArePrefixFree :
    holdingV1.phase = .idle ∧ holdingV1.flag .treeValid = true ∧ holds holdingV1.node holdingV1.root treeV1 = true ∧
    treeV1.isNode = true ∧ treeV1.size ≤ 513 ∧ (65 : Sym) ≠ 66 ∧ treeV1.codeOf 65 ≠ [] := by decide +kernel

theorem witness_GenerateRefusesALeafRoot :
    ({ holdingV1 with root := 2 } : State).phase = .idle ∧ ({ holdingV1 with root := 2 } : State).flag .treeValid = true ∧
    ({ holdingV1 with root := 2 } : State).node[(2 : Idx)] = .leaf 256 1 := by decide +kernel

theorem witness_WrmagicWritesMagic : State.reset.phase = .idle ∧ State.reset.flag .outClosed = false := by decide +kernel

theorem witness_SerializeWritesTheHeader :
    holdingV1.phase = .idle ∧ holdingV1.flag .treeValid = true ∧ holdingV1.flag .outClosed = false ∧
    holds holdingV1.node holdingV1.root treeV1 = true ∧ treeV1.size ≤ 513 := by decide +kernel

/-- Each clause of RDMAGIC: the magic itself, another value, 31 bits. -/
theorem witness_RdmagicChecksMagic :
    (withBits (bits 32 Config.magic.toNat ++ [true])).phase = .idle ∧
    (withBits (bits 32 Config.magic.toNat ++ [true])).inp.rest = bits 32 Config.magic.toNat ++ [true] ∧
    Config.magic + 1 ≠ Config.magic ∧
    (withBits (bits 32 (Config.magic + 1).toNat)).inp.rest = bits 32 (Config.magic + 1).toNat ++ [] ∧
    (withBits (seq 31 0)).inp.rest.length < 32 := by
  refine ⟨rfl, rfl, fun h => ?_, rfl, by decide +kernel⟩
  have := BitVec.toNat_eq.mp h
  simp [BitVec.toNat_add] at this
  omega

theorem witness_MagicFieldIsChecked :
    (runningAt 0x8 [.rdMagic] State.reset).phase = .busy ∧ (runningAt 0x8 [.rdMagic] State.reset).todo = .rdMagic :: [] := by
  decide +kernel

theorem witness_DeserializeRebuildsTheTree :
    (withBits (headerV1 ++ [true])).phase = .idle ∧ (withBits (headerV1 ++ [true])).inp.rest = treeV1.header ++ [true] ∧
    treeV1.size ≤ 513 := by decide +kernel

/-- A header that is one leaf is a tree too (R156). -/
theorem witness_DeserializeOneLeaf :
    (withBits (seq 10 0x300)).inp.rest = (HTree.leaf 256).header ++ [] ∧ (HTree.leaf 256).size ≤ 513 := by decide +kernel

/-- H10 and H11: cut inside a field, and no bit at all. -/
theorem witness_DeserializeFindsTruncation :
    (withBits (seq 8 0x24)).phase = .idle ∧ treeV1.size ≤ 513 ∧ (withBits (seq 8 0x24)).inp.rest <+: treeV1.header ∧
    (withBits (seq 8 0x24)).inp.rest ≠ treeV1.header ∧ (withBits []).inp.rest <+: treeV1.header ∧
    (withBits []).inp.rest ≠ treeV1.header := by decide +kernel

/-- A chain of `n` internal nodes, as in H13. -/
def chain : Nat → HTree
  | 0 => .leaf 256
  | n + 1 => .node (.leaf 65) (chain n)

/-- H13: 515 nodes. -/
theorem witness_DeserializeFindsOverfullStore :
    (withBits (chain 257).header).phase = .idle ∧ (withBits (chain 257).header).inp.rest = (chain 257).header ++ [] ∧
    513 < (chain 257).size := by
  refine ⟨rfl, by simp [withBits, Inp.rest], by decide +kernel⟩

theorem witness_InternalTokenOpensANode :
    (runningAt 0x9 [.desLoop] State.reset).phase = .busy ∧
    (runningAt 0x9 [.desLoop] State.reset).todo.head? = some .desLoop := by decide +kernel

/-- Each clause of the LEAF token: it completes the tree, and it leaves an open node waiting for its right subtree. -/
theorem witness_LeafTokenAllocates :
    let s := runningAt 0x9 [.desLoop] { State.reset with nnodes := 1 }
    let s' := runningAt 0x9 [.desLoop] { State.reset with nnodes := 511, pending := [.left] }
    s.phase = .busy ∧ s.todo = .desLoop :: [] ∧ (256 : BitVec 9).toNat ≤ 256 ∧ s.nnodes.val + 1 + [(0 : Idx)].length ≤ 513 ∧
    s.pending = [] ∧ s'.phase = .busy ∧ s'.todo = .desLoop :: [] ∧ s'.nnodes.val + 1 + [(0 : Idx)].length ≤ 513 ∧
    s'.pending = .left :: [] := by decide +kernel

theorem witness_LeafTokenIsRefused :
    (runningAt 0x9 [.desLoop] State.reset).phase = .busy ∧
    (runningAt 0x9 [.desLoop] State.reset).todo.head? = some .desLoop ∧ 256 < (257 : BitVec 9).toNat ∧
    (256 : BitVec 9).toNat ≤ 256 ∧ (runningAt 0x9 [.desLoop] { State.reset with nnodes := 513 }).nnodes.val = 513 := by
  decide +kernel

theorem witness_HeaderRoundTrip :
    holdingV1.phase = .idle ∧ holdingV1.flag .treeValid = true ∧ holdingV1.flag .outClosed = false ∧
    holds holdingV1.node holdingV1.root treeV1 = true ∧ treeV1.size ≤ 513 ∧ treeV1.isNode = true ∧
    (withBits headerV1).phase = .idle ∧ (withBits headerV1).inp.rest = treeV1.header ++ [] := by decide +kernel

theorem witness_EncodeWritesTheCodes :
    let s := { codedV1 with inp := { data := unpackBytes [65, 66], pos := 16 } }
    s.phase = .idle ∧ s.flag .codeValid = true ∧ s.flag .outClosed = false ∧
    (∀ v ∈ wholeBytes s.inp.data, s.code[literalSym v] ≠ []) ∧ s.code[sentinel] ≠ [] := by decide +kernel

/-- Both ways to miss a code: a byte (E3), and the sentinel (E5). -/
theorem witness_EncodeFindsAMissingCode :
    let s := { codedV1 with inp := { data := unpackBytes [65, 67], pos := 0 } }
    let s' := { codedV1 with code := codedV1.code.set 256 [] }
    s.phase = .idle ∧ s.flag .codeValid = true ∧ s.flag .outClosed = false ∧
    (∀ v ∈ ([65] : List (BitVec 8)), s.code[literalSym v] ≠ []) ∧ wholeBytes s.inp.data = [65] ++ 67 :: [] ∧
    s.code[literalSym 67] = [] ∧
    s'.phase = .idle ∧ s'.flag .codeValid = true ∧ s'.flag .outClosed = false ∧ wholeBytes s'.inp.data = [] ∧
    s'.code[sentinel] = [] := by decide +kernel

theorem witness_LiteralIsEncoded :
    let s := runningAt 0x6 [.encLoop, .encSentinel] codedV1
    s.phase = .busy ∧ s.todo.head? = some .encLoop ∧ s.code[literalSym 65] ≠ [] ∧ s.code[literalSym 67] = [] := by
  decide +kernel

theorem witness_CloseClosesTheOutput : State.reset.phase = .idle ∧ State.reset.flag .outClosed = false := by
  decide +kernel

theorem witness_DecodeRecoversTheBytes :
    let s := { holdingV1 with inp := { data := seq 6 0x22, pos := 0 } }
    s.phase = .idle ∧ s.flag .treeValid = true ∧ s.flag .outClosed = false ∧ holds s.node s.root treeV1 = true ∧
    treeV1.isNode = true ∧
    (∀ p ∈ [((65 : Sym), [true]), (66, [false, false])], p ∈ treeV1.paths ∧ p.1 ≠ sentinel) ∧
    (sentinel, [false, true]) ∈ treeV1.paths ∧
    s.inp.rest = pathBits [(65, [true]), (66, [false, false])] ++ [false, true] ++ [false] := by decide +kernel

theorem witness_DecodeFindsTruncation :
    let s := { holdingV1 with inp := { data := [true, false], pos := 0 } }
    s.phase = .idle ∧ s.flag .treeValid = true ∧ s.flag .outClosed = false ∧ holds s.node s.root treeV1 = true ∧
    treeV1.isNode = true ∧ (∀ x ∈ [((65 : Sym), [true])], x ∈ treeV1.paths ∧ x.1 ≠ sentinel) ∧
    (sentinel, [false, true]) ∈ treeV1.paths ∧ [false] <+: [false, true] ∧ [false] ≠ [false, true] ∧
    s.inp.rest = pathBits [(65, [true])] ++ [false] := by decide +kernel

theorem witness_DecodeFaultsOnALeafRoot :
    let s := { holdingV1 with root := 2, inp := { data := [false], pos := 0 } }
    s.phase = .idle ∧ s.flag .treeValid = true ∧ s.flag .outClosed = false ∧ s.node[s.root] = .leaf 256 1 ∧
    s.inp.rest ≠ [] ∧ ({ holdingV1 with root := 2 } : State).inp.rest = [] ∧
    holds holdingV1.node holdingV1.root treeV1 = true ∧ treeV1.isNode = true := by decide +kernel

theorem witness_BodyCodeReachesItsLeaf :
    let s := runningAt 0xA [.decLoop] { holdingV1 with cur := 4 }
    s.phase = .busy ∧ s.todo = .decLoop :: [] ∧ s.cur = s.root ∧ holds s.node s.root treeV1 = true ∧
    treeV1.isNode = true ∧ ((66 : Sym), [false, false]) ∈ treeV1.paths ∧ (66 : Sym) ≠ sentinel ∧
    (sentinel, [false, true]) ∈ treeV1.paths := by decide +kernel

theorem witness_CompressWritesTheStream :
    (withBytes [65, 66]).phase = .idle ∧ (withBytes [65, 66]).inp.pos = 0 ∧
    ∀ v : BitVec 8, (wholeBytes (withBytes [65, 66]).inp.data).count v < 2 ^ 32 := by
  refine ⟨rfl, rfl, fun v => Nat.lt_of_le_of_lt List.count_le_length ?_⟩
  decide +kernel

theorem witness_CompressEqualsItsCommands :
    State.reset.phase = .idle ∧ State.reset.flag .outClosed = false ∧
    ends (execAll [.count, .build, .generate, .wrmagic, .serialize, .encode, .close] State.reset) (fun u =>
      u.phase == .idle) = true := by decide +kernel

/-- A stream of `MAGIC`, the header of V1 and the sentinel's code. -/
def streamV1 : State := withBits (bits 32 Config.magic.toNat ++ treeV1.header ++ [] ++ [false, true] ++ [])

theorem witness_DecompressRecoversTheBytes :
    streamV1.phase = .idle ∧ treeV1.isNode = true ∧ treeV1.size ≤ 513 ∧ (sentinel, [false, true]) ∈ treeV1.paths ∧
    streamV1.inp.rest = bits 32 Config.magic.toNat ++ treeV1.header ++ pathBits [] ++ [false, true] ++ [] :=
  ⟨rfl, by decide, by decide, by decide, rfl⟩

/-- A stream too short for the magic: the sequence of commands ends in a fault's state. -/
theorem witness_DecompressEqualsItsCommands :
    State.reset.phase = .idle ∧ State.reset.flag .outClosed = false ∧
    ends (execAll [.rdmagic, .deserialize, .decode, .close] State.reset) (fun u => u.err == 1) = true := by decide +kernel

theorem witness_RoundTrip :
    (withBytes [65, 66]).phase = .idle ∧ (withBytes [65, 66]).inp = { data := unpackBytes [65, 66], pos := 0 } ∧
    (withBytes [65, 66]).out = { bits := [], closed := false } ∧
    ∀ v : BitVec 8, ([65, 66] : List (BitVec 8)).count v < 2 ^ 32 := by
  refine ⟨rfl, rfl, rfl, fun v => Nat.lt_of_le_of_lt List.count_le_length ?_⟩
  decide

/-- The reset state is orderly, and a step from it answers. -/
theorem witness_EveryStepKeepsOrder :
    State.reset.Orderly ∧ ends (step { State.reset with host := [.start 0x1] }) (fun _ => true) = true := by
  refine ⟨⟨by decide +kernel, by decide +kernel, by decide +kernel, by decide +kernel, by decide +kernel, ?_, Nat.le_refl _,
    by decide +kernel⟩, by decide +kernel⟩
  exact fun _ => ⟨rfl, rfl, rfl, rfl⟩

/-- A state with a valid tree meets the tree's invariant, and a command answers on it. -/
theorem witness_EveryCommandKeepsTheTree :
    holdingV1.phase ≠ .busy ∧ holdingV1.TreeOk ∧ ends (exec .serialize holdingV1) (fun t => t.flag .treeValid) = true :=
  ⟨by decide +kernel, fun _ => ⟨treeV1, by decide +kernel, by decide +kernel⟩, by decide +kernel⟩

/-- In that state every child's index is smaller than its parent's. -/
theorem test_children_before_parents :
    ∀ k : Fin 5, (match holdingV1.node[k.val] with
      | .leaf _ _ => true
      | .internal l r _ => decide (l.val < k.val) && decide (r.val < k.val)) = true := by decide +kernel

/-- The same state meets the invariant of ownership. -/
theorem witness_EveryCommandKeepsOwnership :
    holdingV1.phase ≠ .busy ∧ holdingV1.flag .treeValid = true ∧ holdingV1.Owned := by
  refine ⟨by decide +kernel, by decide +kernel, fun _ => ⟨by decide +kernel, by decide +kernel, by decide +kernel, ?_⟩⟩
  intro i l r w hi hn
  have h := test_children_before_parents ⟨i.val, hi⟩
  simp only [Fin.getElem_fin] at hn h
  rw [hn] at h
  simpa using h

theorem witness_EveryStepKeepsCodesShort :
    State.reset.CodesFit ∧ ends (step { holdingV1 with host := [.present 0x3] }) (fun t => t.code[(66 : Sym)].length == 2) =
      true := by
  refine ⟨fun v => ?_, by decide +kernel⟩
  simp [State.reset]

theorem witness_EveryCommandEnds :
    State.reset.phase ≠ .busy ∧ State.reset.TreeOk ∧ holdingV1.phase ≠ .busy ∧ holdingV1.TreeOk :=
  ⟨by decide, fun h => absurd h (by decide +kernel), by decide +kernel,
    fun _ => ⟨treeV1, by decide +kernel, by decide +kernel⟩⟩

theorem witness_RunEqualsItsSteps :
    (withBytes [65]).host = [] ∧ ends (exec (decodeCommand 0x1) (withBytes [65])) (fun _ => true) = true := by
  decide +kernel

theorem witness_OutputOnlyGrows :
    ({ State.reset with host := [.present 0x4] } : State).host.head? ≠ some .attachOut ∧
    ends (step { State.reset with host := [.present 0x4] }) (fun t => t.out.bits.length == 32) = true := by decide +kernel

/-- Each clause: a closed output and a command that would write; a fault from an open output; and a host that keeps its
duties before a closed output, a command that reads being accepted. -/
theorem witness_NothingWrittenAfterClose :
    (State.reset.setFlag .outClosed true).phase ≠ .busy ∧ (State.reset.setFlag .outClosed true).flag .outClosed = true ∧
    ends (exec .wrmagic (State.reset.setFlag .outClosed true)) (fun _ => true) = true ∧
    State.reset.phase = .idle ∧ State.reset.flag .outClosed = false ∧
    ends (exec .generate State.reset) (fun t => t.phase == .fault) = true ∧
    let s := { (withBytes [65]).closeByHost with host := [.present 0x1] }
    s.phase ≠ .busy ∧ s.host = .present 0x1 :: [] ∧ attachedLedger.kept s (.present 0x1) = true ∧ s.out.closed = true ∧
    ends (step s) (fun t => t.op == 0x1) = true := by decide +kernel

theorem witness_OnlyTheNamedWritersWrite :
    ends (exec .build countedV1) (fun t =>
      t.node[(3 : Idx)] != countedV1.node[(3 : Idx)] && t.nnodes != countedV1.nnodes) = true := by
  decide +kernel

theorem witness_StepRunsTheInstruction :
    let s := runningAt 0x9 [.desLoop] (withBits headerV1)
    ({ State.reset with host := [.present 0x1] } : State).host = .present 0x1 :: [] ∧
    ({ State.reset with host := [.present 0x1] } : State).rst = false ∧ s.host = [] ∧ s.phase = .busy ∧
    s.readSpace = some .header ∧ decode .header s.inp.rest = .ok (.hdrInternal, headerV1.drop 1) := by decide +kernel

theorem witness_DecodeEncode :
    (Instr.hdrLeaf 256).wellFormed = true ∧ (Instr.bodyCode [true]).wellFormed = true ∧
      ∃ f, Instr.hdrLeaf 511 = .hdrLeaf f := ⟨by decide, by decide, 511, rfl⟩

theorem witness_EncodeDecode : decode .command [true, true, false, true, true] = .ok (.clear, [true]) := by decide

/-- The first step after reset with a word of the table placed runs it: a command, and a header token. -/
theorem test_first_step_command :
    ends (step (State.reset.withFetchWord 8 0x1)) (fun t => t.op == 0x1 && t.freq[(256 : Sym)] == 1) = true := by
  decide +kernel
theorem test_first_step_token :
    ends (step (State.reset.withFetchWord 16 0x242)) (fun t => t.node[(0 : Idx)] == .leaf 66 0 && t.nnodes == 1) = true := by
  decide +kernel

end Sys2Proof.Tests
end

namespace Sys2Proof.Machine

open Sys2Proof

/-! ### The whole bytes of an input (R51) -/

/-- The first field of eight bits is the first whole byte (R88). -/
theorem wholeBytes_bits (v : BitVec 8) (tail : Bits) :
    wholeBytes (bits 8 v.toNat ++ tail) = v :: wholeBytes tail := by
  have h : wholeBytes (bits 8 v.toNat ++ tail) = BitVec.ofNat 8 (val (bits 8 v.toNat)) :: wholeBytes tail := rfl
  rw [h, val_bits, Nat.mod_eq_of_lt v.isLt, BitVec.ofNat_toNat, BitVec.setWidth_eq]

/-- Fewer than eight bits hold no whole byte. -/
theorem wholeBytes_short {bs : Bits} (h : bs.length < 8) : wholeBytes bs = [] := by
  rw [wholeBytes.eq_def]
  split
  · simp only [List.length_cons] at h
    omega
  · rfl

/-- A bit sequence is short of a byte, or starts with one. -/
theorem short_or_byte (bs : Bits) :
    bs.length < 8 ∨ ∃ (v : BitVec 8) (tail : Bits), bs = bits 8 v.toNat ++ tail := by
  by_cases h : 8 ≤ bs.length
  · exact .inr ⟨_, _, takeField_eq_some (if_pos h)⟩
  · exact .inl (Nat.lt_of_not_le h)

theorem length_lt_of_wholeBytes_nil {bs : Bits} (h : wholeBytes bs = []) : bs.length < 8 := by
  obtain hshort | ⟨v, tail, rfl⟩ := short_or_byte bs
  · exact hshort
  · rw [wholeBytes_bits] at h
    cases h

theorem bits_of_wholeBytes_cons {bs : Bits} {v : BitVec 8} {l : List (BitVec 8)} (h : wholeBytes bs = v :: l) :
    ∃ tail, bs = bits 8 v.toNat ++ tail ∧ wholeBytes tail = l := by
  obtain hshort | ⟨w, tail, rfl⟩ := short_or_byte bs
  · rw [wholeBytes_short hshort] at h
    cases h
  · rw [wholeBytes_bits] at h
    obtain ⟨rfl, hl⟩ := List.cons.inj h
    exact ⟨tail, rfl, hl⟩

/-- A bit sequence has no more whole bytes than bits. -/
theorem wholeBytes_length_le (bs : Bits) : (wholeBytes bs).length ≤ bs.length := by
  induction bs using wholeBytes.induct with
  | case1 a b c d e f g i rest ih => simp only [wholeBytes, List.length_cons]; omega
  | case2 bs hshort => rw [wholeBytes.eq_2 bs hshort]; exact Nat.zero_le _

/-! ### The table that counting leaves (R110, R112) -/

theorem literalSym_inj {v w : BitVec 8} : literalSym v = literalSym w ↔ v = w := by
  simp [literalSym, BitVec.toNat_inj]

theorem literalSym_ne_sentinel (v : BitVec 8) : literalSym v ≠ sentinel := fun h =>
  Nat.ne_of_lt v.isLt (congrArg Fin.val h)

/-- One more occurrence of `v` in a table. -/
def countOne (v : BitVec 8) (freq : Vector Count 257) : Vector Count 257 :=
  freq.set (literalSym v) (freq[literalSym v] + 1)

/-- A table after the bytes of a list have been counted into it, first byte first. -/
def tally : List (BitVec 8) → Vector Count 257 → Vector Count 257
  | [], freq => freq
  | v :: l, freq => tally l (countOne v freq)

/-- The frequency table of COUNT: the occurrences of every byte, and 1 for the sentinel. -/
def countTable (l : List (BitVec 8)) : Vector Count 257 :=
  (tally l (Vector.replicate 257 0)).set sentinel 1

theorem countOne_literal (freq : Vector Count 257) (v w : BitVec 8) :
    (countOne v freq)[literalSym w] = if v = w then freq[literalSym w] + 1 else freq[literalSym w] := by
  by_cases h : v = w
  · subst h; simp [countOne]
  · have hne : (literalSym v).val ≠ (literalSym w).val := fun e => h (literalSym_inj.mp (Fin.ext e))
    simp [countOne, h, hne]

/-- A byte's counter grows by the number of its occurrences, in the arithmetic of 32 bits. -/
theorem tally_literal (l : List (BitVec 8)) (freq : Vector Count 257) (w : BitVec 8) :
    (tally l freq)[literalSym w] = freq[literalSym w] + BitVec.ofNat 32 (l.count w) := by
  induction l generalizing freq with
  | nil => simp [tally]
  | cons v l ih =>
    rw [tally, ih, countOne_literal, List.count_cons, BitVec.ofNat_add]
    by_cases h : v = w
    · simp only [h, if_true, beq_self_eq_true, BitVec.ofNat_eq_ofNat]
      ac_rfl
    · simp [h]

theorem countTable_literal (l : List (BitVec 8)) (v : BitVec 8) :
    (countTable l)[literalSym v] = BitVec.ofNat 32 (l.count v) := by
  have hne : sentinel.val ≠ (literalSym v).val := fun e => literalSym_ne_sentinel v (Fin.ext e.symm)
  have ht := tally_literal l (Vector.replicate 257 0) v
  simpa [countTable, hne] using ht

theorem countTable_sentinel (l : List (BitVec 8)) : (countTable l)[sentinel] = 1 := by
  simp [countTable]

/-- Counting one byte moves one occurrence from what is still to count into its counter, where the counter has room. -/
theorem countOne_add_count {freq : Vector Count 257} {v : BitVec 8} (hroom : freq[literalSym v].toNat < 2 ^ 32 - 1)
    (l : List (BitVec 8)) (w : BitVec 8) :
    (countOne v freq)[literalSym w].toNat + l.count w = freq[literalSym w].toNat + (v :: l).count w := by
  rw [countOne_literal, List.count_cons]
  by_cases h : v = w
  · subst h
    have hadd : (freq[literalSym v] + 1).toNat = freq[literalSym v].toNat + 1 := by
      rw [BitVec.toNat_add_of_lt (Nat.add_lt_of_lt_sub hroom)]
      rfl
    rw [if_pos rfl, hadd, if_pos (beq_self_eq_true v)]
    omega
  · simp [h]

/-! ### COUNT's units of work (R110, R111, R112) -/

section Units

variable {s : State} {rest : List Stage}

theorem unit_countClear (p : Params) (h : s.todo = .countClear :: rest) :
    unit p s = .next { s with freq := Vector.replicate 257 0, todo := rest } := by
  rw [unit_cons p h, turn, countClear, Turn.settle, h, List.tail_cons]

theorem unit_countSeal (p : Params) (h : s.todo = .countSeal :: rest) :
    unit p s = .next ({ s with freq := s.freq.set sentinel 1, todo := rest }.setFlag .freqValid true) := by
  rw [unit_cons p h, turn, countSeal, Turn.settle]
  simp [State.setFlag, State.setFreq, h]

/-- `EOS` ends the loop. -/
theorem unit_countLoop_eos (p : Params) (h : s.todo = .countLoop :: rest) (heos : s.inp.rest.length < 8) :
    unit p s = .next { s with inp := { s.inp with pos := s.inp.data.length }, todo := rest } := by
  rw [unit_cons p h, turn, countLoop, s.readBits_eos heos]
  simp [Turn.settle, h]

theorem unit_countLoop_byte {v : BitVec 8} {tail : Bits} (h : s.todo = .countLoop :: rest)
    (hin : s.inp.rest = bits 8 v.toNat ++ tail) (hroom : s.freq[literalSym v].toNat < 2 ^ 32 - 1) :
    unit Config.params s =
      .next { s with freq := countOne v s.freq, inp := { s.inp with pos := s.inp.pos + 8 } } := by
  rw [unit_cons _ h, turn, countLoop, s.readBits_field (by decide) v tail hin]
  exact congrArg Turn.settle (if_neg (Nat.ne_of_lt hroom))

theorem unit_countLoop_full {v : BitVec 8} {tail : Bits} (h : s.todo = .countLoop :: rest)
    (hin : s.inp.rest = bits 8 v.toNat ++ tail) (hfull : s.freq[literalSym v].toNat = 2 ^ 32 - 1) :
    unit Config.params s =
      (Turn.raise .counterOverflow { s with inp := { s.inp with pos := s.inp.pos + 8 } }).settle := by
  rw [unit_cons _ h, turn, countLoop, s.readBits_field (by decide) v tail hin]
  exact congrArg Turn.settle (if_pos hfull)

end Units

/-- The whole bytes left after one of them has been read. -/
theorem wholeBytes_rest_advance {i : Inp} {v : BitVec 8} {tail : Bits} (h : i.rest = bits 8 v.toNat ++ tail) :
    wholeBytes ({ i with pos := i.pos + 8 } : Inp).rest = wholeBytes tail := by
  rw [Inp.rest_advance, h, List.drop_left' (bits_length ..)]

/-! ### COUNT's body -/

/-- A unit that raises a fault, and the unit that enters it, end the run in `FAULT` (R215). -/
theorem runBusy_raise (p : Params) (n : Nat) {s t : State} {c : Cause} (h : unit p s = (Turn.raise c t).settle)
    (hb : t.phase = .busy) : runBusy p (n + 2) s = .next (t.raise c) := by
  obtain ⟨hnext, hentry⟩ := settle_raise p c t
  rw [runBusy_busy p _ (h.trans hnext) hb]
  exact runBusy_end p n hentry (by simp)

/-- COUNT's loop over bytes that all fit their counters: one unit for each and one for `EOS`. -/
theorem runBusy_countLoop (l : List (BitVec 8)) {n : Nat} {s : State} {rest : List Stage} (hb : s.phase = .busy)
    (h : s.todo = .countLoop :: rest) (hl : wholeBytes s.inp.rest = l)
    (hfit : ∀ v : BitVec 8, s.freq[literalSym v].toNat + l.count v < 2 ^ 32) :
    runBusy Config.params (n + l.length + 1) s =
      runBusy Config.params n { s with freq := tally l s.freq, todo := rest,
                                       inp := { s.inp with pos := s.inp.data.length } } := by
  induction l generalizing s with
  | nil => exact runBusy_busy _ _ (unit_countLoop_eos _ h (length_lt_of_wholeBytes_nil hl)) hb
  | cons v l ih =>
    obtain ⟨tail, hin, htail⟩ := bits_of_wholeBytes_cons hl
    have hroom : s.freq[literalSym v].toNat < 2 ^ 32 - 1 := by
      have := hfit v
      rw [List.count_cons_self] at this
      omega
    rw [runBusy_busy _ _ (unit_countLoop_byte h hin hroom) hb]
    exact ih hb h ((wholeBytes_rest_advance hin).trans htail) fun w =>
      (countOne_add_count hroom l w).trans_lt (hfit w)

/-- COUNT's loop over bytes one of which does not fit its counter ends in the fault: before its entry only `FREQ` and
the position of `IN` have moved. -/
theorem runBusy_countLoop_overflow (l : List (BitVec 8)) {n : Nat} {s : State} {rest : List Stage}
    (hb : s.phase = .busy) (h : s.todo = .countLoop :: rest) (hl : wholeBytes s.inp.rest = l)
    (hover : ∃ v : BitVec 8, 2 ^ 32 ≤ s.freq[literalSym v].toNat + l.count v) :
    ∃ t : State, runBusy Config.params (n + l.length + 1) s = .next (t.raise .counterOverflow) ∧
      t = { s with freq := t.freq, inp := t.inp, todo := t.todo } := by
  obtain ⟨w, hw⟩ := hover
  induction l generalizing s with
  | nil => exact absurd hw (Nat.not_le_of_lt s.freq[literalSym w].isLt)
  | cons v l ih =>
    obtain ⟨tail, hin, htail⟩ := bits_of_wholeBytes_cons hl
    by_cases hfull : s.freq[literalSym v].toNat = 2 ^ 32 - 1
    · exact ⟨_, runBusy_raise _ _ (unit_countLoop_full h hin hfull) hb, rfl⟩
    · have hroom : s.freq[literalSym v].toNat < 2 ^ 32 - 1 := by
        have := s.freq[literalSym v].isLt
        omega
      rw [List.length_cons, ← Nat.add_assoc, runBusy_busy _ _ (unit_countLoop_byte h hin hroom) hb]
      exact ih hb h ((wholeBytes_rest_advance hin).trans htail)
        (hw.trans_eq (countOne_add_count hroom l w).symm)

/-- After COUNT's first unit every counter is 0 (R110). -/
theorem zero_add_count (l : List (BitVec 8)) (v : BitVec 8) :
    (Vector.replicate 257 (0 : Count))[literalSym v].toNat + l.count v = l.count v := by
  simp

/-- COUNT's body on bytes that fit the counters: their table, `IN` at its end, `FREQ_VALID`. -/
theorem runBusy_countParts {n : Nat} {s : State} {rest : List Stage} (hb : s.phase = .busy)
    (h : s.todo = Command.count.parts ++ rest)
    (hfit : ∀ v : BitVec 8, (wholeBytes s.inp.rest).count v < 2 ^ 32) :
    runBusy Config.params (n + 1 + (wholeBytes s.inp.rest).length + 2) s =
      runBusy Config.params n
        ({ s with freq := countTable (wholeBytes s.inp.rest), todo := rest,
                  inp := { s.inp with pos := s.inp.data.length } }.setFlag .freqValid true) := by
  rw [runBusy_busy _ _ (unit_countClear _ h) hb]
  refine Eq.trans (runBusy_countLoop (wholeBytes s.inp.rest) hb rfl rfl fun v => ?_) ?_
  · exact (zero_add_count _ v).trans_lt (hfit v)
  · exact runBusy_busy _ _ (unit_countSeal _ rfl) hb

/-- COUNT's body on bytes one of which does not fit ends in the fault. -/
theorem runBusy_countParts_overflow {n : Nat} {s : State} {rest : List Stage} (hb : s.phase = .busy)
    (h : s.todo = Command.count.parts ++ rest)
    (hover : ∃ v : BitVec 8, 2 ^ 32 ≤ (wholeBytes s.inp.rest).count v) :
    ∃ t : State,
      runBusy Config.params (n + (wholeBytes s.inp.rest).length + 2) s = .next (t.raise .counterOverflow) ∧
      t = { s with freq := t.freq, inp := t.inp, todo := t.todo } := by
  obtain ⟨v, hv⟩ := hover
  rw [runBusy_busy _ _ (unit_countClear _ h) hb]
  exact runBusy_countLoop_overflow (wholeBytes s.inp.rest)
    (s := { s with freq := Vector.replicate 257 0, todo := [.countLoop, .countSeal] ++ rest }) hb rfl rfl
    ⟨v, hv.trans_eq (zero_add_count _ v).symm⟩

/-! ### A command accepted (R80, R210) -/

/-- Acceptance changes `OP`, `PHASE`, `STATUS` and what is left to do. -/
theorem Command.issue_frame (c : Command) {s : State} (h : s.phase = .idle) :
    c.issue s = { s with op := c.op, phase := .busy, status := (c.issue s).status, todo := (c.issue s).todo } := by
  rw [Command.issue, if_pos h]
  simp

theorem Command.flag_issue (c : Command) {s : State} (h : s.phase = .idle) (f : Flag) :
    (c.issue s).flag f = if f ∈ c.clears then false else (s.accept c.op).flag f := by
  rw [Command.issue, if_pos h]
  exact State.flag_lower _ c.clears f

theorem Command.reserved_issue (c : Command) {s : State} (h : s.phase = .idle) :
    (c.issue s).status.getLsbD 7 = s.status.getLsbD 7 := by
  rw [Command.issue, if_pos h]
  exact (State.reserved_lower _ c.clears).trans
    ((State.reserved_setFlag _ .done false).trans (State.reserved_setFlag s .busy true))

theorem issue_count_todo {s : State} (h : s.phase = .idle) :
    (Command.count.issue s).todo = Command.count.parts := by
  rw [Command.issue, if_pos h]
  rfl

/-! ### Moves of the flags (R23) -/

theorem flagsMove_iff (s t : State) (on off : List Flag) :
    flagsMove s t on off = true ↔
      (∀ f, t.flag f = if f ∈ on then true else if f ∈ off then false else s.flag f) ∧
        t.status.getLsbD 7 = s.status.getLsbD 7 := by
  have hall : ∀ f, f ∈ [Flag.busy, .done, .fault, .freqValid, .treeValid, .codeValid, .outClosed] := by
    intro f
    cases f <;> decide
  simp only [flagsMove, Bool.and_eq_true, List.all_eq_true, beq_iff_eq, hall, true_implies]

theorem State.reserved_finish (s : State) : s.finish.status.getLsbD 7 = s.status.getLsbD 7 :=
  (State.reserved_setFlag _ .busy false).trans (State.reserved_setFlag s .done true)

theorem State.reserved_raise (s : State) (c : Cause) : (s.raise c).status.getLsbD 7 = s.status.getLsbD 7 := by
  refine (State.reserved_setFlag _ .fault true).trans
    ((State.reserved_setFlag _ .done false).trans ((State.reserved_setFlag _ .busy false).trans ?_))
  split
  · rfl
  · exact State.reserved_setFlag _ .outClosed true

/-! ### The whole command -/

/-- The bound on the units of a command leaves one for each whole byte of `IN`, and more than the other parts take. -/
theorem wholeBytes_length_le_fuel (s : State) : (wholeBytes s.inp.rest).length + 4096 ≤ fuel s := by
  have hbytes : (wholeBytes s.inp.rest).length ≤ s.inp.data.length :=
    (wholeBytes_length_le _).trans (List.length_drop.trans_le (Nat.sub_le ..))
  have hmul : s.inp.data.length + 1 ≤ (s.inp.data.length + 1) * (s.longestCode + 4) :=
    Nat.le_mul_of_pos_right _ (Nat.succ_pos _)
  rw [fuel]
  omega

theorem exec_count {s : State} (h : s.phase = .idle) :
    exec .count s = runBusy Config.params (fuel s) (Command.count.issue s) :=
  if_pos h

/-- The state in which COUNT ends on an input that fits the counters. -/
def countDone (s : State) : State :=
  ({ Command.count.issue s with
       freq := countTable (wholeBytes s.inp.rest), todo := [],
       inp := { s.inp with pos := s.inp.data.length } }.setFlag .freqValid true).finish

@[simp] theorem countDone_phase (s : State) : (countDone s).phase = .idle := rfl
@[simp] theorem countDone_freq (s : State) : (countDone s).freq = countTable (wholeBytes s.inp.rest) := rfl

theorem countDone_status (s : State) :
    (countDone s).status = ((Command.count.issue s).setFlag .freqValid true).finish.status := rfl

theorem exec_count_fits {s : State} (h : s.phase = .idle)
    (hfit : ∀ v : BitVec 8, (wholeBytes s.inp.rest).count v < 2 ^ 32) : exec .count s = .next (countDone s) := by
  have hinp : (Command.count.issue s).inp = s.inp := by rw [Command.issue_frame _ h]
  have hbusy : (Command.count.issue s).phase = .busy := by rw [Command.issue_frame _ h]
  obtain ⟨n, hn⟩ : ∃ n, fuel s = n + 1 + 1 + (wholeBytes s.inp.rest).length + 2 :=
    ⟨fuel s - ((wholeBytes s.inp.rest).length + 4), by have := wholeBytes_length_le_fuel s; omega⟩
  have hbody := runBusy_countParts (n := n + 1) (rest := []) hbusy (issue_count_todo h) (hinp ▸ hfit)
  rw [hinp] at hbody
  rw [exec_count h, hn, hbody]
  exact runBusy_end _ _ (unit_nil _ rfl) (by simp)

theorem exec_count_overflow {s : State} (h : s.phase = .idle)
    (hover : ∃ v : BitVec 8, 2 ^ 32 ≤ (wholeBytes s.inp.rest).count v) :
    ∃ t : State, exec .count s = .next (t.raise .counterOverflow) ∧
      t = { Command.count.issue s with freq := t.freq, inp := t.inp, todo := t.todo } := by
  have hinp : (Command.count.issue s).inp = s.inp := by rw [Command.issue_frame _ h]
  have hbusy : (Command.count.issue s).phase = .busy := by rw [Command.issue_frame _ h]
  obtain ⟨n, hn⟩ : ∃ n, fuel s = n + (wholeBytes s.inp.rest).length + 2 :=
    ⟨fuel s - ((wholeBytes s.inp.rest).length + 2), by have := wholeBytes_length_le_fuel s; omega⟩
  have hbody := runBusy_countParts_overflow (n := n) (rest := []) hbusy (issue_count_todo h) (hinp ▸ hover)
  rw [hinp] at hbody
  rw [exec_count h, hn]
  exact hbody

/-- COUNT leaves alone what it is not said to write. -/
theorem countDone_frame {s : State} (h : s.phase = .idle) :
    countDone s = { s with
      op := 0x1, freq := (countDone s).freq, status := (countDone s).status,
      inp := { s.inp with pos := s.inp.data.length } }.emptyWork := by
  rw [countDone, Command.issue_frame _ h, h]
  rfl

theorem countDone_flags {s : State} (h : s.phase = .idle) :
    flagsMove s (countDone s) [.done, .freqValid] [.busy, .treeValid, .codeValid] = true := by
  refine (flagsMove_iff ..).mpr ⟨fun f => ?_, ?_⟩
  · rw [State.flag_congr (countDone_status s), State.flag_finish, State.flag_setFlag, Command.flag_issue _ h,
      State.flag_accept]
    cases f <;> simp [Command.count]
  · rw [countDone_status, State.reserved_finish, State.reserved_setFlag, Command.reserved_issue _ h]

/-- R215 after COUNT's acceptance: the valid flags that COUNT has cleared stay 0. -/
theorem count_raise_flags {s t : State} {c : Cause} (h : s.phase = .idle)
    (ht : t.status = (Command.count.issue s).status) :
    flagsMove s (t.raise c) [.fault, .outClosed] [.busy, .done, .freqValid, .treeValid, .codeValid] = true := by
  refine (flagsMove_iff ..).mpr ⟨fun f => ?_, ?_⟩
  · rw [State.flag_raise, State.flag_congr ht, Command.flag_issue _ h, State.flag_accept]
    cases f <;> simp [Command.count]
  · rw [State.reserved_raise, ht, Command.reserved_issue _ h]

/-- Settles O10: COUNT's loop leaves the tally of the whole bytes, by induction on them, or meets a full counter. -/
theorem countTalliesTheInput : Obligations.CountTalliesTheInput := by
  unfold Obligations.CountTalliesTheInput
  intro s hidle
  constructor
  · intro hfit
    refine ⟨countDone s, exec_count_fits hidle hfit, fun v => ?_, ?_, countDone_flags hidle, countDone_frame hidle⟩
    · rw [countDone_freq, countTable_literal, BitVec.toNat_ofNat, Nat.mod_eq_of_lt (hfit v)]
    · rw [countDone_freq, countTable_sentinel]
  · intro hover
    obtain ⟨t, hrun, ht⟩ := exec_count_overflow hidle hover
    refine ⟨_, hrun, State.raise_err _ _, State.raise_phase _ _,
      count_raise_flags hidle (by rw [ht]), ?_, ?_, ?_⟩
    · rw [State.raise_out_bits, ht, Command.issue_frame _ hidle]
    · rw [State.raise_node, ht, Command.issue_frame _ hidle]
    · rw [State.raise_code, ht, Command.issue_frame _ hidle]

end Sys2Proof.Machine

namespace Sys2Proof.Machine

open Sys2Proof

/-! ### The order in which the queue gives out its members (R121) -/

/-- What `removeMin` compares: the weight first, then the node index. -/
def State.rank (s : State) (i : Idx) : ℕ ×ₗ Idx := toLex ((s.weightOf i).toNat, i)

theorem before_iff (s : State) (i j : Idx) : before s i j = true ↔ s.rank i < s.rank j := by
  simp [before, State.rank, Prod.Lex.toLex_lt_toLex, BitVec.lt_def, BitVec.toNat_inj]

theorem State.rank_le_iff (s : State) (i j : Idx) :
    s.rank i ≤ s.rank j ↔ s.weightOf i < s.weightOf j ∨ (s.weightOf i = s.weightOf j ∧ i ≤ j) := by
  simp [State.rank, Prod.Lex.toLex_le_toLex, BitVec.lt_def, BitVec.toNat_inj]

/-- Of two nodes `least` keeps the one of lower rank. -/
theorem rank_earlier (s : State) (i m : Idx) :
    s.rank (if before s i m = true then i else m) = min (s.rank i) (s.rank m) := by
  split <;> rename_i h
  · exact (min_eq_left ((before_iff s i m).mp h).le).symm
  · exact (min_eq_right (not_lt.mp fun hlt => h ((before_iff s i m).mpr hlt))).symm

theorem least_mem (s : State) (m : Idx) (l : List Idx) : least s m l ∈ m :: l := by
  induction l generalizing m with
  | nil => exact List.mem_singleton_self m
  | cons i l ih =>
    rw [least]
    split
    · exact List.mem_cons_of_mem m (ih i)
    · exact List.cons_subset_cons m (List.subset_cons_self i l) (ih m)

theorem rank_least_le (s : State) (m : Idx) (l : List Idx) : ∀ j ∈ m :: l, s.rank (least s m l) ≤ s.rank j := by
  induction l generalizing m with
  | nil =>
    intro j hj
    rw [List.mem_singleton.mp hj]
    exact le_rfl
  | cons i l ih =>
    have hstep := ih (if before s i m = true then i else m)
    have hmin := hstep _ List.mem_cons_self
    rw [rank_earlier] at hmin
    intro j hj
    rw [least]
    obtain rfl | hj := List.mem_cons.mp hj
    · exact hmin.trans (min_le_right _ _)
    obtain rfl | hj := List.mem_cons.mp hj
    · exact hmin.trans (min_le_left _ _)
    · exact hstep j (List.mem_cons_of_mem _ hj)

/-- Settles O13: the member `least` finds has the lowest rank, by induction on the queue, and is erased once. -/
theorem removeMinTakesTheLeast : Obligations.RemoveMinTakesTheLeast := by
  unfold Obligations.RemoveMinTakesTheLeast
  intro s q hq
  cases q with
  | nil => exact absurd rfl hq
  | cons m l =>
    exact ⟨least s m l, _, rfl, List.perm_cons_erase (least_mem s m l), fun j hj =>
      (s.rank_le_iff _ j).mp (rank_least_le s m l j hj)⟩

/-! ### BUILD's units of work (R120, R122, R123, R125, R126) -/

/-- R26: while the store has room an allocation takes its first free entry. -/
theorem State.alloc_eq {s : State} (n : Node) (h : s.nnodes.val < 513) :
    s.alloc Config.params n = some (⟨s.nnodes.val, h⟩,
      { s with node := s.node.set s.nnodes.val n h, nnodes := ⟨s.nnodes.val + 1, by omega⟩ }) :=
  dif_pos ⟨h, Nat.ne_of_lt h⟩

/-- R122: the symbols of count 0 get no leaf. -/
theorem buildLeavesFrom_filter (p : Params) (vs : List Sym) (s : State) :
    buildLeavesFrom p vs s = buildLeavesFrom p (vs.filter fun v => decide (s.freq[v] ≠ 0)) s := by
  induction vs generalizing s with
  | nil => rfl
  | cons v vs ih =>
    by_cases hv : s.freq[v] = 0
    · rw [buildLeavesFrom, if_pos hv, List.filter_cons_of_neg (by simpa using hv), ih]
    · rw [buildLeavesFrom, if_neg hv, List.filter_cons_of_pos (by simpa using hv), buildLeavesFrom, if_neg hv]
      split <;> rename_i ha
      · have hfreq := congrArg State.freq (State.alloc_some ha).2.2.2.2
        rw [ih, hfreq]
      · rfl

theorem buildLeaves_eq (p : Params) (s : State) :
    buildLeaves p s = buildLeavesFrom p s.present { s with nnodes := 0, pq := [] } :=
  buildLeavesFrom_filter p _ _

/-- The store with the leaf of a single symbol `v`, its filler leaf and the wrapper over them (R125). -/
def wrapSingle (v : Sym) (w : Weight) (store : Vector Node 513) : Vector Node 513 :=
  ((store.set 0 (.leaf v w)).set 1 (.leaf (fillerSym v) 0)).set 2 (.internal 0 1 w)

theorem wrapSingle_leaf (v : Sym) (w : Weight) (store : Vector Node 513) :
    (wrapSingle v w store)[(0 : Idx)] = .leaf v w := by
  simp [wrapSingle]

theorem wrapSingle_filler (v : Sym) (w : Weight) (store : Vector Node 513) :
    (wrapSingle v w store)[(1 : Idx)] = .leaf (fillerSym v) 0 := by
  simp [wrapSingle]

theorem wrapSingle_root (v : Sym) (w : Weight) (store : Vector Node 513) :
    (wrapSingle v w store)[(2 : Idx)] = .internal 0 1 w := by
  simp [wrapSingle]

theorem fillerSym_ne (v : Sym) : fillerSym v ≠ v := by
  rw [fillerSym]
  split <;> rename_i h
  · rw [h]; decide
  · exact Ne.symm h

section Units

variable {s : State} {rest : List Stage}

theorem unit_buildLeaves_none (p : Params) (h : s.todo = .buildLeaves :: rest) (hp : s.present = []) :
    unit p s = .next { s with nnodes := 0, pq := [], todo := rest } := by
  rw [unit_cons p h, turn, buildLeaves_eq, hp, buildLeavesFrom, Turn.settle, h, List.tail_cons]

theorem unit_buildLeaves_one {v : Sym} (h : s.todo = .buildLeaves :: rest) (hp : s.present = [v]) :
    unit Config.params s =
      .next { s with node := s.node.set 0 (.leaf v (s.freq[v].setWidth 41)), nnodes := 1, pq := [0], todo := rest } := by
  have hv : s.freq[v] ≠ 0 := by
    have hmem : v ∈ s.present := hp ▸ List.mem_singleton_self v
    simpa [State.present] using hmem
  rw [unit_cons _ h, turn, buildLeaves_eq, hp, buildLeavesFrom, if_neg hv,
    State.alloc_eq _ (show (0 : Fin 514).val < 513 by decide)]
  simp [buildLeavesFrom, Turn.settle, h]

/-- An empty queue after the leaves is an empty table. -/
theorem unit_buildFew_none (p : Params) (h : s.todo = .buildFew :: rest) (hq : s.pq = []) :
    unit p s = (Turn.raise .emptyTable s).settle := by
  rw [unit_cons p h, turn, buildFew, hq]

/-- R125: a single leaf gets its filler leaf and the wrapper over both. -/
theorem unit_buildFew_one {v : Sym} {w : Weight} (h : s.todo = .buildFew :: rest) (hq : s.pq = [0])
    (hn : s.nnodes = 1) (hleaf : s.node[(0 : Idx)] = .leaf v w) :
    unit Config.params s = .next { s with
      node := (s.node.set 1 (.leaf (fillerSym v) 0)).set 2 (.internal 0 1 w), nnodes := 3, pq := [2], todo := rest } := by
  have hleaf' : s.node[0] = .leaf v w := hleaf
  rw [unit_cons _ h, turn, buildFew, hq]
  simp [State.alloc_eq, hn, hleaf', Turn.settle, h, Node.symOr0, State.weightOf, Node.weight]

/-- R120: the one node left in the queue is the root. -/
theorem unit_buildMerge_root (p : Params) {r : Idx} (h : s.todo = .buildMerge :: rest) (hq : s.pq = [r]) :
    unit p s = .next ({ s with root := r, pq := [], todo := rest }.setFlag .treeValid true) := by
  rw [unit_cons p h, turn, buildMerge, hq]
  simp [removeMin, least, Turn.settle, State.setFlag, h]

end Units

/-! ### BUILD's body on a table of at most one symbol -/

theorem runBusy_buildParts_none (p : Params) (n : Nat) {s : State} {rest : List Stage} (hb : s.phase = .busy)
    (h : s.todo = Command.build.parts ++ rest) (hp : s.present = []) :
    ∃ t : State, runBusy p (n + 3) s = .next (t.raise .emptyTable) ∧
      t = { s with nnodes := 0, pq := [], todo := t.todo } := by
  rw [runBusy_busy p _ (unit_buildLeaves_none p h hp) hb]
  exact ⟨_, runBusy_raise p n (unit_buildFew_none p rfl rfl) hb, rfl⟩

theorem runBusy_buildParts_one (n : Nat) {s : State} {rest : List Stage} {v : Sym} (hb : s.phase = .busy)
    (h : s.todo = Command.build.parts ++ rest) (hp : s.present = [v]) :
    runBusy Config.params (n + 3) s =
      runBusy Config.params n ({ s with
        node := wrapSingle v (s.freq[v].setWidth 41) s.node, nnodes := 3, root := 2, pq := [],
        todo := rest }.setFlag .treeValid true) := by
  refine Eq.trans (runBusy_busy _ (n + 2) (unit_buildLeaves_one h hp) hb) ?_
  refine Eq.trans (runBusy_busy _ (n + 1) (unit_buildFew_one rfl rfl rfl (Vector.getElem_set_self _)) hb) ?_
  exact runBusy_busy _ n (unit_buildMerge_root _ rfl rfl) hb

/-! ### A command accepted with its precondition met (R80, R210) -/

/-- No flag that a command needs is one that its acceptance writes (R23, R210). -/
theorem Command.needs_not_written :
    ∀ c ∈ Command.all, ∀ need ∈ c.needs, need.1 ∉ Flag.busy :: .done :: c.clears := by
  decide

/-- So the precondition may be asked of the state before acceptance. -/
theorem Command.issue_todo {c : Command} (hc : c ∈ Command.all) {s : State} (h : s.phase = .idle) :
    (c.issue s).todo = if s.meets c.needs then c.parts else [.raise .sequence] := by
  have hmeets : ((s.accept c.op).lower c.clears).meets c.needs = s.meets c.needs := by
    rw [Bool.eq_iff_iff, State.meets, State.meets, List.all_eq_true, List.all_eq_true]
    refine forall₂_congr fun need hneed => ?_
    have hfree := Command.needs_not_written c hc need hneed
    simp only [List.mem_cons, not_or] at hfree
    simp [hfree]
  rw [Command.issue, if_pos h, ← hmeets]

/-- A command presented in `IDLE` with its precondition met: its body is run from the accepted state. -/
theorem Command.run_of_meets (p : Params) {c : Command} (hc : c ∈ Command.all) {s : State} (h : s.phase = .idle)
    (hm : s.meets c.needs = true) :
    c.run p s = runBusy p (fuel s) (c.issue s) ∧ (c.issue s).todo = c.parts :=
  ⟨if_pos h, (Command.issue_todo hc h).trans (if_pos hm)⟩

theorem Command.issue_busy (c : Command) {s : State} (h : s.phase = .idle) : (c.issue s).phase = .busy := by
  rw [c.issue_frame h]

/-- The bound on the units of a command leaves room for a body of fixed length. -/
theorem le_fuel (s : State) : 4096 ≤ fuel s :=
  Nat.le_add_left ..

/-- R215 after an acceptance: the flags that the command has cleared stay 0. -/
theorem Command.raise_flags (c : Command) {s t : State} {x : Cause} (h : s.phase = .idle)
    (ht : t.status = (c.issue s).status) :
    flagsMove s (t.raise x) [.fault, .outClosed] (.busy :: .done :: c.clears) = true := by
  refine (flagsMove_iff ..).mpr ⟨fun f => ?_, ?_⟩
  · rw [State.flag_raise, State.flag_congr ht, c.flag_issue h, State.flag_accept]
    cases f <;> simp
  · rw [State.reserved_raise, ht, c.reserved_issue h]

/-! ### BUILD -/

theorem exec_build {s : State} (h : s.phase = .idle) (hf : s.flag .freqValid = true) :
    exec .build s = runBusy Config.params (fuel s) (Command.build.issue s) ∧
      (Command.build.issue s).todo = Command.build.parts :=
  Command.run_of_meets _ (by decide) h (by simp [State.meets, Command.build, hf])

theorem present_issue (c : Command) {s : State} (h : s.phase = .idle) : (c.issue s).present = s.present := by
  rw [c.issue_frame h]
  rfl

/-- Settles O18: no leaf enters the queue, and the unit that looks at the empty queue raises the fault. -/
theorem buildRefusesAnEmptyTable : Obligations.BuildRefusesAnEmptyTable := by
  unfold Obligations.BuildRefusesAnEmptyTable
  intro s hidle hvalid hp
  obtain ⟨hexec, htodo⟩ := exec_build hidle hvalid
  obtain ⟨n, hn⟩ : ∃ n, fuel s = n + 3 := ⟨fuel s - 3, by have := le_fuel s; omega⟩
  obtain ⟨t, hrun, ht⟩ := runBusy_buildParts_none Config.params n (rest := []) (Command.issue_busy _ hidle) htodo
    ((present_issue _ hidle).trans hp)
  rw [Command.issue_frame _ hidle] at ht
  refine ⟨_, by rw [hexec, hn, hrun], State.raise_err _ _, State.raise_phase _ _, ?_,
    Command.build.raise_flags hidle (by rw [ht]), ?_, ?_, ?_, ?_⟩
  · rw [State.raise_op, ht]; rfl
  · rw [State.raise_freq, ht]
  · rw [State.raise_code, ht]
  · rw [State.raise_inp, ht]
  · rw [State.raise_out_bits, ht]

/-- The accepted state `s` once BUILD has ended on a table that holds the one symbol `v`. -/
def wrapped (v : Sym) (s : State) : State :=
  ({ s with node := wrapSingle v (s.freq[v].setWidth 41) s.node, nnodes := 3, root := 2 }.setFlag .treeValid true).finish

theorem wrapped_status (v : Sym) (s : State) : (wrapped v s).status = (s.setFlag .treeValid true).finish.status := rfl

theorem exec_build_one {s : State} {v : Sym} (h : s.phase = .idle) (hf : s.flag .freqValid = true)
    (hp : s.present = [v]) : exec .build s = .next (wrapped v (Command.build.issue s)) := by
  obtain ⟨hexec, htodo⟩ := exec_build h hf
  obtain ⟨n, hn⟩ : ∃ n, fuel s = n + 1 + 3 := ⟨fuel s - 4, by have := le_fuel s; omega⟩
  rw [hexec, hn, runBusy_buildParts_one (n + 1) (rest := []) (Command.issue_busy _ h) htodo
    ((present_issue _ h).trans hp)]
  exact runBusy_end _ _ (unit_nil _ rfl) (by simp [wrapped])

section Wrapped

variable (v : Sym) {s : State} (h : s.phase = .idle)
include h

theorem wrapped_issue_node :
    (wrapped v (Command.build.issue s)).node = wrapSingle v (s.freq[v].setWidth 41) s.node := by
  rw [Command.issue_frame _ h]
  rfl

theorem wrapped_issue_frame :
    wrapped v (Command.build.issue s) = { s with
      op := 0x2, node := (wrapped v (Command.build.issue s)).node, nnodes := 3, root := 2,
      status := (wrapped v (Command.build.issue s)).status }.emptyWork := by
  rw [Command.issue_frame _ h, wrapped, State.finish, h]
  rfl

theorem wrapped_issue_flags :
    flagsMove s (wrapped v (Command.build.issue s)) [.done, .treeValid] [.busy, .codeValid] = true := by
  refine (flagsMove_iff ..).mpr ⟨fun f => ?_, ?_⟩
  · rw [State.flag_congr (wrapped_status v _), State.flag_finish, State.flag_setFlag, Command.flag_issue _ h,
      State.flag_accept]
    cases f <;> simp [Command.build]
  · rw [wrapped_status, State.reserved_finish, State.reserved_setFlag, Command.reserved_issue _ h]

end Wrapped

/-! ### GENERATE's units of work (R140, R141) -/

section Units

variable {s : State} {rest : List Stage} {i : Idx} {path : Bits} {walk : List (Idx × Bits)}

theorem unit_genStart_internal (p : Params) {l r : Idx} {w : Weight} (h : s.todo = .genStart :: rest)
    (hroot : s.node[s.root] = .internal l r w) :
    unit p s = .next { s with code := Vector.replicate 257 [], walk := [(s.root, [])], todo := rest } := by
  rw [unit_cons p h, turn, genStart]
  simp only [hroot, Turn.settle, h, List.tail_cons]

theorem unit_genWalk_internal (p : Params) {l r : Idx} {w : Weight} (h : s.todo = .genWalk :: rest)
    (hw : s.walk = (i, path) :: walk) (hi : s.node[i] = .internal l r w) :
    unit p s = .next { s with walk := (l, path ++ [false]) :: (r, path ++ [true]) :: walk } := by
  rw [unit_cons p h, turn, genWalk, hw]
  simp only [hi, Turn.settle]

theorem unit_genWalk_leaf (p : Params) {v : Sym} {w : Weight} (h : s.todo = .genWalk :: rest)
    (hw : s.walk = (i, path) :: walk) (hi : s.node[i] = .leaf v w) (hlen : path.length ≤ 256) :
    unit p s = .next { s with walk := walk, code := s.code.set v path } := by
  rw [unit_cons p h, turn, genWalk, hw]
  simp only [hi, if_pos hlen, Turn.settle, State.setCode]

/-- With no subtree left to visit the table is valid. -/
theorem unit_genWalk_end (p : Params) (h : s.todo = .genWalk :: rest) (hw : s.walk = []) :
    unit p s = .next ({ s with todo := rest }.setFlag .codeValid true) := by
  rw [unit_cons p h, turn, genWalk, hw]
  simp only [Turn.settle, State.setFlag, h, hw, List.tail_cons]

end Units

/-- GENERATE's body on a root over two leaves: their codes are `"0"` and `"1"`. -/
theorem runBusy_generateParts_two_leaves (p : Params) (n : Nat) {s : State} {rest : List Stage} {l r : Idx} {a b : Sym}
    {w wl wr : Weight} (hb : s.phase = .busy) (h : s.todo = Command.generate.parts ++ rest)
    (hroot : s.node[s.root] = .internal l r w) (hl : s.node[l] = .leaf a wl) (hr : s.node[r] = .leaf b wr) :
    runBusy p (n + 5) s =
      runBusy p n ({ s with
        code := ((Vector.replicate 257 []).set a [false]).set b [true], walk := [],
        todo := rest }.setFlag .codeValid true) := by
  refine Eq.trans (runBusy_busy p (n + 4) (unit_genStart_internal p h hroot) hb) ?_
  refine Eq.trans (runBusy_busy p (n + 3) (unit_genWalk_internal p rfl rfl hroot) hb) ?_
  refine Eq.trans (runBusy_busy p (n + 2) (unit_genWalk_leaf p rfl rfl hl (by decide)) hb) ?_
  refine Eq.trans (runBusy_busy p (n + 1) (unit_genWalk_leaf p rfl rfl hr (by decide)) hb) ?_
  exact runBusy_busy p n (unit_genWalk_end p rfl rfl) hb

theorem exec_generate {s : State} (h : s.phase = .idle) (hf : s.flag .treeValid = true) :
    exec .generate s = runBusy Config.params (fuel s) (Command.generate.issue s) ∧
      (Command.generate.issue s).todo = Command.generate.parts :=
  Command.run_of_meets _ (by decide) h (by simp [State.meets, Command.generate, hf])

theorem exec_generate_two_leaves {s : State} {l r : Idx} {a b : Sym} {w wl wr : Weight} (h : s.phase = .idle)
    (hf : s.flag .treeValid = true) (hroot : s.node[s.root] = .internal l r w) (hl : s.node[l] = .leaf a wl)
    (hr : s.node[r] = .leaf b wr) :
    ∃ g, exec .generate s = .next g ∧ g.code = ((Vector.replicate 257 []).set a [false]).set b [true] := by
  obtain ⟨n, hn⟩ : ∃ n, fuel s = n + 1 + 5 := ⟨fuel s - 6, by have := le_fuel s; omega⟩
  obtain ⟨hexec, htodo⟩ := exec_generate h hf
  have hframe := Command.generate.issue_frame h
  have hbody := runBusy_generateParts_two_leaves Config.params (n + 1) (rest := []) (s := Command.generate.issue s)
    (Command.issue_busy _ h) htodo (by rw [hframe]; exact hroot) (by rw [hframe]; exact hl) (by rw [hframe]; exact hr)
  rw [hexec, hn, hbody]
  exact ⟨_, runBusy_end _ _ (unit_nil _ rfl) (by simp), rfl⟩

/-- Settles O17: BUILD's three parts on the one leaf leave the wrapper, whose two leaves GENERATE then visits. -/
theorem buildWrapsASingleLeaf : Obligations.BuildWrapsASingleLeaf := by
  unfold Obligations.BuildWrapsASingleLeaf
  intro s v hidle hvalid hp
  have hw : (s.freq[v].setWidth 41).toNat = s.freq[v].toNat := BitVec.toNat_setWidth_of_le (by decide)
  have hnode := wrapped_issue_node v hidle
  have hroot := hnode ▸ wrapSingle_root v (s.freq[v].setWidth 41) s.node
  have hleaf := hnode ▸ wrapSingle_leaf v (s.freq[v].setWidth 41) s.node
  have hfiller := hnode ▸ wrapSingle_filler v (s.freq[v].setWidth 41) s.node
  obtain ⟨g, hgen, hcode⟩ := exec_generate_two_leaves (s := wrapped v (Command.build.issue s)) rfl
    (by simp [wrapped]) hroot hleaf hfiller
  refine ⟨_, _, exec_build_one hidle hvalid hp, hw, hleaf, hfiller, hroot, rfl, rfl, ⟨g, hgen, ?_, ?_⟩,
    wrapped_issue_flags v hidle, wrapped_issue_frame v hidle⟩
  · rw [hcode]
    simp [Fin.val_inj, fillerSym_ne]
  · rw [hcode]
    exact Vector.getElem_set_self _

end Sys2Proof.Machine

namespace Sys2Proof.Machine

open Sys2Proof

/-! ### GENERATE on a root that is a leaf (R143, R205) -/

/-- R143: the table has been cleared when the root is found to be a leaf. -/
theorem unit_genStart_leaf (p : Params) {s : State} {rest : List Stage} {v : Sym} {w : Weight}
    (h : s.todo = .genStart :: rest) (hroot : s.node[s.root] = .leaf v w) :
    unit p s = (Turn.raise .emptyCode { s with code := Vector.replicate 257 [] }).settle := by
  rw [unit_cons p h, turn, genStart]
  simp only [hroot]

/-- The run is two units long: the one that finds the leaf, and the entry of the fault. -/
theorem exec_generate_leaf {s : State} {v : Sym} {w : Weight} (h : s.phase = .idle) (hf : s.flag .treeValid = true)
    (hroot : s.node[s.root] = .leaf v w) :
    exec .generate s =
      .next (State.raise .emptyCode { Command.generate.issue s with code := Vector.replicate 257 [] }) := by
  obtain ⟨hexec, htodo⟩ := exec_generate h hf
  obtain ⟨n, hn⟩ : ∃ n, fuel s = n + 2 := ⟨fuel s - 2, by have := le_fuel s; omega⟩
  have hunit := unit_genStart_leaf Config.params (s := Command.generate.issue s) htodo
    (by rw [Command.issue_frame _ h]; exact hroot)
  rw [hexec, hn]
  exact runBusy_raise _ n hunit (Command.issue_busy _ h)

/-- Settles O21: GENERATE's first unit has emptied the table when it raises the fault, and acceptance has cleared
`CODE_VALID`; neither acceptance nor the fault's entry writes the tree, `FREQ`, `IN` or the bits of `OUT`. -/
theorem generateRefusesALeafRoot : Obligations.GenerateRefusesALeafRoot := by
  unfold Obligations.GenerateRefusesALeafRoot
  intro s v w hidle hvalid hroot
  have hframe := Command.generate.issue_frame hidle
  refine ⟨_, exec_generate_leaf hidle hvalid hroot, State.raise_err _ _, State.raise_phase _ _, fun u => ?_,
    Command.generate.raise_flags hidle rfl, ?_, ?_, ?_, ?_, ?_⟩
  · rw [State.raise_code]
    exact Vector.getElem_replicate _
  · rw [State.raise_node, hframe]
  · rw [State.raise_root, hframe]
  · rw [State.raise_freq, hframe]
  · rw [State.raise_inp, hframe]
  · rw [State.raise_out_bits, hframe]

end Sys2Proof.Machine

namespace Sys2Proof.Machine

open Sys2Proof

/-! ### A command whose body is run to its end (R231) -/

theorem Command.issue_inp (c : Command) {s : State} (h : s.phase = .idle) : (c.issue s).inp = s.inp := by
  rw [c.issue_frame h]

theorem Command.issue_out (c : Command) {s : State} (h : s.phase = .idle) : (c.issue s).out = s.out := by
  rw [c.issue_frame h]

theorem Command.issue_node (c : Command) {s : State} (h : s.phase = .idle) : (c.issue s).node = s.node := by
  rw [c.issue_frame h]

theorem Command.issue_root (c : Command) {s : State} (h : s.phase = .idle) : (c.issue s).root = s.root := by
  rw [c.issue_frame h]

/-- A body that takes `k` units from the accepted state to a state with nothing left to do completes there. -/
theorem Command.run_completes (p : Params) {c : Command} (hc : c ∈ Command.all) {s t u : State} {k : Nat}
    (h : s.phase = .idle) (hm : s.meets c.needs = true) (hk : k < 4096)
    (hbody : (c.issue s).phase = .busy → (c.issue s).todo = c.parts →
      ∀ n, runBusy p (n + k) (c.issue s) = runBusy p n t) (ht : t.todo = []) (hu : t.finish = u) :
    c.run p s = .next u := by
  obtain ⟨hrun, htodo⟩ := Command.run_of_meets p hc h hm
  obtain ⟨n, hn⟩ : ∃ n, fuel s = n + 1 + k := ⟨fuel s - (1 + k), by have := le_fuel s; omega⟩
  rw [hrun, hn, hbody (c.issue_busy h) htodo, ← hu]
  exact runBusy_end p n (unit_nil p ht) (by simp)

/-- A body whose first unit raises a fault ends in the fault's entry (R215). -/
theorem Command.run_raises (p : Params) {c : Command} (hc : c ∈ Command.all) {s t : State} {x : Cause}
    (h : s.phase = .idle) (hm : s.meets c.needs = true) (hb : t.phase = .busy)
    (hunit : (c.issue s).todo = c.parts → unit p (c.issue s) = (Turn.raise x t).settle) :
    c.run p s = .next (t.raise x) := by
  obtain ⟨hrun, htodo⟩ := Command.run_of_meets p hc h hm
  obtain ⟨n, hn⟩ : ∃ n, fuel s = n + 2 := ⟨fuel s - 2, by have := le_fuel s; omega⟩
  rw [hrun, hn]
  exact runBusy_raise p n (hunit htodo) hb

/-- Completion after an acceptance: the flags that the command has cleared stay 0, the others keep their values. -/
theorem Command.finish_flags (c : Command) {s t : State} (h : s.phase = .idle)
    (ht : t.status = (c.issue s).status) :
    flagsMove s t.finish [.done] (.busy :: c.clears) = true := by
  refine (flagsMove_iff ..).mpr ⟨fun f => ?_, ?_⟩
  · rw [State.flag_finish, State.flag_congr ht, c.flag_issue h, State.flag_accept]
    cases f <;> simp
  · rw [State.reserved_finish, ht, c.reserved_issue h]

/-! ### Trees in the node store (R26, R27) -/

theorem holds_leaf_iff {store : Vector Node 513} {i : Idx} {v : Sym} :
    holds store i (.leaf v) = true ↔ ∃ w, store[i] = .leaf v w := by
  rw [holds]
  cases store[i] <;> simp

theorem holds_node_iff {store : Vector Node 513} {i : Idx} {l r : HTree} :
    holds store i (.node l r) = true ↔
      ∃ a b w, store[i] = .internal a b w ∧ holds store a l = true ∧ holds store b r = true := by
  rw [holds]
  cases store[i] <;> simp

theorem HTree.size_pos (T : HTree) : 0 < T.size := by
  cases T <;> simp [HTree.size]

/-- The units of work in which SERIALIZE writes, or DESERIALIZE reads, the tokens of a header: one for each tag and one
for each leaf's field (R151, R153). -/
def HTree.tokenUnits : HTree → Nat
  | .leaf _ => 2
  | .node l r => l.tokenUnits + r.tokenUnits + 1

theorem HTree.tokenUnits_le (T : HTree) : T.tokenUnits ≤ 2 * T.size := by
  induction T with
  | leaf v => exact le_rfl
  | node l r ihl ihr => simp only [HTree.tokenUnits, HTree.size]; omega

/-- Every symbol fits the nine bits of a leaf's field (R85). -/
theorem symField_toNat (v : Sym) : (BitVec.ofNat 9 v.val).toNat = v.val := by
  rw [BitVec.toNat_ofNat]
  exact Nat.mod_eq_of_lt (by omega)

theorem HTree.header_leaf (v : Sym) : (HTree.leaf v).header = true :: bits 9 v.val := by
  rw [HTree.header, encode, symField_toNat]

theorem HTree.header_node (l r : HTree) : (HTree.node l r).header = false :: (l.header ++ r.header) := rfl

/-! ### SERIALIZE (R151) -/

section Units

variable {s : State} {rest : List Stage} {i : Idx} {path : Bits} {walk : List (Idx × Bits)}

theorem unit_serStart (p : Params) (h : s.todo = .serStart :: rest) :
    unit p s = .next { s with walk := [(s.root, [])], todo := rest } := by
  rw [unit_cons p h, turn, serStart, Turn.settle, h, List.tail_cons]

theorem unit_serWalk_internal (p : Params) {l r : Idx} {w : Weight} (h : s.todo = .serWalk :: rest)
    (hw : s.walk = (i, path) :: walk) (hi : s.node[i] = .internal l r w) :
    unit p s = .next { s.writeSeq [false] with walk := (l, []) :: (r, []) :: walk } := by
  rw [unit_cons p h, turn, serWalk, hw]
  simp only [hi]
  rfl

theorem unit_serWalk_leaf (p : Params) {v : Sym} {w : Weight} (h : s.todo = .serWalk :: rest)
    (hw : s.walk = (i, path) :: walk) (hi : s.node[i] = .leaf v w) :
    unit p s = .next { s.writeSeq [true] with walk := walk, todo := .serField v :: .serWalk :: rest } := by
  rw [unit_cons p h, turn, serWalk, hw]
  simp only [hi, Turn.settle, State.writeBits_todo, h]
  rfl

theorem unit_serField (p : Params) {v : Sym} (h : s.todo = .serField v :: rest) :
    unit p s = .next { s.writeSeq (bits 9 v.val) with todo := rest } := by
  rw [unit_cons p h, turn, serField, Turn.settle, State.writeBits_todo, h, List.tail_cons]
  rfl

theorem unit_serWalk_end (p : Params) (h : s.todo = .serWalk :: rest) (hw : s.walk = []) :
    unit p s = .next { s with todo := rest } := by
  rw [unit_cons p h, turn, serWalk, hw]
  simp only [Turn.settle, h, hw, List.tail_cons]

end Units

/-- The walk over the tree on top of its stack writes that tree's header. -/
theorem runBusy_serTree (p : Params) (T : HTree) (n : Nat) {s : State} {rest : List Stage} {i : Idx} {path : Bits}
    {walk : List (Idx × Bits)} (hb : s.phase = .busy) (h : s.todo = .serWalk :: rest)
    (hw : s.walk = (i, path) :: walk) (ht : holds s.node i T = true) :
    runBusy p (n + T.tokenUnits) s = runBusy p n { s.writeSeq T.header with walk := walk } := by
  induction T generalizing n s i path walk with
  | leaf v =>
    obtain ⟨w, hi⟩ := holds_leaf_iff.mp ht
    refine Eq.trans (runBusy_busy p (n + 1) (unit_serWalk_leaf p h hw hi) hb) ?_
    refine Eq.trans (runBusy_busy p n (unit_serField p rfl) hb) ?_
    rw [HTree.header_leaf]
    simp [State.writeSeq, h]
  | node l r ihl ihr =>
    obtain ⟨a, b, w, hi, hl, hr⟩ := holds_node_iff.mp ht
    have hn : n + (HTree.node l r).tokenUnits = n + r.tokenUnits + l.tokenUnits + 1 := by
      rw [HTree.tokenUnits]
      omega
    rw [hn, runBusy_busy p _ (unit_serWalk_internal p h hw hi) hb]
    refine Eq.trans (ihl (n + r.tokenUnits) hb h rfl hl) (Eq.trans (ihr n hb h rfl hr) ?_)
    rw [HTree.header_node]
    simp [State.writeSeq]

/-- SERIALIZE's body on a tree under `ROOT`. -/
theorem runBusy_serializeParts (p : Params) {T : HTree} (n : Nat) {s : State} {rest : List Stage}
    (hb : s.phase = .busy) (h : s.todo = Command.serialize.parts ++ rest) (ht : holds s.node s.root T = true) :
    runBusy p (n + (T.tokenUnits + 2)) s =
      runBusy p n { s.writeSeq T.header with walk := [], todo := rest } := by
  rw [show n + (T.tokenUnits + 2) = n + 1 + T.tokenUnits + 1 by omega, runBusy_busy p _ (unit_serStart p h) hb]
  refine Eq.trans (runBusy_serTree p T (n + 1) hb rfl rfl ht) ?_
  exact runBusy_busy p n (unit_serWalk_end p rfl rfl) hb

theorem exec_serialize_tree {s : State} {T : HTree} (h : s.phase = .idle) (hv : s.flag .treeValid = true)
    (ho : s.flag .outClosed = false) (ht : holds s.node s.root T = true) (hsize : T.size ≤ 513) :
    exec .serialize s = .next ((Command.serialize.issue s).writeSeq T.header).finish := by
  have hm : s.meets Command.serialize.needs = true := by simp [State.meets, Command.serialize, hv, ho]
  have hk : T.tokenUnits + 2 < 4096 := by have := T.tokenUnits_le; omega
  refine Command.run_completes Config.params (by decide) h hm hk
    (fun hb htodo n => runBusy_serializeParts _ n (rest := []) hb htodo ?_) rfl rfl
  rw [Command.issue_node _ h, Command.issue_root _ h]
  exact ht

/-! ### DESERIALIZE (R153, R154, R155) -/

section Units

variable {s : State} {rest : List Stage} {tail : Bits}

theorem unit_desStart (p : Params) (h : s.todo = .desStart :: rest) :
    unit p s = .next { s with nnodes := 0, pending := [], todo := rest } := by
  rw [unit_cons p h, turn, desStart, Turn.settle, h, List.tail_cons]

theorem unit_desLoop_internal (p : Params) (h : s.todo = .desLoop :: rest) (hin : s.inp.rest = false :: tail) :
    unit p s = .next { s with pending := .left :: s.pending, inp := { s.inp with pos := s.inp.pos + 1 } } := by
  rw [unit_cons p h, turn, desLoop, s.readBits_field (by decide) 0#1 tail hin]
  rfl

theorem unit_desLoop_leaf (p : Params) (h : s.todo = .desLoop :: rest) (hin : s.inp.rest = true :: tail) :
    unit p s = .next { s with inp := { s.inp with pos := s.inp.pos + 1 }, todo := .desField :: rest } := by
  rw [unit_cons p h, turn, desLoop, s.readBits_field (by decide) 1#1 tail hin]
  simp [Turn.settle, h]

/-- R26: while the store has room an allocation answers. -/
theorem State.alloc_isSome (node : Node) (h : s.nnodes.val < 513) :
    ∃ i t, s.alloc Config.params node = some (i, t) :=
  ⟨_, _, State.alloc_eq node h⟩

/-- A complete left child leaves its parent waiting for the right one. -/
theorem settle_attach_left (p : Params) (i : Idx) (st : List Pending) (h : s.todo = .desField :: rest) :
    ((attach p i (.left :: st) s).backTo .desLoop).settle =
      .next { s with pending := .right i :: st, todo := .desLoop :: rest } := by
  simp only [attach, Turn.backTo, Turn.settle, h, List.tail_cons]

/-- A complete right child completes its parent, which is allocated after it. -/
theorem attach_right {p : Params} {l i j : Idx} {st : List Pending} {t : State}
    (ha : s.alloc p (.internal l i 0) = some (j, t)) : attach p i (.right l :: st) s = attach p j st t := by
  simp only [attach, ha]

/-- A complete subtree with no open node above it is the tree. -/
theorem settle_attach_root (p : Params) (i : Idx) (h : s.todo = .desField :: rest) :
    ((attach p i [] s).backTo .desLoop).settle =
      .next ({ s with root := i, pending := [], todo := rest }.setFlag .treeValid true) := by
  simp only [attach, Turn.backTo, Turn.settle, State.setFlag, h, List.tail_cons]

/-- A legal field read while the store has room: its leaf is allocated and attached (R154, R155). -/
theorem unit_desField {v : Sym} (h : s.todo = .desField :: rest) (hin : s.inp.rest = bits 9 v.val ++ tail) {i : Idx}
    {t : State} (ha : State.alloc Config.params (.leaf v 0) { s with inp := { s.inp with pos := s.inp.pos + 9 } } =
      some (i, t)) :
    unit Config.params s = ((attach Config.params i s.pending t).backTo .desLoop).settle := by
  rw [← symField_toNat] at hin
  have hlegal : (BitVec.ofNat 9 v.val).toNat ≤ 256 := by rw [symField_toNat]; omega
  have hsym : (⟨(BitVec.ofNat 9 v.val).toNat, by omega⟩ : Sym) = v := Fin.ext (symField_toNat v)
  obtain ⟨-, -, -, -, hframe⟩ := State.alloc_some ha
  have hpending : t.pending = s.pending := by rw [hframe]
  rw [unit_cons _ h, turn, desField, s.readBits_field (by decide) _ tail hin]
  simp only [desLeaf, dif_pos hlegal, hsym, ha, hpending]

end Units

/-- What is left of a run once a unit of work has ended. -/
def resume (p : Params) (n : Nat) : Host.Outcome State Fault Refusal → Host.Outcome State Fault Refusal
  | .next t => if t.phase = .busy then runBusy p n t else .next t
  | .fault f => .fault f
  | .refused r => .refused r

theorem runBusy_succ (p : Params) (n : Nat) (s : State) : runBusy p (n + 1) s = resume p n (unit p s) := by
  rw [runBusy]
  cases unit p s <;> rfl

theorem resume_busy (p : Params) (n : Nat) {t : State} (hb : t.phase = .busy) :
    resume p n (.next t) = runBusy p n t :=
  if_pos hb

/-- From `s` to `t` the tokens of the tree `T` have been read, the last of them inside `t`'s unit: `T` is complete at
the last entry allocated, the entries before it are as they were, and nothing allocated later can change `T`. -/
structure TreeRead (T : HTree) (rest : List Stage) (s t : State) (i : Idx) : Prop where
  nnodes : t.nnodes.val = s.nnodes.val + T.size
  last : i.val + 1 = t.nnodes.val
  below : ∀ j : Idx, j.val < s.nnodes.val → t.node[j] = s.node[j]
  tree : ∀ store : Vector Node 513, (∀ j : Idx, j.val < t.nnodes.val → store[j] = t.node[j]) → holds store i T = true
  frame : t = { s with
    node := t.node, nnodes := t.nnodes, pending := t.pending, todo := .desField :: rest,
    inp := { s.inp with pos := s.inp.pos + T.header.length } }

/-- A leaf token: the leaf is the one entry allocated (R154). -/
theorem TreeRead.leaf {s t : State} {rest : List Stage} {v : Sym} {i : Idx}
    (ha : State.alloc Config.params (.leaf v 0) { s with
      inp := { s.inp with pos := s.inp.pos + 10 }, todo := .desField :: rest } = some (i, t)) :
    TreeRead (.leaf v) rest s t i := by
  obtain ⟨hi, hn, hnode, hother, hframe⟩ := State.alloc_some ha
  change i.val = s.nnodes.val at hi
  change t.nnodes.val = s.nnodes.val + 1 at hn
  refine ⟨hn, by omega, fun j hj => hother j fun e => ?_, fun store hstore => ?_, ?_⟩
  · subst e
    omega
  · exact holds_leaf_iff.mpr ⟨0, (hstore i (by omega)).trans hnode⟩
  · rw [HTree.header_leaf, List.length_cons, bits_length, hframe]

/-- An internal token, its two subtrees, and then its own entry (R155). -/
theorem TreeRead.node {s sl sr t : State} {rest : List Stage} {l r : HTree} {il ir i : Idx} {pl pr : List Pending}
    (hl : TreeRead l rest { s with pending := pl, inp := { s.inp with pos := s.inp.pos + 1 } } sl il)
    (hr : TreeRead r rest { sl with pending := pr, todo := .desLoop :: rest } sr ir)
    (ha : sr.alloc Config.params (.internal il ir 0) = some (i, t)) : TreeRead (.node l r) rest s t i := by
  obtain ⟨hi, hn, hnode, hother, hframe⟩ := State.alloc_some ha
  have hnl : sl.nnodes.val = s.nnodes.val + l.size := hl.nnodes
  have hnr : sr.nnodes.val = sl.nnodes.val + r.size := hr.nnodes
  have hsr : ∀ j : Idx, j.val < sr.nnodes.val → t.node[j] = sr.node[j] := fun j hj =>
    hother j fun e => by subst e; omega
  have hsl : ∀ j : Idx, j.val < sl.nnodes.val → t.node[j] = sl.node[j] := fun j hj =>
    (hsr j (by omega)).trans (hr.below j hj)
  refine ⟨by simp only [HTree.size]; omega, by omega, fun j hj => ?_, fun store hstore => ?_, ?_⟩
  · exact (hsl j (by omega)).trans (hl.below j hj)
  · refine holds_node_iff.mpr ⟨il, ir, 0, (hstore i (by omega)).trans hnode, hl.tree store fun j hj => ?_,
      hr.tree store fun j hj => ?_⟩
    · exact (hstore j (by omega)).trans (hsl j hj)
    · exact (hstore j (by omega)).trans (hsr j hj)
  · rw [hframe, hr.frame, hl.frame, HTree.header_node]
    simp [Nat.add_assoc, Nat.add_comm 1]

/-- The bits left once those in front of them have been read. -/
theorem Inp.rest_advance_append {i : Inp} {a tail : Bits} (h : i.rest = a ++ tail) :
    ({ i with pos := i.pos + a.length } : Inp).rest = tail := by
  rw [Inp.rest_advance, h, List.drop_left]

/-- DESERIALIZE's loop at the header of a tree that the store has room for: the tree is read and then attached, within the
unit that reads its last leaf's field. -/
theorem runBusy_desTree (T : HTree) {s : State} {rest : List Stage} {tail : Bits} (hb : s.phase = .busy)
    (h : s.todo = .desLoop :: rest) (hin : s.inp.rest = T.header ++ tail) (hroom : s.nnodes.val + T.size ≤ 513) :
    ∃ (t : State) (i : Idx), TreeRead T rest s t i ∧ ∀ n, runBusy Config.params (n + T.tokenUnits) s =
      resume Config.params n ((attach Config.params i s.pending t).backTo .desLoop).settle := by
  induction T generalizing s tail with
  | leaf v =>
    rw [HTree.header_leaf] at hin
    have hfield : ({ s.inp with pos := s.inp.pos + 1 } : Inp).rest = bits 9 v.val ++ tail :=
      Inp.rest_advance_append (a := [true]) hin
    obtain ⟨i, t, ha⟩ := State.alloc_isSome (s := { s with
      inp := { s.inp with pos := s.inp.pos + 10 }, todo := .desField :: rest }) (.leaf v 0) hroom
    refine ⟨t, i, TreeRead.leaf ha, fun n => ?_⟩
    refine Eq.trans (runBusy_busy _ (n + 1) (unit_desLoop_leaf _ h hin) hb) (Eq.trans (runBusy_succ ..) ?_)
    exact congrArg (resume Config.params n) (unit_desField rfl hfield ha)
  | node l r ihl ihr =>
    rw [HTree.size] at hroom
    rw [HTree.header_node, List.cons_append, List.append_assoc] at hin
    have hinl : ({ s.inp with pos := s.inp.pos + 1 } : Inp).rest = l.header ++ (r.header ++ tail) :=
      Inp.rest_advance_append (a := [false]) hin
    obtain ⟨sl, il, hl, hrunl⟩ := ihl (s := { s with
      pending := .left :: s.pending, inp := { s.inp with pos := s.inp.pos + 1 } }) hb h hinl (by simp only; omega)
    have hnl : sl.nnodes.val = s.nnodes.val + l.size := hl.nnodes
    have hslb : sl.phase = .busy := by rw [hl.frame]; exact hb
    have hinr : sl.inp.rest = r.header ++ tail := by rw [hl.frame]; exact Inp.rest_advance_append hinl
    obtain ⟨sr, ir, hr, hrunr⟩ := ihr (s := { sl with
      pending := .right il :: s.pending, todo := .desLoop :: rest }) hslb rfl hinr (by simp only; omega)
    have hnr : sr.nnodes.val = sl.nnodes.val + r.size := hr.nnodes
    obtain ⟨i, t, ha⟩ := State.alloc_isSome (s := sr) (.internal il ir 0) (by omega)
    refine ⟨t, i, TreeRead.node hl hr ha, fun n => ?_⟩
    have hn : n + (HTree.node l r).tokenUnits = n + r.tokenUnits + l.tokenUnits + 1 := by
      rw [HTree.tokenUnits]
      omega
    rw [hn, runBusy_busy _ _ (unit_desLoop_internal _ h hin) hb, hrunl,
      settle_attach_left _ _ _ (by rw [hl.frame])]
    refine Eq.trans (resume_busy _ _ hslb) ((hrunr n).trans ?_)
    rw [attach_right ha]

/-- DESERIALIZE's body on the header of a tree that fits the store: the tree stands under the last entry allocated. -/
theorem runBusy_deserializeParts {T : HTree} {s : State} {rest : List Stage} {tail : Bits} (hb : s.phase = .busy)
    (h : s.todo = Command.deserialize.parts ++ rest) (hin : s.inp.rest = T.header ++ tail) (hsize : T.size ≤ 513) :
    ∃ (node : Vector Node 513) (nnodes : Fin 514) (i : Idx), holds node i T = true ∧ nnodes.val = T.size ∧
      i.val + 1 = nnodes.val ∧ ∀ n, runBusy Config.params (n + (T.tokenUnits + 1)) s =
        runBusy Config.params n ({ s with
          node := node, nnodes := nnodes, root := i, pending := [], todo := rest,
          inp := { s.inp with pos := s.inp.pos + T.header.length } }.setFlag .treeValid true) := by
  obtain ⟨t, i, ht, hrun⟩ := runBusy_desTree T (s := { s with nnodes := 0, pending := [], todo := .desLoop :: rest })
    hb rfl hin (by simpa using hsize)
  have htb : t.phase = .busy := by rw [ht.frame]; exact hb
  refine ⟨t.node, t.nnodes, i, ht.tree _ fun _ _ => rfl, by simpa using ht.nnodes, ht.last, fun n => ?_⟩
  refine Eq.trans (runBusy_busy _ (n + T.tokenUnits) (unit_desStart _ h) hb) (Eq.trans (hrun n) ?_)
  rw [settle_attach_root _ i (by rw [ht.frame])]
  refine Eq.trans (resume_busy _ n htb) ?_
  rw [ht.frame]

theorem exec_deserialize_tree {s : State} {T : HTree} {tail : Bits} (h : s.phase = .idle)
    (hin : s.inp.rest = T.header ++ tail) (hsize : T.size ≤ 513) :
    ∃ (node : Vector Node 513) (nnodes : Fin 514) (i : Idx), holds node i T = true ∧ nnodes.val = T.size ∧
      i.val + 1 = nnodes.val ∧ exec .deserialize s = .next ({ Command.deserialize.issue s with
        node := node, nnodes := nnodes, root := i,
        inp := { s.inp with pos := s.inp.pos + T.header.length } }.setFlag .treeValid true).finish := by
  have hk : T.tokenUnits + 1 < 4096 := by have := T.tokenUnits_le; omega
  obtain ⟨hrun, htodo⟩ := Command.run_of_meets Config.params (c := .deserialize) (by decide) h rfl
  obtain ⟨node, nnodes, i, hholds, hn, hlast, hbody⟩ := runBusy_deserializeParts (rest := [])
    (Command.deserialize.issue_busy h) htodo (by rw [Command.issue_inp _ h]; exact hin) hsize
  rw [Command.issue_inp _ h] at hbody
  exact ⟨node, nnodes, i, hholds, hn, hlast,
    Command.run_completes Config.params (by decide) h rfl hk (fun _ _ => hbody) rfl rfl⟩

/-! ### GENERATE on a tree (R140, R141, R142) -/

/-- The code table after the paths of a subtree's leaves have been written, in preorder, below the path of its root. -/
def HTree.codesInto : HTree → Bits → Vector Bits 257 → Vector Bits 257
  | .leaf v, path, code => code.set v path
  | .node l r, path, code => r.codesInto (path ++ [true]) (l.codesInto (path ++ [false]) code)

/-- The walk over the tree on top of its stack writes that tree's paths. A tree of at most 513 nodes has at most 256
edges above a leaf: every edge down leaves two nodes or more behind. -/
theorem runBusy_genTree (p : Params) (T : HTree) (n : Nat) {s : State} {rest : List Stage} {i : Idx} {path : Bits}
    {walk : List (Idx × Bits)} (hb : s.phase = .busy) (h : s.todo = .genWalk :: rest)
    (hw : s.walk = (i, path) :: walk) (ht : holds s.node i T = true) (hlen : 2 * path.length + T.size ≤ 513) :
    runBusy p (n + T.size) s = runBusy p n { s with walk := walk, code := T.codesInto path s.code } := by
  induction T generalizing n s i path walk with
  | leaf v =>
    obtain ⟨w, hi⟩ := holds_leaf_iff.mp ht
    rw [HTree.size] at hlen
    exact runBusy_busy p n (unit_genWalk_leaf p h hw hi (by omega)) hb
  | node l r ihl ihr =>
    obtain ⟨a, b, w, hi, hl, hr⟩ := holds_node_iff.mp ht
    have hlpos := l.size_pos
    have hrpos := r.size_pos
    have hn : n + (HTree.node l r).size = n + r.size + l.size + 1 := by
      rw [HTree.size]
      omega
    rw [HTree.size] at hlen
    rw [hn, runBusy_busy p _ (unit_genWalk_internal p h hw hi) hb]
    refine Eq.trans (ihl (n + r.size) hb h rfl hl (by rw [List.length_append, List.length_singleton]; omega)) ?_
    exact ihr n hb h rfl hr (by rw [List.length_append, List.length_singleton]; omega)

/-- GENERATE's body on a tree under `ROOT` whose root is internal. -/
theorem runBusy_generateParts (p : Params) {T : HTree} (n : Nat) {s : State} {rest : List Stage} (hb : s.phase = .busy)
    (h : s.todo = Command.generate.parts ++ rest) (ht : holds s.node s.root T = true) (hT : T.isNode = true)
    (hsize : T.size ≤ 513) :
    runBusy p (n + (T.size + 2)) s = runBusy p n ({ s with
      code := T.codesInto [] (Vector.replicate 257 []), walk := [], todo := rest }.setFlag .codeValid true) := by
  obtain ⟨l, r, w, hroot⟩ : ∃ l r w, s.node[s.root] = .internal l r w := by
    cases T with
    | leaf v => cases hT
    | node tl tr =>
      obtain ⟨l, r, w, hroot, -, -⟩ := holds_node_iff.mp ht
      exact ⟨l, r, w, hroot⟩
  rw [show n + (T.size + 2) = n + 1 + T.size + 1 by omega, runBusy_busy p _ (unit_genStart_internal p h hroot) hb]
  refine Eq.trans (runBusy_genTree p T (n + 1) hb rfl rfl ht (by simpa using hsize)) ?_
  exact runBusy_busy p n (unit_genWalk_end p rfl rfl) hb

theorem exec_generate_tree {s : State} {T : HTree} (h : s.phase = .idle) (hv : s.flag .treeValid = true)
    (ht : holds s.node s.root T = true) (hT : T.isNode = true) (hsize : T.size ≤ 513) :
    exec .generate s = .next ({ Command.generate.issue s with
      code := T.codesInto [] (Vector.replicate 257 []) }.setFlag .codeValid true).finish := by
  have hm : s.meets Command.generate.needs = true := by simp [State.meets, Command.generate, hv]
  refine Command.run_completes Config.params (by decide) h hm (show T.size + 2 < 4096 by omega)
    (fun hb htodo n => runBusy_generateParts _ n (rest := []) hb htodo ?_ hT hsize) rfl rfl
  rw [Command.issue_node _ h, Command.issue_root _ h]
  exact ht

/-- GENERATE's table depends on the tree alone, not on where its nodes lie or what the table held. -/
theorem exec_generate_code {s : State} {T : HTree} (h : s.phase = .idle) (hv : s.flag .treeValid = true)
    (ht : holds s.node s.root T = true) (hT : T.isNode = true) (hsize : T.size ≤ 513) :
    ∃ t, exec .generate s = .next t ∧ t.code = T.codesInto [] (Vector.replicate 257 []) :=
  ⟨_, exec_generate_tree h hv ht hT hsize, rfl⟩

/-- Settles O32: SERIALIZE writes the header of the tree, DESERIALIZE reads that header back into the same tree, and
GENERATE's table depends on the tree alone. -/
theorem headerRoundTrip : Obligations.HeaderRoundTrip := by
  unfold Obligations.HeaderRoundTrip
  intro s u T tail hidle hvalid hopen ht hsize hu
  refine ⟨_, T.header, exec_serialize_tree hidle hvalid hopen ht hsize, ?_, fun hin => ?_⟩
  · exact congrArg (fun o : Out => o.bits ++ T.header) (Command.serialize.issue_out hidle)
  obtain ⟨node, nnodes, i, hholds, -, -, hdes⟩ := exec_deserialize_tree hu hin hsize
  refine ⟨_, hdes, rfl, hholds, rfl, fun hT => ?_⟩
  obtain ⟨a, ha, hacode⟩ := exec_generate_code (s := ((Command.serialize.issue s).writeSeq T.header).finish) rfl
    (by simp [Command.flag_issue _ hidle, Command.serialize, hvalid])
    (by simpa [Command.issue_node _ hidle, Command.issue_root _ hidle] using ht) hT hsize
  obtain ⟨b, hb, hbcode⟩ := exec_generate_code (s := ({ Command.deserialize.issue u with
    node := node, nnodes := nnodes, root := i,
    inp := { u.inp with pos := u.inp.pos + T.header.length } }.setFlag .treeValid true).finish) rfl
    (by simp) hholds hT hsize
  exact ⟨a, b, ha, hb, hacode.trans hbcode.symm⟩

/-! ### RDMAGIC (R152, R201) -/

section Units

variable {s : State} {rest : List Stage} {tail : Bits}

theorem unit_rdMagic_match (h : s.todo = .rdMagic :: rest)
    (hin : s.inp.rest = bits 32 Config.magic.toNat ++ tail) :
    unit Config.params s = .next { s with inp := { s.inp with pos := s.inp.pos + 32 }, todo := rest } := by
  rw [unit_cons _ h, turn, rdMagic, s.readBits_field (by decide) _ tail hin]
  simp [checkMagic, Config.params, Turn.settle, h]

theorem unit_rdMagic_other {m : BitVec 32} (h : s.todo = .rdMagic :: rest) (hm : m ≠ Config.magic)
    (hin : s.inp.rest = bits 32 m.toNat ++ tail) :
    unit Config.params s =
      (Turn.raise .format { s with inp := { s.inp with pos := s.inp.pos + 32 } }).settle := by
  rw [unit_cons _ h, turn, rdMagic, s.readBits_field (by decide) _ tail hin]
  exact congrArg Turn.settle (if_neg hm)

theorem unit_rdMagic_eos (p : Params) (h : s.todo = .rdMagic :: rest) (heos : s.inp.rest.length < 32) :
    unit p s = (Turn.raise .format { s with inp := { s.inp with pos := s.inp.data.length } }).settle := by
  rw [unit_cons p h, turn, rdMagic, s.readBits_eos heos]

end Units

theorem exec_rdmagic_match {s : State} {tail : Bits} (h : s.phase = .idle)
    (hin : s.inp.rest = bits 32 Config.magic.toNat ++ tail) :
    exec .rdmagic s =
      .next { Command.rdmagic.issue s with inp := { s.inp with pos := s.inp.pos + 32 } }.finish := by
  refine Command.run_completes Config.params (by decide) h rfl (show 1 < 4096 by decide)
    (fun hb htodo n => runBusy_busy _ n (unit_rdMagic_match (tail := tail) htodo ?_) hb) rfl ?_
  · rw [Command.issue_inp _ h]
    exact hin
  · rw [Command.issue_inp _ h]
    rfl

/-- R201: RDMAGIC's fault shows code 1; nothing but `IN`'s position has moved before its entry. -/
theorem exec_rdmagic_format {s : State} {pos : Nat} (h : s.phase = .idle)
    (hunit : (Command.rdmagic.issue s).todo = Command.rdmagic.parts → unit Config.params (Command.rdmagic.issue s) =
      (Turn.raise .format { Command.rdmagic.issue s with inp := { s.inp with pos := pos } }).settle) :
    ∃ t, exec .rdmagic s = .next t ∧ t.err = 1 ∧ t.phase = .fault ∧ t.out.bits = s.out.bits ∧
      t.inp = { s.inp with pos := pos } := by
  have hb : ({ Command.rdmagic.issue s with inp := { s.inp with pos := pos } } : State).phase = .busy :=
    Command.rdmagic.issue_busy h
  refine ⟨_, Command.run_raises Config.params (by decide) h rfl hb hunit,
    State.raise_err _ _, State.raise_phase _ _, ?_, State.raise_inp _ _⟩
  rw [State.raise_out_bits]
  exact congrArg Out.bits (Command.rdmagic.issue_out h)

/-- Settles O24: RDMAGIC's one read answers the magic, another value or `EOS`, and the last two raise the same fault. -/
theorem rdmagicChecksMagic : Obligations.RdmagicChecksMagic := by
  unfold Obligations.RdmagicChecksMagic
  intro s hidle
  have hinp := Command.rdmagic.issue_inp hidle
  refine ⟨fun tail hin => ?_, fun m tail hm hin => ?_, fun heos => ?_⟩
  · refine ⟨_, exec_rdmagic_match hidle hin, Command.rdmagic.finish_flags hidle rfl, ?_⟩
    rw [Command.issue_frame _ hidle, State.finish, hidle]
    rfl
  · refine exec_rdmagic_format hidle fun htodo => ?_
    rw [← hinp] at hin ⊢
    exact unit_rdMagic_other htodo hm hin
  · refine exec_rdmagic_format hidle fun htodo => ?_
    rw [← hinp] at heos ⊢
    exact unit_rdMagic_eos _ htodo heos

end Sys2Proof.Machine

namespace Sys2Proof.Machine

open Sys2Proof

/-! ### The codes of a tree's leaves (R28) -/

/-- A leaf below an internal node has a code whose first bit names the child it lies under (R28). -/
theorem HTree.mem_paths_node {l r : HTree} {v : Sym} {c : Bits} (h : (v, c) ∈ (HTree.node l r).paths) :
    ∃ bit c', c = bit :: c' ∧ (v, c') ∈ (if bit then r else l : HTree).paths := by
  simp only [HTree.paths, List.mem_append, List.mem_map, Prod.mk.injEq] at h
  obtain ⟨⟨u, c'⟩, hmem, rfl, rfl⟩ | ⟨⟨u, c'⟩, hmem, rfl, rfl⟩ := h
  · exact ⟨false, c', rfl, hmem⟩
  · exact ⟨true, c', rfl, hmem⟩

/-- Under an internal root every code has a bit, so there are no more codes than bits of codes. -/
theorem length_le_pathBits {T : HTree} (hT : T.isNode = true) (ps : List (Sym × Bits))
    (hps : ∀ x ∈ ps, x ∈ T.paths) : ps.length ≤ (pathBits ps).length := by
  induction ps with
  | nil => exact Nat.zero_le _
  | cons x ps ih =>
    cases T with
    | leaf v => cases hT
    | node l r =>
      obtain ⟨bit, c', hc, -⟩ := HTree.mem_paths_node (hps x List.mem_cons_self)
      have := ih fun y hy => hps y (List.mem_cons_of_mem x hy)
      simp only [pathBits, hc, List.length_cons, List.length_append]
      omega

/-! ### DECODE's units of work (R180, R181, R182, R183) -/

/-- What DECODE has left to do at the node it has moved to, `rest` being what follows its loop: the next bit at an
internal node, nothing at a sentinel leaf, the byte and then the next bit at any other leaf (R182). -/
def decNext (rest : List Stage) : Node → List Stage
  | .internal _ _ _ => .decLoop :: rest
  | .leaf v _ => if v = sentinel then rest else .decEmit v :: .decLoop :: rest

theorem decNext_of_isNode {store : Vector Node 513} {i : Idx} {T : HTree} (rest : List Stage)
    (h : holds store i T = true) (hT : T.isNode = true) : decNext rest store[i] = .decLoop :: rest := by
  cases T with
  | leaf v => cases hT
  | node l r =>
    obtain ⟨a, b, w, hi, -, -⟩ := holds_node_iff.mp h
    rw [hi, decNext]

theorem decNext_sentinel (rest : List Stage) (w : Weight) : decNext rest (.leaf sentinel w) = rest := by
  rw [decNext, if_pos rfl]

theorem decNext_byte (rest : List Stage) {v : Sym} (w : Weight) (hv : v ≠ sentinel) :
    decNext rest (.leaf v w) = .decEmit v :: .decLoop :: rest := by
  rw [decNext, if_neg hv]

section Units

variable {s : State} {rest : List Stage} {tail : Bits}

theorem unit_decStart (p : Params) (h : s.todo = .decStart :: rest) :
    unit p s = .next { s with cur := s.root, todo := rest } := by
  rw [unit_cons p h, turn, decStart, Turn.settle, h, List.tail_cons]

/-- One bit of `IN` read by DECODE: what follows is the move on that bit. -/
theorem unit_decLoop_bit (p : Params) {b : Bool} (h : s.todo = .decLoop :: rest) (hin : s.inp.rest = b :: tail) :
    unit p s = (decMove (fun v s1 => .first (.decEmit v) s1) b
      { s with inp := { s.inp with pos := s.inp.pos + 1 } }).settle := by
  have hread : s.readBits 1 = (some (BitVec.ofBool b), { s with inp := { s.inp with pos := s.inp.pos + 1 } }) :=
    s.readBits_field (by decide) _ tail (by rw [hin]; cases b <;> rfl)
  have hbit : (BitVec.ofBool b == 1#1) = b := by cases b <;> rfl
  rw [unit_cons p h, turn, decLoop, hread]
  simp only [hbit]

/-- R181: at an internal node the bit names the child that `CUR` moves to. -/
theorem unit_decLoop_internal (p : Params) {b : Bool} {l r : Idx} {w : Weight} (h : s.todo = .decLoop :: rest)
    (hin : s.inp.rest = b :: tail) (hcur : s.node[s.cur] = .internal l r w) :
    unit p s = .next { s with
      cur := if b then r else l, inp := { s.inp with pos := s.inp.pos + 1 },
      todo := decNext rest s.node[if b then r else l] } := by
  rw [unit_decLoop_bit p h hin, decMove]
  simp only [hcur]
  cases hchild : s.node[if b then r else l] with
  | internal a c w' => simp only [Turn.settle, decNext, h]
  | leaf v w' =>
    by_cases hv : v = sentinel
    · simp only [hv, if_true, Turn.settle, decNext, h, List.tail_cons]
    · simp only [if_neg hv, Turn.settle, decNext, h]

/-- An internal node has both children, so that a bit, whichever it is, leads to a subtree (R27, R181). -/
theorem unit_decLoop_node (p : Params) {bit : Bool} {l r : HTree} (h : s.todo = .decLoop :: rest)
    (hin : s.inp.rest = bit :: tail) (ht : holds s.node s.cur (.node l r) = true) :
    ∃ j : Idx, holds s.node j (if bit then r else l) = true ∧ unit p s = .next { s with
      cur := j, inp := { s.inp with pos := s.inp.pos + 1 }, todo := decNext rest s.node[j] } := by
  obtain ⟨a, b, w, hi, hl, hr⟩ := holds_node_iff.mp ht
  refine ⟨if bit then b else a, ?_, unit_decLoop_internal p h hin hi⟩
  cases bit
  · exact hl
  · exact hr

/-- R183: at a leaf there is no child to move to. -/
theorem unit_decLoop_leaf (p : Params) {b : Bool} {v : Sym} {w : Weight} (h : s.todo = .decLoop :: rest)
    (hin : s.inp.rest = b :: tail) (hcur : s.node[s.cur] = .leaf v w) :
    unit p s = (Turn.raise .corruption { s with inp := { s.inp with pos := s.inp.pos + 1 } }).settle := by
  rw [unit_decLoop_bit p h hin, decMove]
  simp only [hcur]

/-- R183: the read comes before the node is looked at. -/
theorem unit_decLoop_eos (p : Params) (h : s.todo = .decLoop :: rest) (heos : s.inp.rest = []) :
    unit p s = (Turn.raise .truncation { s with inp := { s.inp with pos := s.inp.data.length } }).settle := by
  rw [unit_cons p h, turn, decLoop, s.readBits_eos (by rw [heos]; exact Nat.one_pos)]

theorem unit_decEmit (p : Params) {v : Sym} (h : s.todo = .decEmit v :: rest) :
    unit p s = .next { s.writeSeq (bits 8 v.val) with cur := s.root, todo := rest } := by
  rw [unit_cons p h, turn, decEmit, decByte, Turn.settle, State.writeBits_todo, h, List.tail_cons]
  rfl

end Units

/-! ### DECODE's body on whole codes (R181, R182) -/

/-- The bits of one code lead `CUR` down the tree to a leaf of the code's symbol, one unit a bit. -/
theorem runBusy_decPath (p : Params) (c : Bits) {T : HTree} {s : State} {rest : List Stage} {v : Sym} {tail : Bits}
    (hb : s.phase = .busy) (h : s.todo = .decLoop :: rest) (ht : holds s.node s.cur T = true) (hT : T.isNode = true)
    (hc : (v, c) ∈ T.paths) (hin : s.inp.rest = c ++ tail) :
    ∃ (i : Idx) (w : Weight), s.node[i] = .leaf v w ∧ ∀ n, runBusy p (n + c.length) s =
      runBusy p n { s with
        cur := i, inp := { s.inp with pos := s.inp.pos + c.length }, todo := decNext rest (.leaf v w) } := by
  induction c generalizing T s with
  | nil =>
    cases T with
    | leaf u => cases hT
    | node l r =>
      obtain ⟨bit, c', hcons, -⟩ := HTree.mem_paths_node hc
      cases hcons
  | cons bit c ih =>
    cases T with
    | leaf u => cases hT
    | node l r =>
      obtain ⟨_, _, hcons, hmem⟩ := HTree.mem_paths_node hc
      cases hcons
      obtain ⟨j, hchild, hunit⟩ := unit_decLoop_node p h hin ht
      generalize (if bit then r else l) = U at hmem hchild
      cases U with
      | leaf u =>
        obtain ⟨rfl, rfl⟩ : v = u ∧ c = [] := by simpa [HTree.paths] using hmem
        obtain ⟨w', hj⟩ := holds_leaf_iff.mp hchild
        rw [hj] at hunit
        exact ⟨j, w', hj, fun n => runBusy_busy p n hunit hb⟩
      | node l' r' =>
        rw [decNext_of_isNode rest hchild rfl] at hunit
        obtain ⟨i, w', hleaf, hrun⟩ := ih (s := { s with
          cur := j, inp := { s.inp with pos := s.inp.pos + 1 }, todo := .decLoop :: rest }) hb rfl hchild rfl hmem
          (Inp.rest_advance_append (a := [bit]) hin)
        refine ⟨i, w', hleaf, fun n => ?_⟩
        refine Eq.trans (runBusy_busy p (n + c.length) hunit hb) ((hrun n).trans ?_)
        simp only [List.length_cons, Nat.add_assoc, Nat.add_comm 1]

/-- Codes of leaves that are no sentinel leaf, from the root on: their bytes are written, and `CUR` is at the root again
after each. -/
theorem runBusy_decCodes (p : Params) {T : HTree} (hT : T.isNode = true) (ps : List (Sym × Bits)) {s : State}
    (rest : List Stage) {tail : Bits} (hb : s.phase = .busy) (ht : holds s.node s.root T = true)
    (hps : ∀ x ∈ ps, x ∈ T.paths ∧ x.1 ≠ sentinel) (hin : s.inp.rest = pathBits ps ++ tail) (n : Nat) :
    runBusy p (n + ((pathBits ps).length + ps.length)) { s with cur := s.root, todo := .decLoop :: rest } =
      runBusy p n { s.writeSeq (symBytes ps) with
        cur := s.root, inp := { s.inp with pos := s.inp.pos + (pathBits ps).length }, todo := .decLoop :: rest } := by
  induction ps generalizing s n with
  | nil => simp [pathBits, symBytes, State.writeSeq]
  | cons x ps ih =>
    obtain ⟨v, c⟩ := x
    obtain ⟨hc, hv⟩ := hps (v, c) List.mem_cons_self
    rw [pathBits, List.append_assoc] at hin
    obtain ⟨i, w, -, hrun⟩ := runBusy_decPath p c (s := { s with cur := s.root, todo := .decLoop :: rest })
      hb rfl ht hT hc hin
    rw [decNext_byte rest w hv] at hrun
    have hn : n + ((pathBits ((v, c) :: ps)).length + ((v, c) :: ps).length) =
        n + ((pathBits ps).length + ps.length) + 1 + c.length := by
      simp only [pathBits, List.length_append, List.length_cons]
      omega
    rw [hn, hrun]
    refine Eq.trans (runBusy_busy p _ (unit_decEmit p rfl) hb) ?_
    refine Eq.trans (ih (s := { s.writeSeq (bits 8 v.val) with inp := { s.inp with pos := s.inp.pos + c.length } })
      hb ht (fun y hy => hps y (List.mem_cons_of_mem _ hy)) (Inp.rest_advance_append hin) n) ?_
    simp [State.writeSeq, pathBits, symBytes, Nat.add_assoc]

/-- DECODE's body on codes of leaves that are no sentinel leaf and the code of a sentinel leaf after them. -/
theorem runBusy_decodeParts (p : Params) {T : HTree} {ps : List (Sym × Bits)} {c tail : Bits} {s : State}
    {rest : List Stage} (hb : s.phase = .busy) (h : s.todo = Command.decode.parts ++ rest)
    (ht : holds s.node s.root T = true) (hT : T.isNode = true) (hps : ∀ x ∈ ps, x ∈ T.paths ∧ x.1 ≠ sentinel)
    (hc : (sentinel, c) ∈ T.paths) (hin : s.inp.rest = pathBits ps ++ c ++ tail) :
    ∃ (i : Idx) (w : Weight), s.node[i] = .leaf sentinel w ∧
      ∀ n, runBusy p (n + ((pathBits ps).length + ps.length + c.length + 1)) s =
        runBusy p n { s.writeSeq (symBytes ps) with
          cur := i, inp := { s.inp with pos := s.inp.pos + (pathBits ps).length + c.length }, todo := rest } := by
  rw [List.append_assoc] at hin
  obtain ⟨i, w, hleaf, hrun⟩ := runBusy_decPath p c (rest := rest) (s := { s.writeSeq (symBytes ps) with
    cur := s.root, inp := { s.inp with pos := s.inp.pos + (pathBits ps).length }, todo := .decLoop :: rest })
    hb rfl ht hT hc (Inp.rest_advance_append hin)
  rw [decNext_sentinel] at hrun
  refine ⟨i, w, hleaf, fun n => ?_⟩
  rw [show n + ((pathBits ps).length + ps.length + c.length + 1) =
    n + c.length + ((pathBits ps).length + ps.length) + 1 by omega, runBusy_busy p _ (unit_decStart p h) hb]
  exact (runBusy_decCodes p hT ps rest hb ht hps hin (n + c.length)).trans (hrun n)

/-! ### The whole command -/

/-- The bound on the units of a command leaves two for each bit left in `IN`, and more than the other parts take. -/
theorem two_mul_rest_le_fuel (s : State) : 2 * s.inp.rest.length + 4096 ≤ fuel s := by
  have hrest : s.inp.rest.length ≤ s.inp.data.length := List.length_drop.trans_le (Nat.sub_le ..)
  have hmul : (s.inp.data.length + 1) * 4 ≤ (s.inp.data.length + 1) * (s.longestCode + 4) :=
    Nat.mul_le_mul_left _ (Nat.le_add_left ..)
  rw [fuel]
  omega

theorem exec_decode {s : State} (h : s.phase = .idle) (hv : s.flag .treeValid = true) (ho : s.flag .outClosed = false) :
    exec .decode s = runBusy Config.params (fuel s) (Command.decode.issue s) ∧
      (Command.decode.issue s).todo = Command.decode.parts :=
  Command.run_of_meets _ (by decide) h (by simp [State.meets, Command.decode, hv, ho])

/-- The state in which DECODE ends on the codes of the leaves `ps` and of a sentinel leaf, the node `i`, after which
`IN` stands at `pos`. -/
def decodeDone (s : State) (ps : List (Sym × Bits)) (i : Idx) (pos : Nat) : State :=
  { (Command.decode.issue s).writeSeq (symBytes ps) with
      cur := i, inp := { s.inp with pos := pos }, todo := [] }.finish

@[simp] theorem decodeDone_phase (s : State) (ps : List (Sym × Bits)) (i : Idx) (pos : Nat) :
    (decodeDone s ps i pos).phase = .idle := rfl

theorem exec_decode_codes {s : State} {T : HTree} {ps : List (Sym × Bits)} {c tail : Bits} (h : s.phase = .idle)
    (hv : s.flag .treeValid = true) (ho : s.flag .outClosed = false) (ht : holds s.node s.root T = true)
    (hT : T.isNode = true) (hps : ∀ x ∈ ps, x ∈ T.paths ∧ x.1 ≠ sentinel) (hc : (sentinel, c) ∈ T.paths)
    (hin : s.inp.rest = pathBits ps ++ c ++ tail) :
    ∃ (i : Idx) (w : Weight), s.node[i] = .leaf sentinel w ∧
      exec .decode s = .next (decodeDone s ps i (s.inp.pos + (pathBits ps).length + c.length)) := by
  obtain ⟨hexec, htodo⟩ := exec_decode h hv ho
  have hinp := Command.decode.issue_inp h
  have hnode := Command.decode.issue_node h
  obtain ⟨i, w, hleaf, hrun⟩ := runBusy_decodeParts Config.params (rest := []) (Command.decode.issue_busy h) htodo
    (by rw [hnode, Command.issue_root _ h]; exact ht) hT hps hc (by rw [hinp]; exact hin)
  obtain ⟨n, hn⟩ : ∃ n, fuel s = n + 1 + ((pathBits ps).length + ps.length + c.length + 1) := by
    have hcodes := length_le_pathBits hT ps fun x hx => (hps x hx).1
    have hfuel := two_mul_rest_le_fuel s
    rw [hin, List.length_append, List.length_append] at hfuel
    exact ⟨fuel s - ((pathBits ps).length + ps.length + c.length + 2), by omega⟩
  refine ⟨i, w, hnode ▸ hleaf, ?_⟩
  rw [hexec, hn, hrun, hinp]
  exact runBusy_end _ n (unit_nil _ rfl) (by simp)

/-- DECODE leaves alone what it is not said to write. -/
theorem decodeDone_frame {s : State} (h : s.phase = .idle) (ps : List (Sym × Bits)) (i : Idx) (pos : Nat) :
    decodeDone s ps i pos = { s with
      op := 0xA, status := (decodeDone s ps i pos).status, cur := i, inp := { s.inp with pos := pos },
      out := { s.out with bits := s.out.bits ++ symBytes ps } }.emptyWork := by
  rw [decodeDone, Command.issue_frame _ h, State.finish, h]
  rfl

/-- Settles O37: every code leads from the root to its leaf, a byte's leaf writes the byte and returns to the root, and
the loop ends at the sentinel's. -/
theorem decodeRecoversTheBytes : Obligations.DecodeRecoversTheBytes := by
  unfold Obligations.DecodeRecoversTheBytes
  intro s T ps c tail hidle hvalid hopen ht hT hps hc hin
  obtain ⟨i, w, hleaf, hexec⟩ := exec_decode_codes hidle hvalid hopen ht hT hps hc hin
  refine ⟨_, w, hexec, Command.decode.finish_flags hidle rfl, ?_, decodeDone_frame hidle ..⟩
  rw [decodeDone_frame hidle]
  exact hleaf

/-! ### How DECODE can end (R183, R184) -/

/-- The state in which DECODE first stands at its loop. -/
def decodeEntry (s : State) : State :=
  { Command.decode.issue s with cur := (Command.decode.issue s).root, todo := [.decLoop] }

/-- DECODE's first unit takes it to its loop, at the root. -/
theorem exec_decode_entry {s : State} {n : Nat} (h : s.phase = .idle) (hv : s.flag .treeValid = true)
    (ho : s.flag .outClosed = false) (hn : fuel s = n + 1) :
    exec .decode s = runBusy Config.params n (decodeEntry s) := by
  obtain ⟨hexec, htodo⟩ := exec_decode h hv ho
  rw [hexec, hn, runBusy_busy _ n (unit_decStart _ htodo) (Command.decode.issue_busy h)]
  rfl

theorem decodeEntry_phase {s : State} (h : s.phase = .idle) : (decodeEntry s).phase = .busy :=
  Command.decode.issue_busy h

theorem decodeEntry_inp {s : State} (h : s.phase = .idle) : (decodeEntry s).inp = s.inp :=
  Command.decode.issue_inp h

theorem decodeEntry_node {s : State} (h : s.phase = .idle) : (decodeEntry s).node = s.node :=
  Command.decode.issue_node h

theorem decodeEntry_root {s : State} (h : s.phase = .idle) : (decodeEntry s).root = s.root :=
  Command.decode.issue_root h

theorem decodeEntry_cur {s : State} (h : s.phase = .idle) : (decodeEntry s).cur = s.root :=
  Command.decode.issue_root h

/-- A fault raised by the loop's first unit, which has moved nothing but `IN`'s position: nothing is written, and the
fault's entry closes `OUT`. -/
theorem exec_decode_raise {s : State} {x : Cause} {pos : Nat} (h : s.phase = .idle) (hv : s.flag .treeValid = true)
    (ho : s.flag .outClosed = false) (hunit : unit Config.params (decodeEntry s) =
      (Turn.raise x { decodeEntry s with inp := { (decodeEntry s).inp with pos := pos } }).settle) :
    ∃ t, exec .decode s = .next t ∧ t.err = x.code ∧ t.phase = .fault ∧ t.inp.pos = pos ∧
      t.out = { bits := s.out.bits, closed := true } := by
  obtain ⟨n, hn⟩ : ∃ n, fuel s = n + 2 + 1 := ⟨fuel s - 3, by have := le_fuel s; omega⟩
  have hopen : (decodeEntry s).flag .outClosed = false :=
    (Command.decode.flag_issue h .outClosed).trans ((State.flag_accept ..).trans ho)
  refine ⟨_, (exec_decode_entry h hv ho hn).trans (runBusy_raise _ n hunit (decodeEntry_phase h)),
    State.raise_err .., State.raise_phase .., by rw [State.raise_inp], ?_⟩
  refine (State.raise_out ..).trans ((if_neg (ne_true_of_eq_false hopen)).trans ?_)
  exact congrArg (fun o : Out => { o with closed := true }) (Command.decode.issue_out h)

/-- Under an internal root the loop can end at a sentinel leaf or for want of a bit, and in no other way: whatever the
bits, `CUR` stands at an internal node of the tree whenever one is read. -/
theorem runBusy_decLoop_ends (p : Params) {T : HTree} (hT : T.isNode = true) (bs : Bits) {n : Nat} {s : State}
    {U : HTree} (hb : s.phase = .busy) (h : s.todo = [.decLoop]) (hroot : holds s.node s.root T = true)
    (hcur : holds s.node s.cur U = true) (hU : U.isNode = true) (hin : s.inp.rest = bs) (hn : 2 * bs.length + 2 ≤ n) :
    ∃ t, runBusy p n s = .next t ∧ (t.phase = .idle ∨ t.phase = .fault ∧ t.err = 2) := by
  induction bs generalizing n s U with
  | nil =>
    obtain ⟨m, rfl⟩ : ∃ m, n = m + 2 := ⟨n - 2, by omega⟩
    exact ⟨_, runBusy_raise p m (unit_decLoop_eos p h hin) hb, .inr ⟨State.raise_phase .., State.raise_err ..⟩⟩
  | cons bit bs ih =>
    rw [List.length_cons] at hn
    obtain ⟨m, rfl⟩ : ∃ m, n = m + 1 + 1 := ⟨n - 2, by omega⟩
    cases U with
    | leaf u => cases hU
    | node l r =>
      obtain ⟨j, hchild, hunit⟩ := unit_decLoop_node p h hin hcur
      generalize (if bit then r else l) = V at hchild
      have hrest : ({ s.inp with pos := s.inp.pos + 1 } : Inp).rest = bs := Inp.rest_advance_append (a := [bit]) hin
      rw [runBusy_busy p (m + 1) hunit hb]
      cases V with
      | node l' r' =>
        exact ih hb (decNext_of_isNode [] hchild rfl) hroot hchild rfl hrest (by omega)
      | leaf v =>
        obtain ⟨w', hj⟩ := holds_leaf_iff.mp hchild
        rw [hj]
        by_cases hv : v = sentinel
        · exact ⟨_, runBusy_end p m (unit_nil p (hv ▸ decNext_sentinel [] w')) (by simp), .inl rfl⟩
        · rw [decNext_byte [] w' hv]
          obtain ⟨t, hrun, hend⟩ := ih (s := { s.writeSeq (bits 8 v.val) with
            cur := s.root, inp := { s.inp with pos := s.inp.pos + 1 }, todo := [.decLoop] })
            hb rfl hroot hroot hT hrest (show 2 * bs.length + 2 ≤ m by omega)
          exact ⟨t, Eq.trans (runBusy_busy p m (unit_decEmit p rfl) hb) hrun, hend⟩

/-- Settles O39: the loop's first unit raises the fault at a leaf root, and under an internal root the loop is followed
bit by bit. -/
theorem decodeFaultsOnALeafRoot : Obligations.DecodeFaultsOnALeafRoot := by
  unfold Obligations.DecodeFaultsOnALeafRoot
  intro s hidle hvalid hopen
  have hinp := decodeEntry_inp hidle
  have hnode := decodeEntry_node hidle
  have hcur := decodeEntry_cur hidle
  refine ⟨fun v w hroot hbits => ?_, fun v w hroot heos => ?_, fun T ht hT => ?_⟩
  · obtain ⟨b, tail, hin⟩ := List.exists_cons_of_ne_nil hbits
    have hleaf : (decodeEntry s).node[(decodeEntry s).cur] = .leaf v w := by simp only [hnode, hcur, hroot]
    rw [← hinp] at hin ⊢
    exact exec_decode_raise hidle hvalid hopen (unit_decLoop_leaf _ (rest := []) rfl hin hleaf)
  · rw [← hinp] at heos
    obtain ⟨t, hexec, herr, hphase, -, hout⟩ := exec_decode_raise hidle hvalid hopen
      (unit_decLoop_eos _ (rest := []) rfl heos)
    exact ⟨t, hexec, herr, hphase, hout⟩
  · have hfuel := two_mul_rest_le_fuel s
    obtain ⟨n, hn⟩ : ∃ n, fuel s = n + 1 := ⟨fuel s - 1, by omega⟩
    rw [exec_decode_entry hidle hvalid hopen hn]
    refine runBusy_decLoop_ends _ hT s.inp.rest (U := T) (decodeEntry_phase hidle) rfl ?_ ?_ hT
      (congrArg Inp.rest hinp) (by omega)
    · rw [hnode, decodeEntry_root hidle]
      exact ht
    · rw [hnode, hcur]
      exact ht

end Sys2Proof.Machine

namespace Sys2Proof.Machine

open Sys2Proof

/-! ### CLEAR as a whole command (R193) -/

/-- The state in which CLEAR's pseudocode ends, with `STATUS` as a number: `DONE` is its bit 1 (R23). -/
theorem State.clearBlock_frame (s : State) :
    s.clearBlock = { s with
      err := 0, status := 0x02, nnodes := 0, op := 0xD, phase := .idle, pq := [], walk := [], pending := [], todo := [] } := by
  have hdone : putBit (0 : BitVec 8) 1 true = 0x02 := by decide
  rw [← hdone]
  rfl

/-- CLEAR outside a run ends as its pseudocode does: acceptance leaves nothing behind. -/
theorem exec_clear {s : State} (h : s.phase ≠ .busy) : exec .clear s = .next s.clearBlock :=
  congrArg Host.Outcome.next ((if_neg h).trans (clearBlock_acceptClear s))

/-- Settles O6: the run ends in CLEAR's pseudocode, whose only flag left is `DONE`. -/
theorem clearReturnsToResetState : Obligations.ClearReturnsToResetState := by
  unfold Obligations.ClearReturnsToResetState
  intro s h
  rw [exec_clear h, State.clearBlock_frame]

end Sys2Proof.Machine

namespace Sys2Proof.Machine

open Sys2Proof

/-! ### The entry of a fault (R200, R215) -/

/-- All that a fault's entry writes: `STATUS` apart, whose flags `State.flag_raise` gives. -/
theorem State.raise_frame (s : State) (c : Cause) :
    s.raise c = { s with
      err := c.code, phase := .fault, status := (s.raise c).status, pq := [], walk := [], pending := [], todo := [],
      out := if s.flag .outClosed then s.out else { s.out with closed := true } } := by
  have hclosed : ({ s with err := c.code } : State).flag .outClosed = s.flag .outClosed := rfl
  simp only [State.raise, hclosed]
  cases s.flag .outClosed <;> rfl

theorem State.raise_flagsMove (s : State) (c : Cause) :
    flagsMove s (s.raise c) [.fault, .outClosed] [.busy, .done] = true := by
  refine (flagsMove_iff ..).mpr ⟨fun f => ?_, s.reserved_raise c⟩
  rw [State.flag_raise]
  cases f <;> simp

/-- Settles O7: fault entry written out field by field, and its flags. -/
theorem faultEntryRecordsAndCloses : Obligations.FaultEntryRecordsAndCloses := by
  unfold Obligations.FaultEntryRecordsAndCloses
  exact ⟨fun s c => ⟨s.raise_flagsMove c, s.raise_frame c⟩, rfl⟩

/-! ### Reserved codes (R90, R211) -/

/-- A fault entered from a state in which only an acceptance has written: what the acceptance has written to `OP` stays,
and `OUT` is closed unless it was closed before. -/
theorem State.raise_accepted {s u : State} (x : Cause)
    (hframe : u = { s with op := u.op, phase := u.phase, status := u.status, todo := u.todo })
    (hclosed : u.flag .outClosed = s.flag .outClosed) :
    u.raise x = { s with
      err := (u.raise x).err, op := (u.raise x).op, phase := (u.raise x).phase, status := (u.raise x).status,
      pq := [], walk := [], pending := [], todo := [],
      out := if s.flag .outClosed then s.out else { s.out with closed := true } } := by
  refine (u.raise_frame x).trans ?_
  rw [hclosed, State.raise_err, State.raise_op, State.raise_phase]
  generalize (u.raise x).status = w
  rw [hframe]

theorem reserved_raise_flagsMove (op : BitVec 4) (s : State) (x : Cause) :
    flagsMove s ((s.accept op).raise x) [.fault, .outClosed] [.busy, .done] = true := by
  refine (flagsMove_iff ..).mpr ⟨fun f => ?_, ?_⟩
  · rw [State.flag_raise, State.flag_accept]
    cases f <;> simp
  · rw [State.reserved_raise]
    exact (State.reserved_setFlag _ .done false).trans (State.reserved_setFlag s .busy true)

/-- A reserved code is accepted, so that `OP` records it, and its fault is entered (R90, R211). -/
theorem runReserved_raises (op : BitVec 4) {s : State} (h : s.phase = .idle) :
    ∃ t, Host.Outcome.next (runReserved op s) = (.next t : Host.Outcome State Fault Refusal) ∧ t.err = 11 ∧
      t.op = op ∧ t.phase = .fault ∧ flagsMove s t [.fault, .outClosed] [.busy, .done] = true ∧
      t = { s with
        err := t.err, op := t.op, phase := t.phase, status := t.status, pq := [], walk := [], pending := [], todo := [],
        out := if s.flag .outClosed then s.out else { s.out with closed := true } } := by
  have hrun : runReserved op s = (s.accept op).raise .illegalCommand := if_pos h
  refine ⟨_, congrArg _ hrun, State.raise_err .., State.raise_op .., State.raise_phase ..,
    reserved_raise_flagsMove op s _, State.raise_accepted _ rfl ?_⟩
  rw [State.flag_accept]
  rfl

/-- Settles O8: each reserved row is `runReserved` of its code. -/
theorem reservedCodesRaiseIllegalCommand : Obligations.ReservedCodesRaiseIllegalCommand := by
  unfold Obligations.ReservedCodesRaiseIllegalCommand
  intro s h
  simp only [List.forall_mem_cons]
  exact ⟨runReserved_raises _ h, runReserved_raises _ h, runReserved_raises _ h, nofun⟩

/-! ### Codes presented in `FAULT` (R217, R230) -/

theorem port_self (s : State) : port s (.next s) = .next s := by
  rw [port]
  split <;> rfl

theorem port_released {s : State} (h : s.rst = false) (o : Host.Outcome State Fault Refusal) : port s o = o := by
  rw [port, h]
  rfl

section Steps

variable {s : State} {op : BitVec 4} {rest : List HostAction}

theorem step_present (h : s.host = .present op :: rest) :
    step s = port { s with host := rest } (exec (decodeCommand op) { s with host := rest }) := by
  rw [step, h]

theorem step_start (h : s.host = .start op :: rest) :
    step s = port { s with host := rest } (.next (issueInstr (decodeCommand op) { s with host := rest })) := by
  rw [step, h]

theorem step_present_released (h : s.host = .present op :: rest) (hrst : s.rst = false) :
    step s = exec (decodeCommand op) { s with host := rest } :=
  (step_present h).trans (port_released (s := { s with host := rest }) hrst _)

theorem step_start_released (h : s.host = .start op :: rest) (hrst : s.rst = false) :
    step s = .next (issueInstr (decodeCommand op) { s with host := rest }) :=
  (step_start h).trans (port_released (s := { s with host := rest }) hrst _)

theorem step_assert_rst (h : s.host = .rst true :: rest) : step s = .next { s with host := rest }.afterRst := by
  rw [step, h]
  rfl

end Steps

theorem decodeCommand_ne_clear : ∀ op : BitVec 4, op ≠ 0xD → decodeCommand op ≠ .clear := by
  decide

/-- In `FAULT` nothing but CLEAR has an effect: the other commands are accepted in `IDLE` alone (R80, R217), and a stream
unit is read in `BUSY` alone. -/
theorem exec_in_fault {i : Instr} {s : State} (h : s.phase = .fault) (hi : i ≠ .clear) : exec i s = .next s := by
  have hidle : s.phase ≠ .idle := by rw [h]; decide
  have hrun : ∀ c : Command, c.run Config.params s = .next s := fun c => c.run_not_idle _ hidle
  have hreserved : ∀ op, runReserved op s = s := fun op => if_neg hidle
  have hrunning : s.running = none := if_neg (by rw [h]; decide)
  cases i with
  | clear => exact absurd rfl hi
  | reserved0 | reservedE | reservedF => exact congrArg _ (hreserved _)
  | magic m => rw [exec, execMagic, hrunning]
  | hdrInternal => rw [exec, execHdrInternal, hrunning]
  | hdrLeaf f => rw [exec, execHdrLeaf, hrunning]
  | bodyCode c => rw [exec, execBodyCode, hrunning]
  | literal8 v => rw [exec, execLiteral8, hrunning]
  | _ => exact hrun _

theorem issueInstr_in_fault {i : Instr} {s : State} (h : s.phase = .fault) (hi : i ≠ .clear) : issueInstr i s = s := by
  have hidle : s.phase ≠ .idle := by rw [h]; decide
  cases i with
  | clear => exact absurd rfl hi
  | magic | hdrInternal | hdrLeaf | bodyCode | literal8 => rfl
  | _ => exact if_neg hidle

theorem issueInstr_clear {s : State} (h : s.phase ≠ .busy) : issueInstr .clear s = s.acceptClear :=
  if_neg h

theorem tick_acceptClear (s : State) : tick s.acceptClear = .next s.acceptClear.clearBlock :=
  (if_pos rfl).trans (unit_clearAll _ rfl)

/-- Settles O5: a code refused gives the state back, and CLEAR and `rst` are the two ways out. -/
theorem faultIsStickyUntilClear : Obligations.FaultIsStickyUntilClear := by
  unfold Obligations.FaultIsStickyUntilClear
  intro s rest hfault
  have hpresented : ({ s with host := rest } : State).phase = .fault := hfault
  have hbusy : ({ s with host := rest } : State).phase ≠ .busy := by rw [hpresented]; decide
  refine ⟨fun op hop hhost => ?_, fun hrst hhost => ?_, fun hrst hhost => ?_, fun hhost => ?_⟩
  · have hclear := decodeCommand_ne_clear op hop
    obtain hhost | hhost := hhost
    · rw [step_present hhost, exec_in_fault hpresented hclear, port_self]
    · rw [step_start hhost, issueInstr_in_fault hpresented hclear, port_self]
  · refine ⟨_, (step_present_released hhost hrst).trans (exec_clear hbusy), ?_, ?_⟩
    · exact State.clearBlock_phase _
    · exact State.clearBlock_err _
  · refine ⟨_, (step_start_released hhost hrst).trans (congrArg _ (issueInstr_clear hbusy)), ?_, ?_,
      tick_acceptClear _, ?_, ?_⟩
    · exact State.acceptClear_phase _
    · exact State.acceptClear_op _
    · exact State.clearBlock_phase _
    · exact State.clearBlock_err _
  · exact ⟨_, step_assert_rst hhost, State.afterRst_phase _, State.afterRst_err _⟩

/-! ### Stream units refused at their read (R111, R154) -/

/-- A running command stands at the first part of what it has left to do. -/
theorem State.running_busy {s : State} (h : s.phase = .busy) : s.running = s.todo.head? :=
  if_pos h

/-- Settles O11: the check of the counter comes before its increment. -/
theorem literalOverflowFaults : Obligations.LiteralOverflowFaults := by
  unfold Obligations.LiteralOverflowFaults
  intro s v hbusy htodo hfull
  have hturn : countLiteral Config.params v s = .raise .counterOverflow s := if_pos hfull
  refine ⟨?_, State.raise_err .., State.raise_freq ..⟩
  rw [exec, execLiteral8, State.running_busy hbusy, htodo]
  simp only [hturn, Turn.settleWhole]

theorem desLeaf_out_of_range (p : Params) {f : BitVec 9} (s : State) (h : 256 < f.toNat) :
    desLeaf p f s = .raise .symbolRange s :=
  dif_neg (Nat.not_le_of_lt h)

theorem desLeaf_store_full {f : BitVec 9} {s : State} (h : f.toNat ≤ 256) (hfull : s.nnodes.val = 513) :
    desLeaf Config.params f s = .raise .nodeCapacity s := by
  rw [desLeaf, dif_pos h, (State.alloc_none_iff ..).mpr hfull]

/-- A leaf token is what `desLeaf` makes of its field (R85, R154). -/
theorem exec_hdrLeaf {s : State} (hbusy : s.phase = .busy) (htodo : s.todo.head? = some .desLoop) (f : BitVec 9) :
    exec (.hdrLeaf f) s = (desLeaf Config.params f s).settleWhole := by
  rw [exec, execHdrLeaf, State.running_busy hbusy, htodo]

/-- Settles O31: the range of the field is checked before the room in the store (R214). -/
theorem leafTokenIsRefused : Obligations.LeafTokenIsRefused := by
  unfold Obligations.LeafTokenIsRefused
  intro s f hbusy htodo
  refine ⟨fun hrange => ⟨?_, State.raise_err ..⟩, fun hlegal hfull => ⟨?_, State.raise_err ..⟩⟩
  · rw [exec_hdrLeaf hbusy htodo, desLeaf_out_of_range _ s hrange, Turn.settleWhole]
  · rw [exec_hdrLeaf hbusy htodo, desLeaf_store_full hlegal hfull, Turn.settleWhole]

end Sys2Proof.Machine

namespace Sys2Proof.Machine

open Sys2Proof

/-! ### `SequenceFault` comes of a wrong flag alone (R210) -/

/-- A state of a run in which `SequenceFault` neither is recorded nor waits for its entry. -/
structure NoSequence (s : State) : Prop where
  err : s.err ≠ 10
  todo : Stage.raise .sequence ∉ s.todo

/-- How a unit of work ends that does not raise `SequenceFault`, nor leaves its entry to do. -/
def Turn.NotSequence : Turn → Prop
  | .again _ => True
  | .leave _ => True
  | .first st _ => st ≠ .raise .sequence
  | .instead st _ => st ≠ .raise .sequence
  | .ended t => NoSequence t
  | .raise c _ => c ≠ .sequence
  | .stop _ => True

theorem Turn.backTo_notSequence {st : Stage} (hst : st ≠ .raise .sequence) {T : Turn} (h : T.NotSequence) :
    (T.backTo st).NotSequence := by
  cases T with
  | again s => exact hst
  | _ => exact h

theorem countLiteral_notSequence (p : Params) (v : BitVec 8) (s : State) : (countLiteral p v s).NotSequence := by
  rw [countLiteral]
  split <;> simp [Turn.NotSequence]

theorem countLoop_notSequence (p : Params) (s : State) : (countLoop p s).NotSequence := by
  rw [countLoop]
  split
  · trivial
  · exact countLiteral_notSequence ..

theorem buildLeavesFrom_notSequence (p : Params) (vs : List Sym) (s : State) :
    (buildLeavesFrom p vs s).NotSequence := by
  induction vs generalizing s with
  | nil => trivial
  | cons v vs ih =>
    rw [buildLeavesFrom]
    split
    · exact ih s
    · split
      · exact ih _
      · simp [Turn.NotSequence]

theorem buildFew_notSequence (p : Params) (s : State) : (buildFew p s).NotSequence := by
  rw [buildFew]
  split
  · simp [Turn.NotSequence]
  · split
    · simp [Turn.NotSequence]
    · split <;> simp [Turn.NotSequence]
  · trivial

theorem buildMerge_notSequence (p : Params) (s : State) : (buildMerge p s).NotSequence := by
  rw [buildMerge]
  split
  · simp [Turn.NotSequence]
  · split
    · trivial
    · split <;> simp [Turn.NotSequence]

theorem genStart_notSequence (s : State) : (genStart s).NotSequence := by
  rw [genStart]
  split <;> simp [Turn.NotSequence]

theorem genWalk_notSequence (s : State) : (genWalk s).NotSequence := by
  rw [genWalk]
  split
  · trivial
  · split
    · split <;> trivial
    · trivial

theorem serWalk_notSequence (s : State) : (serWalk s).NotSequence := by
  rw [serWalk]
  split
  · trivial
  · split <;> simp [Turn.NotSequence]

theorem rdMagic_notSequence (p : Params) (s : State) : (rdMagic p s).NotSequence := by
  rw [rdMagic]
  split
  · simp [Turn.NotSequence]
  · rw [checkMagic]
    split <;> simp [Turn.NotSequence]

theorem attach_notSequence (p : Params) (i : Idx) (st : List Pending) (s : State) : (attach p i st s).NotSequence := by
  induction st generalizing i s with
  | nil => trivial
  | cons f st ih =>
    cases f with
    | left => trivial
    | right l =>
      rw [attach]
      split
      · simp [Turn.NotSequence]
      · exact ih _ _

theorem desLeaf_notSequence (p : Params) (f : BitVec 9) (s : State) : (desLeaf p f s).NotSequence := by
  rw [desLeaf]
  split
  · split
    · simp [Turn.NotSequence]
    · exact attach_notSequence ..
  · simp [Turn.NotSequence]

theorem desLoop_notSequence (s : State) : (desLoop s).NotSequence := by
  rw [desLoop]
  split
  · simp [Turn.NotSequence]
  · split <;> simp [Turn.NotSequence, desInternal]

theorem desField_notSequence (p : Params) (s : State) : (desField p s).NotSequence := by
  rw [desField]
  split
  · simp [Turn.NotSequence]
  · exact Turn.backTo_notSequence (by decide) (desLeaf_notSequence ..)

theorem withCode_notSequence {v : Sym} {use : Bits → Turn} {s : State} (h : ∀ c, (use c).NotSequence) :
    (withCode v use s).NotSequence := by
  rw [withCode]
  split
  · simp [Turn.NotSequence]
  · exact h _

theorem encLoop_notSequence (s : State) : (encLoop s).NotSequence := by
  rw [encLoop]
  split
  · trivial
  · exact withCode_notSequence fun c => by simp [Turn.NotSequence]

theorem encSentinel_notSequence (s : State) : (encSentinel s).NotSequence := by
  rw [encSentinel]
  exact withCode_notSequence fun c => by simp [Turn.NotSequence]

theorem encEmit_notSequence (c : Bits) (s : State) : (encEmit c s).NotSequence := by
  cases c <;> simp [encEmit, Turn.NotSequence]

theorem decLoop_notSequence (s : State) : (decLoop s).NotSequence := by
  rw [decLoop]
  split
  · simp [Turn.NotSequence]
  · rw [decMove]
    split
    · simp [Turn.NotSequence]
    · dsimp only
      split
      · trivial
      · split <;> simp [Turn.NotSequence]

theorem Cause.code_ne_sequence {c : Cause} (h : c ≠ .sequence) : c.code ≠ 10 := by
  cases c with
  | sequence => exact absurd rfl h
  | _ => decide

/-- No unit of work of any command raises `SequenceFault`, but the entry of that fault itself. -/
theorem turn_notSequence (p : Params) {st : Stage} (hst : st ≠ .raise .sequence) (s : State) :
    (turn p st s).NotSequence := by
  cases st with
  | countLoop => exact countLoop_notSequence p s
  | buildLeaves => exact buildLeavesFrom_notSequence p _ _
  | buildFew => exact buildFew_notSequence p s
  | buildMerge => exact buildMerge_notSequence p s
  | genStart => exact genStart_notSequence s
  | genWalk => exact genWalk_notSequence s
  | serWalk => exact serWalk_notSequence s
  | encLoop => exact encLoop_notSequence s
  | encSentinel => exact encSentinel_notSequence s
  | encEmit c => exact encEmit_notSequence c s
  | rdMagic => exact rdMagic_notSequence p s
  | desLoop => exact desLoop_notSequence s
  | desField => exact desField_notSequence p s
  | decLoop => exact decLoop_notSequence s
  | clearAll => exact ⟨by simp, by simp⟩
  | raise c =>
    have hc : c ≠ .sequence := fun e => hst (congrArg Stage.raise e)
    exact ⟨(State.raise_err s c).trans_ne (Cause.code_ne_sequence hc), by simp⟩
  | _ => trivial

theorem settle_noSequence {s t : State} {T : Turn} (h : NoSequence s) (hcontrol : T.Ends (SameControl s))
    (hT : T.NotSequence) (hnext : T.settle = .next t) : NoSequence t := by
  have htail : Stage.raise .sequence ∉ s.todo.tail := fun hmem => h.todo (List.mem_of_mem_tail hmem)
  cases T with
  | again u =>
    cases hnext
    exact ⟨hcontrol.err ▸ h.err, hcontrol.todo ▸ h.todo⟩
  | leave u =>
    cases hnext
    exact ⟨hcontrol.err ▸ h.err, hcontrol.todo ▸ htail⟩
  | first st u =>
    cases hnext
    exact ⟨hcontrol.err ▸ h.err, hcontrol.todo ▸ List.not_mem_cons_of_ne_of_not_mem (Ne.symm hT) h.todo⟩
  | instead st u =>
    cases hnext
    exact ⟨hcontrol.err ▸ h.err, hcontrol.todo ▸ List.not_mem_cons_of_ne_of_not_mem (Ne.symm hT) htail⟩
  | ended u =>
    cases hnext
    exact hT
  | raise c u =>
    cases hnext
    exact ⟨hcontrol.err ▸ h.err, List.not_mem_cons_of_ne_of_not_mem (fun e => hT (Stage.raise.inj e).symm) nofun⟩
  | stop f => cases hnext

theorem unit_noSequence (p : Params) {s t : State} (h : NoSequence s) (hnext : unit p s = .next t) : NoSequence t := by
  cases htodo : s.todo with
  | nil =>
    rw [unit_nil p htodo] at hnext
    cases hnext
    exact ⟨h.err, by simp⟩
  | cons st rest =>
    have hst : st ≠ .raise .sequence := fun e => h.todo (by rw [htodo, e]; exact List.mem_cons_self)
    rw [unit_cons p htodo] at hnext
    exact settle_noSequence h (turn_control p st s) (turn_notSequence p hst s) hnext

theorem runBusy_noSequence (p : Params) {n : Nat} {s t : State} (h : NoSequence s) (hrun : runBusy p n s = .next t) :
    NoSequence t := by
  induction n generalizing s with
  | zero => cases hrun
  | succ n ih =>
    rw [runBusy_succ] at hrun
    cases hunit : unit p s with
    | next u =>
      have hu := unit_noSequence p h hunit
      rw [hunit, resume] at hrun
      split at hrun
      · exact ih hu hrun
      · cases hrun
        exact hu
    | fault f => rw [hunit] at hrun; cases hrun
    | refused r => rw [hunit] at hrun; cases hrun

theorem Command.parts_noSequence : ∀ c ∈ Command.all, Stage.raise .sequence ∉ c.parts := by
  decide

/-- A command whose precondition holds does not end with code 10, unless it was there before. -/
theorem Command.run_noSequence (p : Params) {c : Command} (hc : c ∈ Command.all) {s t : State} (h : s.phase = .idle)
    (hm : s.meets c.needs = true) (herr : s.err ≠ 10) (hrun : c.run p s = .next t) : t.err ≠ 10 := by
  obtain ⟨hstart, htodo⟩ := Command.run_of_meets p hc h hm
  have hissue : NoSequence (c.issue s) :=
    ⟨by rw [c.issue_frame h]; exact herr, by rw [htodo]; exact Command.parts_noSequence c hc⟩
  exact (runBusy_noSequence p hissue (hstart.symm.trans hrun)).err

/-! ### A wrong flag (R210) -/

/-- With a wrong flag the run is the one unit that enters the fault. -/
theorem Command.run_of_not_meets (p : Params) {c : Command} (hc : c ∈ Command.all) {s : State} (h : s.phase = .idle)
    (hm : s.meets c.needs = false) : c.run p s = .next ((c.issue s).raise .sequence) := by
  have htodo : (c.issue s).todo = [.raise .sequence] :=
    (Command.issue_todo hc h).trans (if_neg (ne_true_of_eq_false hm))
  have hrun : c.run p s = runBusy p (fuel s) (c.issue s) := if_pos h
  obtain ⟨n, hn⟩ : ∃ n, fuel s = n + 1 := ⟨fuel s - 1, by have := le_fuel s; omega⟩
  rw [hrun, hn]
  exact runBusy_end p n (unit_raise p htodo) (by simp)

theorem Command.outClosed_not_cleared : ∀ c ∈ Command.all, Flag.outClosed ∉ c.clears := by
  decide

/-- R23: no command clears `OUT_CLOSED` on acceptance. -/
theorem Command.issue_outClosed {c : Command} (hc : c ∈ Command.all) {s : State} (h : s.phase = .idle) :
    (c.issue s).flag .outClosed = s.flag .outClosed := by
  rw [c.flag_issue h, if_neg (Command.outClosed_not_cleared c hc), State.flag_accept]
  rfl

/-- What a wrong flag leaves: the acceptance, the flags it clears, and the fault's entry (R210). -/
theorem Command.wrong_flag {c : Command} (hc : c ∈ Command.all) {s : State} (h : s.phase = .idle)
    (hm : s.meets c.needs = false) :
    ∃ t, c.run Config.params s = .next t ∧ t.err = 10 ∧ t.op = c.op ∧ t.phase = .fault ∧
      flagsMove s t [.fault, .outClosed] (.busy :: .done :: c.clears) = true ∧
      t = { s with
        err := t.err, op := t.op, phase := t.phase, status := t.status, pq := [], walk := [], pending := [], todo := [],
        out := if s.flag .outClosed then s.out else { s.out with closed := true } } := by
  have hframe := c.issue_frame h
  have hop : (c.issue s).op = c.op := by rw [hframe]
  have hphase : (c.issue s).phase = .busy := c.issue_busy h
  refine ⟨_, Command.run_of_not_meets _ hc h hm, State.raise_err .., (State.raise_op ..).trans hop,
    State.raise_phase .., c.raise_flags h rfl, State.raise_accepted _ ?_ (Command.issue_outClosed hc h)⟩
  rw [hop, hphase]
  exact hframe

/-- Settles O9: the six commands need no flag, so that only their bodies could raise the fault, and none does; of the
others a wrong flag leaves `Command.wrong_flag`. -/
theorem wrongFlagRaisesSequenceFault : Obligations.WrongFlagRaisesSequenceFault := by
  unfold Obligations.WrongFlagRaisesSequenceFault
  refine ⟨fun s t i hi hidle herr => ?_, fun s hidle => ?_⟩
  · have herr10 : s.err ≠ 10 := by rw [herr]; decide
    revert i
    simp only [List.forall_mem_cons]
    refine ⟨?_, ?_, ?_, ?_, ?_, ?_, nofun⟩
    · exact Command.run_noSequence _ (c := .count) (by decide) hidle rfl herr10
    · exact Command.run_noSequence _ (c := .rdmagic) (by decide) hidle rfl herr10
    · exact Command.run_noSequence _ (c := .deserialize) (by decide) hidle rfl herr10
    · exact Command.run_noSequence _ (c := .compress) (by decide) hidle rfl herr10
    · exact Command.run_noSequence _ (c := .decompress) (by decide) hidle rfl herr10
    · intro hexec
      rw [exec_clear (by rw [hidle]; decide)] at hexec
      cases hexec
      simp
  · simp only [List.forall_mem_cons]
    refine ⟨?_, ?_, ?_, ?_, ?_, ?_, ?_, nofun⟩
    · exact Command.wrong_flag (c := .build) (by decide) hidle
    · exact Command.wrong_flag (c := .generate) (by decide) hidle
    · exact Command.wrong_flag (c := .wrmagic) (by decide) hidle
    · exact Command.wrong_flag (c := .serialize) (by decide) hidle
    · exact Command.wrong_flag (c := .encode) (by decide) hidle
    · exact Command.wrong_flag (c := .close) (by decide) hidle
    · exact Command.wrong_flag (c := .decode) (by decide) hidle

end Sys2Proof.Machine

namespace Sys2Proof.Machine

open Sys2Proof

/-! ### ENCODE's units of work (R170, R171) -/

section Units

variable {s : State} {rest : List Stage} {v : BitVec 8} {tail : Bits}

theorem unit_encRewind (p : Params) (h : s.todo = .encRewind :: rest) :
    unit p s = .next { s with inp := { s.inp with pos := 0 }, todo := rest } := by
  rw [unit_cons p h, turn, encRewind, Turn.settle, State.rewind_todo, h, List.tail_cons]
  rfl

theorem unit_encLoop_eos (p : Params) (h : s.todo = .encLoop :: rest) (heos : s.inp.rest.length < 8) :
    unit p s = .next { s with inp := { s.inp with pos := s.inp.data.length }, todo := rest } := by
  rw [unit_cons p h, turn, encLoop, s.readBits_eos heos]
  simp only [Turn.settle, h, List.tail_cons]

/-- What follows the read of a byte is the look-up of its symbol's code. -/
theorem unit_encLoop_byte (p : Params) (h : s.todo = .encLoop :: rest) (hin : s.inp.rest = bits 8 v.toNat ++ tail) :
    unit p s = (withCode (literalSym v)
      (fun c => .first (.encEmit c) { s with inp := { s.inp with pos := s.inp.pos + 8 } })
      { s with inp := { s.inp with pos := s.inp.pos + 8 } }).settle := by
  rw [unit_cons p h, turn, encLoop, s.readBits_field (by decide) v tail hin]

theorem unit_encLoop_code (p : Params) (h : s.todo = .encLoop :: rest) (hin : s.inp.rest = bits 8 v.toNat ++ tail)
    (hcode : s.code[literalSym v] ≠ []) :
    unit p s = .next { s with
      inp := { s.inp with pos := s.inp.pos + 8 }, todo := .encEmit s.code[literalSym v] :: .encLoop :: rest } := by
  rw [unit_encLoop_byte p h hin, withCode, if_neg hcode]
  simp only [Turn.settle, h]

theorem unit_encLoop_missing (p : Params) (h : s.todo = .encLoop :: rest) (hin : s.inp.rest = bits 8 v.toNat ++ tail)
    (hcode : s.code[literalSym v] = []) :
    unit p s = (Turn.raise .missingCode { s with inp := { s.inp with pos := s.inp.pos + 8 } }).settle := by
  rw [unit_encLoop_byte p h hin, withCode, if_pos hcode]

theorem unit_encSentinel_missing (p : Params) (h : s.todo = .encSentinel :: rest) (hcode : s.code[sentinel] = []) :
    unit p s = (Turn.raise .missingCode s).settle := by
  rw [unit_cons p h, turn, encSentinel, withCode, if_pos hcode]

end Units

/-! ### ENCODE's loop over bytes that have codes (R170) -/

/-- The units in which ENCODE reads bytes and writes their codes: one for each read, one for each bit of a code, and one
for the end of each code. -/
def encUnits (code : Sym → Bits) (l : List (BitVec 8)) : Nat := (codesOf code l).length + 2 * l.length

theorem encUnits_cons (code : Sym → Bits) (v : BitVec 8) (l : List (BitVec 8)) :
    encUnits code (v :: l) = encUnits code l + (code (literalSym v)).length + 2 := by
  simp only [encUnits, codesOf, List.length_append, List.length_cons]
  omega

/-- The bytes `l` at the head of what is left of `IN`, each with a code, are read and their codes written; the bytes
after them are then the ones left. -/
theorem runBusy_encLoop (p : Params) (l : List (BitVec 8)) {n : Nat} {s : State} {rest : List Stage}
    {post : List (BitVec 8)} (hb : s.phase = .busy) (h : s.todo = .encLoop :: rest)
    (hin : wholeBytes s.inp.rest = l ++ post) (hcode : ∀ v ∈ l, s.code[literalSym v] ≠ []) :
    ∃ inp : Inp, wholeBytes inp.rest = post ∧
      runBusy p (n + encUnits (fun v => s.code[v]) l) s =
        runBusy p n { s.writeSeq (codesOf (fun v => s.code[v]) l) with inp := inp } := by
  induction l generalizing s with
  | nil => exact ⟨s.inp, hin, by simp [encUnits, codesOf, State.writeSeq]⟩
  | cons v l ih =>
    obtain ⟨tail, hbits, htail⟩ := bits_of_wholeBytes_cons hin
    have hv := hcode v List.mem_cons_self
    obtain ⟨inp, hpost, hrun⟩ := ih (s := { s.writeSeq s.code[literalSym v] with
      inp := { s.inp with pos := s.inp.pos + 8 } }) hb h ((wholeBytes_rest_advance hbits).trans htail)
      fun w hw => hcode w (List.mem_cons_of_mem v hw)
    refine ⟨inp, hpost, ?_⟩
    rw [encUnits_cons, ← Nat.add_assoc, ← Nat.add_assoc,
      runBusy_busy p _ (unit_encLoop_code p h hbits hv) hb]
    refine Eq.trans (runBusy_encEmit p s.code[literalSym v] hb rfl) ?_
    refine Eq.trans ?_ (hrun.trans ?_)
    · rw [← h]; rfl
    · simp [State.writeSeq, codesOf]

/-- R171: the first byte without a code, or with none the end of `IN` and a sentinel without a code, ends the run in the
fault, two units or three after the codes of the bytes `pre` before it. -/
theorem runBusy_encLoop_missing (p : Params) {n : Nat} {s : State} {pre post : List (BitVec 8)} (hb : s.phase = .busy)
    (h : s.todo = [.encLoop, .encSentinel]) (hcode : ∀ v ∈ pre, s.code[literalSym v] ≠ [])
    (hmissing : (∃ v, wholeBytes s.inp.rest = pre ++ v :: post ∧ s.code[literalSym v] = []) ∨
      (wholeBytes s.inp.rest = pre ∧ s.code[sentinel] = [])) :
    ∃ t : State, runBusy p (n + 3 + encUnits (fun v => s.code[v]) pre) s = .next (t.raise .missingCode) ∧
      t = { s.writeSeq (codesOf (fun v => s.code[v]) pre) with inp := t.inp, todo := t.todo } := by
  obtain ⟨v, hbytes, hv⟩ | ⟨hbytes, hsentinel⟩ := hmissing
  · obtain ⟨inp, hrest, hrun⟩ := runBusy_encLoop p (n := n + 3) pre hb h hbytes hcode
    obtain ⟨tail, hbits, -⟩ := bits_of_wholeBytes_cons hrest
    exact ⟨_, hrun.trans (runBusy_raise p (n + 1) (unit_encLoop_missing p h hbits hv) hb), rfl⟩
  · obtain ⟨inp, hrest, hrun⟩ := runBusy_encLoop p (n := n + 3) pre hb h
      (hbytes.trans (List.append_nil pre).symm) hcode
    have heos := unit_encLoop_eos p (s := { s.writeSeq (codesOf (fun v => s.code[v]) pre) with inp := inp }) h
      (length_lt_of_wholeBytes_nil hrest)
    exact ⟨_, hrun.trans ((runBusy_busy p (n + 2) heos hb).trans
      (runBusy_raise p n (unit_encSentinel_missing p rfl hsentinel) hb)), rfl⟩

/-! ### The bound on ENCODE's units of work -/

theorem le_foldl_max_length (l : List Bits) (m : Nat) :
    m ≤ l.foldl (fun m c => max m c.length) m ∧ ∀ c ∈ l, c.length ≤ l.foldl (fun m c => max m c.length) m := by
  induction l generalizing m with
  | nil => exact ⟨le_rfl, nofun⟩
  | cons d l ih =>
    obtain ⟨hstart, hall⟩ := ih (max m d.length)
    exact ⟨(le_max_left ..).trans hstart, List.forall_mem_cons.mpr ⟨(le_max_right ..).trans hstart, hall⟩⟩

theorem State.code_length_le (s : State) (v : Sym) : s.code[v].length ≤ s.longestCode :=
  (le_foldl_max_length s.code.toList 256).2 _ (Vector.mem_toList_iff.mpr (Vector.getElem_mem v.isLt))

theorem encUnits_le (s : State) (l : List (BitVec 8)) :
    encUnits (fun v => s.code[v]) l ≤ l.length * (s.longestCode + 2) := by
  induction l with
  | nil => exact Nat.zero_le _
  | cons v l ih =>
    have hv := s.code_length_le (literalSym v)
    rw [encUnits_cons, List.length_cons, Nat.succ_mul]
    omega

/-- The bound on the units of a command leaves enough for the bytes of `IN`, and more than the other parts take. -/
theorem encUnits_le_fuel (s : State) {l : List (BitVec 8)} (hl : l.length ≤ s.inp.data.length) :
    encUnits (fun v => s.code[v]) l + 4096 ≤ fuel s := by
  refine Nat.add_le_add_right ((encUnits_le s l).trans ?_) 4096
  exact Nat.mul_le_mul (Nat.le_succ_of_le hl) (by omega)

/-! ### ENCODE with a code missing (R171, R204) -/

theorem exec_encode {s : State} (h : s.phase = .idle) (hv : s.flag .codeValid = true)
    (ho : s.flag .outClosed = false) :
    exec .encode s = runBusy Config.params (fuel s) (Command.encode.issue s) ∧
      (Command.encode.issue s).todo = Command.encode.parts :=
  Command.run_of_meets _ (by decide) h (by simp [State.meets, Command.encode, hv, ho])

theorem Command.issue_code (c : Command) {s : State} (h : s.phase = .idle) : (c.issue s).code = s.code := by
  rw [c.issue_frame h]

/-- Before the fault's entry ENCODE has written the codes of the bytes `pre`, moved in `IN`, and done nothing else. -/
theorem exec_encode_missing {s : State} {pre post : List (BitVec 8)} (h : s.phase = .idle)
    (hv : s.flag .codeValid = true) (ho : s.flag .outClosed = false) (hcode : ∀ v ∈ pre, s.code[literalSym v] ≠ [])
    (hmissing : (∃ v, wholeBytes s.inp.data = pre ++ v :: post ∧ s.code[literalSym v] = []) ∨
      (wholeBytes s.inp.data = pre ∧ s.code[sentinel] = [])) :
    ∃ t : State, exec .encode s = .next (t.raise .missingCode) ∧
      t = { (Command.encode.issue s).writeSeq (codesOf (fun v => s.code[v]) pre) with
        inp := t.inp, todo := t.todo } := by
  obtain ⟨hexec, htodo⟩ := exec_encode h hv ho
  have hb := Command.encode.issue_busy h
  have hlength : pre.length ≤ s.inp.data.length := by
    refine le_trans ?_ (wholeBytes_length_le s.inp.data)
    obtain ⟨v, hbytes, -⟩ | ⟨hbytes, -⟩ := hmissing <;> simp [hbytes]
  obtain ⟨n, hn⟩ : ∃ n, fuel s = n + 3 + encUnits (fun v => s.code[v]) pre + 1 :=
    ⟨fuel s - (encUnits (fun v => s.code[v]) pre + 4), by have := encUnits_le_fuel s hlength; omega⟩
  have hentry := unit_encRewind Config.params htodo
  rw [hexec, hn, runBusy_busy _ _ hentry hb]
  rw [← Command.encode.issue_code h] at hcode hmissing ⊢
  rw [← Command.encode.issue_inp h] at hmissing
  exact runBusy_encLoop_missing Config.params (s := { Command.encode.issue s with
    inp := { (Command.encode.issue s).inp with pos := 0 }, todo := [.encLoop, .encSentinel] }) hb rfl hcode hmissing

/-- Settles O34: ENCODE's loop over the bytes before the first missing code, by induction on them, and the fault that
the next look-up raises. -/
theorem encodeFindsAMissingCode : Obligations.EncodeFindsAMissingCode := by
  unfold Obligations.EncodeFindsAMissingCode
  intro s pre post hidle hvalid hopen hcode hmissing
  obtain ⟨t, hexec, ht⟩ := exec_encode_missing hidle hvalid hopen hcode hmissing
  have hstatus : t.status = (Command.encode.issue s).status := by rw [ht]; rfl
  have hclosed : t.flag .outClosed = false :=
    (State.flag_congr hstatus _).trans ((Command.issue_outClosed (by decide) hidle).trans hopen)
  refine ⟨_, hexec, State.raise_err .., State.raise_phase .., Command.encode.raise_flags hidle hstatus, ?_, ?_, ?_, ?_⟩
  · rw [State.raise_out, hclosed, ht, Command.issue_frame _ hidle]
    rfl
  · rw [State.raise_code, ht, Command.issue_frame _ hidle]
    rfl
  · rw [State.raise_node, ht, Command.issue_frame _ hidle]
    rfl
  · rw [State.raise_freq, ht, Command.issue_frame _ hidle]
    rfl

end Sys2Proof.Machine

namespace Sys2Proof.Machine

open Sys2Proof

/-! ### Codes presented in `BUSY` (R240) -/

/-- The port carries command codes alone; a stream unit is never presented on it (R80). -/
theorem decodeCommand_space : ∀ op : BitVec 4, (decodeCommand op).space = .command := by
  decide

/-- In `BUSY` no command is accepted: CLEAR wants `IDLE` or `FAULT`, and every other row `IDLE` (R80, R193). -/
theorem exec_in_busy {i : Instr} {s : State} (h : s.phase = .busy) (hi : i.space = .command) : exec i s = .next s := by
  have hidle : s.phase ≠ .idle := by rw [h]; decide
  have hrun : ∀ c : Command, c.run Config.params s = .next s := fun c => c.run_not_idle _ hidle
  have hreserved : ∀ op, runReserved op s = s := fun op => if_neg hidle
  have hclear : runClear s = s := if_pos h
  cases i with
  | magic | hdrInternal | hdrLeaf | bodyCode | literal8 => exact absurd hi nofun
  | reserved0 | reservedE | reservedF => exact congrArg _ (hreserved _)
  | clear => exact congrArg _ hclear
  | _ => exact hrun _

/-- In `BUSY` no command is queued either: its acceptance alone leaves the state as it is, whatever the row. -/
theorem issueInstr_in_busy {s : State} (h : s.phase = .busy) (i : Instr) : issueInstr i s = s := by
  have hidle : s.phase ≠ .idle := by rw [h]; decide
  cases i with
  | magic | hdrInternal | hdrLeaf | bodyCode | literal8 => rfl
  | clear => exact if_pos h
  | _ => exact if_neg hidle

/-- Settles O4: every row of the command space gives a `BUSY` state back, run to its end or only accepted. -/
theorem busyIgnoresCommands : Obligations.BusyIgnoresCommands := by
  unfold Obligations.BusyIgnoresCommands
  intro s rest op hbusy
  have hpresented : ({ s with host := rest } : State).phase = .busy := hbusy
  refine ⟨fun hhost => ?_, fun hhost => ?_⟩
  · rw [step_present hhost, exec_in_busy hpresented (decodeCommand_space op), port_self]
  · rw [step_start hhost, issueInstr_in_busy hpresented, port_self]

end Sys2Proof.Machine

namespace Sys2Proof

/-! ### The decoder and the encoder (R81, R85, R87, R88, R91) -/

/-- A command word is followed by what the port does not look at; its four bits are the code (R81). -/
theorem decode_command_word (c : BitVec 4) (rest : Bits) :
    decode .command (bits 4 c.toNat ++ rest) = .ok (decodeCommand c, rest) := by
  rw [decode, takeField_bits]

/-- The sixteen words of the encoder are the sixteen codes, in the order of the command set (R81). -/
theorem encode_decodeCommand (c : BitVec 4) : encode (decodeCommand c) = bits 4 c.toNat := by
  revert c
  decide

/-- Every row of the command space is the row of one of the sixteen codes (R81). -/
theorem exists_decodeCommand {i : Instr} (hi : i.space = .command) : ∃ c : BitVec 4, decodeCommand c = i := by
  cases i with
  | magic m => cases hi
  | hdrInternal => cases hi
  | hdrLeaf s => cases hi
  | bodyCode c => cases hi
  | literal8 v => cases hi
  | _ => decide

/-- A token is read back whatever its field is: the range of the field is no matter of the decoder (R91, R154). -/
theorem decode_header_leaf (f : BitVec 9) (rest : Bits) :
    decode .header (encode (.hdrLeaf f) ++ rest) = .ok (.hdrLeaf f, rest) := by
  have htoken : encode (.hdrLeaf f) ++ rest = true :: (bits 9 f.toNat ++ rest) := rfl
  rw [htoken, decode, decodeHeader, takeField_bits]

/-- A code of a length that the table allows is taken off whole (R63, R89). -/
theorem decode_body {c : Bits} (hshort : 1 ≤ c.length) (hlong : c.length ≤ 256) (rest : Bits) :
    decode (.body c.length) (c ++ rest) = .ok (.bodyCode c, rest) := by
  have hlen : c.length ≤ (c ++ rest).length := by rw [List.length_append]; omega
  rw [decode, if_pos ⟨hshort, hlong, hlen⟩, List.take_left, List.drop_left]

/-- Settles O58: the commands through their codes, the fields by `takeField_bits`, a body code by its length. -/
theorem decodeEncode : Obligations.DecodeEncode := by
  unfold Obligations.DecodeEncode
  intro i rest hi
  by_cases hcommand : i.space = .command
  · obtain ⟨c, rfl⟩ := exists_decodeCommand hcommand
    rw [hcommand, encode_decodeCommand, decode_command_word]
  · cases i with
    | magic m => rw [Instr.space, encode, decode, takeField_bits]
    | hdrInternal => rfl
    | hdrLeaf f => exact decode_header_leaf f rest
    | bodyCode c =>
      obtain hwf | ⟨f, hf⟩ := hi
      · obtain ⟨hshort, hlong⟩ : 1 ≤ c.length ∧ c.length ≤ 256 := by simpa [Instr.wellFormed] using hwf
        exact decode_body hshort hlong rest
      · cases hf
    | literal8 v => rw [Instr.space, encode, decode, takeField_bits]
    | _ => exact absurd rfl hcommand

/-- What the header's decoder answers is a token in front of the bits left (R85, R89). -/
theorem decodeHeader_ok {bs rest : Bits} {i : Instr} (h : decodeHeader bs = .ok (i, rest)) :
    encode i ++ rest = bs ∧ i.space = .header := by
  cases bs with
  | nil => cases h
  | cons tag bs =>
    cases tag with
    | false =>
      cases h
      exact ⟨rfl, rfl⟩
    | true =>
      rw [decodeHeader] at h
      split at h <;> rename_i hfield
      · cases h
        exact ⟨congrArg (true :: ·) (takeField_eq_some hfield).symm, rfl⟩
      · cases h

/-- Settles O59: the bits that each space takes off are the bits its row encodes. -/
theorem encodeDecode : Obligations.EncodeDecode := by
  unfold Obligations.EncodeDecode
  intro sp bs rest i h
  cases sp with
  | command =>
    rw [decode] at h
    split at h <;> rename_i hfield
    · cases h
      exact ⟨by rw [encode_decodeCommand, takeField_eq_some hfield], Machine.decodeCommand_space _⟩
    · cases h
  | magic =>
    rw [decode] at h
    split at h <;> rename_i hfield
    · cases h
      exact ⟨(takeField_eq_some hfield).symm, rfl⟩
    · cases h
  | header => exact decodeHeader_ok h
  | body n =>
    rw [decode] at h
    split at h <;> rename_i hlen
    · cases h
      have htake : (bs.take n).length = n := List.length_take_of_le hlen.2.2
      exact ⟨List.take_append_drop n bs, congrArg Space.body htake⟩
    · cases h
  | literal =>
    rw [decode] at h
    split at h <;> rename_i hfield
    · cases h
      exact ⟨(takeField_eq_some hfield).symm, rfl⟩
    · cases h

/-- Settles O60: each word is evaluated. -/
theorem specWordsDecode : Obligations.SpecWordsDecode := by
  unfold Obligations.SpecWordsDecode
  decide

end Sys2Proof

namespace Sys2Proof.Machine

open Sys2Proof

/-! ### Reset (R35, R230, R232) -/

/-- Settles O1: the fields of the reset state, read off. -/
theorem resetLeavesBlockIdle : Obligations.ResetLeavesBlockIdle := by
  unfold Obligations.ResetLeavesBlockIdle
  exact ⟨rfl, rfl, rfl, rfl, rfl, rfl, rfl, rfl, rfl⟩

theorem State.reset_flag (f : Flag) : State.reset.flag f = false := by
  cases f <;> decide

/-- Settles O47: outside a run and outside `FAULT`, with `STATUS` and `ERR` 0. -/
theorem resetIsOrderly : Obligations.ResetIsOrderly := by
  unfold Obligations.ResetIsOrderly
  constructor
  case busy => exact State.reset_flag .busy
  case fault => exact State.reset_flag .fault
  case done => exact fun _ => rfl
  case reserved => decide
  case err => decide
  case idle => exact fun _ => ⟨rfl, rfl, rfl, rfl⟩
  case pos => exact Nat.le_refl _
  case held => exact fun h => absurd h (by decide)

/-- Settles O50: no tree is valid after reset, and the model's table of codes is empty. -/
theorem resetMeetsTheInvariants : Obligations.ResetMeetsTheInvariants := by
  unfold Obligations.ResetMeetsTheInvariants
  have hinvalid : ¬ State.reset.flag .treeValid = true := by rw [State.reset_flag]; decide
  refine ⟨fun h => absurd h hinvalid, fun h => absurd h hinvalid, fun v => ?_⟩
  rw [State.reset, Fin.getElem_fin, Vector.getElem_replicate]
  exact Nat.zero_le _

/-! ### What a step is (R22, R57, R230, R231) -/

theorem step_idle_host {s : State} (h : s.host = []) : step s = work s := by
  rw [step, h]

theorem step_wait {s : State} {rest : List HostAction} (h : s.host = .wait :: rest) :
    step s = work { s with host := rest } := by
  rw [step, h]

theorem step_tick {s : State} {rest : List HostAction} (h : s.host = .tick :: rest) :
    step s = tick { s with host := rest } := by
  rw [step, h]

theorem step_release_rst {s : State} {rest : List HostAction} (h : s.host = .rst false :: rest) :
    step s = .next { s with rst := false, host := rest } := by
  rw [step, h]
  rfl

/-- Left alone outside a run, the block waits (R232). -/
theorem work_not_busy {s : State} (h : s.phase ≠ .busy) : work s = .next s := if_neg h

theorem tick_not_busy {s : State} (h : s.phase ≠ .busy) : tick s = .next s := if_neg h

theorem tick_busy {s : State} (h : s.phase = .busy) : tick s = unit Config.params s := if_pos h

/-- A whole unit of the stream at `IN` is executed with `IN` past it. -/
theorem work_fetched {s s' : State} {i : Instr} (h : s.phase = .busy) (hf : s.fetch = some (i, s')) :
    work s = exec i s' := by
  rw [work, if_pos h, hf]

/-- Where no whole stream unit is at `IN`, the running command does a unit of its own work. -/
theorem work_unit {s : State} (h : s.phase = .busy) (hf : s.fetch = none) : work s = unit Config.params s := by
  rw [work, if_pos h, hf]

theorem State.fetch_decoded {s : State} {sp : Space} {i : Instr} {rest : Bits} (hsp : s.readSpace = some sp)
    (hdec : decode sp s.inp.rest = .ok (i, rest)) :
    s.fetch = some (i, { s with inp := { s.inp with pos := s.inp.data.length - rest.length } }) := by
  rw [State.fetch, hsp]
  simp only [hdec]

theorem State.fetch_rejected {s : State} {sp : Space} {e : Reject} (hsp : s.readSpace = some sp)
    (hdec : decode sp s.inp.rest = .error e) : s.fetch = none := by
  rw [State.fetch, hsp]
  simp only [hdec]

theorem State.fetch_of_no_space {s : State} (hsp : s.readSpace = none) : s.fetch = none := by
  rw [State.fetch, hsp]

/-- The part of the pseudocode in which a busy block stands. -/
theorem State.running_cons {s : State} {st : Stage} {rest : List Stage} (h : s.phase = .busy)
    (htodo : s.todo = st :: rest) : s.running = some st := by
  rw [State.running_busy h, htodo, List.head?_cons]

/-- Settles O57: the port and the fetch, each taken once. -/
theorem stepRunsTheInstruction : Obligations.StepRunsTheInstruction := by
  unfold Obligations.StepRunsTheInstruction
  refine ⟨fun s op rest hrst hhost => step_present_released hhost hrst, fun s sp i rest hhost hbusy hsp hdec => ?_⟩
  rw [step_idle_host hhost, work_fetched hbusy (State.fetch_decoded hsp hdec)]

/-! ### Acceptance (R80, R23) -/

/-- The code of a command other than CLEAR decodes to the row whose acceptance is that command's (R81). -/
theorem issueInstr_op {c : Command} (hc : c ∈ Command.all) (s : State) :
    issueInstr (decodeCommand c.op) s = c.issue s := by
  revert c
  simp only [Command.all, List.forall_mem_cons]
  exact ⟨rfl, rfl, rfl, rfl, rfl, rfl, rfl, rfl, rfl, rfl, rfl, rfl, nofun⟩

theorem exec_op {c : Command} (hc : c ∈ Command.all) (s : State) :
    exec (decodeCommand c.op) s = c.run Config.params s := by
  revert c
  simp only [Command.all, List.forall_mem_cons]
  exact ⟨rfl, rfl, rfl, rfl, rfl, rfl, rfl, rfl, rfl, rfl, rfl, rfl, nofun⟩

theorem Command.busy_not_cleared : ∀ c ∈ Command.all, Flag.busy ∉ c.clears := by
  decide

theorem Command.issue_flagsMove {c : Command} (hc : c ∈ Command.all) {s : State} (h : s.phase = .idle) :
    flagsMove s (c.issue s) [.busy] (.done :: c.clears) = true := by
  have hbusy := Command.busy_not_cleared c hc
  refine (flagsMove_iff ..).mpr ⟨fun f => ?_, c.reserved_issue h⟩
  rw [c.flag_issue h, State.flag_accept]
  cases f <;> simp [hbusy]

theorem acceptClear_flagsMove (s : State) : flagsMove s s.acceptClear [.busy] [.done, .fault] = true := by
  have hstatus : s.acceptClear.status = ((s.accept 0xD).setFlag .fault false).status := rfl
  refine (flagsMove_iff ..).mpr ⟨fun f => ?_, ?_⟩
  · rw [State.flag_congr hstatus, State.flag_setFlag, State.flag_accept]
    cases f <;> simp
  · rw [hstatus, State.reserved_setFlag]
    exact (State.reserved_setFlag _ .done false).trans (State.reserved_setFlag s .busy true)

/-- Settles O3: acceptance as `Command.issue_frame` and `Command.issue_todo` give it, CLEAR's read off. -/
theorem acceptanceStartsTheCommand : Obligations.AcceptanceStartsTheCommand := by
  unfold Obligations.AcceptanceStartsTheCommand
  refine ⟨fun s rest hbusy hrst hhost => ?_, fun s rest c hc hrst hhost => ⟨fun hidle => ?_, fun hbusy => ?_⟩⟩
  · have hnext : step s = .next ({ s with host := rest } : State).acceptClear :=
      (step_start_released hhost hrst).trans (congrArg _ (issueInstr_clear hbusy))
    exact ⟨_, hnext, acceptClear_flagsMove { s with host := rest }, rfl⟩
  · have hnext : step s = .next (c.issue { s with host := rest }) :=
      (step_start_released hhost hrst).trans (congrArg _ (issueInstr_op hc _))
    refine ⟨_, hnext, Command.issue_flagsMove hc (s := { s with host := rest }) hidle, ?_⟩
    have htodo := Command.issue_todo hc (s := { s with host := rest }) hidle
    rw [c.issue_frame (s := { s with host := rest }) hidle, htodo]
    rfl
  · rw [step_start_released hhost hrst, issueInstr_in_busy (s := { s with host := rest }) hbusy]

/-! ### Stream units at their read (R84, R85, R110, R152, R155, R170) -/

theorem exec_magic {s : State} {rest : List Stage} (hbusy : s.phase = .busy) (htodo : s.todo = .rdMagic :: rest)
    (m : BitVec 32) : exec (.magic m) s = (checkMagic Config.params m s).settleWhole := by
  rw [exec, execMagic, State.running_cons hbusy htodo]

theorem exec_hdrInternal {s : State} (hbusy : s.phase = .busy) (htodo : s.todo.head? = some .desLoop) :
    exec .hdrInternal s = (desInternal s).settleWhole := by
  rw [exec, execHdrInternal, State.running_busy hbusy, htodo]

theorem exec_literal8_counting {s : State} (hbusy : s.phase = .busy) (htodo : s.todo.head? = some .countLoop)
    (v : BitVec 8) : exec (.literal8 v) s = (countLiteral Config.params v s).settleWhole := by
  rw [exec, execLiteral8, State.running_busy hbusy, htodo]

theorem exec_literal8_encoding {s : State} (hbusy : s.phase = .busy) (htodo : s.todo.head? = some .encLoop)
    (v : BitVec 8) : exec (.literal8 v) s = (encLiteral v s).settleWhole := by
  rw [exec, execLiteral8, State.running_busy hbusy, htodo]

/-- Settles O12: below the bound the increment does not wrap. -/
theorem literalIsCounted : Obligations.LiteralIsCounted := by
  unfold Obligations.LiteralIsCounted
  intro s v hbusy htodo hroom
  have hturn : countLiteral Config.params v s = .again (s.setFreq (literalSym v) (s.freq[literalSym v] + 1)) :=
    if_neg (Nat.ne_of_lt hroom)
  refine ⟨_, (exec_literal8_counting hbusy htodo v).trans (congrArg Turn.settleWhole hturn), rfl, ?_, fun w hw => ?_⟩
  · rw [State.freq_setFreq, if_pos rfl, BitVec.toNat_add_of_lt (Nat.add_lt_of_lt_sub hroom)]
    rfl
  · rw [State.freq_setFreq, if_neg hw]

/-- Settles O25: the check of the value against `MAGIC`. -/
theorem magicFieldIsChecked : Obligations.MagicFieldIsChecked := by
  unfold Obligations.MagicFieldIsChecked
  intro s rest m hbusy htodo
  refine ⟨fun hm => ?_, fun hm => ⟨?_, State.raise_err ..⟩⟩
  · have hturn : checkMagic Config.params m s = .leave s := if_pos hm
    rw [exec_magic hbusy htodo, hturn, Turn.settleWhole, Turn.settle, htodo, List.tail_cons]
    exact nofun
  · have hturn : checkMagic Config.params m s = .raise .format s := if_neg hm
    rw [exec_magic hbusy htodo, hturn, Turn.settleWhole]

/-- Settles O29: the token's unit opens the node. -/
theorem internalTokenOpensANode : Obligations.InternalTokenOpensANode := by
  unfold Obligations.InternalTokenOpensANode
  intro s hbusy htodo
  exact exec_hdrInternal hbusy htodo

/-- Settles O35: the look-up finds a code, or raises. -/
theorem literalIsEncoded : Obligations.LiteralIsEncoded := by
  unfold Obligations.LiteralIsEncoded
  intro s v hbusy htodo
  rw [exec_literal8_encoding hbusy htodo, encLiteral, withCode]
  refine ⟨fun hcode => ?_, fun hcode => ⟨?_, State.raise_err ..⟩⟩
  · rw [if_neg hcode]
    rfl
  · rw [if_pos hcode, Turn.settleWhole]

/-! ### Commands of one part or over one tree (R150, R151, R153, R173) -/

section Units

variable {s : State} {rest : List Stage}

theorem unit_wrMagic (h : s.todo = .wrMagic :: rest) :
    unit Config.params s = .next { s.writeSeq (bits 32 Config.magic.toNat) with todo := rest } := by
  rw [unit_cons _ h, turn, wrMagic, Turn.settle, State.writeBits_todo, h, List.tail_cons]
  rfl

theorem unit_closeOut (p : Params) (h : s.todo = .closeOut :: rest) :
    unit p s = .next { s.closeOutput with todo := rest } := by
  rw [unit_cons p h, turn, closeOut, Turn.settle, State.closeOutput_todo, h, List.tail_cons]

end Units

theorem exec_wrmagic {s : State} (h : s.phase = .idle) (ho : s.flag .outClosed = false) :
    exec .wrmagic s = .next ((Command.wrmagic.issue s).writeSeq (bits 32 Config.magic.toNat)).finish := by
  have hm : s.meets Command.wrmagic.needs = true := by simp [State.meets, Command.wrmagic, ho]
  exact Command.run_completes Config.params (by decide) h hm (show 1 < 4096 by decide)
    (fun hb htodo n => runBusy_busy _ n (unit_wrMagic htodo) hb) rfl rfl

/-- Settles O22: the one write of WRMAGIC. -/
theorem wrmagicWritesMagic : Obligations.WrmagicWritesMagic := by
  unfold Obligations.WrmagicWritesMagic
  intro s hidle hopen
  refine ⟨_, exec_wrmagic hidle hopen, Command.wrmagic.finish_flags hidle rfl, ?_⟩
  rw [Command.issue_frame _ hidle, State.finish, hidle]
  rfl

theorem exec_close {s : State} (h : s.phase = .idle) (ho : s.flag .outClosed = false) :
    exec .close s = .next (Command.close.issue s).closeOutput.finish := by
  have hm : s.meets Command.close.needs = true := by simp [State.meets, Command.close, ho]
  exact Command.run_completes Config.params (by decide) h hm (show 1 < 4096 by decide)
    (fun hb htodo n => runBusy_busy _ n (unit_closeOut _ htodo) hb) rfl rfl

/-- A command whose body raises one flag: that flag and `DONE` are 1 at its end, those its acceptance clears 0. -/
theorem Command.finish_flags_raised {c : Command} {s t : State} {f : Flag} (h : s.phase = .idle)
    (hf : f ≠ .busy) (ht : t.status = ((c.issue s).setFlag f true).status) :
    flagsMove s t.finish [.done, f] (.busy :: c.clears) = true := by
  refine (flagsMove_iff ..).mpr ⟨fun g => ?_, ?_⟩
  · rw [State.flag_finish, State.flag_congr ht, State.flag_setFlag, c.flag_issue h, State.flag_accept]
    by_cases hg : g = f
    · subst hg
      simp [hf]
    · simp only [List.mem_cons, List.not_mem_nil, hg, or_false, if_false]
      cases g <;> simp
  · rw [State.reserved_finish, ht, State.reserved_setFlag, c.reserved_issue h]

/-- Settles O36: CLOSE's one part. -/
theorem closeClosesTheOutput : Obligations.CloseClosesTheOutput := by
  unfold Obligations.CloseClosesTheOutput
  intro s hidle hopen
  refine ⟨_, exec_close hidle hopen, Command.finish_flags_raised (c := .close) (f := .outClosed) hidle (by decide) rfl, ?_⟩
  rw [Command.issue_frame _ hidle, State.finish, State.closeOutput, hidle]
  rfl

theorem HTree.leafCount_pos (T : HTree) : 0 < T.leafCount := by
  induction T with
  | leaf v => exact Nat.one_pos
  | node l r ihl ihr => exact Nat.add_pos_left ihl _

/-- R86: ten bits for each leaf and one for each of the internal nodes, one fewer than the leaves. -/
theorem HTree.header_length (T : HTree) : T.header.length = 11 * T.leafCount - 1 := by
  induction T with
  | leaf v => rw [HTree.header_leaf, List.length_cons, bits_length, HTree.leafCount]
  | node l r ihl ihr =>
    have hl := l.leafCount_pos
    have hr := r.leafCount_pos
    rw [HTree.header_node, List.length_cons, List.length_append, ihl, ihr, HTree.leafCount]
    omega

/-- Settles O23: SERIALIZE's walk writes the header, whose length is counted leaf by leaf. -/
theorem serializeWritesTheHeader : Obligations.SerializeWritesTheHeader := by
  unfold Obligations.SerializeWritesTheHeader
  intro s T hidle hvalid hopen ht hsize
  refine ⟨_, exec_serialize_tree hidle hvalid hopen ht hsize, T.header_length,
    Command.serialize.finish_flags hidle rfl, ?_⟩
  rw [Command.issue_frame _ hidle, State.finish, hidle]
  rfl

/-- Settles O26: DESERIALIZE's loop rebuilds the tree that the header is of. -/
theorem deserializeRebuildsTheTree : Obligations.DeserializeRebuildsTheTree := by
  unfold Obligations.DeserializeRebuildsTheTree
  intro s T tail hidle hin hsize
  obtain ⟨node, nnodes, i, hholds, hn, hlast, hexec⟩ := exec_deserialize_tree hidle hin hsize
  refine ⟨_, hexec, hholds, hn, hlast,
    Command.finish_flags_raised (c := .deserialize) (f := .treeValid) hidle (by decide) rfl, ?_⟩
  rw [Command.issue_frame _ hidle, State.finish, State.setFlag, hidle]
  rfl

end Sys2Proof.Machine

namespace Sys2Proof.Machine

open Sys2Proof

/-! ### What each part of the pseudocode writes (R21, R25, R26, R28, R29, R55) -/

/-- What the spec names writers of: the registers of the tree and of the decoder, the tables, `IN`, `OUT` as a whole and
its bits and its closed mark alone, the mirror `OUT_CLOSED`, the raising of `TREE_VALID`; and port `rst`, the content of
`IN` and the host's script, which no command writes. -/
inductive Reg where
  | root
  | nnodes
  | cur
  | freq
  | node
  | code
  | inp
  | out
  | bits
  | mark
  | outFlag
  | treeUp
  | rst
  | data
  | host
  deriving DecidableEq

/-- From `s` to `t` the register keeps its value; `TREE_VALID` is not raised. -/
def Reg.Same (s t : State) : Reg → Prop
  | .root => t.root = s.root
  | .nnodes => t.nnodes = s.nnodes
  | .cur => t.cur = s.cur
  | .freq => t.freq = s.freq
  | .node => t.node = s.node
  | .code => t.code = s.code
  | .inp => t.inp = s.inp
  | .out => t.out = s.out
  | .bits => t.out.bits = s.out.bits
  | .mark => t.out.closed = s.out.closed
  | .outFlag => t.flag .outClosed = s.flag .outClosed
  | .treeUp => t.flag .treeValid = true → s.flag .treeValid = true
  | .rst => t.rst = s.rst
  | .data => t.inp.data = s.inp.data
  | .host => t.host = s.host

theorem Reg.Same.refl (s : State) (r : Reg) : r.Same s s := by
  cases r with
  | treeUp => exact id
  | _ => rfl

theorem Reg.Same.trans {s t u : State} {r : Reg} (h : r.Same s t) (k : r.Same t u) : r.Same s u := by
  cases r with
  | treeUp => exact h ∘ k
  | _ => exact Eq.trans k h

/-- From `s` to `t` every register outside `W` keeps its value. -/
def Keeps (W : List Reg) (s t : State) : Prop := ∀ r, r ∉ W → r.Same s t

theorem Keeps.refl (W : List Reg) (s : State) : Keeps W s s := fun r _ => .refl s r

theorem Keeps.trans {W : List Reg} {s t u : State} (h : Keeps W s t) (k : Keeps W t u) : Keeps W s u := fun r hr =>
  (h r hr).trans (k r hr)

theorem Keeps.mono {W W' : List Reg} {s t : State} (h : Keeps W s t) (hW : W ⊆ W') : Keeps W' s t := fun r hr =>
  h r fun hmem => hr (hW hmem)

/-- What is left to do, the working stores and the registers that only acceptance and the end of a
command write are none of the registers named. -/
theorem Keeps.of_control {s t : State}
    (h : t = { s with op := t.op, phase := t.phase, err := t.err, pq := t.pq, walk := t.walk, pending := t.pending,
                      todo := t.todo }) : Keeps [] s t := by
  rw [h]
  intro r _
  cases r with
  | treeUp => exact id
  | _ => rfl

theorem Keeps.readBits (s : State) (n : Nat) : Keeps [.inp] s (s.readBits n).2 := by
  rw [s.readBits_frame n]
  intro r hr
  cases r with
  | inp => exact absurd (by decide) hr
  | treeUp => exact id
  | _ => rfl

theorem Keeps.writeSeq (s : State) (b : Bits) : Keeps [.out, .bits] s (s.writeSeq b) := by
  intro r hr
  cases r with
  | out | bits => exact absurd (by decide) hr
  | treeUp => exact id
  | _ => rfl

theorem Keeps.alloc {p : Params} {n : Node} {s t : State} {i : Idx} (h : s.alloc p n = some (i, t)) :
    Keeps [.node, .nnodes] s t := by
  obtain ⟨-, -, -, -, hframe⟩ := State.alloc_some h
  rw [hframe]
  intro r hr
  cases r with
  | node | nnodes => exact absurd (by decide) hr
  | treeUp => exact id
  | _ => rfl

/-- A flag other than `OUT_CLOSED` and `TREE_VALID` is none of the registers named. -/
theorem Keeps.setFlag (s : State) {f : Flag} (b : Bool) (h : f ≠ .outClosed) (htree : f ≠ .treeValid) :
    Keeps [] s (s.setFlag f b) := by
  intro r _
  cases r with
  | outFlag => exact (State.flag_setFlag ..).trans (if_neg (Ne.symm h))
  | treeUp => exact fun hflag => ((State.flag_setFlag ..).trans (if_neg (Ne.symm htree))).symm.trans hflag
  | _ => rfl

theorem State.flag_of_lower {s : State} {fs : List Flag} {f : Flag} (h : (s.lower fs).flag f = true) :
    s.flag f = true := by
  rw [State.flag_lower] at h
  split at h
  · cases h
  · exact h

/-- The one flag named that is raised with the tree. -/
theorem Keeps.raiseTree (s : State) : Keeps [.treeUp] s (s.setFlag .treeValid true) := by
  intro r hr
  cases r with
  | treeUp => exact absurd (by decide) hr
  | outFlag => exact (State.flag_setFlag ..).trans (if_neg (by decide))
  | _ => rfl

theorem Keeps.lower (s : State) {fs : List Flag} (h : Flag.outClosed ∉ fs) : Keeps [] s (s.lower fs) := by
  intro r _
  cases r with
  | outFlag => exact (State.flag_lower ..).trans (if_neg h)
  | treeUp => exact State.flag_of_lower
  | _ => simp [Reg.Same]

/-- The registers that a part of the pseudocode writes, or that a part it leads to does; a fault's entry aside. -/
def Stage.writes : Stage → List Reg
  | .countClear => [.freq]
  | .countLoop => [.inp, .freq]
  | .countSeal => [.freq]
  | .buildLeaves => [.node, .nnodes]
  | .buildFew => [.node, .nnodes]
  | .buildMerge => [.node, .nnodes, .root, .treeUp]
  | .genStart => [.code]
  | .genWalk => [.code]
  | .wrMagic => [.out, .bits]
  | .serStart => []
  | .serWalk => [.out, .bits]
  | .serField _ => [.out, .bits]
  | .encRewind => [.inp]
  | .encLoop => [.inp, .out, .bits]
  | .encSentinel => [.out, .bits]
  | .encEmit _ => [.out, .bits]
  | .rdMagic => [.inp]
  | .desStart => [.nnodes]
  | .desLoop => [.inp, .node, .nnodes, .root, .treeUp]
  | .desField => [.inp, .node, .nnodes, .root, .treeUp]
  | .decStart => [.cur]
  | .decLoop => [.inp, .cur, .out, .bits]
  | .decEmit _ => [.cur, .out, .bits]
  | .closeOut => [.out, .mark, .outFlag]
  | .implicitClear => [.nnodes, .outFlag]
  | .discardAll => []
  | .discardTree => []
  | .clearAll => [.nnodes, .outFlag]
  | .raise _ => []

/-- How a unit of work ends that writes no register outside `W`, it or the parts it puts in front of the rest, and that
neither is CLEAR's nor enters a fault. -/
def Turn.Within (W : List Reg) (s : State) : Turn → Prop
  | .again t => Keeps W s t
  | .leave t => Keeps W s t
  | .first st t => Keeps W s t ∧ st.writes ⊆ W
  | .instead st t => Keeps W s t ∧ st.writes ⊆ W
  | .ended _ => False
  | .raise _ t => Keeps W s t
  | .stop _ => True

/-- A unit that keeps what it should, started from a state that has kept it. -/
theorem Keeps.within {W W' : List Reg} {s t : State} {T : Turn} (h : Keeps W s t) (hW : W ⊆ W')
    (hT : T.Within W' t) : T.Within W' s := by
  have h := h.mono hW
  cases T with
  | again u => exact h.trans hT
  | leave u => exact h.trans hT
  | first st u => exact ⟨h.trans hT.1, hT.2⟩
  | instead st u => exact ⟨h.trans hT.1, hT.2⟩
  | ended u => exact hT
  | raise c u => exact h.trans hT
  | stop f => trivial

theorem Turn.within_mono {W W' : List Reg} {s : State} {T : Turn} (hT : T.Within W s) (hW : W ⊆ W') :
    T.Within W' s := by
  cases T with
  | again u => exact hT.mono hW
  | leave u => exact hT.mono hW
  | first st u => exact ⟨hT.1.mono hW, List.Subset.trans hT.2 hW⟩
  | instead st u => exact ⟨hT.1.mono hW, List.Subset.trans hT.2 hW⟩
  | ended u => exact hT
  | raise c u => exact hT.mono hW
  | stop f => trivial

theorem Turn.backTo_within {W : List Reg} {s : State} {T : Turn} {st : Stage} (hst : st.writes ⊆ W)
    (hT : T.Within W s) : (T.backTo st).Within W s := by
  cases T with
  | again u => exact ⟨hT, hst⟩
  | _ => exact hT

theorem Keeps.freq (s : State) (freq : Vector Count 257) : Keeps [.freq] s { s with freq := freq } := by
  intro r hr
  cases r with
  | freq => exact absurd (by decide) hr
  | treeUp => exact id
  | _ => rfl

theorem Keeps.nnodes (s : State) (n : Fin 514) : Keeps [.nnodes] s { s with nnodes := n } := by
  intro r hr
  cases r with
  | nnodes => exact absurd (by decide) hr
  | treeUp => exact id
  | _ => rfl

theorem Keeps.root (s : State) (i : Idx) : Keeps [.root] s { s with root := i } := by
  intro r hr
  cases r with
  | root => exact absurd (by decide) hr
  | treeUp => exact id
  | _ => rfl

theorem Keeps.cur (s : State) (i : Idx) : Keeps [.cur] s { s with cur := i } := by
  intro r hr
  cases r with
  | cur => exact absurd (by decide) hr
  | treeUp => exact id
  | _ => rfl

theorem Keeps.code (s : State) (code : Vector Bits 257) : Keeps [.code] s { s with code := code } := by
  intro r hr
  cases r with
  | code => exact absurd (by decide) hr
  | treeUp => exact id
  | _ => rfl

theorem Keeps.pos (s : State) (n : Nat) : Keeps [.inp] s { s with inp := { s.inp with pos := n } } := by
  intro r hr
  cases r with
  | inp => exact absurd (by decide) hr
  | treeUp => exact id
  | _ => rfl

theorem Keeps.closeOutput (s : State) : Keeps [.out, .mark, .outFlag] s s.closeOutput := by
  intro r hr
  cases r with
  | out | mark | outFlag => exact absurd (by decide) hr
  | treeUp => exact fun h => by simpa using h
  | _ => rfl

theorem Keeps.implicitClear (s : State) : Keeps [.nnodes, .outFlag] s s.implicitClear := by
  intro r hr
  cases r with
  | nnodes | outFlag => exact absurd (by decide) hr
  | _ => simp [Reg.Same]

theorem Keeps.clearBlock (s : State) : Keeps [.nnodes, .outFlag] s s.clearBlock := by
  intro r hr
  cases r with
  | nnodes | outFlag => exact absurd (by decide) hr
  | treeUp => exact fun h => by simp at h
  | _ => rfl

/-! ### One lemma for each part -/

theorem countLiteral_within (p : Params) (v : BitVec 8) (s : State) :
    (countLiteral p v s).Within [.freq] s := by
  rw [countLiteral]
  split
  · exact .refl _ s
  · exact .freq s _

theorem countLoop_within (p : Params) (s : State) : (countLoop p s).Within [.inp, .freq] s := by
  have hr := Keeps.readBits s 8
  rw [countLoop]
  split <;> rename_i heq <;> rw [heq] at hr
  · exact hr.mono (by decide)
  · exact hr.within (by decide) (Turn.within_mono (countLiteral_within ..) (by decide))

theorem countSeal_within (s : State) : (countSeal s).Within [.freq] s :=
  (Keeps.freq s _).trans ((Keeps.setFlag _ true (by decide) (by decide)).mono (by decide))

theorem buildLeavesFrom_within (p : Params) (vs : List Sym) (s : State) :
    (buildLeavesFrom p vs s).Within [.node, .nnodes] s := by
  induction vs generalizing s with
  | nil => exact .refl _ s
  | cons v vs ih =>
    rw [buildLeavesFrom]
    split
    · exact ih s
    · split
      · rename_i i s' ha
        have hqueue : Keeps [] s' { s' with pq := s'.pq ++ [i] } := .of_control rfl
        exact ((Keeps.alloc ha).trans (hqueue.mono (by decide))).within (by decide) (ih _)
      · exact .refl _ s

theorem buildLeaves_within (p : Params) (s : State) : (buildLeaves p s).Within [.node, .nnodes] s := by
  have hempty : Keeps [] { s with nnodes := 0 } { s with nnodes := 0, pq := [] } := .of_control rfl
  exact ((Keeps.nnodes s 0).trans (hempty.mono (by decide))).within (by decide) (buildLeavesFrom_within p _ _)

theorem buildFew_within (p : Params) (s : State) : (buildFew p s).Within [.node, .nnodes] s := by
  rw [buildFew]
  split
  · exact .refl _ s
  · split
    · exact .refl _ s
    · rename_i ha
      split
      · exact .alloc ha
      · rename_i r s2 hb
        have hqueue : Keeps [] s2 { s2 with pq := [r] } := .of_control rfl
        exact ((Keeps.alloc ha).trans (.alloc hb)).trans (hqueue.mono (by decide))
  · exact .refl _ s

theorem buildMerge_within (p : Params) (s : State) :
    (buildMerge p s).Within [.node, .nnodes, .root, .treeUp] s := by
  rw [buildMerge]
  split
  · exact .refl _ s
  · rename_i a q _
    split
    · have hqueue : Keeps [] { s with root := a } { s with root := a, pq := [] } := .of_control rfl
      exact (((Keeps.root s a).trans (hqueue.mono (by decide))).mono (by decide)).trans
        ((Keeps.raiseTree _).mono (by decide))
    · rename_i b q' _
      split
      · exact (Keeps.of_control rfl).mono (by decide)
      · rename_i r s' ha
        have hqueue : Keeps [] s' { s' with pq := q' ++ [r] } := .of_control rfl
        exact ((Keeps.alloc ha).trans (hqueue.mono (by decide))).mono (by decide)

theorem genStart_within (s : State) : (genStart s).Within [.code] s := by
  have hclear := Keeps.code s (Vector.replicate 257 [])
  rw [genStart]
  split
  · exact hclear
  · exact hclear.trans ((Keeps.of_control rfl).mono (by decide))

theorem genWalk_within (s : State) : (genWalk s).Within [.code] s := by
  rw [genWalk]
  split
  · exact (Keeps.setFlag _ true (by decide) (by decide)).mono (by decide)
  · rename_i rest _
    have hwalk : ∀ w, Keeps [.code] s { s with walk := w } := fun w => (Keeps.of_control rfl).mono (by decide)
    split
    · split
      · exact (hwalk rest).trans (.code _ _)
      · trivial
    · exact hwalk _

theorem serWalk_within (s : State) : (serWalk s).Within [.out, .bits] s := by
  rw [serWalk]
  split
  · exact .refl _ s
  · have hwalk : ∀ w, Keeps [.out, .bits] s { s with walk := w } := fun w => (Keeps.of_control rfl).mono (by decide)
    split
    · exact ⟨(hwalk _).trans (.writeSeq _ _), by simp [Stage.writes]⟩
    · exact (hwalk _).trans (.writeSeq _ _)

theorem rdMagic_within (p : Params) (s : State) : (rdMagic p s).Within [.inp] s := by
  have hr := Keeps.readBits s 32
  rw [rdMagic]
  split <;> rename_i heq <;> rw [heq] at hr
  · exact hr
  · rw [checkMagic]
    split <;> exact hr

theorem attach_within (p : Params) (i : Idx) (st : List Pending) (s : State) :
    (attach p i st s).Within [.node, .nnodes, .root, .treeUp] s := by
  induction st generalizing i s with
  | nil =>
    have hpending : Keeps [] { s with root := i } { s with root := i, pending := [] } := .of_control rfl
    exact (((Keeps.root s i).trans (hpending.mono (by decide))).mono (by decide)).trans
      ((Keeps.raiseTree _).mono (by decide))
  | cons f st ih =>
    cases f with
    | left => exact (Keeps.of_control rfl).mono (by decide)
    | right l =>
      rw [attach]
      split
      · exact (Keeps.of_control rfl).mono (by decide)
      · rename_i ha
        exact (Keeps.alloc ha).within (by decide) (ih _ _)

theorem desLeaf_within (p : Params) (f : BitVec 9) (s : State) :
    (desLeaf p f s).Within [.node, .nnodes, .root, .treeUp] s := by
  rw [desLeaf]
  split
  · split
    · exact .refl _ s
    · rename_i ha
      exact (Keeps.alloc ha).within (by decide) (attach_within ..)
  · exact .refl _ s

theorem desLoop_within (s : State) : (desLoop s).Within [.inp, .node, .nnodes, .root, .treeUp] s := by
  have hr := Keeps.readBits s 1
  rw [desLoop]
  split <;> rename_i heq <;> rw [heq] at hr
  · exact hr.mono (by decide)
  · split
    · exact ⟨hr.mono (by decide), by simp [Stage.writes]⟩
    · exact (hr.trans ((Keeps.of_control rfl).mono (by decide))).mono (by decide)

theorem desField_within (p : Params) (s : State) :
    (desField p s).Within [.inp, .node, .nnodes, .root, .treeUp] s := by
  have hr := Keeps.readBits s 9
  rw [desField]
  split <;> rename_i heq <;> rw [heq] at hr
  · exact hr.mono (by decide)
  · exact Turn.backTo_within (by simp [Stage.writes])
      (hr.within (by decide) (Turn.within_mono (desLeaf_within ..) (by decide)))

theorem withCode_within {W : List Reg} {v : Sym} {use : Bits → Turn} {s t : State} (ht : Keeps W s t)
    (h : ∀ c, (use c).Within W s) : (withCode v use t).Within W s := by
  rw [withCode]
  split
  · exact ht
  · exact h _

theorem encLiteral_within (v : BitVec 8) (s : State) : (encLiteral v s).Within [.out, .bits] s :=
  withCode_within (.refl _ s) fun _ => .writeSeq _ _

theorem encLoop_within (s : State) : (encLoop s).Within [.inp, .out, .bits] s := by
  have hr := Keeps.readBits s 8
  rw [encLoop]
  split <;> rename_i heq <;> rw [heq] at hr
  · exact hr.mono (by decide)
  · have hread := hr.mono (W' := [.inp, .out, .bits]) (by decide)
    exact withCode_within hread fun _ => ⟨hread, by simp [Stage.writes]⟩

theorem encSentinel_within (s : State) : (encSentinel s).Within [.out, .bits] s :=
  withCode_within (.refl _ s) fun _ => ⟨.refl _ s, by simp [Stage.writes]⟩

theorem encEmit_within (c : Bits) (s : State) : (encEmit c s).Within [.out, .bits] s := by
  cases c with
  | nil => exact .refl _ s
  | cons b bs => exact ⟨.writeSeq _ _, by simp [Stage.writes]⟩

theorem decByte_keeps (v : Sym) (s : State) : Keeps [.cur, .out, .bits] s (decByte v s) :=
  ((Keeps.writeSeq s _).mono (by decide)).trans ((Keeps.cur _ s.root).mono (by decide))

theorem decMove_within {W : List Reg} {byte : Sym → State → Turn} (b : Bool) (s : State) (hcur : Reg.cur ∈ W)
    (h : ∀ v t, (byte v t).Within W t) : (decMove byte b s).Within W s := by
  have hmove : ∀ i, Keeps W s { s with cur := i } := fun i => (Keeps.cur s i).mono (by simpa using hcur)
  rw [decMove]
  split
  · exact .refl _ s
  · dsimp only
    split
    · exact hmove _
    · split
      · exact hmove _
      · exact (hmove _).within (List.Subset.refl _) (h _ _)

theorem decBits_within (bs : Bits) (s : State) : (decBits bs s).Within [.cur, .out, .bits] s := by
  induction bs generalizing s with
  | nil => exact .refl _ s
  | cons b bs ih =>
    have hbit : (decBit b s).Within [.cur, .out, .bits] s :=
      decMove_within b s (by decide) fun v t => decByte_keeps v t
    rw [decBits]
    split
    · rename_i heq
      rw [heq] at hbit
      exact Keeps.within hbit (List.Subset.refl _) (ih _)
    · exact hbit

theorem decLoop_within (s : State) : (decLoop s).Within [.inp, .cur, .out, .bits] s := by
  have hr := Keeps.readBits s 1
  rw [decLoop]
  split <;> rename_i heq <;> rw [heq] at hr
  · exact hr.mono (by decide)
  · refine hr.within (by decide) (decMove_within _ _ (by decide) fun v t => ⟨.refl _ t, ?_⟩)
    simp [Stage.writes]

/-- What one unit of work of any command writes, CLEAR's and a fault's entry aside. -/
theorem turn_within (p : Params) {st : Stage} (hclear : st ≠ .clearAll) (hst : ∀ c, st ≠ .raise c) (s : State) :
    (turn p st s).Within st.writes s := by
  cases st with
  | countClear => exact .freq s _
  | countLoop => exact countLoop_within p s
  | countSeal => exact countSeal_within s
  | buildLeaves => exact buildLeaves_within p s
  | buildFew => exact buildFew_within p s
  | buildMerge => exact buildMerge_within p s
  | genStart => exact genStart_within s
  | genWalk => exact genWalk_within s
  | wrMagic => exact .writeSeq _ _
  | serStart => exact .of_control rfl
  | serWalk => exact serWalk_within s
  | serField v => exact .writeSeq _ _
  | encRewind => exact .pos s _
  | encLoop => exact encLoop_within s
  | encSentinel => exact encSentinel_within s
  | encEmit c => exact encEmit_within c s
  | rdMagic => exact rdMagic_within p s
  | desStart => exact (Keeps.nnodes s 0).trans ((Keeps.of_control rfl).mono (by decide))
  | desLoop => exact desLoop_within s
  | desField => exact desField_within p s
  | decStart => exact .cur s _
  | decLoop => exact decLoop_within s
  | decEmit v => exact decByte_keeps v s
  | closeOut => exact .closeOutput s
  | implicitClear => exact .implicitClear s
  | discardAll => exact .lower s (by decide)
  | discardTree => exact .lower s (by decide)
  | clearAll => exact absurd rfl hclear
  | raise c => exact absurd rfl (hst c)


/-! ### What a run writes -/

/-- The parts left to do write no register outside `W`, a fault's entry aside. -/
def State.WritesIn (s : State) (W : List Reg) : Prop := ∀ st ∈ s.todo, st.writes ⊆ W

/-- From `s` to `t` a run writes no register outside `W`, but for a fault's entry at its end. -/
def Wrote (W : List Reg) (s t : State) : Prop := Keeps W s t ∨ ∃ u c, Keeps W s u ∧ t = u.raise c

theorem Keeps.wrote {W : List Reg} {s t u : State} (h : Keeps W s t) (k : Wrote W t u) : Wrote W s u := by
  obtain k | ⟨v, c, k, rfl⟩ := k
  · exact .inl (h.trans k)
  · exact .inr ⟨v, c, h.trans k, rfl⟩

theorem Wrote.mono {W W' : List Reg} {s t : State} (h : Wrote W s t) (hW : W ⊆ W') : Wrote W' s t := by
  obtain h | ⟨u, c, h, rfl⟩ := h
  · exact .inl (h.mono hW)
  · exact .inr ⟨u, c, h.mono hW, rfl⟩

theorem Keeps.finish (s : State) : Keeps [] s s.finish := by
  intro r _
  cases r with
  | outFlag => exact State.flag_finish ..
  | treeUp => exact fun h => by simpa using h
  | _ => rfl

theorem Keeps.todo (s : State) (td : List Stage) : Keeps [] s { s with todo := td } := .of_control rfl

/-- A unit that ends within `W` leaves parts to do that write within `W`. -/
theorem settle_writes {W : List Reg} {s t : State} {T : Turn} (hcontrol : T.Ends (SameControl s)) (h : T.Within W s)
    (hs : s.WritesIn W) (hnext : T.settle = .next t) : Keeps W s t ∧ t.WritesIn W := by
  have htail : ∀ st ∈ s.todo.tail, st.writes ⊆ W := fun st hst => hs st (List.mem_of_mem_tail hst)
  have htodo : ∀ {u : State} (td : List Stage), Keeps W s u → Keeps W s { u with todo := td } := fun td hu =>
    hu.trans ((Keeps.todo _ td).mono (List.nil_subset W))
  cases T with
  | again u =>
    cases hnext
    refine ⟨h, ?_⟩
    rw [State.WritesIn, hcontrol.todo]
    exact hs
  | leave u =>
    cases hnext
    refine ⟨htodo _ h, ?_⟩
    rw [State.WritesIn, hcontrol.todo]
    exact htail
  | first st u =>
    cases hnext
    refine ⟨htodo _ h.1, ?_⟩
    rw [State.WritesIn, hcontrol.todo]
    exact List.forall_mem_cons.mpr ⟨h.2, hs⟩
  | instead st u =>
    cases hnext
    refine ⟨htodo _ h.1, ?_⟩
    rw [State.WritesIn, hcontrol.todo]
    exact List.forall_mem_cons.mpr ⟨h.2, htail⟩
  | ended u => exact h.elim
  | raise c u =>
    cases hnext
    exact ⟨htodo _ h, List.forall_mem_singleton.mpr (List.nil_subset W)⟩
  | stop f => cases hnext

/-- The only units that end a command before its parts are done are CLEAR's and a fault's entry. -/
theorem turn_ended (p : Params) {st : Stage} {s t : State} (h : turn p st s = .ended t) :
    (st = .clearAll ∧ t = s.clearBlock) ∨ ∃ c, st = .raise c ∧ t = s.raise c := by
  by_cases hclear : st = .clearAll
  · subst hclear
    cases h
    exact .inl ⟨rfl, rfl⟩
  by_cases hraise : ∃ c, st = .raise c
  · obtain ⟨c, rfl⟩ := hraise
    cases h
    exact .inr ⟨c, rfl, rfl⟩
  · have hwithin := turn_within p hclear (fun c hc => hraise ⟨c, hc⟩) s
    rw [h] at hwithin
    exact hwithin.elim

theorem unit_writes (p : Params) {W : List Reg} {s t : State} (hs : s.WritesIn W) (hnext : unit p s = .next t) :
    (Keeps W s t ∧ t.WritesIn W) ∨ ∃ c, t = s.raise c := by
  cases htodo : s.todo with
  | nil =>
    rw [unit_nil p htodo] at hnext
    cases hnext
    exact .inl ⟨(Keeps.finish s).mono (List.nil_subset W), nofun⟩
  | cons st rest =>
    have hst : st.writes ⊆ W := hs st (htodo ▸ List.mem_cons_self)
    by_cases hclear : st = .clearAll
    · subst hclear
      rw [unit_clearAll p htodo] at hnext
      cases hnext
      exact .inl ⟨(Keeps.clearBlock s).mono hst, nofun⟩
    by_cases hraise : ∃ c, st = .raise c
    · obtain ⟨c, rfl⟩ := hraise
      rw [unit_raise p htodo] at hnext
      cases hnext
      exact .inr ⟨c, rfl⟩
    · rw [unit_cons p htodo] at hnext
      exact .inl (settle_writes (turn_control p st s)
        (Turn.within_mono (turn_within p hclear (fun c hc => hraise ⟨c, hc⟩) s) hst) hs hnext)

theorem runBusy_writes (p : Params) {W : List Reg} {n : Nat} {s t : State} (hs : s.WritesIn W)
    (hrun : runBusy p n s = .next t) : Wrote W s t := by
  induction n generalizing s with
  | zero => cases hrun
  | succ n ih =>
    rw [runBusy_succ] at hrun
    cases hunit : unit p s with
    | next u =>
      rw [hunit, resume] at hrun
      obtain ⟨hkeeps, hu⟩ | ⟨c, rfl⟩ := unit_writes p hs hunit
      · split at hrun
        · exact hkeeps.wrote (ih hu hrun)
        · cases hrun
          exact .inl hkeeps
      · rw [if_neg (by simp)] at hrun
        cases hrun
        exact .inr ⟨s, c, .refl W s, rfl⟩
    | fault f => rw [hunit] at hrun; cases hrun
    | refused r => rw [hunit] at hrun; cases hrun

theorem Keeps.accept (s : State) (op : BitVec 4) : Keeps [] s (s.accept op) := by
  intro r _
  cases r with
  | outFlag => exact State.flag_accept ..
  | treeUp => exact fun h => by simpa using h
  | _ => rfl

theorem Keeps.issue {c : Command} (hc : c ∈ Command.all) {s : State} (h : s.phase = .idle) :
    Keeps [] s (c.issue s) := by
  intro r _
  cases r with
  | outFlag => exact Command.issue_outClosed hc h
  | treeUp =>
    intro hflag
    rw [c.flag_issue h] at hflag
    split at hflag
    · cases hflag
    · simpa using hflag
  | _ => rw [c.issue_frame h]; rfl

/-- The registers a command's parts write. -/
def Command.writes (c : Command) : List Reg := c.parts.flatMap Stage.writes

theorem Command.issue_writesIn {c : Command} (hc : c ∈ Command.all) {s : State} (h : s.phase = .idle) :
    (c.issue s).WritesIn c.writes := by
  rw [State.WritesIn, Command.issue_todo hc h]
  split
  · exact fun st hst r hr => List.mem_flatMap.mpr ⟨st, hst, hr⟩
  · exact List.forall_mem_singleton.mpr (List.nil_subset _)

theorem Command.run_writes (p : Params) {c : Command} (hc : c ∈ Command.all) {s t : State}
    (hrun : c.run p s = .next t) : Wrote c.writes s t := by
  by_cases h : s.phase = .idle
  · rw [Command.run, if_pos h] at hrun
    exact ((Keeps.issue hc h).mono (List.nil_subset _)).wrote (runBusy_writes p (Command.issue_writesIn hc h) hrun)
  · rw [Command.run_not_idle p c h] at hrun
    cases hrun
    exact .inl (.refl _ s)

/-! ### What an instruction writes -/

/-- The registers an instruction writes: a command those of its parts, a stream unit those of the part of the running
command that reads it. -/
def instrWrites (i : Instr) (st : Option Stage) : List Reg :=
  match i with
  | .count => [.inp, .freq]
  | .build => [.node, .nnodes, .root, .treeUp]
  | .generate => [.code]
  | .wrmagic => [.out, .bits]
  | .serialize => [.out, .bits]
  | .encode => [.inp, .out, .bits]
  | .close => [.out, .mark, .outFlag]
  | .rdmagic => [.inp]
  | .deserialize => [.inp, .node, .nnodes, .root, .treeUp]
  | .decode => [.inp, .cur, .out, .bits]
  | .compress => [.inp, .freq, .node, .nnodes, .root, .treeUp, .code, .out, .bits, .mark, .outFlag]
  | .decompress => [.inp, .node, .nnodes, .root, .treeUp, .cur, .out, .bits, .mark, .outFlag]
  | .clear => [.nnodes, .outFlag]
  | .hdrLeaf _ => if st = some .desLoop then [.node, .nnodes, .root, .treeUp] else []
  | .bodyCode _ => if st = some .decLoop then [.cur, .out, .bits] else []
  | .literal8 _ => if st = some .countLoop then [.freq] else if st = some .encLoop then [.out, .bits] else []
  | _ => []

/-- A whole stream unit writes what its turn does, and enters the fault that it raises. -/
theorem settleWhole_wrote {W : List Reg} {s t : State} {T : Turn} (h : T.Within W s)
    (hnext : T.settleWhole = .next t) : Wrote W s t := by
  have htodo : ∀ {u : State} (td : List Stage), Keeps W s u → Wrote W s { u with todo := td } := fun td hu =>
    .inl (hu.trans ((Keeps.todo _ td).mono (List.nil_subset W)))
  cases T with
  | again u => cases hnext; exact .inl h
  | leave u => cases hnext; exact htodo _ h
  | first st u => cases hnext; exact htodo _ h.1
  | instead st u => cases hnext; exact htodo _ h.1
  | ended u => exact h.elim
  | raise c u => cases hnext; exact .inr ⟨u, c, h, rfl⟩
  | stop f => cases hnext

theorem checkMagic_within (p : Params) (m : BitVec 32) (s : State) : (checkMagic p m s).Within [] s := by
  rw [checkMagic]
  split <;> exact .refl _ s

theorem desInternal_within (s : State) : (desInternal s).Within [] s := Keeps.of_control rfl

theorem runReserved_wrote (op : BitVec 4) (s : State) : Wrote [] s (runReserved op s) := by
  rw [runReserved]
  split
  · exact .inr ⟨s.accept op, .illegalCommand, .accept s op, rfl⟩
  · exact .inl (.refl _ s)

theorem Keeps.acceptClear (s : State) : Keeps [] s s.acceptClear := by
  intro r _
  cases r with
  | outFlag | treeUp =>
    have hstatus : s.acceptClear.status = ((s.accept 0xD).setFlag .fault false).status := rfl
    rw [Reg.Same, State.flag_congr hstatus, State.flag_setFlag, State.flag_accept]
    simp
  | _ => rfl

theorem runClear_wrote (s : State) : Wrote [.nnodes, .outFlag] s (runClear s) := by
  rw [runClear]
  split
  · exact .inl (.refl _ s)
  · exact .inl (.clearBlock s)

theorem exec_wrote {i : Instr} {s t : State} (h : exec i s = .next t) : Wrote (instrWrites i s.running) s t := by
  cases i with
  | reserved0 | reservedE | reservedF => cases h; exact runReserved_wrote ..
  | clear => cases h; exact runClear_wrote s
  | magic m =>
    rw [exec, execMagic] at h
    split at h
    · exact settleWhole_wrote (checkMagic_within ..) h
    · cases h; exact .inl (.refl _ s)
  | hdrInternal =>
    rw [exec, execHdrInternal] at h
    split at h
    · exact settleWhole_wrote (desInternal_within s) h
    · cases h; exact .inl (.refl _ s)
  | hdrLeaf f =>
    rw [exec, execHdrLeaf] at h
    split at h <;> rename_i hrun
    · rw [instrWrites, if_pos hrun]; exact settleWhole_wrote (desLeaf_within ..) h
    · cases h; exact .inl (.refl _ s)
  | bodyCode c =>
    rw [exec, execBodyCode] at h
    split at h <;> rename_i hrun
    · rw [instrWrites, if_pos hrun]; exact settleWhole_wrote (decBits_within ..) h
    · cases h; exact .inl (.refl _ s)
  | literal8 v =>
    rw [exec, execLiteral8] at h
    split at h <;> rename_i hrun
    · rw [instrWrites, if_pos hrun]; exact settleWhole_wrote (countLiteral_within ..) h
    · rw [instrWrites, hrun]; exact settleWhole_wrote (encLiteral_within ..) h
    · cases h; exact .inl (.refl _ s)
  | _ => exact (Command.run_writes Config.params (by decide) h).mono (by rw [instrWrites]; decide)

/-- What an instruction leaves as it was: every register outside its writes, but for `OUT`'s closed mark and its mirror,
which a fault's entry sets. -/
theorem Wrote.same {W : List Reg} {s t : State} (h : Wrote W s t) {r : Reg} (hr : r ∉ W) (hout : r ≠ .out)
    (hmark : r ≠ .mark) (hflag : r ≠ .outFlag) : r.Same s t := by
  obtain h | ⟨u, c, h, rfl⟩ := h
  · exact h r hr
  · refine (h r hr).trans ?_
    cases r with
    | out => exact absurd rfl hout
    | mark => exact absurd rfl hmark
    | outFlag => exact absurd rfl hflag
    | _ => simp [Reg.Same]

/-- The content of `IN`, the host's script and port `rst` are written by no instruction. -/
theorem not_mem_instrWrites (i : Instr) (st : Option Stage) {r : Reg} (hr : r ∈ [Reg.data, .host, .rst]) :
    r ∉ instrWrites i st := by
  have hfree : ∀ W : List Reg, (∀ q ∈ [Reg.data, .host, .rst], q ∉ W) → r ∉ W := fun W hW => hW r hr
  cases i with
  | hdrLeaf f => rw [instrWrites]; split <;> exact hfree _ (by decide)
  | bodyCode c => rw [instrWrites]; split <;> exact hfree _ (by decide)
  | literal8 v =>
    rw [instrWrites]
    split
    · exact hfree _ (by decide)
    · split <;> exact hfree _ (by decide)
  | _ => simp only [instrWrites]; exact hfree _ (by decide)

section Writers

variable {i : Instr} {st : Option Stage}

theorem freq_writer (h : Reg.freq ∈ instrWrites i st) :
    i ∈ [Instr.count, .compress] ∨ (∃ v, i = .literal8 v) ∧ st = some .countLoop := by
  cases i <;> simp [instrWrites] at h ⊢
  case literal8 v => split_ifs at h <;> simp_all

theorem node_or_root_writer (h : Reg.node ∈ instrWrites i st ∨ Reg.root ∈ instrWrites i st) :
    i ∈ [Instr.build, .deserialize, .compress, .decompress] ∨ (∃ f, i = .hdrLeaf f) ∧ st = some .desLoop := by
  cases i <;> simp [instrWrites] at h ⊢
  case hdrLeaf f => exact h
  case literal8 v => split_ifs at h <;> simp_all

theorem nnodes_writer (h : Reg.nnodes ∈ instrWrites i st) :
    i ∈ [Instr.build, .deserialize, .compress, .decompress, .clear] ∨
      (∃ f, i = .hdrLeaf f) ∧ st = some .desLoop := by
  cases i <;> simp [instrWrites] at h ⊢
  case hdrLeaf f => exact h
  case literal8 v => split_ifs at h <;> simp_all

theorem code_writer (h : Reg.code ∈ instrWrites i st) : i ∈ [Instr.generate, .compress] := by
  cases i <;> simp [instrWrites] at h ⊢
  case literal8 v => split_ifs at h <;> simp_all

theorem cur_writer (h : Reg.cur ∈ instrWrites i st) :
    i ∈ [Instr.decode, .decompress] ∨ (∃ c, i = .bodyCode c) ∧ st = some .decLoop := by
  cases i <;> simp [instrWrites] at h ⊢
  case bodyCode c => exact h
  case literal8 v => split_ifs at h <;> simp_all

theorem inp_writer (h : Reg.inp ∈ instrWrites i st) :
    i ∈ [Instr.count, .encode, .rdmagic, .deserialize, .decode, .compress, .decompress] := by
  cases i <;> simp [instrWrites] at h ⊢
  case literal8 v => split_ifs at h <;> simp_all

theorem bits_writer (h : Reg.bits ∈ instrWrites i st) :
    i ∈ [Instr.wrmagic, .serialize, .encode, .decode, .compress, .decompress] ∨
      (∃ v, i = .literal8 v) ∧ st = some .encLoop ∨ (∃ c, i = .bodyCode c) ∧ st = some .decLoop := by
  cases i <;> simp [instrWrites] at h ⊢
  case bodyCode c => exact h
  case literal8 v => split_ifs at h <;> simp_all

end Writers

/-- Settles O56: each register's writers are read off from the table of what the instructions write. -/
theorem onlyTheNamedWritersWrite : Obligations.OnlyTheNamedWritersWrite := by
  unfold Obligations.OnlyTheNamedWritersWrite
  intro i s t h
  have hwrote := exec_wrote h
  have hwriter : ∀ r, r ≠ .out → r ≠ .mark → r ≠ .outFlag → ¬ r.Same s t → r ∈ instrWrites i s.running :=
    fun r hout hmark hflag => Function.mtr fun hr => not_not.mpr (hwrote.same hr hout hmark hflag)
  refine ⟨hwrote.same (not_mem_instrWrites i _ (by decide)) (r := .data) (by decide) (by decide) (by decide),
    hwrote.same (not_mem_instrWrites i _ (by decide)) (r := .host) (by decide) (by decide) (by decide), ?_⟩
  refine ⟨fun hne => ?_, fun hne => ?_, fun hne => ?_, fun hne => ?_, fun hne => ?_, fun hne => ?_, fun hne => ?_⟩
  · exact freq_writer (hwriter .freq (by decide) (by decide) (by decide) hne)
  · exact node_or_root_writer (hne.imp (hwriter .node (by decide) (by decide) (by decide))
      (hwriter .root (by decide) (by decide) (by decide)))
  · exact nnodes_writer (hwriter .nnodes (by decide) (by decide) (by decide) hne)
  · exact code_writer (hwriter .code (by decide) (by decide) (by decide) hne)
  · exact cur_writer (hwriter .cur (by decide) (by decide) (by decide) hne)
  · exact inp_writer (hwriter .inp (by decide) (by decide) (by decide) fun hsame => hne (congrArg Inp.pos hsame))
  · exact bits_writer (hwriter .bits (by decide) (by decide) (by decide) hne)

end Sys2Proof.Machine

namespace Sys2Proof.Machine

open Sys2Proof

/-! ### What every unit keeps, a run keeps -/

/-- A predicate kept by every unit that leaves the block `BUSY` holds along a run, and the last unit ends it. -/
theorem runBusy_invariant (p : Params) {P Q : State → Prop}
    (hbusy : ∀ {s t}, P s → unit p s = .next t → t.phase = .busy → P t)
    (hend : ∀ {s t}, P s → unit p s = .next t → t.phase ≠ .busy → Q t) {n : Nat} {s t : State} (hs : P s)
    (hrun : runBusy p n s = .next t) : Q t := by
  induction n generalizing s with
  | zero => cases hrun
  | succ n ih =>
    rw [runBusy_succ] at hrun
    cases hnext : unit p s with
    | next u =>
      rw [hnext, resume] at hrun
      split at hrun <;> rename_i hu
      · exact ih (hbusy hs hnext hu) hrun
      · cases hrun
        exact hend hs hnext hu
    | fault f => rw [hnext] at hrun; cases hrun
    | refused r => rw [hnext] at hrun; cases hrun

/-- The turns in which a running command takes a whole stream unit from `IN` (R55). -/
inductive TakesUnit (s : State) : Turn → Prop
  | magic (m : BitVec 32) : TakesUnit s (checkMagic Config.params m s)
  | hdrInternal : TakesUnit s (desInternal s)
  | hdrLeaf (f : BitVec 9) : TakesUnit s (desLeaf Config.params f s)
  | bodyCode (c : Bits) : TakesUnit s (decBits c s)
  | counted (v : BitVec 8) : TakesUnit s (countLiteral Config.params v s)
  | encoded (v : BitVec 8) : TakesUnit s (encLiteral v s)

theorem TakesUnit.control {s : State} {T : Turn} (h : TakesUnit s T) : T.Ends (SameControl s) := by
  cases h with
  | magic m => exact checkMagic_control ..
  | hdrInternal => exact SameControl.of_tables rfl
  | hdrLeaf f => exact desLeaf_control ..
  | bodyCode c => exact decBits_control ..
  | counted v => exact countLiteral_control ..
  | encoded v => exact encLiteral_control ..

/-- A stream unit writes no code, and nothing that no instruction writes. -/
theorem TakesUnit.within {s : State} {T : Turn} (h : TakesUnit s T) :
    T.Within [.freq, .node, .nnodes, .root, .treeUp, .cur, .out, .bits] s := by
  cases h with
  | magic m => exact Turn.within_mono (checkMagic_within ..) (by decide)
  | hdrInternal => exact Turn.within_mono (desInternal_within s) (by decide)
  | hdrLeaf f => exact Turn.within_mono (desLeaf_within ..) (by decide)
  | bodyCode c => exact Turn.within_mono (decBits_within ..) (by decide)
  | counted v => exact Turn.within_mono (countLiteral_within ..) (by decide)
  | encoded v => exact Turn.within_mono (encLiteral_within ..) (by decide)

/-- The ways in which an instruction can change the state. -/
inductive Executed (s : State) : State → Prop
  /-- It is not accepted, or nobody reads it. -/
  | ignored : Executed s s
  /-- A command is accepted in `IDLE` and run to its end. -/
  | ran (c : Command) (hc : c ∈ Command.all) (hidle : s.phase = .idle) (t : State)
      (hrun : runBusy Config.params (fuel s) (c.issue s) = .next t) : Executed s t
  /-- CLEAR is accepted and run. -/
  | cleared (h : s.phase ≠ .busy) : Executed s s.clearBlock
  /-- A reserved code is accepted, and its fault entered. -/
  | reserved (hidle : s.phase = .idle) (op : BitVec 4) : Executed s ((s.accept op).raise .illegalCommand)
  /-- The running command takes a stream unit. -/
  | took (hbusy : s.phase = .busy) (T : Turn) (hT : TakesUnit s T) (t : State) (hnext : T.settleWhole = .next t) :
      Executed s t

theorem State.running_some_busy {s : State} {st : Stage} (h : s.running = some st) : s.phase = .busy := by
  by_contra hne
  rw [State.running, if_neg hne] at h
  cases h

theorem Command.run_executed {c : Command} (hc : c ∈ Command.all) {s t : State}
    (h : c.run Config.params s = .next t) : Executed s t := by
  by_cases hidle : s.phase = .idle
  · rw [Command.run, if_pos hidle] at h
    exact .ran c hc hidle t h
  · rw [Command.run_not_idle _ c hidle] at h
    cases h
    exact .ignored

theorem runReserved_executed (op : BitVec 4) (s : State) : Executed s (runReserved op s) := by
  rw [runReserved]
  split
  · exact .reserved ‹_› op
  · exact .ignored

theorem exec_executed {i : Instr} {s t : State} (h : exec i s = .next t) : Executed s t := by
  cases i with
  | reserved0 | reservedE | reservedF => cases h; exact runReserved_executed ..
  | clear =>
    cases h
    rw [runClear]
    split
    · exact .ignored
    · exact .cleared ‹_›
  | magic m =>
    rw [exec, execMagic] at h
    split at h <;> rename_i hrun
    · exact .took (State.running_some_busy hrun) _ (.magic m) t h
    · cases h; exact .ignored
  | hdrInternal =>
    rw [exec, execHdrInternal] at h
    split at h <;> rename_i hrun
    · exact .took (State.running_some_busy hrun) _ .hdrInternal t h
    · cases h; exact .ignored
  | hdrLeaf f =>
    rw [exec, execHdrLeaf] at h
    split at h <;> rename_i hrun
    · exact .took (State.running_some_busy hrun) _ (.hdrLeaf f) t h
    · cases h; exact .ignored
  | bodyCode c =>
    rw [exec, execBodyCode] at h
    split at h <;> rename_i hrun
    · exact .took (State.running_some_busy hrun) _ (.bodyCode c) t h
    · cases h; exact .ignored
  | literal8 v =>
    rw [exec, execLiteral8] at h
    split at h <;> rename_i hrun
    · exact .took (State.running_some_busy hrun) _ (.counted v) t h
    · exact .took (State.running_some_busy hrun) _ (.encoded v) t h
    · cases h; exact .ignored
  | _ => exact Command.run_executed (by decide) h

/-- The ways in which an acceptance alone can change the state (R80, R90, R193). -/
inductive Issued (s : State) : State → Prop
  | ignored : Issued s s
  | accepted (c : Command) (hc : c ∈ Command.all) (hidle : s.phase = .idle) : Issued s (c.issue s)
  | clear (h : s.phase ≠ .busy) : Issued s s.acceptClear
  | reserved (hidle : s.phase = .idle) (op : BitVec 4) :
      Issued s { s.accept op with todo := [.raise .illegalCommand] }

theorem Command.issue_issued {c : Command} (hc : c ∈ Command.all) (s : State) : Issued s (c.issue s) := by
  by_cases hidle : s.phase = .idle
  · exact .accepted c hc hidle
  · have hsame : c.issue s = s := if_neg hidle
    rw [hsame]
    exact .ignored

theorem issueReserved_issued (op : BitVec 4) (s : State) : Issued s (issueReserved op s) := by
  rw [issueReserved]
  split
  · exact .reserved ‹_› op
  · exact .ignored

theorem issueInstr_issued (i : Instr) (s : State) : Issued s (issueInstr i s) := by
  cases i with
  | reserved0 | reservedE | reservedF => exact issueReserved_issued _ s
  | clear =>
    rw [issueInstr, issueClear]
    split
    · exact .ignored
    · exact .clear ‹_›
  | magic | hdrInternal | hdrLeaf | bodyCode | literal8 => exact .ignored
  | _ => exact Command.issue_issued (by decide) s

/-- What the end of a whole stream unit is as a step: a next state under the same control but for what is left to do, or
the entry of a fault. -/
theorem settleWhole_next {P : State → Prop} {W : List Reg} {T : Turn} {s t : State} (hP : T.Ends P) (hT : T.Within W s)
    (h : T.settleWhole = .next t) :
    (∃ u td, P u ∧ Keeps W s u ∧ t = { u with todo := td }) ∨ ∃ u c, P u ∧ Keeps W s u ∧ t = u.raise c := by
  cases T with
  | stop f => cases h
  | ended u => exact hT.elim
  | again u => cases h; exact .inl ⟨t, t.todo, hP, hT, rfl⟩
  | leave u => cases h; exact .inl ⟨u, _, hP, hT, rfl⟩
  | first st u => cases h; exact .inl ⟨u, _, hP, hT.1, rfl⟩
  | instead st u => cases h; exact .inl ⟨u, _, hP, hT.1, rfl⟩
  | raise c u => cases h; exact .inr ⟨u, c, hP, hT, rfl⟩

theorem Turn.within_ends {W : List Reg} {s : State} {T : Turn} (h : T.Within W s) : T.Ends (Keeps W s) := by
  cases T with
  | first st u => exact h.1
  | instead st u => exact h.1
  | ended u => trivial
  | _ => exact h

theorem Turn.ends_and {P Q : State → Prop} {T : Turn} (hP : T.Ends P) (hQ : T.Ends Q) :
    T.Ends fun u => P u ∧ Q u := by
  cases T with
  | ended u => trivial
  | stop f => trivial
  | _ => exact ⟨hP, hQ⟩

theorem Turn.ends_imp {P Q : State → Prop} {T : Turn} (h : T.Ends P) (hPQ : ∀ u, P u → Q u) : T.Ends Q := by
  cases T with
  | ended u => trivial
  | stop f => trivial
  | _ => exact hPQ _ h

/-- What a unit of work does: complete the command, run CLEAR, enter a fault, or go on in a state of which all holds that
holds wherever the turn ends. -/
theorem unit_inversion (p : Params) {P : State → Prop} {s t : State}
    (hP : ∀ st rest, s.todo = st :: rest → (turn p st s).Ends P) (h : unit p s = .next t) :
    t = s.finish ∨ t = s.clearBlock ∨ (∃ c, t = s.raise c) ∨ ∃ u td, P u ∧ t = { u with todo := td } := by
  cases htodo : s.todo with
  | nil =>
    rw [unit_nil p htodo] at h
    cases h
    exact .inl rfl
  | cons st rest =>
    have hturn := hP st rest htodo
    rw [unit_cons p htodo] at h
    cases hT : turn p st s with
    | ended u =>
      rw [hT] at h
      cases h
      obtain ⟨-, rfl⟩ | ⟨c, -, rfl⟩ := turn_ended p hT
      · exact .inr (.inl rfl)
      · exact .inr (.inr (.inl ⟨c, rfl⟩))
    | stop f => rw [hT] at h; cases h
    | _ =>
      rw [hT] at h hturn
      cases h
      exact .inr (.inr (.inr ⟨_, _, hturn, rfl⟩))

/-- No unit of work writes port `rst`. -/
theorem turn_rst (p : Params) (st : Stage) (s : State) : (turn p st s).Ends fun u => u.rst = s.rst := by
  have hfree : Reg.rst ∉ st.writes := by cases st <;> simp [Stage.writes]
  by_cases hclear : st = .clearAll
  · rw [hclear]; trivial
  by_cases hraise : ∃ c, st = .raise c
  · obtain ⟨c, rfl⟩ := hraise; trivial
  · exact Turn.ends_imp (Turn.within_ends (turn_within p hclear (fun c hc => hraise ⟨c, hc⟩) s))
      fun u hu => hu .rst hfree

/-- The ways in which one step can change the state: what the host does, or what the block does left alone. -/
inductive Stepped (s : State) : State → Prop
  /-- A code without effect, or a block that waits. -/
  | waited (rest : List HostAction) : Stepped s { s with host := rest }
  /-- A code presented and run to its end. -/
  | presented (rest : List HostAction) (hrst : s.rst = false) (i : Instr) (t : State)
      (h : exec i { s with host := rest } = .next t) : Stepped s t
  /-- A code presented, and its acceptance alone. -/
  | started (rest : List HostAction) (hrst : s.rst = false) (i : Instr) :
      Stepped s (issueInstr i { s with host := rest })
  /-- A unit of the running command's work. -/
  | worked (rest : List HostAction) (hbusy : s.phase = .busy) (t : State)
      (h : unit Config.params { s with host := rest } = .next t) : Stepped s t
  /-- A stream unit taken from `IN`. -/
  | fetched (rest : List HostAction) (hbusy : s.phase = .busy) (pos : Nat) (hpos : pos ≤ s.inp.data.length) (i : Instr)
      (t : State) (h : exec i { s with host := rest, inp := { s.inp with pos := pos } } = .next t) : Stepped s t
  | asserted (rest : List HostAction) : Stepped s ({ s with host := rest } : State).afterRst
  | released (rest : List HostAction) : Stepped s { s with host := rest, rst := false }
  | attachedIn (rest : List HostAction) (data : Bits) (pos : Nat) :
      Stepped s (({ s with host := rest } : State).attachIn data pos)
  | attachedOut (rest : List HostAction) (h : s.host = .attachOut :: rest) :
      Stepped s ({ s with host := rest } : State).attachOut
  | closedOut (rest : List HostAction) : Stepped s ({ s with host := rest } : State).closeByHost

/-- A fetch moves nothing but `IN`'s position, and that within the content (R50). -/
theorem State.fetch_some {s s' : State} {i : Instr} (h : s.fetch = some (i, s')) :
    ∃ pos, pos ≤ s.inp.data.length ∧ s' = { s with inp := { s.inp with pos := pos } } := by
  rw [State.fetch] at h
  split at h
  · cases h
  · split at h
    · cases h
      exact ⟨_, Nat.sub_le .., rfl⟩
    · cases h

theorem work_stepped {s t : State} (rest : List HostAction) (h : work { s with host := rest } = .next t) :
    Stepped s t := by
  by_cases hbusy : s.phase = .busy
  · rw [work, if_pos hbusy] at h
    split at h <;> rename_i hfetch
    · obtain ⟨pos, hpos, rfl⟩ := State.fetch_some hfetch
      exact .fetched rest hbusy pos hpos _ t h
    · exact .worked rest hbusy t h
  · rw [work, if_neg hbusy] at h
    cases h
    exact .waited rest

theorem tick_stepped {s t : State} (rest : List HostAction) (h : tick { s with host := rest } = .next t) :
    Stepped s t := by
  by_cases hbusy : s.phase = .busy
  · rw [tick, if_pos hbusy] at h
    exact .worked rest hbusy t h
  · rw [tick, if_neg hbusy] at h
    cases h
    exact .waited rest

/-- The port is shut while `rst` is held (R230). -/
theorem port_next {s t : State} {o : Host.Outcome State Fault Refusal} (h : port s o = .next t) :
    t = s ∨ s.rst = false ∧ o = .next t := by
  rw [port] at h
  split at h <;> rename_i hrst
  · cases h
    exact .inl rfl
  · exact .inr ⟨eq_false_of_ne_true hrst, h⟩

theorem step_stepped {s t : State} (h : step s = .next t) : Stepped s t := by
  rw [step] at h
  split at h <;> rename_i hhost
  · exact work_stepped s.host h
  · obtain rfl | ⟨hrst, hexec⟩ := port_next h
    · exact .waited _
    · exact Stepped.presented (s := s) _ hrst _ t hexec
  · obtain rfl | ⟨hrst, hissue⟩ := port_next h
    · exact .waited _
    · cases hissue
      exact Stepped.started (s := s) _ hrst _
  · exact work_stepped _ h
  · exact tick_stepped _ h
  · rename_i on _
    cases h
    cases on
    · exact .released _
    · exact .asserted _
  · cases h; exact .attachedIn ..
  · cases h; exact .attachedOut _ hhost
  · cases h; exact .closedOut _

end Sys2Proof.Machine

namespace Sys2Proof.Machine

open Sys2Proof

/-! ### What is written stays written (R56, R216) -/

theorem unit_bits (p : Params) {s t : State} (h : unit p s = .next t) : s.out.bits <+: t.out.bits := by
  obtain rfl | rfl | ⟨c, rfl⟩ | ⟨u, td, hu, rfl⟩ :=
    unit_inversion p (P := SameControl s) (fun st _ _ => turn_control p st s) h
  · exact List.prefix_refl _
  · exact List.prefix_refl _
  · rw [State.raise_out_bits]
  · exact hu.out

theorem exec_bits {i : Instr} {s t : State} (h : exec i s = .next t) : s.out.bits <+: t.out.bits := by
  cases exec_executed h with
  | ignored => exact List.prefix_refl _
  | ran c hc hidle t hrun =>
    refine runBusy_invariant Config.params (P := fun u => s.out.bits <+: u.out.bits) (Q := fun u => s.out.bits <+: u.out.bits)
      (fun hs hu _ => hs.trans (unit_bits _ hu)) (fun hs hu _ => hs.trans (unit_bits _ hu)) ?_ hrun
    rw [c.issue_out hidle]
  | cleared h => exact List.prefix_refl _
  | reserved hidle op => rw [State.raise_out_bits, State.accept_out]
  | took hbusy T hT t hnext =>
    obtain ⟨u, td, hu, -, rfl⟩ | ⟨u, c, hu, -, rfl⟩ := settleWhole_next hT.control hT.within hnext
    · exact hu.out
    · rw [State.raise_out_bits]
      exact hu.out

theorem issueInstr_out (i : Instr) (s : State) : (issueInstr i s).out = s.out := by
  have hissued := issueInstr_issued i s
  generalize issueInstr i s = t at hissued ⊢
  cases hissued with
  | accepted c hc hidle => exact c.issue_out hidle
  | _ => rfl

/-- Settles O54: no unit of work and no instruction takes bits away, and of the host's actions only a fresh `OUT` does. -/
theorem outputOnlyGrows : Obligations.OutputOnlyGrows := by
  unfold Obligations.OutputOnlyGrows
  intro s t hhost h
  cases step_stepped h with
  | presented rest hrst i t h => exact (exec_bits h :)
  | started rest hrst i => rw [issueInstr_out]
  | worked rest hbusy t h => exact (unit_bits _ h :)
  | fetched rest hbusy pos hpos i t h => exact (exec_bits h :)
  | attachedOut rest hout => exact absurd (congrArg List.head? hout) hhost
  | _ => exact List.prefix_refl _

/-! ### Codes within `MAXLEN` (R28) -/

theorem codesFit_cleared (s : State) : ({ s with code := Vector.replicate 257 [] } : State).CodesFit := fun v => by
  rw [Fin.getElem_fin, Vector.getElem_replicate]
  exact Nat.zero_le _

theorem State.CodesFit.setCode {s : State} (h : s.CodesFit) (v : Sym) {c : Bits} (hc : c.length ≤ 256) :
    (s.setCode v c).CodesFit := fun w => by
  rw [State.code_setCode]
  split
  · exact hc
  · exact h w

theorem State.CodesFit.of_code {s t : State} (h : s.CodesFit) (hcode : t.code = s.code) : t.CodesFit := fun v => by
  rw [hcode]
  exact h v

theorem genStart_codesFit (s : State) : (genStart s).Ends State.CodesFit := by
  rw [genStart]
  split <;> exact codesFit_cleared s

theorem genWalk_codesFit {s : State} (h : s.CodesFit) : (genWalk s).Ends State.CodesFit := by
  rw [genWalk]
  split
  · exact h
  · split
    · split <;> rename_i hlen
      · exact State.CodesFit.setCode (s := { s with walk := _ }) h _ hlen
      · trivial
    · exact h

/-- GENERATE's two parts are the only ones that write a code. -/
theorem turn_codesFit (p : Params) (st : Stage) {s : State} (h : s.CodesFit) : (turn p st s).Ends State.CodesFit := by
  by_cases hcode : Reg.code ∈ st.writes
  · cases st with
    | genStart => exact genStart_codesFit s
    | genWalk => exact genWalk_codesFit h
    | _ => simp [Stage.writes] at hcode
  · by_cases hclear : st = .clearAll
    · rw [hclear]; trivial
    by_cases hraise : ∃ c, st = .raise c
    · obtain ⟨c, rfl⟩ := hraise; trivial
    · exact Turn.ends_imp (Turn.within_ends (turn_within p hclear (fun c hc => hraise ⟨c, hc⟩) s))
        fun u hu => h.of_code (hu .code hcode)

theorem unit_codesFit (p : Params) {s t : State} (hs : s.CodesFit) (h : unit p s = .next t) : t.CodesFit := by
  obtain rfl | rfl | ⟨c, rfl⟩ | ⟨u, td, hu, rfl⟩ :=
    unit_inversion p (P := State.CodesFit) (fun st _ _ => turn_codesFit p st hs) h
  · exact hs
  · exact hs
  · exact hs.of_code (State.raise_code s c)
  · exact hu

theorem exec_codesFit {i : Instr} {s t : State} (hs : s.CodesFit) (h : exec i s = .next t) : t.CodesFit := by
  cases exec_executed h with
  | ignored => exact hs
  | ran c hc hidle t hrun =>
    exact runBusy_invariant Config.params (P := State.CodesFit) (Q := State.CodesFit)
      (fun hs hu _ => unit_codesFit _ hs hu) (fun hs hu _ => unit_codesFit _ hs hu)
      (hs.of_code (c.issue_code hidle)) hrun
  | cleared h => exact hs
  | reserved hidle op => exact hs.of_code (State.raise_code _ _)
  | took hbusy T hT t hnext =>
    have hcode : Reg.code ∉ [Reg.freq, .node, .nnodes, .root, .treeUp, .cur, .out, .bits] := by decide
    obtain ⟨u, td, -, hu, rfl⟩ | ⟨u, c, -, hu, rfl⟩ := settleWhole_next hT.control hT.within hnext
    · exact hs.of_code (hu .code hcode)
    · exact hs.of_code ((State.raise_code u c).trans (hu .code hcode))

theorem issueInstr_code (i : Instr) (s : State) : (issueInstr i s).code = s.code := by
  have hissued := issueInstr_issued i s
  generalize issueInstr i s = t at hissued ⊢
  cases hissued with
  | accepted c hc hidle => exact c.issue_code hidle
  | _ => rfl

/-- Settles O51: GENERATE's bound on the path keeps every code short, and after reset there is none. -/
theorem everyStepKeepsCodesShort : Obligations.EveryStepKeepsCodesShort := by
  unfold Obligations.EveryStepKeepsCodesShort
  intro s t hs h
  cases step_stepped h with
  | presented rest hrst i t h => exact exec_codesFit (s := { s with host := rest }) hs h
  | started rest hrst i => exact hs.of_code (issueInstr_code i _)
  | worked rest hbusy t h => exact unit_codesFit _ (s := { s with host := rest }) hs h
  | fetched rest hbusy pos hpos i t h =>
    exact exec_codesFit (s := { s with host := rest, inp := { s.inp with pos := pos } }) hs h
  | asserted rest => exact codesFit_cleared s
  | _ => exact hs

/-! ### `STATUS`, `ERR` and `PHASE` agree (R21, R23, R236) -/

section Orderly

variable {s : State}

/-- What is asked of a state at the end of a command but for its flags and its phase. -/
theorem State.Orderly.raise (hreserved : s.status.getLsbD 7 = false) (hpos : s.inp.pos ≤ s.inp.data.length)
    (hrst : s.rst = false) (c : Cause) : (s.raise c).Orderly where
  busy := by simp
  fault := by simp
  done := by simp
  reserved := (State.reserved_raise s c).trans hreserved
  err := by
    rw [State.raise_err, State.raise_phase]
    exact iff_of_true (by cases c <;> decide) rfl
  idle _ := ⟨State.raise_pq s c, State.raise_walk s c, State.raise_pending s c, State.raise_todo s c⟩
  pos := by rw [State.raise_inp]; exact hpos
  held h := by
    rw [State.raise_rst, hrst] at h
    cases h

theorem State.Orderly.finish (hfault : s.flag .fault = false) (herr : s.err = 0)
    (hreserved : s.status.getLsbD 7 = false) (hpos : s.inp.pos ≤ s.inp.data.length) (hrst : s.rst = false) :
    s.finish.Orderly where
  busy := by simp
  fault := by simp [hfault]
  done _ := rfl
  reserved := (State.reserved_finish s).trans hreserved
  err := by simp [herr]
  idle _ := ⟨rfl, rfl, rfl, rfl⟩
  pos := hpos
  held h := absurd (hrst.symm.trans h) (by decide)

theorem State.Orderly.clearBlock (hpos : s.inp.pos ≤ s.inp.data.length) (hrst : s.rst = false) :
    s.clearBlock.Orderly where
  busy := by simp
  fault := by simp
  done _ := rfl
  reserved := by
    have hstatus : s.clearBlock.status = 0x02 := congrArg State.status s.clearBlock_frame
    rw [hstatus]
    decide
  err := by simp
  idle _ := ⟨rfl, rfl, rfl, rfl⟩
  pos := hpos
  held h := absurd (hrst.symm.trans h) (by decide)

/-- In a run the flags are `BUSY` alone, `ERR` is 0 and `rst` is released. -/
theorem State.Orderly.running (hphase : s.phase = .busy) (hbusy : s.flag .busy = true) (hfault : s.flag .fault = false)
    (hdone : s.flag .done = false) (hreserved : s.status.getLsbD 7 = false) (herr : s.err = 0)
    (hpos : s.inp.pos ≤ s.inp.data.length) (hrst : s.rst = false) : s.Orderly where
  busy := by rw [hbusy, hphase]; rfl
  fault := by rw [hfault, hphase]; rfl
  done h := absurd (hdone.symm.trans h) (by decide)
  reserved := hreserved
  err := by simp [herr, hphase]
  idle h := absurd hphase h
  pos := hpos
  held h := absurd (hrst.symm.trans h) (by decide)

theorem State.Orderly.rst_released (h : s.Orderly) (hb : s.phase = .busy) : s.rst = false := by
  refine eq_false_of_ne_true fun hrst => ?_
  obtain ⟨hidle, -⟩ := h.held hrst
  rw [hb] at hidle
  cases hidle

theorem State.Orderly.err_eq_zero (h : s.Orderly) (hphase : s.phase ≠ .fault) : s.err = 0 := by
  by_contra herr
  exact hphase (h.err.mp herr)

theorem State.Orderly.flag_fault (h : s.Orderly) (hphase : s.phase ≠ .fault) : s.flag .fault = false := by
  rw [h.fault]
  exact decide_eq_false hphase

theorem State.Orderly.not_done (h : s.Orderly) (hphase : s.phase ≠ .idle) : s.flag .done = false :=
  eq_false_of_ne_true fun hd => hphase (h.done hd)

/-- A run goes on in order after a unit that keeps the control state. -/
theorem State.Orderly.of_control {u : State} (h : s.Orderly) (hb : s.phase = .busy) (hu : SameControl s u)
    (hrst : u.rst = s.rst) (td : List Stage) : ({ u with todo := td } : State).Orderly := by
  have hfault : s.phase ≠ .fault := by rw [hb]; decide
  have hidle : s.phase ≠ .idle := by rw [hb]; decide
  refine State.Orderly.running (s := { u with todo := td }) (hu.phase.trans hb) (hu.busy.trans ?_)
    (hu.fault.trans (h.flag_fault hfault)) (hu.done.trans (h.not_done hidle)) (hu.reserved.trans h.reserved)
    (hu.err.trans (h.err_eq_zero hfault)) (hu.pos h.pos) (hrst.trans (h.rst_released hb))
  rw [h.busy, hb]
  rfl

/-- Acceptance of a command in an idle block in order, `rst` being released. -/
theorem State.Orderly.issue (h : s.Orderly) (hidle : s.phase = .idle) (hrst : s.rst = false) {c : Command}
    (hc : c ∈ Command.all) : (c.issue s).Orderly := by
  have hfault : s.phase ≠ .fault := by rw [hidle]; decide
  have hframe := c.issue_frame hidle
  refine State.Orderly.running (c.issue_busy hidle) ?_ ?_ ?_ ?_ ?_ ?_ ?_
  · rw [c.flag_issue hidle, if_neg (Command.busy_not_cleared c hc), State.flag_accept]
    rfl
  · rw [c.flag_issue hidle, State.flag_accept]
    simp [h.flag_fault hfault]
  · rw [c.flag_issue hidle, State.flag_accept]
    simp
  · rw [c.reserved_issue hidle, h.reserved]
  · rw [hframe]; exact h.err_eq_zero hfault
  · rw [hframe]; exact h.pos
  · rw [hframe]; exact hrst

theorem State.reserved_accept (s : State) (op : BitVec 4) : (s.accept op).status.getLsbD 7 = s.status.getLsbD 7 :=
  (State.reserved_setFlag _ .done false).trans (State.reserved_setFlag s .busy true)

end Orderly

theorem unit_orderly (p : Params) {s t : State} (hs : s.Orderly) (hb : s.phase = .busy) (h : unit p s = .next t) :
    t.Orderly := by
  have hfault : s.phase ≠ .fault := by rw [hb]; decide
  have hrst := hs.rst_released hb
  obtain rfl | rfl | ⟨c, rfl⟩ | ⟨u, td, ⟨hu, hurst⟩, rfl⟩ :=
    unit_inversion p (P := fun u => SameControl s u ∧ u.rst = s.rst)
      (fun st _ _ => Turn.ends_and (turn_control p st s) (turn_rst p st s)) h
  · exact .finish (hs.flag_fault hfault) (hs.err_eq_zero hfault) hs.reserved hs.pos hrst
  · exact .clearBlock hs.pos hrst
  · exact .raise hs.reserved hs.pos hrst c
  · exact hs.of_control hb hu hurst td

theorem exec_orderly {i : Instr} {s t : State} (hs : s.Orderly) (hrst : s.rst = false) (h : exec i s = .next t) :
    t.Orderly := by
  cases exec_executed h with
  | ignored => exact hs
  | ran c hc hidle t hrun =>
    exact runBusy_invariant Config.params (P := fun u => u.Orderly ∧ u.phase = .busy) (Q := State.Orderly)
      (fun hu hnext hb => ⟨unit_orderly _ hu.1 hu.2 hnext, hb⟩) (fun hu hnext _ => unit_orderly _ hu.1 hu.2 hnext)
      ⟨hs.issue hidle hrst hc, c.issue_busy hidle⟩ hrun
  | cleared h => exact .clearBlock hs.pos hrst
  | reserved hidle op => exact .raise ((State.reserved_accept s op).trans hs.reserved) hs.pos hrst _
  | took hb T hT t hnext =>
    obtain ⟨u, td, hu, hkeeps, rfl⟩ | ⟨u, c, hu, hkeeps, rfl⟩ := settleWhole_next hT.control hT.within hnext
    · exact hs.of_control hb hu (hkeeps .rst (by decide)) td
    · exact .raise (hu.reserved.trans hs.reserved) (hu.pos hs.pos) (Eq.trans (hkeeps .rst (by decide)) hrst) c

theorem issueInstr_orderly {s : State} (hs : s.Orderly) (hrst : s.rst = false) (i : Instr) :
    (issueInstr i s).Orderly := by
  have hissued := issueInstr_issued i s
  generalize issueInstr i s = t at hissued ⊢
  cases hissued with
  | ignored => exact hs
  | accepted c hc hidle => exact hs.issue hidle hrst hc
  | clear h =>
    have hflag := ((flagsMove_iff ..).mp (acceptClear_flagsMove s)).1
    refine .running rfl (hflag .busy) (hflag .fault) (hflag .done) ?_ rfl hs.pos hrst
    exact ((flagsMove_iff ..).mp (acceptClear_flagsMove s)).2.trans hs.reserved
  | reserved hidle op =>
    have hfault : s.phase ≠ .fault := by rw [hidle]; decide
    have hflag : ∀ f, ({ s.accept op with todo := [.raise .illegalCommand] } : State).flag f = (s.accept op).flag f :=
      fun _ => rfl
    refine .running rfl ?_ ?_ ?_ ((State.reserved_accept s op).trans hs.reserved) (hs.err_eq_zero hfault) hs.pos hrst
    · rw [hflag, State.flag_accept]; rfl
    · rw [hflag, State.flag_accept]; exact hs.flag_fault hfault
    · rw [hflag, State.flag_accept]; rfl

/-- Settles O46: each thing that a step can do leaves the block in order. -/
theorem everyStepKeepsOrder : Obligations.EveryStepKeepsOrder := by
  unfold Obligations.EveryStepKeepsOrder
  intro s t hs h
  have hhost : ∀ rest, ({ s with host := rest } : State).Orderly := fun rest =>
    ⟨hs.busy, hs.fault, hs.done, hs.reserved, hs.err, hs.idle, hs.pos, hs.held⟩
  cases step_stepped h with
  | waited rest => exact hhost rest
  | presented rest hrst i t h => exact exec_orderly (hhost rest) hrst h
  | started rest hrst i => exact issueInstr_orderly (hhost rest) hrst i
  | worked rest hb t h => exact unit_orderly _ (hhost rest) hb h
  | fetched rest hb pos hpos i t h =>
    refine exec_orderly (s := { s with host := rest, inp := { s.inp with pos := pos } }) ?_ (hs.rst_released hb) h
    exact ⟨hs.busy, hs.fault, hs.done, hs.reserved, hs.err, hs.idle, hpos, hs.held⟩
  | asserted rest =>
    have hreset := resetIsOrderly
    unfold Obligations.ResetIsOrderly at hreset
    exact ⟨hreset.busy, hreset.fault, hreset.done, hreset.reserved, hreset.err, hreset.idle, hs.pos,
      fun _ => ⟨rfl, rfl, rfl, rfl, rfl⟩⟩
  | released rest =>
    exact ⟨hs.busy, hs.fault, hs.done, hs.reserved, hs.err, hs.idle, hs.pos, nofun⟩
  | attachedIn rest data pos =>
    exact ⟨hs.busy, hs.fault, hs.done, hs.reserved, hs.err, hs.idle, Nat.min_le_right .., hs.held⟩
  | attachedOut rest h => exact ⟨hs.busy, hs.fault, hs.done, hs.reserved, hs.err, hs.idle, hs.pos, hs.held⟩
  | closedOut rest => exact ⟨hs.busy, hs.fault, hs.done, hs.reserved, hs.err, hs.idle, hs.pos, hs.held⟩

end Sys2Proof.Machine

namespace Sys2Proof.Machine

open Sys2Proof

/-! ### One transport call a unit (R11, R51 to R55, R64) -/

/-- From `s` to `u` one `readBits(n)` lies. -/
def State.Reads (s : State) (n : Nat) (u : State) : Prop := u.inp = (s.readBits n).2.inp ∧ u.out = s.out

/-- From `s` to `u` one `writeBits(n, v)` lies. -/
def State.Appends (s : State) (n v : Nat) (u : State) : Prop := u.out = (s.writeBits n v).out ∧ u.inp = s.inp

theorem State.OneCall.of_same {s u : State} (hinp : u.inp = s.inp) (hout : u.out = s.out) : s.OneCall u :=
  .inl ⟨hinp, hout⟩

theorem State.Reads.oneCall {s u : State} {n : Nat} (hn : n ∈ [1, 8, 9, 32]) (h : s.Reads n u) : s.OneCall u :=
  .inr (.inl ⟨⟨n, hn, h.1⟩, h.2⟩)

theorem State.Appends.oneCall {s u : State} {n v : Nat} (hn : n ∈ [1, 8, 9, 32]) (h : s.Appends n v u) : s.OneCall u :=
  .inr (.inr (.inr (.inl ⟨⟨n, hn, v, h.1⟩, h.2⟩)))

/-- A unit that writes neither transport makes no call. -/
theorem Turn.Within.oneCall {W : List Reg} {s : State} {T : Turn} (h : T.Within W s) (hinp : Reg.inp ∉ W)
    (hout : Reg.out ∉ W) : T.Ends s.OneCall :=
  Turn.ends_imp (Turn.within_ends h) fun _ hu => .of_same (hu .inp hinp) (hu .out hout)

/-- What follows a read makes no call of its own. -/
theorem Turn.Within.reads {W : List Reg} {s t : State} {T : Turn} {n : Nat} {o : Option (BitVec n)}
    (hread : s.readBits n = (o, t)) (h : T.Within W t) (hinp : Reg.inp ∉ W) (hout : Reg.out ∉ W) :
    T.Ends (s.Reads n) := by
  have ht : s.Reads n t := by
    rw [State.Reads, hread]
    refine ⟨rfl, ?_⟩
    have hkeeps := Keeps.readBits s n .out (by decide)
    rwa [hread] at hkeeps
  exact Turn.ends_imp (Turn.within_ends h) fun u hu =>
    ⟨Eq.trans (hu .inp hinp) ht.1, Eq.trans (hu .out hout) ht.2⟩

theorem countLoop_reads (p : Params) (s : State) : (countLoop p s).Ends (s.Reads 8) := by
  rw [countLoop]
  split <;> rename_i heq
  · exact Turn.Within.reads (T := .leave _) heq (Keeps.refl [] _) (by decide) (by decide)
  · exact Turn.Within.reads heq (countLiteral_within ..) (by decide) (by decide)

theorem encLoop_reads (s : State) : (encLoop s).Ends (s.Reads 8) := by
  rw [encLoop]
  split <;> rename_i heq
  · exact Turn.Within.reads (T := .leave _) heq (Keeps.refl [] _) (by decide) (by decide)
  · have hread := Turn.Within.reads (T := .leave _) heq (Keeps.refl [] _) (by decide) (by decide)
    rw [withCode]
    split <;> exact hread

theorem rdMagic_reads (p : Params) (s : State) : (rdMagic p s).Ends (s.Reads 32) := by
  rw [rdMagic]
  split <;> rename_i heq
  · exact Turn.Within.reads (T := .leave _) heq (Keeps.refl [] _) (by decide) (by decide)
  · exact Turn.Within.reads heq (checkMagic_within ..) (by decide) (by decide)

theorem desLoop_reads (s : State) : (desLoop s).Ends (s.Reads 1) := by
  rw [desLoop]
  split <;> rename_i heq
  · exact Turn.Within.reads (T := .leave _) heq (Keeps.refl [] _) (by decide) (by decide)
  · split
    · exact Turn.Within.reads (T := .leave _) heq (Keeps.refl [] _) (by decide) (by decide)
    · exact Turn.Within.reads heq (desInternal_within _) (by decide) (by decide)

theorem desField_reads (p : Params) (s : State) : (desField p s).Ends (s.Reads 9) := by
  rw [desField]
  split <;> rename_i heq
  · exact Turn.Within.reads (T := .leave _) heq (Keeps.refl [] _) (by decide) (by decide)
  · exact Turn.backTo_ends _ (Turn.Within.reads heq (desLeaf_within ..) (by decide) (by decide))

theorem decLoop_reads (s : State) : (decLoop s).Ends (s.Reads 1) := by
  rw [decLoop]
  split <;> rename_i heq
  · exact Turn.Within.reads (T := .leave _) heq (Keeps.refl [] _) (by decide) (by decide)
  · have hread := Turn.Within.reads (T := .leave _) heq (Keeps.refl [] _) (by decide) (by decide)
    rw [decMove]
    split
    · exact hread
    · dsimp only
      split
      · exact hread
      · split <;> exact hread

theorem serWalk_oneCall (s : State) : (serWalk s).Ends s.OneCall := by
  rw [serWalk]
  split
  · exact .of_same rfl rfl
  · split <;> exact State.Appends.oneCall (n := 1) (by decide) ⟨rfl, rfl⟩

theorem encEmit_oneCall (c : Bits) (s : State) : (encEmit c s).Ends s.OneCall := by
  cases c with
  | nil => exact .of_same rfl rfl
  | cons b bs =>
    refine State.Appends.oneCall (n := 1) (v := b.toNat) (by decide) ⟨?_, rfl⟩
    cases b <;> rfl

theorem encSentinel_oneCall (s : State) : (encSentinel s).Ends s.OneCall := by
  rw [encSentinel, withCode]
  split <;> exact .of_same rfl rfl

theorem turn_oneCall (p : Params) (st : Stage) (s : State) : (turn p st s).Ends s.OneCall := by
  cases st with
  | countLoop => exact Turn.ends_imp (countLoop_reads p s) fun _ => State.Reads.oneCall (by decide)
  | encLoop => exact Turn.ends_imp (encLoop_reads s) fun _ => State.Reads.oneCall (by decide)
  | rdMagic => exact Turn.ends_imp (rdMagic_reads p s) fun _ => State.Reads.oneCall (by decide)
  | desLoop => exact Turn.ends_imp (desLoop_reads s) fun _ => State.Reads.oneCall (by decide)
  | desField => exact Turn.ends_imp (desField_reads p s) fun _ => State.Reads.oneCall (by decide)
  | decLoop => exact Turn.ends_imp (decLoop_reads s) fun _ => State.Reads.oneCall (by decide)
  | wrMagic => exact State.Appends.oneCall (n := 32) (by decide) ⟨rfl, rfl⟩
  | serWalk => exact serWalk_oneCall s
  | serField v => exact State.Appends.oneCall (n := 9) (by decide) ⟨rfl, rfl⟩
  | encSentinel => exact encSentinel_oneCall s
  | encEmit c => exact encEmit_oneCall c s
  | decEmit v => exact State.Appends.oneCall (n := 8) (by decide) ⟨rfl, rfl⟩
  | encRewind => exact .inr (.inr (.inl ⟨rfl, rfl⟩))
  | closeOut => exact .inr (.inr (.inr (.inr ⟨rfl, rfl⟩)))
  | clearAll => trivial
  | raise c => trivial
  | _ => exact Turn.Within.oneCall (turn_within p (by decide) (by simp) s) (by decide) (by decide)

theorem raise_oneCall (s : State) (c : Cause) : s.OneCall (s.raise c) := by
  cases hclosed : s.flag .outClosed with
  | true => exact .of_same (State.raise_inp s c) (by rw [State.raise_out, hclosed]; rfl)
  | false => exact .inr (.inr (.inr (.inr ⟨by rw [State.raise_out, hclosed]; rfl, State.raise_inp s c⟩)))

theorem unit_oneCall (p : Params) {s t : State} (h : unit p s = .next t) : s.OneCall t := by
  obtain rfl | rfl | ⟨c, rfl⟩ | ⟨u, td, hu, rfl⟩ :=
    unit_inversion p (P := s.OneCall) (fun st _ _ => turn_oneCall p st s) h
  · exact .of_same rfl rfl
  · exact .of_same rfl rfl
  · exact raise_oneCall s c
  · exact hu

/-- A read depends on `IN` alone. -/
theorem State.readBits_inp_congr {s u : State} (h : u.inp = s.inp) (n : Nat) :
    (u.readBits n).2.inp = (s.readBits n).2.inp := by
  rw [State.readBits, State.readBits, h]
  split <;> rfl

/-- Which call lies between two states depends on the transports alone. -/
theorem State.OneCall.congr {s u t : State} (h : u.OneCall t) (hinp : u.inp = s.inp) (hout : u.out = s.out) :
    s.OneCall t := by
  obtain ⟨hi, ho⟩ | ⟨⟨n, hn, hi⟩, ho⟩ | ⟨hi, ho⟩ | ⟨⟨n, hn, v, ho⟩, hi⟩ | ⟨ho, hi⟩ := h
  · exact .of_same (hi.trans hinp) (ho.trans hout)
  · exact State.Reads.oneCall hn ⟨hi.trans (State.readBits_inp_congr hinp n), ho.trans hout⟩
  · exact .inr (.inr (.inl ⟨by rw [hi, State.rewind_inp, State.rewind_inp, hinp], ho.trans hout⟩))
  · refine State.Appends.oneCall (n := n) (v := v) hn ⟨?_, hi.trans hinp⟩
    rw [ho, State.writeBits_out, State.writeBits_out, hout]
  · refine .inr (.inr (.inr (.inr ⟨?_, hi.trans hinp⟩)))
    rw [ho, State.closeOutput_out, State.closeOutput_out, hout]

/-- Settles O2: `rst` is one of the host's actions, the port is shut while it is held, and a unit makes one call. -/
theorem rstGivesResetState : Obligations.RstGivesResetState := by
  unfold Obligations.RstGivesResetState
  refine ⟨fun s rest hhost => ?_, fun s rest op hrst hhost => ?_, fun s rest hhost => step_release_rst hhost,
    fun s t rest hhost hstep => ?_, fun s hphase hhost => ?_⟩
  · exact ⟨_, step_assert_rst hhost, rfl, rfl, rfl, rfl, rfl, rfl, rfl, rfl, rfl, rfl, rfl, rfl, rfl⟩
  · have hshut : ∀ o, port { s with host := rest } o = .next { s with host := rest } := fun o => if_pos hrst
    obtain hhost | hhost := hhost
    · rw [step_present hhost, hshut]
    · rw [step_start hhost, hshut]
  · rw [step_tick hhost] at hstep
    by_cases hbusy : s.phase = .busy
    · rw [tick_busy (s := { s with host := rest }) hbusy] at hstep
      exact (unit_oneCall _ hstep).congr rfl rfl
    · rw [tick_not_busy (s := { s with host := rest }) hbusy] at hstep
      cases hstep
      exact .of_same rfl rfl
  · rw [step_idle_host hhost, work_not_busy hphase]

/-! ### `OUT` after it has been closed (R52, R54, R239) -/

/-- What writes neither `OUT` nor its mirror leaves a closed `OUT` alone; a fault's entry finds it closed (R215). -/
theorem Wrote.out_closed {W : List Reg} {s t : State} (h : Wrote W s t) (hout : Reg.out ∉ W) (hflag : Reg.outFlag ∉ W)
    (hclosed : s.flag .outClosed = true) : t.out = s.out := by
  obtain h | ⟨u, c, h, rfl⟩ := h
  · exact h .out hout
  · have hu : u.flag .outClosed = true := Eq.trans (h .outFlag hflag) hclosed
    rw [State.raise_out, hu]
    exact h .out hout

/-- A command that needs `OUT` open does nothing to a closed one but fault (R210). -/
theorem Command.run_closed (p : Params) {c : Command} (hc : c ∈ Command.all) {s t : State}
    (hneeds : (Flag.outClosed, false) ∈ c.needs) (hclosed : s.flag .outClosed = true) (h : c.run p s = .next t) :
    Wrote [] s t := by
  by_cases hidle : s.phase = .idle
  · have hm : s.meets c.needs = false := by
      refine eq_false_of_ne_true fun hm => ?_
      have := List.all_eq_true.mp hm _ hneeds
      simp [hclosed] at this
    rw [Command.run_of_not_meets p hc hidle hm] at h
    cases h
    exact .inr ⟨_, _, Keeps.issue hc hidle, rfl⟩
  · rw [Command.run_not_idle p c hidle] at h
    cases h
    exact .inl (.refl _ s)

/-- No stream unit is read outside a run. -/
theorem State.running_none {s : State} (h : s.phase ≠ .busy) : s.running = none := if_neg h

theorem exec_out_closed {i : Instr} {s t : State} (hbusy : s.phase ≠ .busy) (hclosed : s.flag .outClosed = true)
    (hcompress : i ≠ .compress) (hdecompress : i ≠ .decompress) (h : exec i s = .next t) : t.out = s.out := by
  have hwrote := exec_wrote h
  rw [State.running_none hbusy] at hwrote
  have hshut : ∀ {c : Command}, c ∈ Command.all → (Flag.outClosed, false) ∈ c.needs →
      c.run Config.params s = .next t → t.out = s.out := fun hc hneeds hrun =>
    (Command.run_closed _ hc hneeds hclosed hrun).out_closed (by decide) (by decide) hclosed
  cases i with
  | compress => exact absurd rfl hcompress
  | decompress => exact absurd rfl hdecompress
  | clear =>
    rw [exec_clear hbusy] at h
    cases h
    rfl
  | wrmagic => exact hshut (c := .wrmagic) (by decide) (by decide) h
  | serialize => exact hshut (c := .serialize) (by decide) (by decide) h
  | encode => exact hshut (c := .encode) (by decide) (by decide) h
  | close => exact hshut (c := .close) (by decide) (by decide) h
  | decode => exact hshut (c := .decode) (by decide) (by decide) h
  | _ => exact hwrote.out_closed (by simp [instrWrites]) (by simp [instrWrites]) hclosed

/-- The mirror `OUT_CLOSED` is 1 only of an `OUT` that is closed. -/
def State.Mirrors (s : State) : Prop := s.flag .outClosed = true → s.out.closed = true

theorem State.Mirrors.of_same {s t : State} (h : s.Mirrors) (hflag : t.flag .outClosed = s.flag .outClosed)
    (hmark : t.out.closed = s.out.closed) : t.Mirrors := fun ht => hmark.trans (h (hflag.symm.trans ht))

theorem turn_mirrors (p : Params) (st : Stage) {s : State} (h : s.Mirrors) : (turn p st s).Ends State.Mirrors := by
  by_cases hwrites : Reg.outFlag ∈ st.writes ∨ Reg.mark ∈ st.writes
  · cases st with
    | closeOut => exact fun _ => rfl
    | implicitClear =>
      have hflag : s.implicitClear.flag .outClosed = false := State.flag_implicitClear s .outClosed
      exact fun ht => absurd (hflag.symm.trans ht) (by decide)
    | clearAll => trivial
    | _ => simp [Stage.writes] at hwrites
  · rw [not_or] at hwrites
    by_cases hclear : st = .clearAll
    · rw [hclear]; trivial
    by_cases hraise : ∃ c, st = .raise c
    · obtain ⟨c, rfl⟩ := hraise; trivial
    · exact Turn.ends_imp (Turn.within_ends (turn_within p hclear (fun c hc => hraise ⟨c, hc⟩) s))
        fun u hu => h.of_same (hu .outFlag hwrites.1) (hu .mark hwrites.2)

/-- A fault's entry leaves `OUT` closed and its mirror set (R215). -/
theorem raise_closed {s : State} (h : s.Mirrors) (c : Cause) :
    (s.raise c).out.closed = true ∧ (s.raise c).flag .outClosed = true := by
  refine ⟨?_, by simp⟩
  rw [State.raise_out]
  split <;> rename_i hclosed
  · exact h hclosed
  · rfl

/-- How a run may end as to `OUT`: outside `FAULT`, or with `OUT` closed. -/
def State.FaultsClosed (t : State) : Prop := t.phase = .fault → t.out.closed = true ∧ t.flag .outClosed = true

theorem unit_mirrors (p : Params) {s t : State} (hs : s.Mirrors) (hbusy : s.phase = .busy)
    (h : unit p s = .next t) : (t.phase = .busy → t.Mirrors) ∧ t.FaultsClosed := by
  obtain rfl | rfl | ⟨c, rfl⟩ | ⟨u, td, ⟨hu, hcontrol⟩, rfl⟩ :=
    unit_inversion p (P := fun u => u.Mirrors ∧ SameControl s u)
      (fun st _ _ => Turn.ends_and (turn_mirrors p st hs) (turn_control p st s)) h
  · exact ⟨nofun, nofun⟩
  · exact ⟨nofun, nofun⟩
  · exact ⟨fun _ _ => (raise_closed hs c).1, fun _ => raise_closed hs c⟩
  · refine ⟨fun _ => hu, fun hfault => ?_⟩
    have hphase : u.phase = .fault := hfault
    rw [hcontrol.phase, hbusy] at hphase
    cases hphase

theorem exec_faults_closed {i : Instr} {s t : State} (hidle : s.phase = .idle) (hs : s.Mirrors)
    (h : exec i s = .next t) : t.FaultsClosed := by
  cases exec_executed h with
  | ignored => exact fun hfault => absurd (hidle.symm.trans hfault) (by decide)
  | ran c hc _ t hrun =>
    have hissue : (c.issue s).Mirrors :=
      hs.of_same (Command.issue_outClosed hc hidle) (congrArg Out.closed (c.issue_out hidle))
    exact runBusy_invariant Config.params (P := fun u => u.Mirrors ∧ u.phase = .busy) (Q := State.FaultsClosed)
      (fun hu hnext hb => ⟨(unit_mirrors _ hu.1 hu.2 hnext).1 hb, hb⟩)
      (fun hu hnext _ => (unit_mirrors _ hu.1 hu.2 hnext).2) ⟨hissue, c.issue_busy hidle⟩ hrun
  | cleared h => exact nofun
  | reserved _ op =>
    have haccept : (s.accept op).Mirrors := hs.of_same (State.flag_accept ..) rfl
    exact fun _ => raise_closed haccept _
  | took hbusy T hT t hnext => exact absurd (hidle.symm.trans hbusy) (by decide)

/-- A host that keeps its duties presents no command that writes bits while `OUT` is closed (R239, R241). -/
theorem Ledger.not_ready_of_closed {l : Ledger} {s : State} (hclosed : s.out.closed = true) {i : Instr}
    (hi : i ∈ [Instr.wrmagic, .serialize, .encode, .decode, .compress, .decompress]) : l.ready s i = false := by
  have hready : l.outReady s = false := by simp [Ledger.outReady, State.outputFresh, hclosed]
  have hstands : ∀ h, l.outStands s h = false := by simp [Ledger.outStands, hclosed]
  fin_cases hi <;> simp [Ledger.ready, hready, hstands]

/-- A code that a dutiful host presents to a block whose `OUT` is closed leaves the bits alone. -/
theorem present_bits_of_closed {l : Ledger} {s t : State} {op : BitVec 4} {rest : List HostAction}
    (hbusy : s.phase ≠ .busy) (hhost : s.host = .present op :: rest) (hkept : l.kept s (.present op) = true)
    (hclosed : s.out.closed = true) (h : step s = .next t) : t.out.bits = s.out.bits := by
  rw [step_present hhost] at h
  obtain rfl | ⟨hrst, hexec⟩ := port_next h
  · rfl
  have hphase : ({ s with host := rest } : State).phase ≠ .busy := hbusy
  by_cases hwriter : decodeCommand op ∈ [Instr.wrmagic, .serialize, .encode, .decode, .compress, .decompress]
  · have haccepts : s.accepts op = false := by
      rw [Ledger.kept, Ledger.not_ready_of_closed hclosed hwriter, Bool.or_false] at hkept
      simpa using hkept
    have hreleased : s.rst = false := hrst
    have hidle : s.phase ≠ .idle := fun hidle => by simp [State.accepts, hreleased, hidle] at haccepts
    have hfault : s.phase = .fault := by
      cases hp : s.phase with
      | idle => exact absurd hp hidle
      | busy => exact absurd hp hbusy
      | fault => rfl
    rw [exec_in_fault (s := { s with host := rest }) hfault (fun hi => by rw [hi] at hwriter; simp at hwriter)] at hexec
    cases hexec
    rfl
  · have hwrote := exec_wrote hexec
    rw [State.running_none hphase] at hwrote
    refine hwrote.same (r := .bits) (fun hbits => ?_) (by decide) (by decide) (by decide)
    obtain hi | ⟨-, hst⟩ | ⟨-, hst⟩ := bits_writer hbits
    · exact hwriter hi
    · cases hst
    · cases hst

/-- Settles O55: what needs an open `OUT` faults at a closed one, a fault's entry closes `OUT`, and a dutiful host gives
no writer a closed `OUT`. -/
theorem nothingWrittenAfterClose : Obligations.NothingWrittenAfterClose := by
  unfold Obligations.NothingWrittenAfterClose
  exact ⟨fun i s t hbusy hclosed hcompress hdecompress h => exec_out_closed hbusy hclosed hcompress hdecompress h,
    fun i s t hidle hmirrors h hfault => exec_faults_closed hidle hmirrors h hfault,
    fun l s t op rest hbusy hhost hkept hclosed h => present_bits_of_closed hbusy hhost hkept hclosed h⟩

end Sys2Proof.Machine

namespace Sys2Proof.Machine

open Sys2Proof

/-! ### The codes that GENERATE records (R28, R140, R142) -/

/-- The path of the last leaf in preorder that carries `v`, if one does. -/
def HTree.lastPath (T : HTree) (v : Sym) : Option Bits := ((T.paths.filter fun p => p.1 == v).getLast?).map Prod.snd

theorem HTree.codeOf_eq (T : HTree) (v : Sym) : T.codeOf v = (T.lastPath v).getD [] := by
  rw [HTree.codeOf, HTree.lastPath]
  cases (T.paths.filter fun p => p.1 == v).getLast? <;> rfl

theorem HTree.lastPath_leaf (u v : Sym) : (HTree.leaf u).lastPath v = if u = v then some [] else none := by
  rw [HTree.lastPath, HTree.paths]
  by_cases h : u = v <;> simp [h]

/-- The right subtree's leaves come after the left one's. -/
theorem HTree.lastPath_node (l r : HTree) (v : Sym) :
    (HTree.node l r).lastPath v = ((r.lastPath v).map (true :: ·)).or ((l.lastPath v).map (false :: ·)) := by
  have hfilter : ∀ (ps : List (Sym × Bits)) (b : Bool), (ps.map fun p => (p.1, b :: p.2)).filter (fun p => p.1 == v) =
      (ps.filter fun p => p.1 == v).map fun p => (p.1, b :: p.2) := fun ps b => List.filter_map
  rw [HTree.lastPath, HTree.paths, List.filter_append, List.getLast?_append, hfilter, hfilter, List.getLast?_map,
    List.getLast?_map, HTree.lastPath, HTree.lastPath]
  cases (r.paths.filter fun p => p.1 == v).getLast? <;> simp [Function.comp_def]

theorem HTree.lastPath_mem {T : HTree} {v : Sym} {c : Bits} (h : T.lastPath v = some c) : (v, c) ∈ T.paths := by
  obtain ⟨⟨u, d⟩, hlast, rfl⟩ := Option.map_eq_some_iff.mp h
  obtain ⟨hmem, hv⟩ := List.mem_filter.mp (List.mem_of_getLast? hlast)
  obtain rfl : u = v := by simpa using hv
  exact hmem

theorem HTree.paths_syms (T : HTree) : T.paths.map Prod.fst = T.syms := by
  induction T with
  | leaf v => rfl
  | node l r ihl ihr => simp [HTree.paths, HTree.syms, Function.comp_def, ← ihl, ← ihr]

theorem HTree.lastPath_of_mem {T : HTree} {v : Sym} (h : v ∈ T.syms) : ∃ c, T.lastPath v = some c := by
  rw [← T.paths_syms] at h
  obtain ⟨p, hp, rfl⟩ := List.mem_map.mp h
  have hne : T.paths.filter (fun q => q.1 == p.1) ≠ [] := List.ne_nil_of_mem (List.mem_filter.mpr ⟨hp, by simp⟩)
  exact ⟨_, Option.map_eq_some_iff.mpr ⟨_, List.getLast?_eq_some_getLast hne, rfl⟩⟩

theorem HTree.codeOf_mem {T : HTree} {v : Sym} (h : v ∈ T.syms) : (v, T.codeOf v) ∈ T.paths := by
  obtain ⟨c, hc⟩ := HTree.lastPath_of_mem h
  rw [T.codeOf_eq, hc]
  exact HTree.lastPath_mem hc

theorem HTree.codeOf_of_not_mem {T : HTree} {v : Sym} (h : v ∉ T.syms) : T.codeOf v = [] := by
  rw [T.codeOf_eq]
  cases hc : T.lastPath v with
  | none => rfl
  | some c =>
    refine absurd ?_ h
    rw [← T.paths_syms]
    exact List.mem_map_of_mem (f := Prod.fst) (HTree.lastPath_mem hc)

/-- The walk leaves in each entry the path of the last leaf that carries its symbol (R142). -/
theorem HTree.codesInto_get (T : HTree) (path : Bits) (code : Vector Bits 257) (v : Sym) :
    (T.codesInto path code)[v] = ((T.lastPath v).map (path ++ ·)).getD code[v] := by
  induction T generalizing path code with
  | leaf u =>
    rw [HTree.lastPath_leaf, HTree.codesInto]
    by_cases h : u = v
    · subst h; simp
    · simp [h, Fin.val_inj]
  | node l r ihl ihr =>
    rw [HTree.codesInto, ihr, ihl, HTree.lastPath_node]
    cases r.lastPath v with
    | some c => simp
    | none => cases l.lastPath v <;> simp

theorem HTree.codesInto_codeOf (T : HTree) (v : Sym) :
    (T.codesInto [] (Vector.replicate 257 []))[v] = T.codeOf v := by
  rw [T.codesInto_get, T.codeOf_eq]
  simp

/-- Every edge down to a leaf leaves two nodes or more behind. -/
theorem HTree.path_length_le {T : HTree} {v : Sym} {c : Bits} (h : (v, c) ∈ T.paths) : 2 * c.length + 1 ≤ T.size := by
  induction T generalizing c with
  | leaf u =>
    obtain ⟨-, rfl⟩ : v = u ∧ c = [] := by simpa [HTree.paths] using h
    exact Nat.le_refl 1
  | node l r ihl ihr =>
    obtain ⟨bit, c', rfl, hmem⟩ := HTree.mem_paths_node h
    have hl := l.size_pos
    have hr := r.size_pos
    rw [List.length_cons, HTree.size]
    cases bit
    · have := ihl hmem; omega
    · have := ihr hmem; omega

/-- Under an internal root no code is empty (R28). -/
theorem HTree.path_ne_nil {T : HTree} (hT : T.isNode = true) {v : Sym} {c : Bits} (h : (v, c) ∈ T.paths) : c ≠ [] := by
  cases T with
  | leaf u => cases hT
  | node l r =>
    obtain ⟨bit, c', rfl, -⟩ := HTree.mem_paths_node h
    exact List.cons_ne_nil bit c'

theorem HTree.codeOf_length {T : HTree} (hT : T.isNode = true) (hsize : T.size ≤ 513) {v : Sym} (hv : v ∈ T.syms) :
    1 ≤ (T.codeOf v).length ∧ (T.codeOf v).length ≤ 256 := by
  have hmem := HTree.codeOf_mem hv
  have hlong := HTree.path_length_le hmem
  exact ⟨List.length_pos_iff.mpr (HTree.path_ne_nil hT hmem), by omega⟩

/-- A path that is the beginning of another leads to the same leaf: there is nothing below a leaf. -/
theorem HTree.paths_prefix_free {T : HTree} {v w : Sym} {c d : Bits} (hc : (v, c) ∈ T.paths) (hd : (w, d) ∈ T.paths)
    (h : c <+: d) : v = w := by
  induction T generalizing c d with
  | leaf u =>
    obtain ⟨rfl, -⟩ : v = u ∧ c = [] := by simpa [HTree.paths] using hc
    obtain ⟨rfl, -⟩ : w = v ∧ d = [] := by simpa [HTree.paths] using hd
    rfl
  | node l r ihl ihr =>
    obtain ⟨bit, c', rfl, hc'⟩ := HTree.mem_paths_node hc
    obtain ⟨bit', d', rfl, hd'⟩ := HTree.mem_paths_node hd
    obtain ⟨rfl, hprefix⟩ := List.cons_prefix_cons.mp h
    cases bit
    · exact ihl hc' hd' hprefix
    · exact ihr hc' hd' hprefix

/-- Settles O19: the walk's table is read off symbol by symbol, and a tree of 513 nodes is at most 256 edges deep. -/
theorem generateRecordsThePaths : Obligations.GenerateRecordsThePaths := by
  unfold Obligations.GenerateRecordsThePaths
  intro s T hidle hvalid ht hT hsize
  have hcode := T.codesInto_codeOf
  refine ⟨_, exec_generate_tree hidle hvalid ht hT hsize, hcode, fun v hv => ?_, fun v hv => ?_,
    Command.finish_flags_raised (c := .generate) (f := .codeValid) hidle (by decide) rfl, ?_⟩
  · have hlength := congrArg List.length (hcode v)
    obtain ⟨hpos, hlong⟩ := HTree.codeOf_length hT hsize hv
    exact ⟨hpos.trans_eq hlength.symm, hlength.trans_le hlong⟩
  · exact (hcode v).trans (HTree.codeOf_of_not_mem hv)
  · rw [Command.issue_frame _ hidle, State.finish, State.setFlag, hidle]
    rfl

/-- Settles O20: the codes are paths of leaves of one tree. -/
theorem generatedCodesArePrefixFree : Obligations.GeneratedCodesArePrefixFree := by
  unfold Obligations.GeneratedCodesArePrefixFree
  intro s T hidle hvalid ht hT hsize
  obtain ⟨t, hexec, hcode⟩ := exec_generate_code hidle hvalid ht hT hsize
  have hcodeOf : ∀ v : Sym, t.code[v] = T.codeOf v := fun v => by rw [hcode, T.codesInto_codeOf]
  refine ⟨t, hexec, fun v w hvw hv hprefix => ?_⟩
  rw [hcodeOf] at hv
  rw [hcodeOf, hcodeOf] at hprefix
  have hvmem : v ∈ T.syms := by
    by_contra hnot
    exact hv (HTree.codeOf_of_not_mem hnot)
  by_cases hw : w ∈ T.syms
  · exact hvw (HTree.paths_prefix_free (HTree.codeOf_mem hvmem) (HTree.codeOf_mem hw) hprefix)
  · rw [HTree.codeOf_of_not_mem hw] at hprefix
    exact hv (List.prefix_nil.mp hprefix)

end Sys2Proof.Machine

namespace Sys2Proof.Machine

open Sys2Proof

/-! ### ENCODE with every code present (R170) -/

theorem unit_encSentinel_code (p : Params) {s : State} {rest : List Stage} (h : s.todo = .encSentinel :: rest)
    (hcode : s.code[sentinel] ≠ []) :
    unit p s = .next { s with todo := .encEmit s.code[sentinel] :: rest } := by
  rw [unit_cons p h, turn, encSentinel, withCode, if_neg hcode]
  simp only [Turn.settle, h, List.tail_cons]

/-- ENCODE's loop over bytes that all have codes, to the end of `IN`. -/
theorem runBusy_encLoop_all (p : Params) (l : List (BitVec 8)) {n : Nat} {s : State} {rest : List Stage}
    (hb : s.phase = .busy) (h : s.todo = .encLoop :: rest) (hin : wholeBytes s.inp.rest = l)
    (hcode : ∀ v ∈ l, s.code[literalSym v] ≠ []) :
    runBusy p (n + 1 + encUnits (fun v => s.code[v]) l) s =
      runBusy p n { s.writeSeq (codesOf (fun v => s.code[v]) l) with
        inp := { s.inp with pos := s.inp.data.length }, todo := rest } := by
  induction l generalizing s with
  | nil =>
    refine (runBusy_busy p n (unit_encLoop_eos p h (length_lt_of_wholeBytes_nil hin)) hb).trans ?_
    simp [codesOf, State.writeSeq]
  | cons v l ih =>
    obtain ⟨tail, hbits, htail⟩ := bits_of_wholeBytes_cons hin
    have hv := hcode v List.mem_cons_self
    rw [encUnits_cons, ← Nat.add_assoc, ← Nat.add_assoc, runBusy_busy p _ (unit_encLoop_code p h hbits hv) hb]
    refine Eq.trans (runBusy_encEmit p s.code[literalSym v] hb rfl) ?_
    refine Eq.trans ?_ ((ih (s := { s.writeSeq s.code[literalSym v] with
      inp := { s.inp with pos := s.inp.pos + 8 } }) hb h ((wholeBytes_rest_advance hbits).trans htail)
      fun w hw => hcode w (List.mem_cons_of_mem v hw)).trans ?_)
    · rw [← h]; rfl
    · simp [State.writeSeq, codesOf]

/-- ENCODE's body where every whole byte of `IN` and the sentinel have a code. -/
theorem runBusy_encodeParts (p : Params) (n : Nat) {s : State} {rest : List Stage} (hb : s.phase = .busy)
    (h : s.todo = Command.encode.parts ++ rest) (hcode : ∀ v ∈ wholeBytes s.inp.data, s.code[literalSym v] ≠ [])
    (hsentinel : s.code[sentinel] ≠ []) :
    runBusy p (n + (encUnits (fun v => s.code[v]) (wholeBytes s.inp.data) + s.code[sentinel].length + 4)) s =
      runBusy p n { s.writeSeq (codesOf (fun v => s.code[v]) (wholeBytes s.inp.data) ++ s.code[sentinel]) with
        inp := { s.inp with pos := s.inp.data.length }, todo := rest } := by
  have hk : n + (encUnits (fun v => s.code[v]) (wholeBytes s.inp.data) + s.code[sentinel].length + 4) =
      n + s.code[sentinel].length + 1 + 1 + 1 + encUnits (fun v => s.code[v]) (wholeBytes s.inp.data) + 1 := by omega
  rw [hk, runBusy_busy p _ (unit_encRewind p h) hb]
  refine (runBusy_encLoop_all p (wholeBytes s.inp.data)
    (s := { s with inp := { s.inp with pos := 0 }, todo := .encLoop :: .encSentinel :: rest }) hb rfl rfl hcode).trans ?_
  refine Eq.trans (runBusy_busy p _ (unit_encSentinel_code p rfl hsentinel) hb) ?_
  refine Eq.trans (runBusy_encEmit p s.code[sentinel] hb rfl) ?_
  simp [State.writeSeq]

/-- The bound on the units of a command leaves enough for the bytes of `IN` and the sentinel. -/
theorem encodeUnits_le_fuel (s : State) {l : List (BitVec 8)} (hl : l.length ≤ s.inp.data.length) :
    encUnits (fun v => s.code[v]) l + s.code[sentinel].length + 4096 ≤ fuel s := by
  have hbytes := (encUnits_le s l).trans (Nat.mul_le_mul_right (s.longestCode + 2) hl)
  have hsentinel := s.code_length_le sentinel
  have hmul : (s.inp.data.length + 1) * (s.longestCode + 4) =
      s.inp.data.length * (s.longestCode + 2) + 2 * s.inp.data.length + (s.longestCode + 4) := by ring
  rw [fuel, hmul]
  omega

/-- Settles O33: ENCODE's loop writes the codes byte by byte, and its last part the sentinel's. -/
theorem encodeWritesTheCodes : Obligations.EncodeWritesTheCodes := by
  unfold Obligations.EncodeWritesTheCodes
  intro s hidle hvalid hopen hcode hsentinel
  obtain ⟨hexec, htodo⟩ := exec_encode hidle hvalid hopen
  have hb := Command.encode.issue_busy hidle
  have hfuel := encodeUnits_le_fuel s (wholeBytes_length_le s.inp.data)
  obtain ⟨n, hn⟩ : ∃ n, fuel s = n + 1 +
      (encUnits (fun v => s.code[v]) (wholeBytes s.inp.data) + s.code[sentinel].length + 4) := ⟨_, (by omega :
    fuel s = fuel s - (encUnits (fun v => s.code[v]) (wholeBytes s.inp.data) + s.code[sentinel].length + 5) + 1 + _)⟩
  have hbody := runBusy_encodeParts Config.params (n + 1) (rest := []) hb htodo
    (by rw [Command.issue_inp _ hidle, Command.issue_code _ hidle]; exact hcode)
    (by rw [Command.issue_code _ hidle]; exact hsentinel)
  rw [Command.issue_inp _ hidle, Command.issue_code _ hidle] at hbody
  refine ⟨_, (hexec.trans ((congrArg (runBusy Config.params · _) hn).trans hbody)).trans
    (runBusy_end _ n (unit_nil _ rfl) (by simp)), Command.encode.finish_flags hidle rfl, ?_⟩
  rw [Command.issue_frame _ hidle, State.finish, hidle]
  rfl

/-! ### DECODE on bits that end too soon (R184, R202) -/

/-- Bits that lead into a code and end before its leaf: `CUR` stands at an internal node when `IN` ends. -/
theorem runBusy_decPrefix (p : Params) (q : Bits) {T : HTree} {n : Nat} {s : State} {rest : List Stage} {v : Sym}
    {c : Bits} (hb : s.phase = .busy) (h : s.todo = .decLoop :: rest) (ht : holds s.node s.cur T = true)
    (hc : (v, c) ∈ T.paths) (hq : q <+: c) (hne : q ≠ c) (hin : s.inp.rest = q) :
    ∃ t : State, runBusy p (n + 2 + q.length) s = .next (t.raise .truncation) ∧
      t = { s with cur := t.cur, inp := { s.inp with pos := s.inp.data.length }, todo := t.todo } := by
  induction q generalizing T s c with
  | nil => exact ⟨_, runBusy_raise p n (unit_decLoop_eos p h hin) hb, rfl⟩
  | cons bit q ih =>
    cases T with
    | leaf u =>
      obtain ⟨-, rfl⟩ : v = u ∧ c = [] := by simpa [HTree.paths] using hc
      exact absurd (List.prefix_nil.mp hq) (List.cons_ne_nil bit q)
    | node l r =>
      obtain ⟨bit', c', rfl, hmem⟩ := HTree.mem_paths_node hc
      obtain ⟨rfl, hq'⟩ := List.cons_prefix_cons.mp hq
      obtain ⟨j, hchild, hunit⟩ := unit_decLoop_node p h hin ht
      generalize (if bit then r else l) = U at hmem hchild
      have hne' : q ≠ c' := fun e => hne (by rw [e])
      cases U with
      | leaf u =>
        obtain ⟨-, rfl⟩ : v = u ∧ c' = [] := by simpa [HTree.paths] using hmem
        exact absurd (List.prefix_nil.mp hq') hne'
      | node l' r' =>
        rw [decNext_of_isNode rest hchild rfl] at hunit
        obtain ⟨t, hrun, hframe⟩ := ih (s := { s with
          cur := j, inp := { s.inp with pos := s.inp.pos + 1 }, todo := .decLoop :: rest }) hb rfl hchild hmem hq' hne'
          (Inp.rest_advance_append (a := [bit]) hin)
        exact ⟨t, (runBusy_busy p (n + 2 + q.length) hunit hb).trans hrun, hframe⟩

/-- Before the fault's entry DECODE has written the bytes of the complete codes, moved `CUR` and emptied `IN`. -/
theorem exec_decode_truncated {s : State} {T : HTree} {ps : List (Sym × Bits)} {v : Sym} {c q : Bits}
    (h : s.phase = .idle) (hv : s.flag .treeValid = true) (ho : s.flag .outClosed = false)
    (ht : holds s.node s.root T = true) (hT : T.isNode = true) (hps : ∀ x ∈ ps, x ∈ T.paths ∧ x.1 ≠ sentinel)
    (hc : (v, c) ∈ T.paths) (hq : q <+: c) (hne : q ≠ c) (hin : s.inp.rest = pathBits ps ++ q) :
    ∃ t : State, exec .decode s = .next (t.raise .truncation) ∧
      t = { (Command.decode.issue s).writeSeq (symBytes ps) with
        cur := t.cur, inp := { s.inp with pos := s.inp.data.length }, todo := t.todo } := by
  have hfuel := two_mul_rest_le_fuel s
  have hcodes := length_le_pathBits hT ps fun x hx => (hps x hx).1
  rw [hin, List.length_append] at hfuel
  obtain ⟨n, hn⟩ : ∃ n, fuel s = n + 2 + q.length + ((pathBits ps).length + ps.length) + 1 :=
    ⟨fuel s - (q.length + (pathBits ps).length + ps.length + 3), by omega⟩
  have hinp := decodeEntry_inp h
  have hnode := decodeEntry_node h
  have hroot := decodeEntry_root h
  have hcodesRun := runBusy_decCodes Config.params hT ps (s := Command.decode.issue s) [] (tail := q)
    (Command.decode.issue_busy h) (by rw [Command.issue_node _ h, Command.issue_root _ h]; exact ht) hps
    (by rw [Command.issue_inp _ h]; exact hin) (n + 2 + q.length)
  rw [exec_decode_entry h hv ho hn]
  obtain ⟨t, hrun, hframe⟩ := runBusy_decPrefix Config.params q (T := T) (n := n) (rest := []) (v := v) (c := c)
    (s := { (Command.decode.issue s).writeSeq (symBytes ps) with
      cur := (Command.decode.issue s).root, todo := [.decLoop],
      inp := { (Command.decode.issue s).inp with pos := (Command.decode.issue s).inp.pos + (pathBits ps).length } })
    (Command.decode.issue_busy h) rfl
    (by
      have hheld : holds (Command.decode.issue s).node (Command.decode.issue s).root T = true := by
        rw [Command.issue_node _ h, Command.issue_root _ h]; exact ht
      exact hheld) hc hq hne
    (by
      have hrest : (Command.decode.issue s).inp.rest = pathBits ps ++ q := by rw [Command.issue_inp _ h]; exact hin
      exact Inp.rest_advance_append hrest)
  refine ⟨t, hcodesRun.trans hrun, hframe.trans ?_⟩
  rw [Command.issue_inp _ h]

/-- Settles O38: the complete codes write their bytes, and the bits left lead to no leaf. -/
theorem decodeFindsTruncation : Obligations.DecodeFindsTruncation := by
  unfold Obligations.DecodeFindsTruncation
  intro s T ps p q hidle hvalid hopen ht hT hps hp hq hne hin
  obtain ⟨t, hexec, hframe⟩ := exec_decode_truncated hidle hvalid hopen ht hT hps hp hq hne hin
  have hstatus : t.status = (Command.decode.issue s).status := by rw [hframe]; rfl
  have hclosed : t.flag .outClosed = false :=
    (State.flag_congr hstatus _).trans ((Command.issue_outClosed (by decide) hidle).trans hopen)
  refine ⟨_, hexec, State.raise_err .., State.raise_phase .., Command.decode.raise_flags hidle hstatus, ?_, ?_, ?_, ?_, ?_⟩
  · rw [State.raise_out, hclosed, hframe, Command.issue_frame _ hidle]
    rfl
  · rw [State.raise_inp, hframe]
  · rw [State.raise_node, hframe, Command.issue_frame _ hidle]
    rfl
  · rw [State.raise_freq, hframe, Command.issue_frame _ hidle]
    rfl
  · rw [State.raise_code, hframe, Command.issue_frame _ hidle]
    rfl

/-! ### A whole code as one stream unit (R87, R181, R182) -/

/-- What DECODE's walk makes of the leaf that a code leads to. -/
def leafTurn (v : Sym) (s : State) : Turn := if v = sentinel then .leave s else .again (decByte v s)

/-- What DECODE's walk makes of the node it has moved to. -/
def walkTurn (s : State) : Turn :=
  match s.node[s.cur] with
  | .internal _ _ _ => .again s
  | .leaf v _ => leafTurn v s

theorem walkTurn_internal {s : State} {l r : Idx} {w : Weight} (h : s.node[s.cur] = .internal l r w) :
    walkTurn s = .again s := by
  rw [walkTurn, h]

theorem walkTurn_leaf {s : State} {v : Sym} {w : Weight} (h : s.node[s.cur] = .leaf v w) :
    walkTurn s = leafTurn v s := by
  rw [walkTurn, h]

/-- One bit at an internal node moves to the child it names. -/
theorem decBit_internal {s : State} (b : Bool) {l r : Idx} {w : Weight} (hcur : s.node[s.cur] = .internal l r w) :
    decBit b s = walkTurn { s with cur := if b then r else l } := by
  rw [decBit, decMove]
  simp only [hcur]
  rfl

/-- In a tree that child is the root of a subtree. -/
theorem decBit_node {s : State} (bit : Bool) {l r : HTree} (ht : holds s.node s.cur (.node l r) = true) :
    ∃ j : Idx, holds s.node j (if bit then r else l) = true ∧ decBit bit s = walkTurn { s with cur := j } := by
  obtain ⟨a, b, w, hcur, hl, hr⟩ := holds_node_iff.mp ht
  refine ⟨if bit then b else a, ?_, decBit_internal bit hcur⟩
  cases bit
  · exact hl
  · exact hr

theorem decBits_cons_again {b : Bool} {bs : Bits} {s t : State} (h : decBit b s = .again t) :
    decBits (b :: bs) s = decBits bs t := by
  rw [decBits, h]

/-- A last bit that leads to a leaf. -/
theorem decBits_last {b : Bool} {v : Sym} {s t : State} (h : decBit b s = leafTurn v t) :
    decBits [b] s = leafTurn v t := by
  rw [decBits, h, leafTurn]
  by_cases hv : v = sentinel
  · simp only [hv, if_true]
  · simp only [hv, if_false, decBits]

/-- The path of a leaf, taken bit by bit, leads to a leaf of its symbol. -/
theorem decBits_path {T : HTree} {s : State} {v : Sym} {c : Bits} (ht : holds s.node s.cur T = true)
    (hT : T.isNode = true) (hc : (v, c) ∈ T.paths) :
    ∃ (i : Idx) (w : Weight), s.node[i] = .leaf v w ∧ decBits c s = leafTurn v { s with cur := i } := by
  induction c generalizing T s with
  | nil => exact absurd rfl (HTree.path_ne_nil hT hc)
  | cons bit c ih =>
    cases T with
    | leaf u => cases hT
    | node l r =>
      obtain ⟨_, _, hcons, hmem⟩ := HTree.mem_paths_node hc
      cases hcons
      obtain ⟨j, hchild, hbit⟩ := decBit_node bit ht
      generalize (if bit then r else l) = U at hmem hchild
      cases U with
      | leaf u =>
        obtain ⟨rfl, rfl⟩ : v = u ∧ c = [] := by simpa [HTree.paths] using hmem
        obtain ⟨w, hj⟩ := holds_leaf_iff.mp hchild
        exact ⟨j, w, hj, decBits_last (hbit.trans (walkTurn_leaf (s := { s with cur := j }) hj))⟩
      | node l' r' =>
        obtain ⟨_, _, _, hj, -, -⟩ := holds_node_iff.mp hchild
        obtain ⟨i, w, hi, hrun⟩ := ih (s := { s with cur := j }) hchild rfl hmem
        exact ⟨i, w, hi,
          (decBits_cons_again (hbit.trans (walkTurn_internal (s := { s with cur := j }) hj))).trans hrun⟩

/-- A body code is what the walk makes of its bits. -/
theorem exec_bodyCode {s : State} {rest : List Stage} (hbusy : s.phase = .busy) (htodo : s.todo = .decLoop :: rest)
    (c : Bits) : exec (.bodyCode c) s = (decBits c s).settleWhole := by
  rw [exec, execBodyCode, State.running_cons hbusy htodo]

/-- Settles O40: the path leads from the root to its leaf, a byte's leaf back to it. -/
theorem bodyCodeReachesItsLeaf : Obligations.BodyCodeReachesItsLeaf := by
  unfold Obligations.BodyCodeReachesItsLeaf
  intro s rest T v c hbusy htodo hcur ht hT hc
  obtain ⟨i, w, hi, hturn⟩ := decBits_path (by rw [hcur]; exact ht) hT hc
  rw [exec_bodyCode hbusy htodo, hturn, leafTurn]
  refine ⟨fun hv => ?_, fun hv => ⟨{ s with cur := i, todo := rest }, w, ?_, ?_, rfl⟩⟩
  · rw [if_neg hv, Turn.settleWhole, Turn.settle, decByte]
    · simp only [← hcur]
      rfl
    · exact nofun
  · rw [if_pos hv, Turn.settleWhole, Turn.settle, htodo, List.tail_cons]
    exact nofun
  · rw [← hv]
    exact hi

end Sys2Proof.Machine

namespace Sys2Proof.Machine

open Sys2Proof

/-! ### Completed subtrees (R154, R155) -/

/-- From `s` to `t` the internal nodes that wait for their right subtrees, with left children `ls`, have been allocated,
innermost first, each over the entry before it; `i` is the entry before the first and `j` the last. -/
structure Completed (ls : List Idx) (s t : State) (j : Idx) : Prop where
  nnodes : t.nnodes.val = s.nnodes.val + ls.length
  last : j.val + 1 = t.nnodes.val
  nodes : ∀ i r l : Idx, s.nnodes.val ≤ i.val → r.val + 1 = i.val → ls[i.val - s.nnodes.val]? = some l →
    t.node[i] = .internal l r 0
  others : ∀ i : Idx, i.val < s.nnodes.val ∨ t.nnodes.val ≤ i.val → t.node[i] = s.node[i]
  frame : t = { s with node := t.node, nnodes := t.nnodes }

/-- A subtree complete at the last entry completes the nodes that wait for their right subtrees, one after the other. -/
theorem attach_rights (ls : List Idx) {s : State} {i : Idx} (st : List Pending) (hi : i.val + 1 = s.nnodes.val)
    (hroom : s.nnodes.val + ls.length ≤ 513) :
    ∃ (t : State) (j : Idx), Completed ls s t j ∧
      attach Config.params i (ls.map .right ++ st) s = attach Config.params j st t := by
  induction ls generalizing s i with
  | nil => exact ⟨s, i, ⟨rfl, hi, fun _ _ _ _ _ h => by simp at h, fun _ _ => rfl, rfl⟩, rfl⟩
  | cons l ls ih =>
    rw [List.length_cons] at hroom
    obtain ⟨k, u, ha⟩ := State.alloc_isSome (s := s) (.internal l i 0) (by omega)
    obtain ⟨hk, hn, hnode, hother, hframe⟩ := State.alloc_some ha
    obtain ⟨t, j, ht, hrun⟩ := ih (s := u) (i := k) (by omega) (by omega)
    refine ⟨t, j, ⟨?_, ht.last, fun m r l' hm hr hl => ?_, fun m hm => ?_, ?_⟩, (attach_right ha).trans hrun⟩
    · rw [ht.nnodes, hn, List.length_cons]
      omega
    · by_cases hmk : m = k
      · subst hmk
        obtain rfl : r = i := Fin.ext (by omega)
        obtain rfl : l = l' := by simpa [hk] using hl
        exact (ht.others m (.inl (by omega))).trans hnode
      · have hlt : k.val ≠ m.val := fun e => hmk (Fin.ext e.symm)
        refine ht.nodes m r l' (by omega) hr ?_
        rwa [show m.val - s.nnodes.val = m.val - u.nnodes.val + 1 by omega, List.getElem?_cons_succ] at hl
    · have hlen := ht.nnodes
      refine (ht.others m (by omega)).trans (hother m fun e => ?_)
      subst e
      omega
    · rw [ht.frame, hframe]

/-- A complete subtree never stops the model. -/
theorem attach_answers (p : Params) (i : Idx) (st : List Pending) (s : State) :
    ∃ t, (attach p i st s).settleWhole = .next t := by
  induction st generalizing i s with
  | nil => exact ⟨_, rfl⟩
  | cons f st ih =>
    cases f with
    | left => exact ⟨_, rfl⟩
    | right l =>
      cases ha : s.alloc p (.internal l i 0) with
      | none => exact ⟨({ s with pending := st } : State).raise .nodeCapacity, by rw [attach, ha]; rfl⟩
      | some jt =>
        rw [attach_right ha]
        exact ih jt.1 jt.2

/-- A legal field with room in the store: its leaf is allocated, and then attached (R154). -/
theorem desLeaf_legal {f : BitVec 9} {s : State} (hf : f.toNat ≤ 256) (hroom : s.nnodes.val < 513) :
    ∃ (i : Idx) (t : State) (v : Sym), v.val = f.toNat ∧ s.alloc Config.params (.leaf v 0) = some (i, t) ∧
      desLeaf Config.params f s = attach Config.params i s.pending t := by
  obtain ⟨i, t, ha⟩ := State.alloc_isSome (s := s) (.leaf ⟨f.toNat, by omega⟩ 0) hroom
  obtain ⟨-, -, -, -, hframe⟩ := State.alloc_some ha
  refine ⟨i, t, _, rfl, ha, ?_⟩
  rw [desLeaf, dif_pos hf, ha]
  simp only
  rw [hframe]

/-- One flag raised, and nothing else of `STATUS` written. -/
theorem flagsMove_setFlag {s t : State} {f : Flag} (h : t.status = (s.setFlag f true).status) :
    flagsMove s t [f] [] = true := by
  refine (flagsMove_iff ..).mpr ⟨fun g => ?_, ?_⟩
  · rw [State.flag_congr h, State.flag_setFlag]
    simp
  · rw [h, State.reserved_setFlag]

/-- Settles O30: the leaf is allocated, the nodes it completes after it, and the first node that is not completed, or the
end of the tree, is left as `attach` leaves it. -/
theorem leafTokenAllocates : Obligations.LeafTokenAllocates := by
  unfold Obligations.LeafTokenAllocates
  intro s rest f ls hbusy htodo hf hroom
  obtain ⟨i, u, v, hv, ha, hleaf⟩ := desLeaf_legal (s := { s with pending := ls.map .right ++ s.pending }) hf
    (show s.nnodes.val < 513 by omega)
  obtain ⟨hi, hn, hnode, hother, hframe⟩ := State.alloc_some ha
  replace hi : i.val = s.nnodes.val := hi
  replace hn : u.nnodes.val = s.nnodes.val + 1 := hn
  obtain ⟨t, j, ht, hattach⟩ := attach_rights ls (s := u) (i := i) s.pending (by omega) (by omega)
  have hexec : exec (.hdrLeaf f) { s with pending := ls.map .right ++ s.pending } =
      (attach Config.params j s.pending t).settleWhole := by
    have hhead : s.todo.head? = some .desLoop := by rw [htodo, List.head?_cons]
    rw [exec_hdrLeaf (s := { s with pending := ls.map .right ++ s.pending }) hbusy hhead, hleaf, hattach]
  have hlen := ht.nnodes
  have hlast := ht.last
  have htframe : t = { s with node := t.node, nnodes := t.nnodes, pending := ls.map .right ++ s.pending } := by
    rw [ht.frame, hframe]
  have hleafAt : ∀ m : Idx, m.val = s.nnodes.val → ∃ v : Sym, v.val = f.toNat ∧ t.node[m] = .leaf v 0 := fun m hm => by
    obtain rfl : m = i := Fin.ext (hm.trans hi.symm)
    exact ⟨v, hv, (ht.others m (.inl (by omega))).trans hnode⟩
  have hnodeAt : ∀ m r l : Idx, s.nnodes.val < m.val → r.val + 1 = m.val → ls[m.val - s.nnodes.val - 1]? = some l →
      t.node[m] = .internal l r 0 := fun m r l hm hr hl =>
    ht.nodes m r l (by omega) hr (by rwa [show m.val - u.nnodes.val = m.val - s.nnodes.val - 1 by omega])
  have hotherAt : ∀ m : Idx, m.val < s.nnodes.val ∨ t.nnodes.val ≤ m.val → t.node[m] = s.node[m] := fun m hm => by
    refine (ht.others m (by omega)).trans (hother m fun e => ?_)
    subst e
    omega
  cases hpending : s.pending with
  | nil =>
    rw [hpending] at hexec
    refine ⟨_, hexec, fun _ => ⟨by simp [hlen, hn], hleafAt, hnodeAt, hotherAt, fun _ => ⟨hlast, ?_, ?_⟩, nofun⟩⟩
    · refine flagsMove_setFlag (f := .treeValid) ?_
      rw [htframe]
      rfl
    · rw [htframe, htodo]
      rfl
  | cons frame st =>
    cases frame with
    | left =>
      rw [hpending] at hexec
      refine ⟨_, hexec, fun _ => ⟨by simp [hlen, hn], hleafAt, hnodeAt, hotherAt, nofun, fun st' hst => ⟨j, hlast, ?_⟩⟩⟩
      cases hst
      rw [htframe]
    | right l =>
      obtain ⟨w, hw⟩ := attach_answers Config.params j (.right l :: st) t
      rw [hpending] at hexec
      exact ⟨w, hexec.trans hw, by simp⟩

end Sys2Proof.Machine

namespace Sys2Proof.Machine

open Sys2Proof

/-! ### DESERIALIZE on a header that ends too soon, or is too long for the store (R202, R208) -/

section Units

variable {s : State} {rest : List Stage} {tail : Bits}

theorem unit_desLoop_eos (p : Params) (h : s.todo = .desLoop :: rest) (heos : s.inp.rest = []) :
    unit p s = (Turn.raise .truncation { s with inp := { s.inp with pos := s.inp.data.length } }).settle := by
  rw [unit_cons p h, turn, desLoop, s.readBits_eos (by rw [heos]; exact Nat.one_pos)]

theorem unit_desField_eos (p : Params) (h : s.todo = .desField :: rest) (heos : s.inp.rest.length < 9) :
    unit p s = (Turn.raise .truncation { s with inp := { s.inp with pos := s.inp.data.length } }).settle := by
  rw [unit_cons p h, turn, desField, s.readBits_eos heos]

/-- The field of a leaf token is read whatever it holds; its leaf's turn then goes back to the loop. -/
theorem unit_desField_read (p : Params) {f : BitVec 9} (h : s.todo = .desField :: rest)
    (hin : s.inp.rest = bits 9 f.toNat ++ tail) :
    unit p s = ((desLeaf p f { s with inp := { s.inp with pos := s.inp.pos + 9 } }).backTo .desLoop).settle := by
  rw [unit_cons p h, turn, desField, s.readBits_field (by decide) f tail hin]

theorem unit_desField_full {v : Sym} (h : s.todo = .desField :: rest) (hin : s.inp.rest = bits 9 v.val ++ tail)
    (hfull : s.nnodes.val = 513) :
    unit Config.params s = (Turn.raise .nodeCapacity { s with inp := { s.inp with pos := s.inp.pos + 9 } }).settle := by
  rw [← symField_toNat] at hin
  rw [unit_desField_read _ h hin, desLeaf_store_full (s := { s with inp := { s.inp with pos := s.inp.pos + 9 } })
    (by rw [symField_toNat]; omega) hfull, Turn.backTo]

end Units

/-- A fault raised by the unit just done is entered by the next. -/
theorem resume_raise (p : Params) (n : Nat) {t : State} {c : Cause} (hb : t.phase = .busy) :
    resume p (n + 1) (Turn.raise c t).settle = .next (t.raise c) := by
  obtain ⟨hnext, hentry⟩ := settle_raise p c t
  rw [hnext]
  refine (resume_busy p (n + 1) (t := { t with todo := [.raise c] }) hb).trans ?_
  exact runBusy_end p n (s := { t with todo := [.raise c] }) hentry (by simp)

/-- From `s` to `t` DESERIALIZE has done nothing but read tokens and allocate nodes. -/
def TokensRead (s t : State) : Prop :=
  t = { s with node := t.node, nnodes := t.nnodes, pending := t.pending, todo := t.todo,
               inp := { s.inp with pos := t.inp.pos } }

theorem TokensRead.trans {s t u : State} (h : TokensRead s t) (k : TokensRead t u) : TokensRead s u := by
  rw [TokensRead] at *
  rw [k, h]

theorem TreeRead.tokensRead {T : HTree} {rest : List Stage} {s t : State} {i : Idx} (h : TreeRead T rest s t i) :
    TokensRead s t := by
  have hframe := h.frame
  rw [TokensRead, hframe]

/-- A node whose own entry finds the store full. -/
theorem attach_full {l i : Idx} {st : List Pending} {s : State} (h : s.nnodes.val = 513) :
    attach Config.params i (.right l :: st) s = .raise .nodeCapacity { s with pending := st } := by
  rw [attach, (State.alloc_none_iff ..).mpr h]

/-- DESERIALIZE's loop at the header of a tree for which the store has no room left: it fills the store, and then faults. -/
theorem runBusy_desTree_full (T : HTree) {s : State} {rest : List Stage} {tail : Bits} (hb : s.phase = .busy)
    (h : s.todo = .desLoop :: rest) (hin : s.inp.rest = T.header ++ tail) (hfull : 513 < s.nnodes.val + T.size) :
    ∃ (t : State) (k : Nat), k ≤ T.tokenUnits ∧ t.nnodes.val = 513 ∧ TokensRead s t ∧
      ∀ n, runBusy Config.params (n + 2 + k) s = .next (t.raise .nodeCapacity) := by
  induction T generalizing s tail with
  | leaf v =>
    rw [HTree.header_leaf] at hin
    rw [HTree.size] at hfull
    have hn : s.nnodes.val = 513 := by omega
    have hfield : ({ s.inp with pos := s.inp.pos + 1 } : Inp).rest = bits 9 v.val ++ tail :=
      Inp.rest_advance_append (a := [true]) hin
    refine ⟨{ s with todo := .desField :: rest, inp := { s.inp with pos := s.inp.pos + 1 + 9 } }, 1, Nat.le_succ 1, hn,
      rfl, fun n => ?_⟩
    refine (runBusy_busy _ (n + 2) (unit_desLoop_leaf _ h hin) hb).trans ?_
    exact runBusy_raise _ n (unit_desField_full rfl hfield hn) hb
  | node l r ihl ihr =>
    rw [HTree.header_node, List.cons_append, List.append_assoc] at hin
    rw [HTree.size] at hfull
    have hunits : (HTree.node l r).tokenUnits = l.tokenUnits + r.tokenUnits + 1 := rfl
    have hinl : ({ s.inp with pos := s.inp.pos + 1 } : Inp).rest = l.header ++ (r.header ++ tail) :=
      Inp.rest_advance_append (a := [false]) hin
    have hopen := fun n => runBusy_busy Config.params n (unit_desLoop_internal Config.params h hin) hb
    by_cases hlfull : 513 < s.nnodes.val + l.size
    · obtain ⟨t, k, hk, ht, hread, hrun⟩ := ihl (s := { s with
        pending := .left :: s.pending, inp := { s.inp with pos := s.inp.pos + 1 } }) hb h hinl hlfull
      exact ⟨t, k + 1, by omega, ht, hread, fun n => (hopen (n + 2 + k)).trans (hrun n)⟩
    obtain ⟨sl, il, hl, hrunl⟩ := runBusy_desTree l (s := { s with
      pending := .left :: s.pending, inp := { s.inp with pos := s.inp.pos + 1 } }) hb h hinl
      (show s.nnodes.val + l.size ≤ 513 by omega)
    have hnl : sl.nnodes.val = s.nnodes.val + l.size := hl.nnodes
    have hslb : sl.phase = .busy := by rw [hl.frame]; exact hb
    have hinr : sl.inp.rest = r.header ++ tail := by rw [hl.frame]; exact Inp.rest_advance_append hinl
    have hleft : ∀ n, runBusy Config.params (n + l.tokenUnits + 1) s = runBusy Config.params n { sl with
        pending := .right il :: s.pending, todo := .desLoop :: rest } := fun n => by
      rw [hopen, hrunl, settle_attach_left _ _ _ (by rw [hl.frame])]
      exact resume_busy _ _ hslb
    by_cases hrfull : 513 < sl.nnodes.val + r.size
    · obtain ⟨t, k, hk, ht, hread, hrun⟩ := ihr (s := { sl with
        pending := .right il :: s.pending, todo := .desLoop :: rest }) hslb rfl hinr hrfull
      refine ⟨t, k + l.tokenUnits + 1, by omega, ht, hl.tokensRead.trans hread, fun n => ?_⟩
      rw [show n + 2 + (k + l.tokenUnits + 1) = n + 2 + k + l.tokenUnits + 1 by omega, hleft]
      exact hrun n
    · obtain ⟨sr, ir, hr, hrunr⟩ := runBusy_desTree r (s := { sl with
        pending := .right il :: s.pending, todo := .desLoop :: rest }) hslb rfl hinr
        (show sl.nnodes.val + r.size ≤ 513 by omega)
      have hnr : sr.nnodes.val = sl.nnodes.val + r.size := hr.nnodes
      have hn : sr.nnodes.val = 513 := by omega
      have hsrb : sr.phase = .busy := by rw [hr.frame]; exact hslb
      refine ⟨{ sr with pending := s.pending }, r.tokenUnits + l.tokenUnits, by omega, hn,
        hl.tokensRead.trans (TokensRead.trans hr.tokensRead rfl), fun n => ?_⟩
      rw [show n + 2 + (r.tokenUnits + l.tokenUnits) = n + 1 + r.tokenUnits + l.tokenUnits + 1 by omega, hleft, hrunr]
      refine (congrArg (fun T : Turn => resume Config.params (n + 1) (T.backTo .desLoop).settle)
        (attach_full hn)).trans ?_
      exact resume_raise Config.params n hsrb

theorem HTree.tokenUnits_le_length (T : HTree) : T.tokenUnits ≤ T.header.length := by
  induction T with
  | leaf v => simp [HTree.tokenUnits, HTree.header_leaf]
  | node l r ihl ihr => simp only [HTree.tokenUnits, HTree.header_node, List.length_cons, List.length_append]; omega

/-- DESERIALIZE accepted, with its first part done: the store is empty, and the header comes next (R153). -/
def desEntry (s : State) : State :=
  { Command.deserialize.issue s with nnodes := 0, pending := [], todo := [.desLoop] }

theorem desEntry_inp {s : State} (h : s.phase = .idle) : (desEntry s).inp = s.inp := Command.issue_inp _ h

theorem desEntry_busy {s : State} (h : s.phase = .idle) : (desEntry s).phase = .busy := Command.issue_busy _ h

theorem exec_deserialize_entry {s : State} {n : Nat} (h : s.phase = .idle) (hn : fuel s = n + 1) :
    exec .deserialize s = runBusy Config.params n (desEntry s) := by
  obtain ⟨hrun, htodo⟩ := Command.run_of_meets Config.params (c := .deserialize) (by decide) h rfl
  refine hrun.trans ?_
  rw [hn]
  exact runBusy_busy _ n (unit_desStart _ htodo) (Command.issue_busy _ h)

/-- DESERIALIZE where its loop ends in a fault: only tokens have been read, and the fault is entered. -/
theorem exec_deserialize_raise {s t : State} {x : Cause} {k : Nat} (h : s.phase = .idle) (hk : k ≤ 2 * s.inp.rest.length)
    (hread : TokensRead (desEntry s) t) (hrun : ∀ n, runBusy Config.params (n + 2 + k) (desEntry s) = .next (t.raise x)) :
    exec .deserialize s = .next (t.raise x) ∧
      flagsMove s (t.raise x) [.fault, .outClosed] [.busy, .done, .treeValid, .codeValid] = true ∧
      t.out = s.out ∧ t.freq = s.freq ∧ t.code = s.code := by
  have hfuel := two_mul_rest_le_fuel s
  rw [TokensRead] at hread
  have hstatus : t.status = (Command.deserialize.issue s).status := by rw [hread]; rfl
  refine ⟨?_, Command.raise_flags Command.deserialize h hstatus, ?_, ?_, ?_⟩
  · rw [exec_deserialize_entry h (n := fuel s - 3 - k + 2 + k) (by omega)]
    exact hrun _
  all_goals rw [hread, desEntry, Command.issue_frame _ h]

/-- Settles O28. The store is filled by the first entries of the tree, in the order in
which DESERIALIZE completes them, and the next one faults. -/
theorem deserializeFindsOverfullStore : Obligations.DeserializeFindsOverfullStore := by
  intro s T tail h hin hsize
  obtain ⟨t, k, hk, hn, hread, hrun⟩ := runBusy_desTree_full T (s := desEntry s) (rest := []) (tail := tail)
    (desEntry_busy h) rfl (by rw [desEntry_inp h]; exact hin) (by simpa [desEntry] using hsize)
  have hlen := congrArg List.length hin
  rw [List.length_append] at hlen
  have hunits := T.tokenUnits_le_length
  obtain ⟨hexec, hflags, hout, hfreq, hcode⟩ := exec_deserialize_raise h (by omega) hread hrun
  exact ⟨_, hexec, by simp [Cause.code], by simp, by simp [hn], hflags, by rw [State.raise_out_bits, hout], by simp [hfreq],
    by simp [hcode]⟩

/-! ### DESERIALIZE on a header cut short (R202) -/

theorem prefix_append_cases {α : Type} {a b c : List α} (h : a <+: b ++ c) : (a <+: b ∧ a ≠ b) ∨ ∃ d, a = b ++ d ∧ d <+: c := by
  obtain hab | hba := List.prefix_or_prefix_of_prefix h (List.prefix_append b c)
  · by_cases heq : a = b
    · exact .inr ⟨[], by simp [heq], List.nil_prefix⟩
    · exact .inl ⟨hab, heq⟩
  · obtain ⟨d, rfl⟩ := hba
    exact .inr ⟨d, rfl, (List.prefix_append_right_inj b).mp h⟩

/-- DESERIALIZE's loop with nothing left of `IN`. -/
theorem runBusy_desLoop_eos {s : State} {rest : List Stage} (hb : s.phase = .busy) (h : s.todo = .desLoop :: rest)
    (heos : s.inp.rest = []) :
    ∃ (t : State) (k : Nat), k ≤ 2 * s.inp.rest.length ∧ t.inp = { s.inp with pos := s.inp.data.length } ∧ TokensRead s t ∧
      ∀ n, runBusy Config.params (n + 2 + k) s = .next (t.raise .truncation) :=
  ⟨{ s with inp := { s.inp with pos := s.inp.data.length } }, 0, Nat.zero_le _, rfl, rfl,
    fun n => runBusy_raise _ n (unit_desLoop_eos _ h heos) hb⟩

/-- DESERIALIZE's loop where `IN` ends inside the header of a tree that would fit the store. -/
theorem runBusy_desTree_cut (T : HTree) {s : State} {rest : List Stage} (hb : s.phase = .busy)
    (h : s.todo = .desLoop :: rest) (hin : s.inp.rest <+: T.header) (hcut : s.inp.rest ≠ T.header)
    (hroom : s.nnodes.val + T.size ≤ 513) :
    ∃ (t : State) (k : Nat), k ≤ 2 * s.inp.rest.length ∧ t.inp = { s.inp with pos := s.inp.data.length } ∧ TokensRead s t ∧
      ∀ n, runBusy Config.params (n + 2 + k) s = .next (t.raise .truncation) := by
  induction T generalizing s with
  | leaf v =>
    rw [HTree.header_leaf] at hin hcut
    by_cases hempty : s.inp.rest = []
    · exact runBusy_desLoop_eos hb h hempty
    obtain ⟨b, tail, htail⟩ := List.exists_cons_of_ne_nil hempty
    rw [htail, List.cons_prefix_cons] at hin
    obtain ⟨rfl, hpre⟩ := hin
    have hshort : tail.length < 9 := by
      have hlen := hpre.length_le
      rw [bits_length] at hlen
      refine Nat.lt_of_le_of_ne hlen fun e => hcut ?_
      rw [htail, hpre.eq_of_length (by rw [bits_length, e])]
    have hfield : ({ s.inp with pos := s.inp.pos + 1 } : Inp).rest = tail :=
      (s.inp.rest_advance 1).trans (congrArg (List.drop 1) htail)
    refine ⟨{ s with todo := .desField :: rest, inp := { s.inp with pos := s.inp.data.length } }, 1,
      by rw [htail, List.length_cons]; omega, rfl, rfl, fun n => ?_⟩
    refine (runBusy_busy _ (n + 2) (unit_desLoop_leaf _ h htail) hb).trans ?_
    exact runBusy_raise _ n (unit_desField_eos _ rfl (lt_of_eq_of_lt (congrArg List.length hfield) hshort)) hb
  | node l r ihl ihr =>
    rw [HTree.header_node] at hin hcut
    rw [HTree.size] at hroom
    by_cases hempty : s.inp.rest = []
    · exact runBusy_desLoop_eos hb h hempty
    obtain ⟨b, tail, htail⟩ := List.exists_cons_of_ne_nil hempty
    rw [htail, List.cons_prefix_cons] at hin
    obtain ⟨rfl, hpre⟩ := hin
    have hlen : s.inp.rest.length = tail.length + 1 := congrArg List.length htail
    have hopen := fun n => runBusy_busy Config.params n (unit_desLoop_internal Config.params h htail) hb
    have hinl : ({ s.inp with pos := s.inp.pos + 1 } : Inp).rest = tail :=
      (s.inp.rest_advance 1).trans (congrArg (List.drop 1) htail)
    obtain ⟨hpl, hcl⟩ | ⟨d, rfl, hpr⟩ := prefix_append_cases hpre
    · obtain ⟨t, k, hk, hinp, hread, hrun⟩ := ihl (s := { s with
        pending := .left :: s.pending, inp := { s.inp with pos := s.inp.pos + 1 } }) hb h (by rw [hinl]; exact hpl)
        (by rw [hinl]; exact hcl) (show s.nnodes.val + l.size ≤ 513 by omega)
      rw [hinl] at hk
      exact ⟨t, k + 1, by omega, hinp, hread, fun n => (hopen (n + 2 + k)).trans (hrun n)⟩
    · obtain ⟨sl, il, hl, hrunl⟩ := runBusy_desTree l (s := { s with
        pending := .left :: s.pending, inp := { s.inp with pos := s.inp.pos + 1 } }) hb h hinl
        (show s.nnodes.val + l.size ≤ 513 by omega)
      have hnl : sl.nnodes.val = s.nnodes.val + l.size := hl.nnodes
      have hslb : sl.phase = .busy := by rw [hl.frame]; exact hb
      have hinr : sl.inp.rest = d := by rw [hl.frame]; exact Inp.rest_advance_append (hinl.trans (by rfl))
      have hunits := l.tokenUnits_le_length
      rw [List.length_append] at hlen
      obtain ⟨t, k, hk, hinp, hread, hrun⟩ := ihr (s := { sl with
        pending := .right il :: s.pending, todo := .desLoop :: rest }) hslb rfl (by rw [hinr]; exact hpr)
        (fun e => hcut (by rw [htail, ← hinr, e])) (show sl.nnodes.val + r.size ≤ 513 by omega)
      rw [hinr] at hk
      refine ⟨t, k + l.tokenUnits + 1, by omega, hinp.trans (by rw [hl.frame]), hl.tokensRead.trans hread, fun n => ?_⟩
      rw [show n + 2 + (k + l.tokenUnits + 1) = n + 2 + k + l.tokenUnits + 1 by omega, hopen, hrunl,
        settle_attach_left _ _ _ (by rw [hl.frame])]
      refine Eq.trans (resume_busy _ _ hslb) (hrun n)

/-- Settles O27: what is left of `IN` is read token by token until a read finds too little. -/
theorem deserializeFindsTruncation : Obligations.DeserializeFindsTruncation := by
  intro s T h hsize hpre hcut
  obtain ⟨t, k, hk, hinp, hread, hrun⟩ := runBusy_desTree_cut T (s := desEntry s) (rest := []) (desEntry_busy h) rfl
    (by rw [desEntry_inp h]; exact hpre) (by rw [desEntry_inp h]; exact hcut) (by simpa [desEntry] using hsize)
  rw [desEntry_inp h] at hk hinp
  obtain ⟨hexec, hflags, hout, hfreq, hcode⟩ := exec_deserialize_raise h hk hread hrun
  exact ⟨_, hexec, by simp [Cause.code], by simp, hflags, by simp [hinp], by rw [State.raise_out_bits, hout],
    by simp [hfreq], by simp [hcode]⟩

end Sys2Proof.Machine

namespace Sys2Proof.Machine

open Sys2Proof

/-! ### Forests in the node store (R26, R27, R123, R155)

BUILD and DESERIALIZE keep, between two allocations, a forest: every allocated entry belongs to exactly one tree whose
root nothing owns yet. -/

/-- The child fields of an entry. -/
def Node.kids : Node → List Idx
  | .leaf _ _ => []
  | .internal l r _ => [l, r]

/-- The child fields of the first `n` entries of the store, in index order. -/
def kidsBelow (store : Vector Node 513) (n : Nat) : List Idx := (store.toList.take n).flatMap Node.kids

theorem State.children_eq (s : State) : s.children = kidsBelow s.node s.nnodes.val := by
  refine congrArg (List.flatMap · _) (funext fun x => ?_)
  cases x <;> rfl

theorem kidsBelow_set (store : Vector Node 513) {n : Nat} (x : Node) (h : n < 513) :
    kidsBelow (store.set n x) (n + 1) = kidsBelow store n ++ x.kids := by
  have hlen : n < store.toList.length := by simpa using h
  have htake : (store.set n x).toList.take (n + 1) = store.toList.take n ++ [x] := by
    rw [Vector.toList_set, List.set_eq_take_append_cons_drop, if_pos hlen, List.take_append]
    simp [Nat.le_of_lt h]
  rw [kidsBelow, htake, List.flatMap_append, kidsBelow]
  simp

/-- Children stand before their parents in the first `n` entries (R26, R127). -/
def KidsFirst (store : Vector Node 513) (n : Nat) : Prop :=
  ∀ (i l r : Idx) (w : Weight), i.val < n → store[i] = .internal l r w → l < i ∧ r < i

theorem getElem_set_of_ne (store : Vector Node 513) {n : Nat} (x : Node) (h : n < 513) {i : Idx} (hi : i ≠ ⟨n, h⟩) :
    (store.set n x)[i] = store[i] := by
  have : n ≠ i.val := fun e => hi (Fin.ext e.symm)
  simp [this]

theorem getElem_set_below (store : Vector Node 513) {n : Nat} (x : Node) (h : n < 513) {i : Idx} (hi : i.val < n) :
    (store.set n x)[i] = store[i] :=
  getElem_set_of_ne store x h (Fin.ne_of_lt hi)

theorem getElem_set_at (store : Vector Node 513) {n : Nat} (x : Node) (h : n < 513) :
    (store.set n x)[(⟨n, h⟩ : Idx)] = x := by
  simp

/-- A tree of allocated entries does not see the entry allocated next. -/
theorem holdsWeighted_set {freq : Vector Count 257} {store : Vector Node 513} {n : Nat} (x : Node) (h : n < 513)
    (hkids : KidsFirst store n) (T : HTree) {i : Idx} (hi : i.val < n) :
    holdsWeighted freq (store.set n x) i T = holdsWeighted freq store i T := by
  induction T generalizing i with
  | leaf v => rw [holdsWeighted, holdsWeighted, getElem_set_below store x h hi]
  | node l r ihl ihr =>
    rw [holdsWeighted, holdsWeighted, getElem_set_below store x h hi]
    cases hs : store[i] with
    | leaf v w => rfl
    | internal a b w =>
      obtain ⟨ha, hb⟩ := hkids i a b w hi hs
      simp only [ihl (lt_trans ha hi), ihr (lt_trans hb hi)]

theorem holdsWeighted_leaf_iff {freq : Vector Count 257} {store : Vector Node 513} {i : Idx} {v : Sym} :
    holdsWeighted freq store i (.leaf v) = true ↔ ∃ w, store[i] = .leaf v w ∧ w.toNat = freq[v].toNat := by
  rw [holdsWeighted]
  cases store[i] <;> simp [and_assoc]

theorem holdsWeighted_node_iff {freq : Vector Count 257} {store : Vector Node 513} {i : Idx} {l r : HTree} :
    holdsWeighted freq store i (.node l r) = true ↔
      ∃ a b w, store[i] = .internal a b w ∧ holdsWeighted freq store a l = true ∧ holdsWeighted freq store b r = true ∧
        w.toNat = l.weight freq + r.weight freq := by
  rw [holdsWeighted]
  cases store[i] <;> simp [and_assoc, HTree.weight]

theorem holds_of_holdsWeighted {freq : Vector Count 257} {store : Vector Node 513} (T : HTree) {i : Idx}
    (h : holdsWeighted freq store i T = true) : holds store i T = true := by
  induction T generalizing i with
  | leaf v =>
    obtain ⟨w, hi, -⟩ := holdsWeighted_leaf_iff.mp h
    exact holds_leaf_iff.mpr ⟨w, hi⟩
  | node l r ihl ihr =>
    obtain ⟨a, b, w, hi, ha, hb, -⟩ := holdsWeighted_node_iff.mp h
    exact holds_node_iff.mpr ⟨a, b, w, hi, ihl ha, ihr hb⟩

theorem weight_of_holdsWeighted {freq : Vector Count 257} {store : Vector Node 513} {T : HTree} {i : Idx}
    (h : holdsWeighted freq store i T = true) : store[i].weight.toNat = T.weight freq := by
  cases T with
  | leaf v =>
    obtain ⟨w, hi, hw⟩ := holdsWeighted_leaf_iff.mp h
    rw [hi]
    exact hw
  | node l r =>
    obtain ⟨a, b, w, hi, -, -, hw⟩ := holdsWeighted_node_iff.mp h
    rw [hi]
    exact hw

/-- The first `n` entries of the store are the nodes of the trees under `roots`, no node in two of them, every weight the
sum of the counts below it, and the entry allocated last is a root. -/
structure Forest (freq : Vector Count 257) (store : Vector Node 513) (n : Nat) (roots : List (Idx × HTree)) : Prop where
  trees : ∀ r ∈ roots, holdsWeighted freq store r.1 r.2 = true
  size : (roots.map fun r => r.2.size).sum = n
  allocated : ∀ r ∈ roots, r.1.val < n
  owned : (kidsBelow store n ++ roots.map Prod.fst).Nodup
  kidsFirst : KidsFirst store n
  last : ∀ i : Idx, i.val + 1 = n → i ∈ roots.map Prod.fst

namespace Forest

variable {freq : Vector Count 257} {store : Vector Node 513} {n : Nat} {roots : List (Idx × HTree)}

theorem empty (freq : Vector Count 257) (store : Vector Node 513) : Forest freq store 0 [] where
  trees := by simp
  size := rfl
  allocated := by simp
  owned := by simp [kidsBelow]
  kidsFirst := fun i _ _ _ hi => absurd hi (Nat.not_lt_zero _)
  last := fun i hi => absurd hi (by simp)

theorem perm {roots' : List (Idx × HTree)} (h : Forest freq store n roots) (hp : roots.Perm roots') :
    Forest freq store n roots' where
  trees := fun r hr => h.trees r (hp.mem_iff.mpr hr)
  size := by rw [← h.size]; exact ((hp.map _).sum_eq).symm
  allocated := fun r hr => h.allocated r (hp.mem_iff.mpr hr)
  owned := ((hp.map Prod.fst).append_left _).nodup_iff.mp h.owned
  kidsFirst := h.kidsFirst
  last := fun i hi => (hp.map Prod.fst).mem_iff.mp (h.last i hi)

theorem kids_lt (h : Forest freq store n roots) {i : Idx} (hi : i ∈ kidsBelow store n) : i.val < n := by
  obtain ⟨x, hx, hix⟩ := List.mem_flatMap.mp hi
  obtain ⟨j, hj, hget⟩ := List.mem_take_iff_getElem.mp hx
  have hj' : j < 513 ∧ j < n := by simp at hj; omega
  have hget' : store[(⟨j, hj'.1⟩ : Idx)] = x := by simpa using hget
  cases x with
  | leaf v w => cases hix
  | internal l r w =>
    obtain ⟨hl, hr⟩ := h.kidsFirst ⟨j, hj'.1⟩ l r w hj'.2 hget'
    obtain rfl | rfl := by simpa [Node.kids] using hix
    · exact lt_trans hl hj'.2
    · exact lt_trans hr hj'.2

/-- The next entry allocated owns the roots `taken`, and is a root itself. -/
theorem alloc {taken : List (Idx × HTree)} (h : Forest freq store n (taken ++ roots)) (hn : n < 513) {x : Node} {T : HTree}
    (hkids : x.kids = taken.map Prod.fst) (hsize : T.size = (taken.map fun r => r.2.size).sum + 1)
    (hT : holdsWeighted freq (store.set n x) ⟨n, hn⟩ T = true) :
    Forest freq (store.set n x) (n + 1) ((⟨n, hn⟩, T) :: roots) where
  trees := by
    refine List.forall_mem_cons.mpr ⟨hT, fun r hr => ?_⟩
    have hr := List.mem_append_right taken hr
    rw [holdsWeighted_set _ hn h.kidsFirst _ (h.allocated r hr)]
    exact h.trees r hr
  size := by
    have hold := h.size
    rw [List.map_append, List.sum_append] at hold
    rw [List.map_cons, List.sum_cons, hsize, ← hold]
    omega
  allocated := List.forall_mem_cons.mpr
    ⟨Nat.lt_succ_self n, fun r hr => Nat.lt_succ_of_lt (h.allocated r (List.mem_append_right taken hr))⟩
  owned := by
    have hnew : (⟨n, hn⟩ : Idx) ∉ kidsBelow store n ++ (taken ++ roots).map Prod.fst := by
      rw [List.mem_append, not_or]
      refine ⟨fun hk => absurd (h.kids_lt hk) (lt_irrefl n), fun hr => ?_⟩
      obtain ⟨r, hr, he⟩ := List.mem_map.mp hr
      exact absurd (congrArg Fin.val he) (h.allocated r hr).ne
    rw [kidsBelow_set _ _ hn, hkids, List.map_cons]
    refine (List.perm_middle.nodup_iff).mpr ?_
    rw [List.append_assoc, ← List.map_append]
    exact List.nodup_cons.mpr ⟨hnew, h.owned⟩
  kidsFirst := by
    intro i l r w hi hs
    obtain hi | rfl : i.val < n ∨ i = ⟨n, hn⟩ := (Nat.lt_succ_iff_lt_or_eq.mp hi).imp_right Fin.ext
    · rw [getElem_set_below _ _ hn hi] at hs
      exact h.kidsFirst i l r w hi hs
    · rw [getElem_set_at] at hs
      have hroot : ∀ k ∈ taken.map Prod.fst, k.val < n := fun k hk => by
        obtain ⟨t, ht, rfl⟩ := List.mem_map.mp hk
        exact h.allocated t (List.mem_append_left roots ht)
      rw [← hkids, hs] at hroot
      exact ⟨hroot l (by simp [Node.kids]), hroot r (by simp [Node.kids])⟩
  last := fun i hi => List.mem_cons.mpr (.inl (Fin.ext (Nat.succ.inj hi)))

theorem leaf (h : Forest freq store n roots) (hn : n < 513) {v : Sym} {w : Weight} (hw : w.toNat = freq[v].toNat) :
    Forest freq (store.set n (.leaf v w)) (n + 1) ((⟨n, hn⟩, .leaf v) :: roots) :=
  h.alloc (taken := []) hn rfl rfl (holdsWeighted_leaf_iff.mpr ⟨w, getElem_set_at store _ hn, hw⟩)

theorem node {a b : Idx} {A B : HTree} (h : Forest freq store n ((a, A) :: (b, B) :: roots)) (hn : n < 513) {w : Weight}
    (hw : w.toNat = A.weight freq + B.weight freq) :
    Forest freq (store.set n (.internal a b w)) (n + 1) ((⟨n, hn⟩, .node A B) :: roots) := by
  have held : ∀ r ∈ [(a, A), (b, B)], holdsWeighted freq (store.set n (.internal a b w)) r.1 r.2 = true := fun r hr => by
    have hr := List.mem_append_left roots hr
    rw [holdsWeighted_set _ hn h.kidsFirst _ (h.allocated r hr)]
    exact h.trees r hr
  refine h.alloc (taken := [(a, A), (b, B)]) hn rfl (by simp [HTree.size, Nat.add_assoc]) ?_
  exact holdsWeighted_node_iff.mpr
    ⟨a, b, w, getElem_set_at store _ hn, held (a, A) (by simp), held (b, B) (by simp), hw⟩

/-- Where the whole store is one tree, its root is the entry allocated last. -/
theorem root_last {i : Idx} {T : HTree} (h : Forest freq store n [(i, T)]) (hn : n ≤ 513) : i.val + 1 = n := by
  have hpos : 0 < n := Nat.zero_lt_of_lt (h.allocated (i, T) (by simp))
  have hlast := h.last ⟨n - 1, by omega⟩ (Nat.sub_add_cancel hpos)
  have hi : i = ⟨n - 1, by omega⟩ := (List.mem_singleton.mp hlast).symm
  rw [hi]
  exact Nat.sub_add_cancel hpos

theorem tree_size {i : Idx} {T : HTree} (h : Forest freq store n [(i, T)]) : T.size = n := by
  simpa using h.size

theorem tree_holds {i : Idx} {T : HTree} (h : Forest freq store n [(i, T)]) : holds store i T = true :=
  holds_of_holdsWeighted T (h.trees (i, T) (by simp))

end Forest

/-- A store that is one tree is as R27 says. -/
theorem Forest.treeOk {freq : Vector Count 257} {s : State} {T : HTree}
    (h : Forest freq s.node s.nnodes.val [(s.root, T)]) : s.TreeOk :=
  fun _ => ⟨T, h.tree_holds, by rw [h.tree_size]; omega⟩

/-- A store that is one tree is as R26 says. -/
theorem Forest.stateOwned {freq : Vector Count 257} {s : State} {T : HTree}
    (h : Forest freq s.node s.nnodes.val [(s.root, T)]) : s.Owned := by
  intro _
  have hkids := fun i hi => h.kids_lt (i := i) hi
  rw [s.children_eq]
  exact ⟨(List.nodup_append.mp h.owned).1, hkids, h.root_last (by omega), h.kidsFirst⟩

end Sys2Proof.Machine

namespace Sys2Proof.Machine

open Sys2Proof

/-! ### BUILD: the leaves (R120, R122) and the merges (R123) -/

theorem unit_buildMerge_join {s : State} {rest : List Stage} {a b : Idx} {q q' : List Idx} (h : s.todo = .buildMerge :: rest)
    (hn : s.nnodes.val < 513) (ha : removeMin s s.pq = some (a, q)) (hb : removeMin s q = some (b, q')) :
    unit Config.params s = .next { s with
      node := s.node.set s.nnodes.val (.internal a b (s.weightOf a + s.weightOf b)) hn,
      nnodes := ⟨s.nnodes.val + 1, by omega⟩, pq := q' ++ [⟨s.nnodes.val, hn⟩] } := by
  rw [unit_cons _ h, turn, buildMerge]
  simp only [ha, hb, State.alloc_eq _ hn]
  rfl

theorem removeMin_perm {s : State} {q q' : List Idx} {a : Idx} (h : removeMin s q = some (a, q')) : q.Perm (a :: q') := by
  cases q with
  | nil => cases h
  | cons m l =>
    obtain ⟨rfl, rfl⟩ := Prod.mk.inj (Option.some.inj h)
    exact List.perm_cons_erase (least_mem s m l)

/-- Settles O14: one step is the unit at the merge, and the queue has lost the two nodes it has removed. -/
theorem mergeJoinsTheTwoLeast : Obligations.MergeJoinsTheTwoLeast := by
  intro s rest hb hhost h hn a b q q' ha hq hw
  have hstep : step s = unit Config.params s := by
    have hspace : s.readSpace = none := by rw [State.readSpace, State.running_cons hb h]
    rw [step_idle_host hhost, work_unit hb (State.fetch_of_no_space hspace)]
  have hlen := (removeMin_perm ha).length_eq.trans (congrArg (· + 1) (removeMin_perm hq).length_eq)
  refine ⟨_, ⟨s.nnodes.val, hn⟩, s.weightOf a + s.weightOf b, hstep.trans (unit_buildMerge_join h hn ha hq), rfl,
    getElem_set_at .., BitVec.toNat_add_of_lt hw, rfl, rfl, ?_, fun i hi => ?_, rfl⟩
  · rw [hlen]
    simp
  · exact getElem_set_of_ne s.node _ hn hi

/-- The queue of BUILD holds the roots of a forest over the symbols `vs`, each on one leaf. -/
structure Queued (s : State) (vs : List Sym) (roots : List (Idx × HTree)) : Prop where
  queue : s.pq.Perm (roots.map Prod.fst)
  forest : Forest s.freq s.node s.nnodes.val roots
  syms : (roots.flatMap fun r => r.2.syms).Perm vs

theorem count_setWidth (k : Count) : (k.setWidth 41 : Weight).toNat = k.toNat := by
  rw [BitVec.toNat_setWidth]
  exact Nat.mod_eq_of_lt (by omega)

/-- The leaves: each takes the next entry of the store, and the queue. -/
theorem buildLeavesFrom_leaves (vs : List Sym) {s : State} {us : List Sym} {roots : List (Idx × HTree)}
    (hpos : ∀ v ∈ vs, s.freq[v] ≠ 0) (hroom : s.nnodes.val + vs.length ≤ 513) (hq : Queued s us roots) :
    ∃ (t : State) (roots' : List (Idx × HTree)), buildLeavesFrom Config.params vs s = .leave t ∧
      Queued t (vs ++ us) roots' ∧ roots'.length = vs.length + roots.length ∧ t.nnodes.val = s.nnodes.val + vs.length ∧
      (∀ i : Idx, i.val < s.nnodes.val → t.node[i] = s.node[i]) ∧
      (∀ (k : Nat) (v : Sym) (i : Idx), vs[k]? = some v → i.val = s.nnodes.val + k →
        t.node[i] = .leaf v (s.freq[v].setWidth 41)) ∧
      t = { s with node := t.node, nnodes := t.nnodes, pq := t.pq } := by
  induction vs generalizing s us roots with
  | nil => exact ⟨s, roots, rfl, hq, by simp, rfl, fun _ _ => rfl, by simp, rfl⟩
  | cons v vs ih =>
    rw [List.length_cons] at hroom
    have hn : s.nnodes.val < 513 := by omega
    obtain ⟨t, roots', ht, hqt, hlen, hnn, hbelow, hleaves, hframe⟩ := ih (s := { s with
        node := s.node.set s.nnodes.val (.leaf v (s.freq[v].setWidth 41)) hn, nnodes := ⟨s.nnodes.val + 1, by omega⟩,
        pq := s.pq ++ [⟨s.nnodes.val, hn⟩] }) (us := v :: us) (roots := (⟨s.nnodes.val, hn⟩, .leaf v) :: roots)
      (fun u hu => hpos u (List.mem_cons_of_mem v hu)) (show s.nnodes.val + 1 + vs.length ≤ 513 by omega)
      { queue := (List.perm_append_singleton ..).trans (hq.queue.cons _)
        forest := hq.forest.leaf hn (count_setWidth _)
        syms := hq.syms.cons v }
    refine ⟨t, roots', ?_, ⟨hqt.queue, hqt.forest, hqt.syms.trans List.perm_middle⟩, by simp [hlen]; omega, ?_,
      fun i hi => ?_, fun k u i hk hi => ?_, hframe⟩
    · rw [buildLeavesFrom, if_neg (hpos v List.mem_cons_self), State.alloc_eq _ hn]
      exact ht
    · rw [hnn, List.length_cons]
      exact Nat.add_right_comm ..
    · exact (hbelow i (Nat.lt_succ_of_lt hi)).trans (getElem_set_below _ _ hn hi)
    · cases k with
      | zero =>
        obtain rfl : v = u := by simpa using hk
        obtain rfl : i = ⟨s.nnodes.val, hn⟩ := Fin.ext hi
        exact (hbelow _ (Nat.lt_succ_self _)).trans (getElem_set_at ..)
      | succ k => exact hleaves k u i hk (show i.val = s.nnodes.val + 1 + k by omega)

/-- R124: a tree over distinct symbols has a weight well within 41 bits. -/
theorem HTree.weight_le (freq : Vector Count 257) (T : HTree) : T.weight freq ≤ T.syms.length * 2 ^ 32 := by
  induction T with
  | leaf v => simpa [HTree.weight, HTree.syms] using freq[v].isLt.le
  | node l r ihl ihr => rw [HTree.weight, HTree.syms, List.length_append, Nat.add_mul]; exact Nat.add_le_add ihl ihr

theorem HTree.size_syms (T : HTree) : T.size + 1 = 2 * T.syms.length := by
  induction T with
  | leaf v => rfl
  | node l r ihl ihr => rw [HTree.size, HTree.syms, List.length_append]; omega

theorem sum_size_syms (roots : List (Idx × HTree)) :
    (roots.map fun r => r.2.size).sum + roots.length = 2 * (roots.flatMap fun r => r.2.syms).length := by
  induction roots with
  | nil => rfl
  | cons r roots ih =>
    have hr := r.2.size_syms
    rw [List.map_cons, List.sum_cons, List.flatMap_cons, List.length_append, List.length_cons]
    omega

theorem nodup_sym_length {vs : List Sym} (h : vs.Nodup) : vs.length ≤ 257 := by
  simpa using h.length_le_card

/-- A member of a list's image, with the list and the image reordered to begin with it. -/
theorem exists_root_of_perm {a : Idx} {q : List Idx} {roots : List (Idx × HTree)} (h : (a :: q).Perm (roots.map Prod.fst)) :
    ∃ (A : HTree) (roots' : List (Idx × HTree)), roots.Perm ((a, A) :: roots') ∧ q.Perm (roots'.map Prod.fst) := by
  obtain ⟨⟨i, A⟩, hr, rfl⟩ := List.mem_map.mp (h.mem_iff.mp List.mem_cons_self)
  have hp := List.perm_cons_erase hr
  exact ⟨A, roots.erase (i, A), hp, (h.trans (hp.map Prod.fst)).cons_inv⟩

/-- R120, R123: the merges, until one node is left: its tree carries the symbols of all the leaves. -/
theorem runBusy_buildMerge (m : Nat) {s : State} {rest : List Stage} {vs : List Sym} {roots : List (Idx × HTree)}
    (hb : s.phase = .busy) (h : s.todo = .buildMerge :: rest) (hq : Queued s vs roots) (hvs : vs.Nodup)
    (hm : roots.length = m + 1) :
    ∃ (node : Vector Node 513) (nnodes : Fin 514) (i : Idx) (T : HTree), Forest s.freq node nnodes.val [(i, T)] ∧
      T.syms.Perm vs ∧ (∀ j : Idx, j.val < s.nnodes.val → node[j] = s.node[j]) ∧
      ∀ n, runBusy Config.params (n + (m + 1)) s = runBusy Config.params n
        ({ s with node := node, nnodes := nnodes, root := i, pq := [], todo := rest }.setFlag .treeValid true) := by
  induction m generalizing s roots with
  | zero =>
    obtain ⟨⟨i, T⟩, rfl⟩ := List.length_eq_one_iff.mp hm
    refine ⟨s.node, s.nnodes, i, T, hq.forest, by simpa using hq.syms, fun _ _ => rfl, fun n => ?_⟩
    exact runBusy_busy _ n (unit_buildMerge_root _ h (List.perm_singleton.mp hq.queue)) hb
  | succ m ih =>
    have hpq : s.pq ≠ [] := fun e => by simpa [e, hm] using hq.queue.length_eq
    obtain ⟨a, q, ha, hpa, -⟩ := removeMinTakesTheLeast s s.pq hpq
    obtain ⟨A, roots₁, hroots₁, hq₁⟩ := exists_root_of_perm (hpa.symm.trans hq.queue)
    have hm₁ : roots₁.length = m + 1 := by simpa [hm] using hroots₁.length_eq.symm
    have hq₁ne : q ≠ [] := fun e => by simpa [e, hm₁] using hq₁.length_eq
    obtain ⟨b, q', hb', hpb, -⟩ := removeMinTakesTheLeast s q hq₁ne
    obtain ⟨B, roots₂, hroots₂, hq₂⟩ := exists_root_of_perm (hpb.symm.trans hq₁)
    have hm₂ : roots₂.length = m := by simpa [hm₁] using hroots₂.length_eq.symm
    have hperm := hroots₁.trans (hroots₂.cons (a, A))
    have hforest := hq.forest.perm hperm
    have hsyms : (A.syms ++ (B.syms ++ roots₂.flatMap fun r => r.2.syms)).Perm vs :=
      (hperm.flatMap_right _).symm.trans hq.syms
    have hlen := hsyms.length_eq
    rw [List.length_append, List.length_append] at hlen
    have hcard := nodup_sym_length hvs
    have hn : s.nnodes.val < 513 := by
      have hsum := sum_size_syms roots
      rw [hq.forest.size, hq.syms.length_eq] at hsum
      omega
    have hw : (s.weightOf a + s.weightOf b).toNat = A.weight s.freq + B.weight s.freq := by
      have hwa : (s.weightOf a).toNat = A.weight s.freq := weight_of_holdsWeighted (hforest.trees (a, A) (by simp))
      have hwb : (s.weightOf b).toNat = B.weight s.freq := weight_of_holdsWeighted (hforest.trees (b, B) (by simp))
      have hla := A.weight_le s.freq
      have hlb := B.weight_le s.freq
      rw [BitVec.toNat_add_of_lt (by omega), hwa, hwb]
    obtain ⟨node, nnodes, i, T, hT, hTsyms, hbelow, hrun⟩ := ih (s := { s with
        node := s.node.set s.nnodes.val (.internal a b (s.weightOf a + s.weightOf b)) hn,
        nnodes := ⟨s.nnodes.val + 1, by omega⟩, pq := q' ++ [⟨s.nnodes.val, hn⟩] })
      (roots := (⟨s.nnodes.val, hn⟩, .node A B) :: roots₂) hb h
      { queue := (List.perm_append_singleton ..).trans (hq₂.cons _)
        forest := hforest.node hn hw
        syms := by simpa [HTree.syms] using hsyms } (by simp [hm₂])
    refine ⟨node, nnodes, i, T, hT, hTsyms, fun j hj => ?_, fun n => ?_⟩
    · exact (hbelow j (Nat.lt_succ_of_lt hj)).trans (getElem_set_below _ _ hn hj)
    · exact (runBusy_busy _ (n + (m + 1)) (unit_buildMerge_join h hn ha hb') hb).trans (hrun n)

theorem State.mem_present {s : State} {v : Sym} : v ∈ s.present ↔ s.freq[v] ≠ 0 := by
  simp [State.present]

theorem State.present_nodup (s : State) : s.present.Nodup := (List.nodup_finRange 257).filter _

/-- What BUILD leaves for the counts of `s`: one tree with an internal root over the symbols present, a single one with its
filler beside it (R120, R122, R125, R127). -/
structure Built (s : State) (node : Vector Node 513) (nnodes : Fin 514) (i : Idx) (T : HTree) : Prop where
  forest : Forest s.freq node nnodes.val [(i, T)]
  isNode : T.isNode = true
  nodup : T.syms.Nodup
  present : ∀ v ∈ s.present, v ∈ T.syms
  perm : 2 ≤ s.present.length → T.syms.Perm s.present
  leaves : ∀ (k : Idx) (v : Sym), s.present[k.val]? = some v → node[k] = .leaf v (s.freq[v].setWidth 41)

theorem Built.size_le {s : State} {node : Vector Node 513} {nnodes : Fin 514} {i : Idx} {T : HTree}
    (h : Built s node nnodes i T) : T.size ≤ 513 := by
  rw [h.forest.tree_size]
  omega

theorem HTree.isNode_of_length {T : HTree} (h : 2 ≤ T.syms.length) : T.isNode = true := by
  cases T with
  | leaf v => simp [HTree.syms] at h
  | node l r => rfl

/-- A single symbol's wrapper is what BUILD leaves for it (R125). -/
theorem built_wrapSingle {s : State} {v : Sym} (hp : s.present = [v]) :
    Built s (wrapSingle v (s.freq[v].setWidth 41) s.node) 3 2 (.node (.leaf v) (.leaf (fillerSym v))) where
  forest := by
    have hfiller : s.freq[fillerSym v] = 0 := by
      by_contra hne
      have hmem := State.mem_present.mpr hne
      rw [hp, List.mem_singleton] at hmem
      exact fillerSym_ne v hmem
    have hf := ((Forest.empty s.freq s.node).leaf (by decide) (count_setWidth s.freq[v])).leaf (v := fillerSym v) (w := 0)
      (by decide) (by rw [hfiller]; rfl)
    refine (hf.perm (List.Perm.swap ..)).node (by decide) ?_
    rw [HTree.weight, HTree.weight, hfiller, count_setWidth]
    rfl
  isNode := rfl
  nodup := by simpa [HTree.syms] using (fillerSym_ne v).symm
  present := by simp [hp, HTree.syms]
  perm := by simp [hp]
  leaves := by
    intro k u hk
    have hlt := (List.getElem?_eq_some_iff.mp hk).1
    rw [hp, List.length_singleton] at hlt
    obtain rfl : k = 0 := Fin.ext (Nat.lt_one_iff.mp hlt)
    obtain rfl : v = u := by simpa [hp] using hk
    exact wrapSingle_leaf ..

theorem unit_buildFew_many (p : Params) {s : State} {rest : List Stage} (h : s.todo = .buildFew :: rest)
    (hq : 2 ≤ s.pq.length) : unit p s = .next { s with todo := rest } := by
  rw [unit_cons p h, turn, buildFew]
  match hpq : s.pq with
  | [] => simp [hpq] at hq
  | [a] => simp [hpq] at hq
  | a :: b :: q => simp only [Turn.settle, h, List.tail_cons, hpq]

/-- Only the counts matter. -/
theorem Built.congr {s u : State} {node : Vector Node 513} {nnodes : Fin 514} {i : Idx} {T : HTree}
    (h : Built s node nnodes i T) (hfreq : u.freq = s.freq) : Built u node nnodes i T := by
  have hpresent : u.present = s.present := by rw [State.present, hfreq, State.present]
  exact ⟨hfreq ▸ h.forest, h.isNode, h.nodup, hpresent ▸ h.present, hpresent ▸ h.perm, hpresent ▸ hfreq ▸ h.leaves⟩

/-- BUILD's body on a table with a symbol present. -/
theorem runBusy_buildParts {s : State} {rest : List Stage} (hb : s.phase = .busy)
    (h : s.todo = Command.build.parts ++ rest) (hp : s.present ≠ []) :
    ∃ (node : Vector Node 513) (nnodes : Fin 514) (i : Idx) (T : HTree) (k : Nat), Built s node nnodes i T ∧ k ≤ 260 ∧
      ∀ n, runBusy Config.params (n + k) s = runBusy Config.params n
        ({ s with node := node, nnodes := nnodes, root := i, pq := [], todo := rest }.setFlag .treeValid true) := by
  have hcard := nodup_sym_length s.present_nodup
  match hs : s.present with
  | [] => exact absurd hs hp
  | [v] => exact ⟨_, 3, 2, _, 3, built_wrapSingle hs, by decide, fun n => runBusy_buildParts_one n hb h hs⟩
  | u :: v :: vs =>
    have htwo : 2 ≤ s.present.length := by simp [hs]
    obtain ⟨t, roots, ht, hq, hlen, hn, -, hleaves, hframe⟩ := buildLeavesFrom_leaves s.present
      (s := { s with nnodes := 0, pq := [] }) (us := []) (roots := []) (fun v hv => State.mem_present.mp hv)
      (show 0 + s.present.length ≤ 513 by omega) ⟨.refl _, Forest.empty _ _, .refl _⟩
    have htodo : t.todo = .buildLeaves :: .buildFew :: .buildMerge :: rest := by rw [hframe]; exact h
    have htb : t.phase = .busy := by rw [hframe]; exact hb
    have hfreq : t.freq = s.freq := by rw [hframe]
    have hunit : unit Config.params s = .next { t with todo := .buildFew :: .buildMerge :: rest } := by
      rw [unit_cons _ h, turn, buildLeaves_eq, ht, Turn.settle, htodo, List.tail_cons]
    rw [List.append_nil] at hq
    rw [List.length_nil, Nat.add_zero] at hlen
    have hpq : 2 ≤ t.pq.length := by
      rw [hq.queue.length_eq, List.length_map, hlen]
      exact htwo
    obtain ⟨node, nnodes, i, T, hT, hperm, hbelow, hrun⟩ := runBusy_buildMerge (s.present.length - 1)
      (s := { t with todo := .buildMerge :: rest }) htb rfl ⟨hq.queue, hq.forest, hq.syms⟩ s.present_nodup
      (by rw [hlen]; omega)
    refine ⟨node, nnodes, i, T, s.present.length + 2,
      { forest := by rw [← hfreq]; exact hT
        isNode := HTree.isNode_of_length (by rw [hperm.length_eq]; exact htwo)
        nodup := hperm.nodup_iff.mpr s.present_nodup
        present := fun v hv => hperm.mem_iff.mpr hv
        perm := fun _ => hperm
        leaves := fun k v hk => (hbelow k ?_).trans (hleaves k v k hk (Nat.zero_add _).symm) }, by omega, fun n => ?_⟩
    · rw [hn]
      exact (List.getElem?_eq_some_iff.mp hk).1.trans_eq (Nat.zero_add _).symm
    · rw [show n + (s.present.length + 2) = n + (s.present.length - 1 + 1) + 1 + 1 by omega]
      refine (runBusy_busy _ _ hunit htb).trans ?_
      refine (runBusy_busy _ _ (unit_buildFew_many _ (s := { t with todo := .buildFew :: .buildMerge :: rest }) rfl hpq)
        htb).trans ?_
      refine (hrun n).trans ?_
      rw [hframe]

/-- BUILD presented with its table valid and a symbol present. -/
theorem exec_build_tree {s : State} (h : s.phase = .idle) (hf : s.flag .freqValid = true) (hp : s.present ≠ []) :
    ∃ (node : Vector Node 513) (nnodes : Fin 514) (i : Idx) (T : HTree), Built s node nnodes i T ∧
      exec .build s = .next ({ Command.build.issue s with
        node := node, nnodes := nnodes, root := i, pq := [] }.setFlag .treeValid true).finish := by
  obtain ⟨hrun, htodo⟩ := exec_build h hf
  obtain ⟨node, nnodes, i, T, k, hbuilt, hk, hbody⟩ := runBusy_buildParts (s := Command.build.issue s) (rest := [])
    (Command.issue_busy _ h) htodo (by rw [present_issue _ h]; exact hp)
  exact ⟨node, nnodes, i, T, hbuilt.congr (by rw [Command.issue_frame _ h]),
    Command.run_completes Config.params (c := .build) (by decide) h (by simp [State.meets, Command.build, hf])
      (Nat.lt_of_le_of_lt hk (by decide)) (fun _ _ => hbody) rfl rfl⟩

/-- Settles O15: the forest of leaves, merged until one tree is left. -/
theorem buildMakesTheTree : Obligations.BuildMakesTheTree := by
  intro s h hf hp
  have hne : s.present ≠ [] := fun e => by simp [e] at hp
  obtain ⟨node, nnodes, i, T, hT, hexec⟩ := exec_build_tree h hf hne
  have hperm := hT.perm hp
  have hsize := T.size_syms
  have htree := hT.forest.tree_size
  have hroot := hT.forest.root_last (Nat.le_of_lt_succ nnodes.isLt)
  rw [hperm.length_eq] at hsize
  refine ⟨_, T, hexec, hT.isNode, hT.forest.trees (i, T) (by simp), hperm, ?_, ?_, ?_, ?_⟩
  · exact show nnodes.val = _ by omega
  · exact show i.val = nnodes.val - 1 by omega
  · exact Command.finish_flags_raised (c := .build) (f := .treeValid) h (by decide) rfl
  · rw [Command.issue_frame _ h, State.finish, State.setFlag, h]
    rfl

/-- Settles O16: no merge touches the leaves, which took the first entries. -/
theorem buildAllocatesLeavesInOrder : Obligations.BuildAllocatesLeavesInOrder := by
  intro s h hf hp
  obtain ⟨node, nnodes, i, T, hT, hexec⟩ := exec_build_tree h hf hp
  exact ⟨_, hexec, fun k v hk => ⟨_, hT.leaves k v hk, count_setWidth _⟩⟩

end Sys2Proof.Machine

namespace Sys2Proof.Machine

open Sys2Proof

/-! ### Runs cut into parts -/

/-- The run from `s` comes after `k` units of work to `t`, still running. -/
def Comes (k : Nat) (s t : State) : Prop :=
  ∀ n, runBusy Config.params (n + k) s = runBusy Config.params n t

theorem Comes.refl (s : State) : Comes 0 s s := fun _ => rfl

theorem Comes.trans {k l : Nat} {s t u : State} (h : Comes k s t) (g : Comes l t u) : Comes (l + k) s u := fun n =>
  (congrArg (runBusy Config.params · s) (Nat.add_assoc n l k).symm).trans ((h (n + l)).trans (g n))

theorem Comes.unit {s t : State} (h : unit Config.params s = .next t) (hb : t.phase = .busy) : Comes 1 s t := fun n =>
  runBusy_busy _ n h hb

/-- A run that comes to the end of its pseudocode within its bound completes. -/
theorem Comes.finishes {k n : Nat} {s t : State} (h : Comes k s t) (ht : t.todo = []) (hk : k < n) :
    runBusy Config.params n s = .next t.finish := by
  obtain ⟨m, rfl⟩ : ∃ m, n = m + 1 + k := ⟨n - (k + 1), by omega⟩
  exact (h (m + 1)).trans (runBusy_end _ m (unit_nil _ ht) (by simp))

/-! ### The parts of the composites (R190, R191, R192) -/

section Units

variable {s : State} {rest : List Stage}

theorem unit_implicitClear (p : Params) (h : s.todo = .implicitClear :: rest) :
    unit p s = .next { s.implicitClear with todo := rest } := by
  rw [unit_cons p h, turn, clearForRun, Turn.settle, State.implicitClear_todo, h, List.tail_cons]

theorem unit_discardAll (p : Params) (h : s.todo = .discardAll :: rest) :
    unit p s = .next { s with status := (s.lower [.freqValid, .treeValid, .codeValid]).status, todo := rest } := by
  rw [unit_cons p h, turn, discardAll, Turn.settle, State.lower_todo, h, List.tail_cons]
  rfl

theorem unit_discardTree (p : Params) (h : s.todo = .discardTree :: rest) :
    unit p s = .next { s.lower [.treeValid] with todo := rest } := by
  rw [unit_cons p h, turn, discardTree, Turn.settle, State.lower_todo, h, List.tail_cons]

end Units

/-- A composite presented in `IDLE` runs: it needs no flag (R210). -/
theorem exec_decompress {s : State} (h : s.phase = .idle) :
    exec .decompress s = runBusy Config.params (fuel s) (Command.decompress.issue s) ∧
      (Command.decompress.issue s).todo = Command.decompress.parts :=
  Command.run_of_meets _ (by decide) h rfl

theorem exec_compress {s : State} (h : s.phase = .idle) :
    exec .compress s = runBusy Config.params (fuel s) (Command.compress.issue s) ∧
      (Command.compress.issue s).todo = Command.compress.parts :=
  Command.run_of_meets _ (by decide) h rfl

/-- The flags at the end of a composite, from those of its last state `u`: its bodies may have moved the three valid flags,
which are down again, and `OUT_CLOSED`, which is up. -/
theorem composite_flags {c : Command} {s t u : State} (h : s.phase = .idle) (hc : c.clears = []) (ht : t.status = u.status)
    (hu : ∀ f, u.flag f = if f ∈ [Flag.freqValid, .treeValid, .codeValid] then false else
      if f = .outClosed then true else (c.issue s).flag f)
    (h7 : u.status.getLsbD 7 = (c.issue s).status.getLsbD 7) :
    flagsMove s t.finish [.done, .outClosed] [.busy, .freqValid, .treeValid, .codeValid] = true := by
  refine (flagsMove_iff ..).mpr ⟨fun f => ?_, ?_⟩
  · rw [State.flag_finish, State.flag_congr ht, hu, c.flag_issue h, State.flag_accept, hc]
    cases f <;> simp
  · rw [State.reserved_finish, ht, h7, c.reserved_issue h]

/-- DECOMPRESS's parts on `MAGIC`, a header and a body: where they come to. -/
theorem comes_decompressParts {s : State} {T : HTree} {ps : List (Sym × Bits)} {c tail : Bits} (hb : s.phase = .busy)
    (htodo : s.todo = Command.decompress.parts) (hT : T.isNode = true) (hsize : T.size ≤ 513)
    (hps : ∀ p ∈ ps, p ∈ T.paths ∧ p.1 ≠ sentinel) (hc : (sentinel, c) ∈ T.paths)
    (hin : s.inp.rest = bits 32 Config.magic.toNat ++ (T.header ++ (pathBits ps ++ c ++ tail))) :
    ∃ (node : Vector Node 513) (nnodes : Fin 514) (i j : Idx), holds node i T = true ∧ nnodes.val = T.size ∧
      Comes (1 + (1 + ((pathBits ps).length + ps.length + c.length + 1 + (T.tokenUnits + 1 + (1 + 1))))) s
        { ((s.implicitClear.setFlag .treeValid true).closeOutput.lower [.treeValid]) with
          node := node, nnodes := nnodes, root := i, pending := [], cur := j, todo := [],
          inp := { s.inp with pos := s.inp.pos + 32 + T.header.length + (pathBits ps).length + c.length },
          out := { bits := s.out.bits ++ symBytes ps, closed := true } } := by
  have h₁ := Comes.unit (unit_implicitClear Config.params htodo) hb
  have h₂ := h₁.trans (Comes.unit (unit_rdMagic_match rfl hin) hb)
  obtain ⟨node, nnodes, i, hholds, hnn, -, hdes⟩ := runBusy_deserializeParts (s := { s.implicitClear with
      inp := { s.inp with pos := s.inp.pos + 32 },
      todo := Command.deserialize.parts ++ Command.decode.parts ++ [.closeOut, .discardTree] })
    hb (List.append_assoc ..) (Inp.rest_advance_append hin) hsize
  have h₃ := h₂.trans hdes
  obtain ⟨j, w, -, hdec⟩ := runBusy_decodeParts Config.params (rest := [.closeOut, .discardTree]) (s := ({ s.implicitClear with
      node := node, nnodes := nnodes, root := i, pending := [],
      inp := { s.inp with pos := s.inp.pos + 32 + T.header.length },
      todo := Command.decode.parts ++ [.closeOut, .discardTree] } : State).setFlag .treeValid true)
    hb rfl hholds hT hps hc (Inp.rest_advance_append (Inp.rest_advance_append hin))
  have h₄ := h₃.trans hdec
  have h₅ := h₄.trans (Comes.unit (unit_closeOut _ rfl) hb)
  exact ⟨node, nnodes, i, j, hholds, hnn, h₅.trans (Comes.unit (unit_discardTree _ rfl) hb)⟩

/-- Settles O43: the bodies one after the other, each from where the one before has left `IN`. -/
theorem decompressRecoversTheBytes : Obligations.DecompressRecoversTheBytes := by
  intro s T ps c tail h hT hsize hps hc hin
  obtain ⟨hexec, htodo⟩ := exec_decompress h
  have hinp := Command.issue_inp .decompress h
  simp only [List.append_assoc] at hin
  obtain ⟨node, nnodes, i, j, hholds, hnn, hrun⟩ := comes_decompressParts (Command.issue_busy _ h) htodo hT hsize hps hc
    (by rw [hinp, List.append_assoc (pathBits ps)]; exact hin)
  have hfuel := two_mul_rest_le_fuel s
  have hcodes := length_le_pathBits hT ps fun p hp => (hps p hp).1
  have hunits := T.tokenUnits_le
  have hlen := congrArg List.length hin
  simp only [List.length_append] at hlen
  have hframe := Command.issue_frame .decompress h
  refine ⟨_, hexec.trans (hrun.finishes rfl (by omega)), ?_, rfl, ?_, ?_, ?_, hholds, hnn, ?_, ?_, ?_,
    composite_flags (c := .decompress) h rfl
      (u := ((Command.decompress.issue s).implicitClear.setFlag .treeValid true).closeOutput.lower [.treeValid]) rfl
      (fun f => ?_) ?_⟩
  any_goals rw [hframe]; rfl
  · rw [State.flag_lower, State.flag_closeOutput, State.flag_setFlag, State.flag_implicitClear]
    cases f <;> simp
  · rw [State.reserved_lower, State.closeOutput, State.reserved_setFlag]
    exact (State.reserved_setFlag ..).trans (State.reserved_lower ..)

end Sys2Proof.Machine

namespace Sys2Proof.Machine

open Sys2Proof

/-! ### COMPRESS (R190) -/

theorem countTable_sentinel_present {s : State} {l : List (BitVec 8)} (h : s.freq = countTable l) : sentinel ∈ s.present := by
  rw [State.mem_present, h, countTable_sentinel]
  decide

theorem countTable_literal_present {s : State} {l : List (BitVec 8)} (h : s.freq = countTable l) {v : BitVec 8}
    (hv : v ∈ l) (hfit : l.count v < 2 ^ 32) : literalSym v ∈ s.present := by
  rw [State.mem_present, h, countTable_literal]
  intro hzero
  have hnat := congrArg BitVec.toNat hzero
  rw [BitVec.toNat_ofNat, Nat.mod_eq_of_lt hfit] at hnat
  exact absurd hnat (List.count_pos_iff.mpr hv).ne'

/-- COMPRESS once it has written the header of the tree `T`, which stands in the tables with its codes: the bytes after
`IN`'s position have been counted. -/
def headerWritten (s : State) (node : Vector Node 513) (nnodes : Fin 514) (i : Idx) (T : HTree) : State :=
  { (((s.implicitClear.setFlag .freqValid true).setFlag .treeValid true).setFlag .codeValid true) with
    freq := countTable (wholeBytes s.inp.rest), node := node, nnodes := nnodes, root := i, pq := [],
    code := T.codesInto [] (Vector.replicate 257 []), walk := [],
    inp := { s.inp with pos := s.inp.data.length },
    out := { s.out with bits := s.out.bits ++ bits 32 Config.magic.toNat ++ T.header },
    todo := Command.encode.parts ++ [.closeOut, .discardAll] }

theorem comes_headerWritten {s : State} (hb : s.phase = .busy) (htodo : s.todo = Command.compress.parts)
    (hfit : ∀ v : BitVec 8, (wholeBytes s.inp.rest).count v < 2 ^ 32) :
    ∃ (node : Vector Node 513) (nnodes : Fin 514) (i : Idx) (T : HTree) (k : Nat),
      Built { s with freq := countTable (wholeBytes s.inp.rest) } node nnodes i T ∧
      k ≤ (wholeBytes s.inp.rest).length + 1810 ∧ Comes k s (headerWritten s node nnodes i T) := by
  have h₁ := Comes.unit (unit_implicitClear Config.params htodo) hb
  have h₂ : Comes ((wholeBytes s.inp.rest).length + 3) _ _ := fun n =>
    (congrArg (runBusy Config.params · _) (show _ = n + 1 + (wholeBytes s.inp.rest).length + 2 by omega)).trans
      (runBusy_countParts (rest := Command.compress.parts.drop 4)
        (s := { s.implicitClear with todo := Command.compress.parts.drop 1 }) hb rfl hfit)
  obtain ⟨node, nnodes, i, T, k, hbuilt, hk, h₃⟩ := runBusy_buildParts (rest := Command.compress.parts.drop 7)
    (s := ({ s.implicitClear with
      freq := countTable (wholeBytes s.inp.rest), inp := { s.inp with pos := s.inp.data.length },
      todo := Command.compress.parts.drop 4 } : State).setFlag .freqValid true) hb rfl
    (List.ne_nil_of_mem (countTable_sentinel_present rfl))
  have hholds := hbuilt.forest.tree_holds
  have hsize := hbuilt.size_le
  have hunits := T.tokenUnits_le
  have h₄ : Comes (T.size + 2) _ _ := fun n =>
    runBusy_generateParts Config.params n (T := T) (rest := Command.compress.parts.drop 9)
      (s := (({ s.implicitClear with
        freq := countTable (wholeBytes s.inp.rest), inp := { s.inp with pos := s.inp.data.length },
        node := node, nnodes := nnodes, root := i, pq := [], todo := Command.compress.parts.drop 7 } : State).setFlag
          .freqValid true).setFlag .treeValid true)
      hb rfl hholds hbuilt.isNode hsize
  have h₅ := (((h₁.trans h₂).trans h₃).trans h₄).trans (Comes.unit (unit_wrMagic rfl) hb)
  have h₆ : Comes (T.tokenUnits + 2) _ _ := fun n =>
    runBusy_serializeParts Config.params n (T := T) (rest := Command.compress.parts.drop 12)
      (s := { (((s.implicitClear.setFlag .freqValid true).setFlag .treeValid true).setFlag .codeValid true) with
        freq := countTable (wholeBytes s.inp.rest), node := node, nnodes := nnodes, root := i, pq := [],
        code := T.codesInto [] (Vector.replicate 257 []), walk := [],
        inp := { s.inp with pos := s.inp.data.length },
        out := { s.out with bits := s.out.bits ++ bits 32 Config.magic.toNat },
        todo := Command.compress.parts.drop 10 }) hb rfl hholds
  exact ⟨node, nnodes, i, T, _, hbuilt.congr rfl, by omega, h₅.trans h₆⟩

/-- The units of ENCODE's loop, where no code is longer than `m`. -/
theorem encUnits_le_of_length {code : Sym → Bits} {m : Nat} (hm : ∀ v, (code v).length ≤ m) (l : List (BitVec 8)) :
    encUnits code l ≤ l.length * (m + 2) := by
  induction l with
  | nil => exact Nat.zero_le _
  | cons v l ih =>
    have hv := hm (literalSym v)
    rw [encUnits_cons, List.length_cons, Nat.succ_mul]
    omega

theorem HTree.codeOf_length_le {T : HTree} (hT : T.isNode = true) (hsize : T.size ≤ 513) (v : Sym) :
    (T.codeOf v).length ≤ 256 := by
  by_cases hv : v ∈ T.syms
  · exact (HTree.codeOf_length hT hsize hv).2
  · rw [HTree.codeOf_of_not_mem hv]
    exact Nat.zero_le _

/-- ENCODE's body done: the codes of the bytes of `IN` and of the sentinel are written, and `rest` is to do. -/
def encoded (s : State) (code : Sym → Bits) (rest : List Stage) : State :=
  { s.writeSeq (codesOf code (wholeBytes s.inp.data) ++ code sentinel) with
    inp := { s.inp with pos := s.inp.data.length }, todo := rest }

theorem comes_encoded {s : State} {rest : List Stage} {code : Sym → Bits} (hb : s.phase = .busy)
    (h : s.todo = Command.encode.parts ++ rest) (hcode : ∀ v : Sym, s.code[v] = code v)
    (hbytes : ∀ v ∈ wholeBytes s.inp.data, code (literalSym v) ≠ []) (hsentinel : code sentinel ≠ []) :
    Comes (encUnits code (wholeBytes s.inp.data) + (code sentinel).length + 4) s (encoded s code rest) := by
  obtain rfl : (fun v => s.code[v]) = code := funext hcode
  exact fun n => runBusy_encodeParts _ n hb h hbytes hsentinel

/-- The bound on the units of a command leaves enough for a few codes of at most 256 bits for each byte of `IN`. -/
theorem bytes_le_fuel {s : State} {n : Nat} (h : n ≤ s.inp.data.length) : n * 260 + 4356 ≤ fuel s := by
  have hlong : 256 ≤ s.longestCode := (le_foldl_max_length s.code.toList 256).1
  have hmul := Nat.mul_le_mul (Nat.succ_le_succ h) (Nat.add_le_add_right hlong 4)
  rw [Nat.succ_mul] at hmul
  exact (Nat.add_le_add_right hmul 4096 :)

/-- COMPRESS's last two parts done: `OUT` is closed and the tables are discarded. -/
def discarded (s : State) : State :=
  { s.closeOutput with status := (s.closeOutput.lower [.freqValid, .treeValid, .codeValid]).status, todo := [] }

theorem discarded_flag (s : State) (f : Flag) : (discarded s).flag f =
    if f ∈ [Flag.freqValid, .treeValid, .codeValid] then false else if f = .outClosed then true else s.flag f := by
  have hstatus : (discarded s).status = (s.closeOutput.lower [.freqValid, .treeValid, .codeValid]).status := rfl
  rw [State.flag_congr hstatus, State.flag_lower, State.flag_closeOutput]

theorem discarded_reserved (s : State) : (discarded s).status.getLsbD 7 = s.status.getLsbD 7 :=
  (State.reserved_lower ..).trans (State.reserved_setFlag _ .outClosed true)

theorem comes_discarded {s : State} (hb : s.phase = .busy) (h : s.todo = [.closeOut, .discardAll]) :
    Comes 2 s (discarded s) :=
  (Comes.unit (unit_closeOut _ h) hb).trans
    (Comes.unit (unit_discardAll _ (s := { s.closeOutput with todo := [.discardAll] }) rfl) hb)

/-- COMPRESS at its end, before completion: the stream written and the tables discarded. -/
def streamWritten (s : State) (node : Vector Node 513) (nnodes : Fin 514) (i : Idx) (T : HTree) : State :=
  discarded (encoded (headerWritten s node nnodes i T) T.codeOf [.closeOut, .discardAll])

theorem headerWritten_status (s : State) (node : Vector Node 513) (nnodes : Fin 514) (i : Idx) (T : HTree) :
    (headerWritten s node nnodes i T).status =
      (((s.implicitClear.setFlag .freqValid true).setFlag .treeValid true).setFlag .codeValid true).status := rfl

theorem streamWritten_out (s : State) (node : Vector Node 513) (nnodes : Fin 514) (i : Idx) (T : HTree) :
    (streamWritten s node nnodes i T).out = {
      bits := s.out.bits ++ bits 32 Config.magic.toNat ++ T.header ++
        codesOf T.codeOf (wholeBytes s.inp.data) ++ T.codeOf sentinel
      closed := true } := by
  rw [List.append_assoc _ (codesOf ..)]
  rfl

theorem streamWritten_flag (s : State) (node : Vector Node 513) (nnodes : Fin 514) (i : Idx) (T : HTree) (f : Flag) :
    (streamWritten s node nnodes i T).flag f = if f ∈ [Flag.freqValid, .treeValid, .codeValid] then false else
      if f = .outClosed then true else s.flag f := by
  have hencoded : (encoded (headerWritten s node nnodes i T) T.codeOf [.closeOut, .discardAll]).status =
    (headerWritten s node nnodes i T).status := rfl
  rw [streamWritten, discarded_flag, State.flag_congr hencoded, State.flag_congr (headerWritten_status ..),
    State.flag_setFlag, State.flag_setFlag, State.flag_setFlag, State.flag_implicitClear]
  cases f <;> simp

theorem streamWritten_reserved (s : State) (node : Vector Node 513) (nnodes : Fin 514) (i : Idx) (T : HTree) :
    (streamWritten s node nnodes i T).status.getLsbD 7 = s.status.getLsbD 7 := by
  refine (discarded_reserved _).trans
    ((congrArg (BitVec.getLsbD · 7) (headerWritten_status s node nnodes i T)).trans ?_)
  rw [State.reserved_setFlag, State.reserved_setFlag, State.reserved_setFlag]
  exact State.reserved_lower ..

/-- COMPRESS's parts on an input at its start whose bytes fit the counters. -/
theorem comes_streamWritten {s : State} (hb : s.phase = .busy) (htodo : s.todo = Command.compress.parts)
    (hpos : s.inp.pos = 0) (hfit : ∀ v : BitVec 8, (wholeBytes s.inp.data).count v < 2 ^ 32) :
    ∃ (node : Vector Node 513) (nnodes : Fin 514) (i : Idx) (T : HTree) (k : Nat), T.isNode = true ∧ T.size ≤ 513 ∧
      T.syms.Nodup ∧ (∀ v ∈ wholeBytes s.inp.data, literalSym v ∈ T.syms) ∧ sentinel ∈ T.syms ∧
      k ≤ s.inp.data.length * 260 + 2100 ∧ Comes k s (streamWritten s node nnodes i T) := by
  have hrest : s.inp.rest = s.inp.data := by rw [Inp.rest, hpos, List.drop_zero]
  obtain ⟨node, nnodes, i, T, k, hbuilt, hk, hheader⟩ := comes_headerWritten hb htodo (by rw [hrest]; exact hfit)
  rw [hrest] at hbuilt hk
  have hsyms : ∀ v ∈ wholeBytes s.inp.data, literalSym v ∈ T.syms := fun v hv =>
    hbuilt.present _ (countTable_literal_present rfl hv (hfit v))
  have hsentinel : sentinel ∈ T.syms := hbuilt.present _ (countTable_sentinel_present rfl)
  have hne : ∀ v ∈ T.syms, T.codeOf v ≠ [] := fun v hv => HTree.path_ne_nil hbuilt.isNode (HTree.codeOf_mem hv)
  have hencode := comes_encoded (s := headerWritten s node nnodes i T) (rest := [.closeOut, .discardAll])
    (code := T.codeOf) hb rfl T.codesInto_codeOf (fun v hv => hne _ (hsyms v hv)) (hne _ hsentinel)
  have hbytes := wholeBytes_length_le s.inp.data
  have hunits : encUnits T.codeOf (wholeBytes (headerWritten s node nnodes i T).inp.data) ≤ _ :=
    encUnits_le_of_length (HTree.codeOf_length_le hbuilt.isNode hbuilt.size_le) (wholeBytes s.inp.data)
  have hlast := HTree.codeOf_length_le hbuilt.isNode hbuilt.size_le sentinel
  exact ⟨node, nnodes, i, T, _, hbuilt.isNode, hbuilt.size_le, hbuilt.nodup, hsyms, hsentinel, by omega,
    (hheader.trans hencode).trans (comes_discarded hb rfl)⟩

/-- Settles O41: the bodies one after the other on the tables that COUNT, BUILD and GENERATE leave. -/
theorem compressWritesTheStream : Obligations.CompressWritesTheStream := by
  intro s h hpos hfit
  obtain ⟨hexec, htodo⟩ := exec_compress h
  have hinp := Command.issue_inp .compress h
  obtain ⟨node, nnodes, i, T, k, hT, -, hnodup, hsyms, hsentinel, hk, hrun⟩ := comes_streamWritten
    (Command.issue_busy .compress h) htodo (by rw [hinp]; exact hpos) (by rw [hinp]; exact hfit)
  rw [hinp] at hsyms hk
  have hfuel := bytes_le_fuel (Nat.le_refl s.inp.data.length)
  have hframe := Command.issue_frame .compress h
  refine ⟨_, T, hexec.trans (hrun.finishes rfl (by omega)), hT, hnodup, hsyms, hsentinel, ?_, ?_, rfl, ?_, ?_, ?_, ?_,
    composite_flags (c := .compress) h rfl rfl (fun f => streamWritten_flag ..) (streamWritten_reserved ..)⟩
  · rw [State.finish_out, streamWritten_out, Command.issue_out _ h, hinp]
  all_goals rw [hframe]; rfl

/-! ### The round trip (R195) -/

/-- The leaves a list of bytes leads to in the tree `T`. -/
def HTree.leavesOf (T : HTree) (X : List (BitVec 8)) : List (Sym × Bits) :=
  X.map fun v => (literalSym v, T.codeOf (literalSym v))

theorem HTree.pathBits_leavesOf (T : HTree) (X : List (BitVec 8)) : pathBits (T.leavesOf X) = codesOf T.codeOf X := by
  induction X with
  | nil => rfl
  | cons v X ih => exact congrArg (T.codeOf (literalSym v) ++ ·) ih

theorem HTree.symBytes_leavesOf (T : HTree) (X : List (BitVec 8)) : symBytes (T.leavesOf X) = unpackBytes X := by
  induction X with
  | nil => rfl
  | cons v X ih => exact congrArg (bits 8 v.toNat ++ ·) ih

/-- Settles O45: the stream COMPRESS writes is one that DECOMPRESS takes apart, for the tree that it was written with. -/
theorem roundTrip : Obligations.RoundTrip := by
  intro s X h hin hout hfit
  have hdata : wholeBytes s.inp.data = X := by rw [hin]; exact Tests.wholeBytes_unpackBytes X
  obtain ⟨t, T, hexec, hT, hnodup, hsyms, hsentinel, htout, -, hphase, -⟩ :=
    compressWritesTheStream s h (by rw [hin]) (by rw [hdata]; exact hfit)
  rw [hdata] at hsyms htout
  rw [hout, List.nil_append, ← T.pathBits_leavesOf] at htout
  have hsize : T.size ≤ 513 := by
    have hsum := T.size_syms
    have hcard := nodup_sym_length hnodup
    omega
  refine ⟨t, hexec, hphase, fun u tail hu huin huout => ?_⟩
  have hps : ∀ p ∈ T.leavesOf X, p ∈ T.paths ∧ p.1 ≠ sentinel := fun p hp => by
    obtain ⟨v, hv, rfl⟩ := List.mem_map.mp hp
    exact ⟨HTree.codeOf_mem (hsyms v hv), literalSym_ne_sentinel v⟩
  obtain ⟨w, hdexec, -, hwphase, -, hwout, hwinp, -⟩ := decompressRecoversTheBytes u T (T.leavesOf X) (T.codeOf sentinel)
    tail hu hT hsize hps (HTree.codeOf_mem hsentinel) (by rw [huin, htout]; rfl)
  refine ⟨w, hdexec, hwphase, ?_, ?_⟩
  · rw [hwout, huout, T.symBytes_leavesOf, List.nil_append]
  · rw [hwinp, huin, htout]
    simp only [List.length_append, bits_length, Nat.zero_add]

end Sys2Proof.Machine

namespace Sys2Proof.Machine

open Sys2Proof

/-! ### Bodies that end on every input (R244) -/

/-- The run from `s` enters, within `k` units of work, a fault raised in `t`. -/
def Faults (k : Nat) (s t : State) : Prop :=
  ∃ c, ∀ n, runBusy Config.params (n + k) s = .next (t.raise c)

theorem Faults.raised {s t : State} {c : Cause} (h : unit Config.params s = (Turn.raise c t).settle)
    (hb : t.phase = .busy) : Faults 2 s t :=
  ⟨c, fun n => runBusy_raise _ n h hb⟩

theorem Comes.faults {k l : Nat} {s t u : State} (h : Comes k s t) (g : Faults l t u) : Faults (l + k) s u := by
  obtain ⟨c, hc⟩ := g
  exact ⟨c, fun n => (congrArg (runBusy Config.params · s) (Nat.add_assoc n l k).symm).trans ((h (n + l)).trans (hc n))⟩

/-- Within `k` units of work the run from `s` comes to a running state of which `P` holds, or enters a fault raised in a
state of which `Q` holds. -/
def Leads (k : Nat) (s : State) (P Q : State → Prop) : Prop :=
  (∃ j t, j ≤ k ∧ P t ∧ Comes j s t) ∨ ∃ j t, j ≤ k ∧ Q t ∧ Faults j s t

theorem Leads.refl {s : State} {P Q : State → Prop} (h : P s) : Leads 0 s P Q :=
  .inl ⟨0, s, Nat.le_refl 0, h, .refl s⟩

theorem Leads.mono {k l : Nat} {s : State} {P Q P' Q' : State → Prop} (h : Leads k s P Q) (hkl : k ≤ l)
    (hP : ∀ t, P t → P' t) (hQ : ∀ t, Q t → Q' t) : Leads l s P' Q' := by
  obtain ⟨j, t, hj, ht, hrun⟩ | ⟨j, t, hj, ht, hrun⟩ := h
  · exact .inl ⟨j, t, hj.trans hkl, hP t ht, hrun⟩
  · exact .inr ⟨j, t, hj.trans hkl, hQ t ht, hrun⟩

theorem Comes.leads {k l : Nat} {s t : State} {P Q : State → Prop} (h : Comes k s t) (g : Leads l t P Q) :
    Leads (l + k) s P Q := by
  obtain ⟨j, u, hj, hu, hrun⟩ | ⟨j, u, hj, hu, hrun⟩ := g
  · exact .inl ⟨j + k, u, Nat.add_le_add_right hj k, hu, h.trans hrun⟩
  · exact .inr ⟨j + k, u, Nat.add_le_add_right hj k, hu, h.faults hrun⟩

theorem Leads.bind {k l : Nat} {s : State} {P P' Q : State → Prop} (h : Leads k s P Q)
    (g : ∀ t, P t → Leads l t P' Q) : Leads (l + k) s P' Q := by
  obtain ⟨j, t, hj, ht, hrun⟩ | ⟨j, t, hj, ht, hrun⟩ := h
  · exact (hrun.leads (g t ht)).mono (Nat.add_le_add_left hj l) (fun _ => id) fun _ => id
  · exact .inr ⟨j, t, hj.trans (Nat.le_add_left k l), ht, hrun⟩

theorem Comes.leadsTo {k m : Nat} {s t : State} {P Q : State → Prop} (h : Comes k s t) (hk : k ≤ m) (ht : P t) :
    Leads m s P Q :=
  .inl ⟨k, t, hk, ht, h⟩

theorem Faults.leads {k m : Nat} {s t : State} {P Q : State → Prop} (h : Faults k s t) (hk : k ≤ m) (ht : Q t) :
    Leads m s P Q :=
  .inr ⟨k, t, hk, ht, h⟩

/-- A body that leads to the end of the pseudocode, or to a fault, within the bound of its command ends it. -/
theorem Leads.ends {k n : Nat} {s : State} {P Q : State → Prop} (h : Leads k s (fun t => t.todo = [] ∧ P t) Q)
    (hk : k < n) : ∃ u, (P u ∧ runBusy Config.params n s = .next u.finish) ∨
      ∃ c, Q u ∧ runBusy Config.params n s = .next (u.raise c) := by
  obtain ⟨j, t, hj, ⟨htodo, ht⟩, hrun⟩ | ⟨j, t, hj, ht, c, hrun⟩ := h
  · exact ⟨t, .inl ⟨ht, hrun.finishes htodo (Nat.lt_of_le_of_lt hj hk)⟩⟩
  · obtain ⟨m, rfl⟩ : ∃ m, n = m + j := ⟨n - j, by omega⟩
    exact ⟨t, .inr ⟨c, ht, hrun m⟩⟩

/-- From `s` to `t` the tree has stayed where it was, and the content of `IN`. -/
structure SameTree (s t : State) : Prop where
  node : t.node = s.node
  nnodes : t.nnodes = s.nnodes
  root : t.root = s.root
  status : t.status = s.status
  data : t.inp.data = s.inp.data

theorem SameTree.refl (s : State) : SameTree s s := ⟨rfl, rfl, rfl, rfl, rfl⟩

theorem SameTree.trans {s t u : State} (h : SameTree s t) (k : SameTree t u) : SameTree s u :=
  ⟨k.node.trans h.node, k.nnodes.trans h.nnodes, k.root.trans h.root, k.status.trans h.status,
    k.data.trans h.data⟩

/-- A running state that stands before the parts `rest`. -/
structure At (rest : List Stage) (s : State) : Prop where
  busy : s.phase = .busy
  todo : s.todo = rest

/-- Within `k` units of work the run from `s` comes to the parts `rest`, or faults; the tree stays as it is. -/
def LeadsPast (k : Nat) (s : State) (rest : List Stage) : Prop :=
  Leads k s (fun t => At rest t ∧ SameTree s t) (SameTree s)

theorem Comes.leadsPast {k l m : Nat} {s u : State} {rest : List Stage} (h : Comes k s u) (hsame : SameTree s u)
    (g : LeadsPast l u rest) (hm : l + k ≤ m) : LeadsPast m s rest :=
  (h.leads g).mono hm (fun _ ht => ⟨ht.1, hsame.trans ht.2⟩) fun _ ht => hsame.trans ht

theorem Faults.leadsPast {k m : Nat} {s u : State} {rest : List Stage} (h : Faults k s u) (hsame : SameTree s u)
    (hm : k ≤ m) : LeadsPast m s rest :=
  .inr ⟨k, u, hm, hsame, h⟩

theorem At.leadsPast {s : State} {rest : List Stage} (h : At rest s) : LeadsPast 0 s rest :=
  .refl ⟨h, .refl s⟩

theorem comes_encEmit {s : State} {c : Bits} {rest : List Stage} (hb : s.phase = .busy) (h : s.todo = .encEmit c :: rest) :
    Comes (c.length + 1) s { s.writeSeq c with todo := rest } := fun _ => runBusy_encEmit _ c hb h

/-- ENCODE's loop and what comes after it, whether the codes are there or not. -/
theorem leads_encLoop (l : List (BitVec 8)) {m : Nat} {s : State} {rest : List Stage} (hb : s.phase = .busy)
    (h : s.todo = .encLoop :: .encSentinel :: rest) (hin : wholeBytes s.inp.rest = l) (hm : ∀ v : Sym, s.code[v].length ≤ m) :
    LeadsPast (l.length * (m + 2) + m + 4) s rest := by
  induction l generalizing s with
  | nil =>
    have heos := Comes.unit (unit_encLoop_eos _ h (length_lt_of_wholeBytes_nil hin)) hb
    by_cases hcode : s.code[sentinel] = []
    · exact (heos.faults (Faults.raised (unit_encSentinel_missing _ rfl hcode) hb)).leadsPast ⟨rfl, rfl, rfl, rfl, rfl⟩ (by omega)
    · have hlast := hm sentinel
      have hemit := (heos.trans (Comes.unit (unit_encSentinel_code _ rfl hcode) hb)).trans (comes_encEmit hb rfl)
      refine hemit.leadsPast ⟨rfl, rfl, rfl, rfl, rfl⟩ (At.leadsPast ⟨hb, rfl⟩) ?_
      show 0 + (s.code[sentinel].length + 1 + (1 + 1)) ≤ 0 * (m + 2) + m + 4
      omega
  | cons v l ih =>
    obtain ⟨tail, hbits, htail⟩ := bits_of_wholeBytes_cons hin
    by_cases hcode : s.code[literalSym v] = []
    · exact (Faults.raised (unit_encLoop_missing _ h hbits hcode) hb).leadsPast ⟨rfl, rfl, rfl, rfl, rfl⟩ (by omega)
    · have hlen := hm (literalSym v)
      have hread := (Comes.unit (unit_encLoop_code _ h hbits hcode) hb).trans (comes_encEmit hb rfl)
      have hnext := ih (s := { s.writeSeq s.code[literalSym v] with
        inp := { s.inp with pos := s.inp.pos + 8 }, todo := .encLoop :: .encSentinel :: rest })
        hb rfl ((wholeBytes_rest_advance hbits).trans htail) hm
      refine hread.leadsPast ⟨rfl, rfl, rfl, rfl, rfl⟩ hnext ?_
      rw [List.length_cons, Nat.succ_mul]
      omega

theorem leads_encodeParts {m : Nat} {s : State} {rest : List Stage} (hb : s.phase = .busy)
    (h : s.todo = Command.encode.parts ++ rest) (hm : ∀ v : Sym, s.code[v].length ≤ m) :
    LeadsPast (s.inp.data.length * (m + 2) + m + 5) s rest := by
  have hloop := leads_encLoop (wholeBytes s.inp.data) (s := { s with
    inp := { s.inp with pos := 0 }, todo := .encLoop :: .encSentinel :: rest }) hb rfl rfl hm
  have hmul := Nat.mul_le_mul_right (m + 2) (wholeBytes_length_le s.inp.data)
  exact (Comes.unit (unit_encRewind _ h) hb).leadsPast ⟨rfl, rfl, rfl, rfl, rfl⟩ hloop (by omega)

/-- DECODE's loop in the tree `T`, at an internal node `U` of it or at a leaf that is its root. -/
theorem leads_decLoop {T : HTree} (bs : Bits) {s : State} {U : HTree} {rest : List Stage} (hb : s.phase = .busy)
    (h : s.todo = .decLoop :: rest) (hroot : holds s.node s.root T = true) (hcur : holds s.node s.cur U = true)
    (hin : s.inp.rest = bs) :
    LeadsPast (2 * bs.length + 2) s rest := by
  induction bs generalizing s U with
  | nil => exact (Faults.raised (unit_decLoop_eos _ h hin) hb).leadsPast ⟨rfl, rfl, rfl, rfl, rfl⟩ (by omega)
  | cons bit bs ih =>
    have hrest : ({ s.inp with pos := s.inp.pos + 1 } : Inp).rest = bs := Inp.rest_advance_append (a := [bit]) hin
    cases U with
    | leaf u =>
      obtain ⟨w, hleaf⟩ := holds_leaf_iff.mp hcur
      exact (Faults.raised (unit_decLoop_leaf _ h hin hleaf) hb).leadsPast ⟨rfl, rfl, rfl, rfl, rfl⟩ (by omega)
    | node l r =>
      obtain ⟨j, hchild, hunit⟩ := unit_decLoop_node Config.params h hin hcur
      generalize (if bit then r else l) = V at hchild
      have hmove := Comes.unit hunit hb
      cases V with
      | node l' r' =>
        rw [decNext_of_isNode rest hchild rfl] at hmove
        refine hmove.leadsPast ⟨rfl, rfl, rfl, rfl, rfl⟩ (ih hb rfl hroot hchild hrest) ?_
        rw [List.length_cons]
        omega
      | leaf v =>
        obtain ⟨w, hj⟩ := holds_leaf_iff.mp hchild
        rw [hj] at hmove
        by_cases hv : v = sentinel
        · rw [hv, decNext_sentinel] at hmove
          exact hmove.leadsPast ⟨rfl, rfl, rfl, rfl, rfl⟩ (At.leadsPast ⟨hb, rfl⟩) (by omega)
        · rw [decNext_byte rest w hv] at hmove
          have hbyte := hmove.trans (Comes.unit (unit_decEmit _ rfl) hb)
          refine hbyte.leadsPast ⟨rfl, rfl, rfl, rfl, rfl⟩ (ih hb rfl hroot hroot hrest) ?_
          rw [List.length_cons]
          omega

theorem Inp.rest_length_le (i : Inp) : i.rest.length ≤ i.data.length := by
  rw [Inp.rest, List.length_drop]
  omega

theorem leads_decodeParts {T : HTree} {s : State} {rest : List Stage} (hb : s.phase = .busy)
    (h : s.todo = Command.decode.parts ++ rest) (hroot : holds s.node s.root T = true) :
    LeadsPast (2 * s.inp.data.length + 3) s rest := by
  have hloop := leads_decLoop s.inp.rest (s := { s with cur := s.root, todo := .decLoop :: rest }) (U := T) hb rfl
    hroot hroot rfl
  have hlen := s.inp.rest_length_le
  exact (Comes.unit (unit_decStart _ h) hb).leadsPast ⟨rfl, rfl, rfl, rfl, rfl⟩ hloop (by omega)

end Sys2Proof.Machine

namespace Sys2Proof.Machine

open Sys2Proof

/-! ### DESERIALIZE on any input (R153 to R155) -/

/-- The counts of no symbol: a tree read from a header has weight 0 throughout (R154, R155). -/
def noCounts : Vector Count 257 := Vector.replicate 257 0

theorem HTree.weight_noCounts (T : HTree) : T.weight noCounts = 0 := by
  induction T with
  | leaf v => simp [HTree.weight, noCounts]
  | node l r ihl ihr => rw [HTree.weight, ihl, ihr]

/-- The left subtrees complete under the open internal nodes, innermost first. -/
def leftRoots : List Pending → List Idx
  | [] => []
  | .left :: st => leftRoots st
  | .right i :: st => i :: leftRoots st

/-- DESERIALIZE between two tokens: the entries allocated are the trees under the open nodes' left children. -/
structure Reading (s : State) (roots : List (Idx × HTree)) : Prop where
  forest : Forest noCounts s.node s.nnodes.val roots
  open_ : roots.map Prod.fst = leftRoots s.pending

/-- From `s` to `t` only nodes have been allocated and open nodes closed. -/
def Allocated (s t : State) : Prop := t = { s with node := t.node, nnodes := t.nnodes, pending := t.pending }

theorem Allocated.trans {s t u : State} (h : Allocated s t) (k : Allocated t u) : Allocated s u := by
  rw [Allocated] at *
  rw [k, h]

/-- How a leaf token's turn ends: with the tree complete, with more tokens to read, or in a fault. -/
inductive Grows (s : State) : Turn → Prop
  | tree (u : State) (i : Idx) (T : HTree) (hu : Allocated s u) (h : Forest noCounts u.node u.nnodes.val [(i, T)]) :
      Grows s (.leave ({ u with root := i, pending := [] }.setFlag .treeValid true))
  | more (u : State) (roots : List (Idx × HTree)) (hu : Allocated s u) (h : Reading u roots) : Grows s (.again u)
  | fault (c : Cause) (u : State) (hu : Allocated s u) : Grows s (.raise c u)

theorem Grows.of_allocated {s t : State} {T : Turn} (h : Allocated s t) (hT : Grows t T) : Grows s T := by
  cases hT with
  | tree u i U hu hf => exact .tree u i U (h.trans hu) hf
  | more u roots hu hr => exact .more u roots (h.trans hu) hr
  | fault c u hu => exact .fault c u (h.trans hu)

/-- A complete subtree completes the open nodes whose right child it is, innermost first. -/
theorem attach_grows (st : List Pending) {i : Idx} {T : HTree} {s : State} {roots : List (Idx × HTree)}
    (hf : Forest noCounts s.node s.nnodes.val ((i, T) :: roots)) (hst : roots.map Prod.fst = leftRoots st) :
    Grows s (attach Config.params i st s) := by
  induction st generalizing i T s roots with
  | nil =>
    obtain rfl : roots = [] := List.map_eq_nil_iff.mp hst
    exact .tree s i T rfl hf
  | cons f st ih =>
    cases f with
    | left => exact .more { s with pending := .right i :: st } ((i, T) :: roots) rfl ⟨hf, congrArg (i :: ·) hst⟩
    | right l =>
      obtain ⟨⟨j, L⟩, roots', rfl, rfl, hroots⟩ := List.map_eq_cons_iff.mp hst
      by_cases hn : s.nnodes.val < 513
      · rw [attach_right (State.alloc_eq _ hn)]
        refine Grows.of_allocated ?_ (ih ((hf.perm (List.Perm.swap ..)).node hn (w := 0) ?_) hroots)
        · rfl
        · rw [L.weight_noCounts, T.weight_noCounts]
          rfl
      · rw [attach_full (by omega)]
        exact .fault _ _ rfl

theorem desLeaf_grows (f : BitVec 9) {s : State} {roots : List (Idx × HTree)} (hs : Reading s roots) :
    Grows s (desLeaf Config.params f s) := by
  rw [desLeaf]
  split
  · by_cases hn : s.nnodes.val < 513
    · rw [State.alloc_eq _ hn]
      refine Grows.of_allocated ?_ (attach_grows s.pending (hs.forest.leaf hn ?_) hs.open_)
      · rfl
      · simp [noCounts]
    · rw [(State.alloc_none_iff ..).mpr (by omega)]
      exact .fault _ _ rfl
  · exact .fault _ _ rfl

theorem exists_field {bs : Bits} {n : Nat} (h : n ≤ bs.length) :
    ∃ (f : BitVec n) (tail : Bits), bs = bits n f.toNat ++ tail := by
  have hlen : (bs.take n).length = n := by rw [List.length_take]; omega
  have hbits := bits_val (bs.take n)
  have hlt := val_lt (bs.take n)
  rw [hlen] at hbits hlt
  refine ⟨BitVec.ofNat n (val (bs.take n)), bs.drop n, ?_⟩
  rw [BitVec.toNat_ofNat, Nat.mod_eq_of_lt hlt, hbits, List.take_append_drop]

/-- A store that is one tree, with `IN` the same but for its position, before the parts `rest`. -/
structure TreeDone (s : State) (rest : List Stage) (t : State) : Prop where
  place : At rest t
  tree : ∃ T, Forest noCounts t.node t.nnodes.val [(t.root, T)]
  data : t.inp.data = s.inp.data

/-- DESERIALIZE's loop reads tokens until the tree is complete, or faults; `TREE_VALID` is raised with the tree only. -/
theorem leads_desLoop (n : Nat) {s : State} {rest : List Stage} {roots : List (Idx × HTree)} (hb : s.phase = .busy)
    (h : s.todo = .desLoop :: rest) (hs : Reading s roots) (hn : s.inp.rest.length ≤ n) :
    Leads (n + 2) s (TreeDone s rest) (fun t => t.status = s.status) := by
  induction n using Nat.strongRecOn generalizing s roots with
  | ind n ih =>
    match hin : s.inp.rest with
    | [] =>
      exact (Faults.raised (unit_desLoop_eos _ h hin) hb).leads (Nat.le_add_left 2 n) rfl
    | false :: tail =>
      rw [hin, List.length_cons] at hn
      have hrest : ({ s.inp with pos := s.inp.pos + 1 } : Inp).rest = tail := Inp.rest_advance_append (a := [false]) hin
      have hmore := ih (n - 1) (by omega) (s := { s with
        pending := .left :: s.pending, inp := { s.inp with pos := s.inp.pos + 1 } }) (roots := roots) hb h
        ⟨hs.forest, hs.open_⟩ (by rw [hrest]; omega)
      exact ((Comes.unit (unit_desLoop_internal _ h hin) hb).leads hmore).mono (by omega)
        (fun t ht => ⟨ht.place, ht.tree, ht.data⟩) fun _ => id
    | true :: tail =>
      rw [hin, List.length_cons] at hn
      have hrest : ({ s.inp with pos := s.inp.pos + 1 } : Inp).rest = tail := Inp.rest_advance_append (a := [true]) hin
      have htag := Comes.unit (unit_desLoop_leaf _ h hin) hb
      by_cases hshort : tail.length < 9
      · have heos := (congrArg List.length hrest).trans_lt hshort
        exact (htag.faults (Faults.raised (unit_desField_eos _ rfl heos) hb)).leads (by omega) rfl
      obtain ⟨f, tail', rfl⟩ := exists_field (Nat.le_of_not_lt hshort)
      have hfield := unit_desField_read Config.params (s := { s with
        todo := .desField :: rest, inp := { s.inp with pos := s.inp.pos + 1 } }) (rest := rest) rfl hrest
      have hgrows := desLeaf_grows f (s := { s with
        todo := .desField :: rest, inp := { s.inp with pos := s.inp.pos + 1 + 9 } }) (roots := roots)
        ⟨hs.forest, hs.open_⟩
      rw [List.length_append, bits_length] at hn
      generalize desLeaf Config.params f _ = L at hfield hgrows
      cases hgrows with
      | tree u i T hu hf =>
        have htodo : u.todo = .desField :: rest := by rw [hu]
        have hub : u.phase = .busy := by rw [hu]; exact hb
        have hdata : u.inp.data = s.inp.data := by rw [hu]
        have hnext := hfield.trans (show _ = Host.Outcome.next
          (({ u with root := i, pending := [], todo := rest } : State).setFlag .treeValid true) by
            simp only [Turn.backTo, Turn.settle, State.setFlag, htodo, List.tail_cons])
        exact (htag.trans (Comes.unit hnext hub)).leadsTo (by omega) ⟨⟨hub, rfl⟩, ⟨T, hf⟩, hdata⟩
      | more u roots' hu hr =>
        have htodo : u.todo = .desField :: rest := by rw [hu]
        have hub : u.phase = .busy := by rw [hu]; exact hb
        have hinp : u.inp = { s.inp with pos := s.inp.pos + 1 + 9 } := by rw [hu]
        have hnext := hfield.trans (show _ = Host.Outcome.next { u with todo := .desLoop :: rest } by
          simp only [Turn.backTo, Turn.settle, htodo, List.tail_cons])
        have hrest' : u.inp.rest = tail' := by rw [hinp]; exact Inp.rest_advance_append hrest
        have hmore := ih (n - 10) (by omega) (s := { u with todo := .desLoop :: rest }) (roots := roots') hub rfl
          ⟨hr.forest, hr.open_⟩ (show u.inp.rest.length ≤ n - 10 by rw [hrest']; omega)
        refine ((htag.trans (Comes.unit hnext hub)).leads hmore).mono (by omega)
          (fun t ht => ⟨ht.place, ht.tree, ht.data.trans (show u.inp.data = s.inp.data by rw [hinp])⟩) fun t ht => ht.trans ?_
        rw [hu]
      | fault c u hu =>
        have hub : u.phase = .busy := by rw [hu]; exact hb
        exact (htag.faults (Faults.raised hfield hub)).leads (by omega) (by rw [hu])

theorem leads_deserializeParts {s : State} {rest : List Stage} (hb : s.phase = .busy)
    (h : s.todo = Command.deserialize.parts ++ rest) :
    Leads (s.inp.data.length + 3) s (TreeDone s rest) (fun t => t.status = s.status) := by
  have hloop := leads_desLoop s.inp.data.length (s := { s with nnodes := 0, pending := [], todo := .desLoop :: rest })
    (roots := []) hb rfl ⟨Forest.empty .., rfl⟩ s.inp.rest_length_le
  exact ((Comes.unit (unit_desStart _ h) hb).leads hloop).mono (Nat.le_refl _)
    (fun t ht => ⟨ht.place, ht.tree, ht.data⟩) fun _ => id

end Sys2Proof.Machine

namespace Sys2Proof.Machine

open Sys2Proof

/-! ### A longer bound changes nothing -/

theorem runBusy_mono (p : Params) {n : Nat} {s t : State} (h : runBusy p n s = .next t) (m : Nat) :
    runBusy p (m + n) s = .next t := by
  induction n generalizing s with
  | zero => cases h
  | succ n ih =>
    rw [runBusy_succ] at h
    rw [← Nat.add_assoc, runBusy_succ]
    cases hunit : unit p s with
    | next u =>
      rw [hunit, resume] at h
      rw [resume]
      split at h <;> rename_i hu
      · rw [if_pos hu]
        exact ih h
      · rw [if_neg hu]
        exact h
    | fault f => rw [hunit] at h; cases h
    | refused r => rw [hunit] at h; cases h

theorem Faults.of_run {k : Nat} {s t : State} {c : Cause} (h : runBusy Config.params k s = .next (t.raise c)) :
    Faults k s t :=
  ⟨c, fun n => runBusy_mono _ h n⟩

/-! ### The tree that the block holds (R26, R27) -/

/-- While `TREE_VALID` = 1 the whole store is one tree. -/
def State.Grown (s : State) : Prop :=
  s.flag .treeValid = true → ∃ freq T, Forest freq s.node s.nnodes.val [(s.root, T)]

theorem State.Grown.treeOk {s : State} (h : s.Grown) : s.TreeOk := fun hflag => by
  obtain ⟨freq, T, hf⟩ := h hflag
  exact hf.treeOk hflag

theorem State.Grown.owned {s : State} (h : s.Grown) : s.Owned := fun hflag => by
  obtain ⟨freq, T, hf⟩ := h hflag
  exact hf.stateOwned hflag

theorem State.grown_of_invalid {s : State} (h : s.flag .treeValid = false) : s.Grown := fun hflag => by
  rw [h] at hflag
  cases hflag

theorem State.Grown.congr {s t : State} (h : s.Grown) (hnode : t.node = s.node) (hnnodes : t.nnodes = s.nnodes)
    (hroot : t.root = s.root) (hflag : t.flag .treeValid = true → s.flag .treeValid = true) : t.Grown := fun ht => by
  rw [hnode, hnnodes, hroot]
  exact h (hflag ht)

theorem State.Grown.finish {s : State} (h : s.Grown) : s.finish.Grown :=
  h.congr rfl rfl rfl fun hflag => by simpa using hflag

theorem State.Grown.raise {s : State} (h : s.Grown) (c : Cause) : (s.raise c).Grown :=
  h.congr (by simp) (by simp) (by simp) fun hflag => by simpa using hflag

theorem State.Grown.sameTree {s t : State} (h : s.Grown) (hst : SameTree s t) : t.Grown :=
  h.congr hst.node hst.nnodes hst.root fun hflag => (State.flag_congr hst.status _).symm.trans hflag

theorem TreeDone.grown {s t : State} {rest : List Stage} (h : TreeDone s rest t) : t.Grown := fun _ => by
  obtain ⟨T, hT⟩ := h.tree
  exact ⟨noCounts, T, hT⟩

/-- The outcome of a command that ends and leaves no store that is not one tree. -/
def EndsGrown (o : Host.Outcome State Fault Refusal) : Prop := ∃ t, o = .next t ∧ t.phase ≠ .busy ∧ t.Grown

theorem Leads.endsGrown {k n : Nat} {s : State} (h : Leads k s (fun t => t.todo = [] ∧ t.Grown) State.Grown) (hk : k < n) :
    EndsGrown (runBusy Config.params n s) := by
  obtain ⟨u, ⟨hu, hrun⟩ | ⟨c, hu, hrun⟩⟩ := h.ends hk
  · exact ⟨_, hrun, by simp, hu.finish⟩
  · exact ⟨_, hrun, by simp, hu.raise c⟩

/-- A command that clears `TREE_VALID` starts with no tree. -/
theorem Command.issue_grown {c : Command} {s : State} (h : s.phase = .idle) (hc : Flag.treeValid ∈ c.clears) :
    (c.issue s).Grown :=
  State.grown_of_invalid ((c.flag_issue h _).trans (if_pos hc))

theorem exec_build_grown {s : State} (h : s.phase = .idle) : EndsGrown (exec .build s) := by
  have hissue : (Command.build.issue s).Grown := Command.issue_grown h (by decide)
  by_cases hf : s.flag .freqValid = true
  · by_cases hp : s.present = []
    · obtain ⟨hexec, htodo⟩ := exec_build h hf
      obtain ⟨t, hrun, ht⟩ := runBusy_buildParts_none Config.params (fuel s - 3) (rest := []) (Command.issue_busy _ h) htodo
        ((present_issue _ h).trans hp)
      rw [Nat.sub_add_cancel (le_trans (by decide) (le_fuel s))] at hrun
      refine ⟨_, hexec.trans hrun, by simp, State.Grown.raise (State.grown_of_invalid ?_) _⟩
      rw [ht]
      exact (Command.flag_issue _ h _).trans (if_pos (by decide))
    · obtain ⟨node, nnodes, i, T, hbuilt, hexec⟩ := exec_build_tree h hf hp
      exact ⟨_, hexec, by simp, fun _ => ⟨s.freq, T, hbuilt.forest⟩⟩
  · have hm : s.meets Command.build.needs = false := by simp [State.meets, Command.build, hf]
    exact ⟨_, Command.run_of_not_meets Config.params (by decide) h hm, by simp, hissue.raise _⟩

theorem exec_deserialize_grown {s : State} (h : s.phase = .idle) : EndsGrown (exec .deserialize s) := by
  obtain ⟨hrun, htodo⟩ := Command.run_of_meets Config.params (c := .deserialize) (by decide) h rfl
  have hissue : (Command.deserialize.issue s).Grown := Command.issue_grown h (by decide)
  have hbody := leads_deserializeParts (rest := []) (Command.issue_busy _ h) htodo
  rw [Command.issue_inp _ h] at hbody
  have hfuel := bytes_le_fuel (Nat.le_refl s.inp.data.length)
  have hends := (hbody.mono (Nat.le_refl _) (fun t ht => ⟨ht.place.todo, ht.grown⟩) fun t ht =>
    State.grown_of_invalid ((State.flag_congr ht _).trans ((Command.flag_issue _ h _).trans
      (if_pos (by decide))))).endsGrown (n := fuel s) (by omega)
  rwa [← hrun] at hends

/-- DECOMPRESS's first two parts: the magic field is there, or it faults. -/
theorem leads_rdMagic {s : State} {rest : List Stage} (hb : s.phase = .busy) (h : s.todo = .rdMagic :: rest) :
    LeadsPast 2 s rest := by
  by_cases hshort : s.inp.rest.length < 32
  · exact (Faults.raised (unit_rdMagic_eos _ h hshort) hb).leadsPast ⟨rfl, rfl, rfl, rfl, rfl⟩ (Nat.le_refl 2)
  · obtain ⟨m, tail, hin⟩ := exists_field (Nat.le_of_not_lt hshort)
    by_cases hm : m = Config.magic
    · exact (Comes.unit (unit_rdMagic_match h (hm ▸ hin)) hb).leadsPast ⟨rfl, rfl, rfl, rfl, rfl⟩ (At.leadsPast ⟨hb, rfl⟩)
        (by decide)
    · exact (Faults.raised (unit_rdMagic_other h hm hin) hb).leadsPast ⟨rfl, rfl, rfl, rfl, rfl⟩ (Nat.le_refl 2)

theorem leads_decompressParts {s : State} (hb : s.phase = .busy) (htodo : s.todo = Command.decompress.parts) :
    Leads (3 * s.inp.data.length + 11) s (fun t => t.todo = [] ∧ t.Grown) State.Grown := by
  have hclear := Comes.unit (unit_implicitClear Config.params htodo) hb
  have hinvalid : s.implicitClear.flag .treeValid = false := (State.flag_implicitClear ..).trans (if_pos (by decide))
  have hmagic : Leads 3 s (fun t => At (Command.decompress.parts.drop 2) t ∧ t.flag .treeValid = false ∧
      t.inp.data = s.inp.data) State.Grown :=
    (hclear.leads (leads_rdMagic hb rfl)).mono (Nat.le_refl 3)
      (fun t ht => ⟨ht.1, (State.flag_congr ht.2.status _).trans hinvalid, ht.2.data⟩)
      fun t ht => State.grown_of_invalid ((State.flag_congr ht.status _).trans hinvalid)
  have htree : Leads (s.inp.data.length + 3 + 3) s (TreeDone s (Command.decompress.parts.drop 4)) State.Grown :=
    hmagic.bind fun t ⟨hat, hflag, hdata⟩ => (leads_deserializeParts hat.busy hat.todo).mono (by rw [hdata])
      (fun u hu => ⟨hu.place, hu.tree, hu.data.trans hdata⟩)
      fun u hu => State.grown_of_invalid ((State.flag_congr hu _).trans hflag)
  have hbody : Leads (2 * s.inp.data.length + 3 + (s.inp.data.length + 3 + 3)) s (At [.closeOut, .discardTree])
      State.Grown :=
    htree.bind fun t ht => by
      obtain ⟨T, hT⟩ := ht.tree
      exact Leads.mono (leads_decodeParts ht.place.busy ht.place.todo hT.tree_holds) (by rw [ht.data])
        (fun u hu => hu.1) fun u hu => ht.grown.sameTree hu
  refine (hbody.bind (l := 2) fun t ht => ?_).mono (by omega) (fun _ => id) fun _ => id
  have hend := (Comes.unit (unit_closeOut Config.params ht.todo) ht.busy).trans
    (Comes.unit (unit_discardTree _ rfl) ht.busy)
  refine hend.leadsTo (Nat.le_refl 2) ⟨rfl, State.grown_of_invalid ?_⟩
  exact (State.flag_lower ..).trans (if_pos (by decide))

theorem exec_decompress_grown {s : State} (h : s.phase = .idle) : EndsGrown (exec .decompress s) := by
  obtain ⟨hrun, htodo⟩ := exec_decompress h
  have hbody := leads_decompressParts (Command.issue_busy _ h) htodo
  rw [Command.issue_inp _ h] at hbody
  have hfuel := bytes_le_fuel (Nat.le_refl s.inp.data.length)
  rw [hrun]
  exact hbody.endsGrown (by omega)

/-- COUNT's body counts all the bytes or finds one too many. -/
theorem leads_countParts {s : State} {rest : List Stage} (hb : s.phase = .busy) (h : s.todo = Command.count.parts ++ rest)
    (hover : ∃ v : BitVec 8, 2 ^ 32 ≤ (wholeBytes s.inp.rest).count v) :
    ∃ t : State, Faults ((wholeBytes s.inp.rest).length + 2) s t ∧ t.status = s.status := by
  obtain ⟨t, hrun, ht⟩ := runBusy_countParts_overflow (n := 0) hb h hover
  rw [Nat.zero_add] at hrun
  exact ⟨t, .of_run hrun, by rw [ht]⟩

theorem leads_compressParts {s : State} (hb : s.phase = .busy) (htodo : s.todo = Command.compress.parts) :
    Leads (s.inp.data.length * 260 + 2100) s (fun t => t.todo = [] ∧ t.Grown) State.Grown := by
  have hbytes := (wholeBytes_length_le s.inp.rest).trans s.inp.rest_length_le
  by_cases hfit : ∀ v : BitVec 8, (wholeBytes s.inp.rest).count v < 2 ^ 32
  · obtain ⟨node, nnodes, i, T, k, hbuilt, hk, hheader⟩ := comes_headerWritten hb htodo hfit
    have hgrown : (headerWritten s node nnodes i T).Grown := fun _ => ⟨_, T, hbuilt.forest⟩
    have hcodes : ∀ v : Sym, (headerWritten s node nnodes i T).code[v].length ≤ 256 := fun v => by
      have hv := T.codesInto_codeOf v
      rw [headerWritten, hv]
      exact HTree.codeOf_length_le hbuilt.isNode hbuilt.size_le v
    have hencode : Leads (s.inp.data.length * (256 + 2) + 256 + 5 + k) s (At [.closeOut, .discardAll]) State.Grown :=
      (hheader.leads (leads_encodeParts hb rfl hcodes)).mono (Nat.le_refl _) (fun t ht => ht.1)
        fun t ht => hgrown.sameTree ht
    refine (hencode.bind (l := 2) fun t ht => ?_).mono (by omega) (fun _ => id) fun _ => id
    refine (comes_discarded ht.busy ht.todo).leadsTo (Nat.le_refl 2) ⟨rfl, State.grown_of_invalid ?_⟩
    exact (discarded_flag ..).trans (if_pos (by decide))
  · obtain ⟨v, hv⟩ := not_forall.mp hfit
    have hclear := Comes.unit (unit_implicitClear Config.params htodo) hb
    obtain ⟨t, hfault, hstatus⟩ := leads_countParts (s := { s.implicitClear with todo := Command.compress.parts.drop 1 })
      (rest := Command.compress.parts.drop 4) hb rfl ⟨v, Nat.le_of_not_lt hv⟩
    refine (hclear.faults hfault).leads ?_ (State.grown_of_invalid ?_)
    · exact show (wholeBytes s.inp.rest).length + 2 + 1 ≤ _ by omega
    · exact (State.flag_congr hstatus _).trans ((State.flag_implicitClear ..).trans (if_pos (by decide)))

theorem exec_compress_grown {s : State} (h : s.phase = .idle) : EndsGrown (exec .compress s) := by
  obtain ⟨hrun, htodo⟩ := exec_compress h
  have hbody := leads_compressParts (Command.issue_busy _ h) htodo
  rw [Command.issue_inp _ h] at hbody
  have hfuel := bytes_le_fuel (Nat.le_refl s.inp.data.length)
  rw [hrun]
  exact hbody.endsGrown (by omega)

end Sys2Proof.Machine

namespace Sys2Proof.Machine

open Sys2Proof

/-! ### Every command keeps the tree (R26, R27) -/

/-- From `s` to `t` the tree has stayed, if `TREE_VALID` still says that there is one. -/
structure TreeStays (s t : State) : Prop where
  node : t.node = s.node
  nnodes : t.nnodes = s.nnodes
  root : t.root = s.root
  valid : t.flag .treeValid = true → s.flag .treeValid = true

theorem TreeStays.treeOk {s t : State} (h : TreeStays s t) (hs : s.TreeOk) : t.TreeOk := fun hflag => by
  rw [h.node, h.root]
  exact hs (h.valid hflag)

theorem TreeStays.owned {s t : State} (h : TreeStays s t) (hs : s.Owned) : t.Owned := fun hflag => by
  rw [t.children_eq, h.node, h.nnodes, h.root, ← s.children_eq]
  exact hs (h.valid hflag)

/-- Outside a run, an instruction leaves the tree, or a store that is one tree wherever `TREE_VALID` = 1. -/
theorem exec_tree {i : Instr} {s t : State} (hbusy : s.phase ≠ .busy) (h : exec i s = .next t) :
    t.Grown ∨ TreeStays s t := by
  by_cases hstays : ∀ r ∈ [Reg.node, .nnodes, .root, .treeUp], r ∉ instrWrites i none
  · have hwrote := exec_wrote h
    rw [State.running_none hbusy] at hwrote
    exact .inr ⟨hwrote.same (r := .node) (hstays _ (by decide)) (by decide) (by decide) (by decide),
      hwrote.same (r := .nnodes) (hstays _ (by decide)) (by decide) (by decide) (by decide),
      hwrote.same (r := .root) (hstays _ (by decide)) (by decide) (by decide) (by decide),
      hwrote.same (r := .treeUp) (hstays _ (by decide)) (by decide) (by decide) (by decide)⟩
  have hwriter : i ∈ [Instr.build, .deserialize, .compress, .decompress, .clear] := by
    cases i <;> simp [instrWrites] at hstays ⊢
  by_cases hclear : i = .clear
  · subst hclear
    rw [exec_clear hbusy] at h
    cases h
    exact .inl (State.grown_of_invalid (by simp))
  by_cases hidle : s.phase = .idle
  · have hends : EndsGrown (exec i s) := by
      simp only [List.mem_cons, List.not_mem_nil, or_false] at hwriter
      obtain rfl | rfl | rfl | rfl | rfl := hwriter
      · exact exec_build_grown hidle
      · exact exec_deserialize_grown hidle
      · exact exec_compress_grown hidle
      · exact exec_decompress_grown hidle
      · exact absurd rfl hclear
    obtain ⟨u, hu, -, hgrown⟩ := hends
    rw [h] at hu
    cases hu
    exact .inl hgrown
  · have hfault : s.phase = .fault := by
      cases hp : s.phase with
      | idle => exact absurd hp hidle
      | busy => exact absurd hp hbusy
      | fault => rfl
    rw [exec_in_fault hfault hclear] at h
    cases h
    exact .inr ⟨rfl, rfl, rfl, id⟩

/-- Settles O48: BUILD, DESERIALIZE and the composites leave a store that is one tree, the others leave the tree. -/
theorem everyCommandKeepsTheTree : Obligations.EveryCommandKeepsTheTree := by
  intro i s t hbusy hs h
  obtain hgrown | hstays := exec_tree hbusy h
  · exact hgrown.treeOk
  · exact hstays.treeOk hs

/-- Settles O49: in a store that is one tree every entry but the root, which is the last, has one parent after it. -/
theorem everyCommandKeepsOwnership : Obligations.EveryCommandKeepsOwnership := by
  intro i s t hbusy hs h
  obtain hgrown | hstays := exec_tree hbusy h
  · exact hgrown.owned
  · exact hstays.owned hs

/-! ### Every command ends (R244) -/

/-- A command's body leads, from its acceptance and within the bound on its units, to its end or to a fault. -/
def BodyEnds (c : Command) (s : State) : Prop :=
  ∃ k, k < fuel s ∧ Leads k (c.issue s) (At []) fun _ => True

theorem LeadsPast.bodyEnds {c : Command} {s : State} {k : Nat} (h : LeadsPast k (c.issue s) []) (hk : k < fuel s) :
    BodyEnds c s :=
  ⟨k, hk, h.mono (Nat.le_refl k) (fun _ ht => ht.1) fun _ _ => trivial⟩

theorem Comes.bodyEnds {c : Command} {s t : State} {k : Nat} (h : Comes k (c.issue s) t) (ht : At [] t) (hk : k < 4096) :
    BodyEnds c s :=
  ⟨k, Nat.lt_of_lt_of_le hk (le_fuel s), h.leadsTo (Nat.le_refl k) ht⟩

theorem Faults.bodyEnds {c : Command} {s t : State} {k : Nat} (h : Faults k (c.issue s) t) (hk : k < fuel s) :
    BodyEnds c s :=
  ⟨k, hk, h.leads (Nat.le_refl k) trivial⟩

theorem Command.run_ends {c : Command} (hc : c ∈ Command.all) {s : State} (h : s.phase = .idle)
    (hbody : s.meets c.needs = true → (c.issue s).todo = c.parts → BodyEnds c s) :
    ∃ t, c.run Config.params s = .next t ∧ t.phase ≠ .busy := by
  cases hm : s.meets c.needs with
  | false => exact ⟨_, Command.run_of_not_meets _ hc h hm, by simp⟩
  | true =>
    obtain ⟨hrun, htodo⟩ := Command.run_of_meets Config.params hc h hm
    obtain ⟨k, hk, hleads⟩ := hbody hm htodo
    obtain ⟨u, ⟨-, hu⟩ | ⟨c, -, hu⟩⟩ := (hleads.mono (Nat.le_refl k) (P' := fun t => t.todo = [] ∧ True)
      (fun t ht => ⟨ht.todo, trivial⟩) fun _ => id).ends hk
    · exact ⟨_, hrun.trans hu, by simp⟩
    · exact ⟨_, hrun.trans hu, by simp⟩

section Bodies

variable {s : State} (h : s.phase = .idle)
include h

theorem count_bodyEnds (htodo : (Command.count.issue s).todo = Command.count.parts) : BodyEnds .count s := by
  have hb := Command.issue_busy .count h
  have hbytes := wholeBytes_length_le_fuel s
  have hinp := Command.issue_inp .count h
  by_cases hfit : ∀ v : BitVec 8, (wholeBytes s.inp.rest).count v < 2 ^ 32
  · have hcount : Comes (1 + (wholeBytes s.inp.rest).length + 2) _ _ := fun n => by
      have hrun := runBusy_countParts (n := n) hb (rest := []) htodo (by rw [hinp]; exact hfit)
      rw [hinp, Nat.add_assoc n 1, Nat.add_assoc n] at hrun
      exact hrun
    exact ⟨_, by omega, hcount.leadsTo (Nat.le_refl _) ⟨hb, rfl⟩⟩
  · obtain ⟨v, hv⟩ := not_forall.mp hfit
    obtain ⟨t, hfault, -⟩ := leads_countParts hb (rest := []) htodo ⟨v, by rw [hinp]; exact Nat.le_of_not_lt hv⟩
    rw [hinp] at hfault
    exact hfault.bodyEnds (by omega)

theorem generate_bodyEnds (hs : s.TreeOk) (hv : s.flag .treeValid = true)
    (htodo : (Command.generate.issue s).todo = Command.generate.parts) : BodyEnds .generate s := by
  have hb := Command.issue_busy .generate h
  obtain ⟨T, hT, hsize⟩ := hs hv
  rw [← Command.issue_node .generate h, ← Command.issue_root .generate h] at hT
  cases T with
  | leaf v =>
    obtain ⟨w, hroot⟩ := holds_leaf_iff.mp hT
    have hfuel := le_fuel s
    exact (Faults.raised (unit_genStart_leaf _ (rest := [.genWalk]) htodo hroot) hb).bodyEnds (by omega)
  | node l r =>
    have hgen : Comes ((HTree.node l r).size + 2) _ _ := fun n =>
      runBusy_generateParts Config.params n (rest := []) hb htodo hT rfl hsize
    exact hgen.bodyEnds ⟨hb, rfl⟩ (by omega)

theorem serialize_bodyEnds (hs : s.TreeOk) (hv : s.flag .treeValid = true)
    (htodo : (Command.serialize.issue s).todo = Command.serialize.parts) : BodyEnds .serialize s := by
  have hb := Command.issue_busy .serialize h
  obtain ⟨T, hT, hsize⟩ := hs hv
  rw [← Command.issue_node .serialize h, ← Command.issue_root .serialize h] at hT
  have hunits := T.tokenUnits_le
  have hser : Comes (T.tokenUnits + 2) _ _ := fun n => runBusy_serializeParts Config.params n (rest := []) hb htodo hT
  exact hser.bodyEnds ⟨hb, rfl⟩ (by omega)

theorem encode_bodyEnds (htodo : (Command.encode.issue s).todo = Command.encode.parts) : BodyEnds .encode s := by
  have hbody := leads_encodeParts (rest := []) (Command.issue_busy .encode h) htodo (m := s.longestCode) fun v => by
    rw [Command.issue_code _ h]
    exact s.code_length_le v
  rw [Command.issue_inp _ h] at hbody
  refine hbody.bodyEnds ?_
  have hmul := Nat.mul_le_mul_left s.inp.data.length (show s.longestCode + 2 ≤ s.longestCode + 4 by omega)
  rw [fuel, Nat.succ_mul]
  omega

theorem decode_bodyEnds (hs : s.TreeOk) (hv : s.flag .treeValid = true)
    (htodo : (Command.decode.issue s).todo = Command.decode.parts) : BodyEnds .decode s := by
  obtain ⟨T, hT, -⟩ := hs hv
  rw [← Command.issue_node .decode h, ← Command.issue_root .decode h] at hT
  have hbody := leads_decodeParts (rest := []) (Command.issue_busy .decode h) htodo hT
  rw [Command.issue_inp _ h] at hbody
  have hfuel := bytes_le_fuel (Nat.le_refl s.inp.data.length)
  exact hbody.bodyEnds (by omega)

end Bodies

theorem exec_ends_idle {s : State} (h : s.phase = .idle) (hs : s.TreeOk) (i : Instr) :
    ∃ t, exec i s = .next t ∧ t.phase ≠ .busy := by
  have hgrown : ∀ {o}, EndsGrown o → ∃ t, o = .next t ∧ t.phase ≠ .busy := fun ⟨t, ht, hp, _⟩ => ⟨t, ht, hp⟩
  have hneeds : ∀ {c : Command} {f : Flag} {b : Bool}, (f, b) ∈ c.needs → s.meets c.needs = true → s.flag f = b :=
    fun hmem hm => by simpa using List.all_eq_true.mp hm _ hmem
  have hnone := State.running_none (s := s) (by rw [h]; decide)
  cases i with
  | reserved0 | reservedE | reservedF => exact ⟨_, rfl, by simp [runReserved, h]⟩
  | clear => exact ⟨_, exec_clear (by rw [h]; decide), by simp⟩
  | count => exact Command.run_ends (by decide) h fun _ => count_bodyEnds h
  | build => exact hgrown (exec_build_grown h)
  | generate => exact Command.run_ends (by decide) h fun hm => generate_bodyEnds h hs (hneeds (by decide) hm)
  | wrmagic =>
    exact Command.run_ends (by decide) h fun _ htodo =>
      (Comes.unit (unit_wrMagic htodo) (Command.issue_busy _ h)).bodyEnds ⟨Command.issue_busy _ h, rfl⟩ (by decide)
  | serialize => exact Command.run_ends (by decide) h fun hm => serialize_bodyEnds h hs (hneeds (by decide) hm)
  | encode => exact Command.run_ends (by decide) h fun _ => encode_bodyEnds h
  | close =>
    exact Command.run_ends (by decide) h fun _ htodo =>
      (Comes.unit (unit_closeOut _ htodo) (Command.issue_busy _ h)).bodyEnds ⟨Command.issue_busy _ h, rfl⟩ (by decide)
  | rdmagic =>
    exact Command.run_ends (by decide) h fun _ htodo =>
      (leads_rdMagic (Command.issue_busy _ h) htodo).bodyEnds (Nat.lt_of_lt_of_le (by decide) (le_fuel s))
  | deserialize => exact hgrown (exec_deserialize_grown h)
  | decode => exact Command.run_ends (by decide) h fun hm => decode_bodyEnds h hs (hneeds (by decide) hm)
  | compress => exact hgrown (exec_compress_grown h)
  | decompress => exact hgrown (exec_decompress_grown h)
  | magic m => exact ⟨s, by rw [exec, execMagic, hnone], by rw [h]; decide⟩
  | hdrInternal => exact ⟨s, by rw [exec, execHdrInternal, hnone], by rw [h]; decide⟩
  | hdrLeaf f => exact ⟨s, by rw [exec, execHdrLeaf, hnone], by rw [h]; decide⟩
  | bodyCode c => exact ⟨s, by rw [exec, execBodyCode, hnone], by rw [h]; decide⟩
  | literal8 v => exact ⟨s, by rw [exec, execLiteral8, hnone], by rw [h]; decide⟩

/-- Settles O52: in `IDLE` each command's body ends within the bound on its units; in `FAULT` only CLEAR does anything. -/
theorem everyCommandEnds : Obligations.EveryCommandEnds := by
  intro i s hbusy hs
  cases hp : s.phase with
  | busy => exact absurd hp hbusy
  | idle => exact exec_ends_idle hp hs i
  | fault =>
    by_cases hi : i = .clear
    · subst hi
      exact ⟨_, exec_clear hbusy, by simp⟩
    · exact ⟨s, exec_in_fault hp hi, hbusy⟩

end Sys2Proof.Machine

namespace Sys2Proof.Machine

open Sys2Proof

/-! ### What a unit of work reads

A unit of work of a command reads the tables, `ROOT`, `CUR`, `IN` and `OUT`, and of the working stores those that its own
part, or a part before it, has set up. Two states that agree there do the same, whatever they hold elsewhere. -/

/-- The working stores and the register that goes with them. -/
inductive Work where
  | pq
  | walk
  | pending
  | nnodes
  deriving DecidableEq

/-- The working stores a part of the pseudocode reads. -/
def Stage.uses : Stage → List Work
  | .buildFew => [.pq, .nnodes]
  | .buildMerge => [.pq, .nnodes]
  | .genWalk => [.walk]
  | .serWalk => [.walk]
  | .desLoop => [.pending, .nnodes]
  | .desField => [.pending, .nnodes]
  | _ => []

/-- The working stores a part of the pseudocode sets up, whatever they held. -/
def Stage.makes : Stage → List Work
  | .buildLeaves => [.pq, .nnodes]
  | .genStart => [.walk]
  | .serStart => [.walk]
  | .desStart => [.pending, .nnodes]
  | .implicitClear => [.nnodes]
  | _ => []

/-- The flags a part of the pseudocode writes before it is left, each with its value. -/
def Stage.flagWrites : Stage → List (Flag × Bool)
  | .countSeal => [(.freqValid, true)]
  | .buildMerge => [(.treeValid, true)]
  | .genWalk => [(.codeValid, true)]
  | .desLoop => [(.treeValid, true)]
  | .desField => [(.treeValid, true)]
  | .closeOut => [(.outClosed, true)]
  | .implicitClear => [(.freqValid, false), (.treeValid, false), (.codeValid, false), (.outClosed, false)]
  | .discardAll => [(.freqValid, false), (.treeValid, false), (.codeValid, false)]
  | .discardTree => [(.treeValid, false)]
  | _ => []

/-- A part of a command's pseudocode other than CLEAR's and a fault's entry. -/
def Stage.plain : Stage → Bool
  | .clearAll => false
  | .raise _ => false
  | _ => true

/-- A relation between values of `STATUS` that a write of `w` in both keeps. -/
def Survives (R : BitVec 8 → BitVec 8 → Prop) (w : Flag × Bool) : Prop :=
  ∀ a b, R a b → R (putBit a w.1.bit w.2) (putBit b w.1.bit w.2)

/-- A part of a body that reads no working store outside `W` and writes no flag outside `ws`. -/
structure Stage.Fits (W : List Work) (ws : List (Flag × Bool)) (st : Stage) : Prop where
  plain : st.plain = true
  uses : st.uses ⊆ W
  flags : st.flagWrites ⊆ ws

/-- A part of a body that reads no working store and writes no flag. -/
theorem Stage.fits_of_free {st : Stage} (h : st.plain = true ∧ st.uses = [] ∧ st.flagWrites = []) (W : List Work)
    (ws : List (Flag × Bool)) : st.Fits W ws := by
  obtain ⟨hplain, huses, hflags⟩ := h
  exact ⟨hplain, by simp [huses], by simp [hflags]⟩

/-- Two states that agree in what every command reads and in the working stores `W`, and whose flags are related by `R`. -/
structure Alike (R : BitVec 8 → BitVec 8 → Prop) (W : List Work) (s t : State) : Prop where
  root : t.root = s.root
  cur : t.cur = s.cur
  freq : t.freq = s.freq
  node : t.node = s.node
  code : t.code = s.code
  inp : t.inp = s.inp
  out : t.out = s.out
  err : t.err = s.err
  status : R s.status t.status
  pq : Work.pq ∈ W → t.pq = s.pq
  walk : Work.walk ∈ W → t.walk = s.walk
  pending : Work.pending ∈ W → t.pending = s.pending
  nnodes : Work.nnodes ∈ W → t.nnodes = s.nnodes

/-- How two turns match: they end in the same way, in states that are alike in the stores `W`, or, where they raise a fault,
in `U`; and they go on in a part that reads no working store outside `W` and writes no flag outside `ws`. -/
inductive Turn.Match (R : BitVec 8 → BitVec 8 → Prop) (U W : List Work) (ws : List (Flag × Bool)) : Turn → Turn → Prop
  | again {s t : State} (h : Alike R W s t) : Match R U W ws (.again s) (.again t)
  | leave {s t : State} (h : Alike R W s t) : Match R U W ws (.leave s) (.leave t)
  | first {s t : State} (st : Stage) (hst : st.Fits W ws) (h : Alike R W s t) :
      Match R U W ws (.first st s) (.first st t)
  | instead {s t : State} (st : Stage) (hst : st.Fits W ws) (h : Alike R W s t) :
      Match R U W ws (.instead st s) (.instead st t)
  | raise {s t : State} (c : Cause) (h : Alike R U s t) : Match R U W ws (.raise c s) (.raise c t)
  | stop (f : Fault) : Match R U W ws (.stop f) (.stop f)

theorem Turn.Match.backTo {R : BitVec 8 → BitVec 8 → Prop} {U W : List Work} {ws : List (Flag × Bool)} {T T' : Turn}
    (h : T.Match R U W ws T') {st : Stage} (hst : st.Fits W ws) : (T.backTo st).Match R U W ws (T'.backTo st) := by
  cases h with
  | again h => exact .instead st hst h
  | leave h => exact .leave h
  | first st' hst' h => exact .first st' hst' h
  | instead st' hst' h => exact .instead st' hst' h
  | raise c h => exact .raise c h
  | stop f => exact .stop f

namespace Alike

variable {R : BitVec 8 → BitVec 8 → Prop} {W : List Work} {ws : List (Flag × Bool)} {s t : State}

theorem mono {W' : List Work} (h : Alike R W s t) (hW : W' ⊆ W) : Alike R W' s t :=
  { h with
    pq := fun hw => h.pq (hW hw), walk := fun hw => h.walk (hW hw)
    pending := fun hw => h.pending (hW hw), nnodes := fun hw => h.nnodes (hW hw) }

theorem forget (h : Alike R W s t) : Alike R [] s t := h.mono (List.nil_subset W)

end Alike

theorem Turn.Match.weaken {R : BitVec 8 → BitVec 8 → Prop} {U U' W : List Work} {ws : List (Flag × Bool)} {T T' : Turn}
    (h : T.Match R U W ws T') (hU : U' ⊆ U) : T.Match R U' W ws T' := by
  cases h with
  | again h => exact .again h
  | leave h => exact .leave h
  | first st' hst' h => exact .first st' hst' h
  | instead st' hst' h => exact .instead st' hst' h
  | raise c h => exact .raise c (h.mono hU)
  | stop f => exact .stop f

namespace Alike

variable {R : BitVec 8 → BitVec 8 → Prop} {W : List Work} {ws : List (Flag × Bool)} {s t : State}

/-! #### The operations of the state -/

theorem readBits (h : Alike R W s t) (n : Nat) :
    ∃ (o : Option (BitVec n)) (s' t' : State), s.readBits n = (o, s') ∧ t.readBits n = (o, t') ∧ Alike R W s' t' := by
  rw [State.readBits, State.readBits, h.inp]
  split
  · exact ⟨_, _, _, rfl, rfl, { h with inp := rfl }⟩
  · exact ⟨_, _, _, rfl, rfl, { h with inp := rfl }⟩

theorem writeSeq (h : Alike R W s t) (b : Bits) : Alike R W (s.writeSeq b) (t.writeSeq b) :=
  { h with out := by rw [State.writeSeq_out, State.writeSeq_out, h.out] }

theorem alloc (h : Alike R W s t) (hn : Work.nnodes ∈ W) (p : Params) (n : Node) :
    (s.alloc p n = none ∧ t.alloc p n = none) ∨
      ∃ i s' t', s.alloc p n = some (i, s') ∧ t.alloc p n = some (i, t') ∧ Alike R W s' t' := by
  rw [State.alloc, State.alloc]
  simp only [h.nnodes hn, h.node]
  split
  · exact .inr ⟨_, _, _, rfl, rfl, { h with node := rfl, nnodes := fun _ => rfl }⟩
  · exact .inl ⟨rfl, rfl⟩

theorem setFlag (h : Alike R W s t) {f : Flag} {b : Bool} (hR : Survives R (f, b)) :
    Alike R W (s.setFlag f b) (t.setFlag f b) :=
  { h with status := hR _ _ h.status }

theorem lower (h : Alike R W s t) {fs : List Flag} (hR : ∀ w ∈ fs.map (·, false), Survives R w) :
    Alike R W (s.lower fs) (t.lower fs) := by
  induction fs generalizing s t with
  | nil => exact h
  | cons f fs ih =>
    rw [List.map_cons, List.forall_mem_cons] at hR
    exact ih (h.setFlag hR.1) hR.2

/-! #### One lemma for each part -/

theorem countLiteral (h : Alike R W s t) (p : Params) (v : BitVec 8) :
    (countLiteral p v s).Match R W W ws (countLiteral p v t) := by
  rw [Machine.countLiteral, Machine.countLiteral, h.freq]
  split
  · exact .raise _ h
  · exact .again { h with freq := by rw [State.setFreq_freq, State.setFreq_freq, h.freq] }

theorem countLoop (h : Alike R W s t) (p : Params) : (countLoop p s).Match R W W ws (countLoop p t) := by
  obtain ⟨o, s', t', hs, ht, h'⟩ := h.readBits 8
  rw [Machine.countLoop, Machine.countLoop, hs, ht]
  cases o with
  | none => exact .leave h'
  | some v => exact h'.countLiteral p v

theorem countSeal (hR : Survives R (.freqValid, true)) (h : Alike R W s t) :
    (countSeal s).Match R W W ws (countSeal t) := by
  have hfreq : Alike R W (s.setFreq sentinel 1) (t.setFreq sentinel 1) :=
    { h with freq := by rw [State.setFreq_freq, State.setFreq_freq, h.freq] }
  exact .leave (hfreq.setFlag hR)

theorem buildLeavesFrom (h : Alike R W s t) (hpq : Work.pq ∈ W) (hn : Work.nnodes ∈ W) (p : Params) (vs : List Sym) :
    (buildLeavesFrom p vs s).Match R W W ws (buildLeavesFrom p vs t) := by
  induction vs generalizing s t with
  | nil => exact .leave h
  | cons v vs ih =>
    rw [Machine.buildLeavesFrom, Machine.buildLeavesFrom, h.freq]
    split
    · exact ih h
    · obtain ⟨hs, ht⟩ | ⟨i, s', t', hs, ht, h'⟩ := h.alloc hn p (.leaf v (s.freq[v].setWidth 41))
      · rw [hs, ht]
        exact .raise _ h
      · rw [hs, ht]
        exact ih { h' with pq := fun _ => congrArg (· ++ [i]) (h'.pq hpq) }

theorem buildLeaves (h : Alike R W s t) (p : Params) :
    (buildLeaves p s).Match R W ([.pq, .nnodes] ++ W) ws (buildLeaves p t) := by
  have hstart : Alike R ([.pq, .nnodes] ++ W) { s with nnodes := 0, pq := [] } { t with nnodes := 0, pq := [] } :=
    { h with
      pq := fun _ => rfl, nnodes := fun _ => rfl
      walk := fun hw => h.walk (by simpa using hw), pending := fun hw => h.pending (by simpa using hw) }
  exact (hstart.buildLeavesFrom (by simp) (by simp) p _).weaken (List.subset_append_right ..)

theorem buildFew (h : Alike R W s t) (hpq : Work.pq ∈ W) (hn : Work.nnodes ∈ W) (p : Params) :
    (buildFew p s).Match R W W ws (buildFew p t) := by
  rw [Machine.buildFew, Machine.buildFew, h.pq hpq, h.node]
  split
  · exact .raise _ h
  · rename_i a _
    obtain ⟨hs, ht⟩ | ⟨f, s₁, t₁, hs, ht, h₁⟩ := h.alloc hn p (.leaf (fillerSym s.node[a].symOr0) 0)
    · rw [hs, ht]
      exact .raise _ h
    · have hw : t₁.weightOf a = s₁.weightOf a := by rw [State.weightOf, State.weightOf, h₁.node]
      simp only [hs, ht, hw]
      obtain ⟨hs₁, ht₁⟩ | ⟨r, s₂, t₂, hs₁, ht₁, h₂⟩ := h₁.alloc hn p (.internal a f (s₁.weightOf a))
      · rw [hs₁, ht₁]
        exact .raise _ h₁
      · rw [hs₁, ht₁]
        exact .leave { h₂ with pq := fun _ => rfl }
  · exact .leave h

theorem before_eq (h : Alike R W s t) (i j : Idx) : before t i j = before s i j := by
  rw [before, before, State.weightOf, State.weightOf, State.weightOf, State.weightOf, h.node]

theorem least_eq (h : Alike R W s t) (m : Idx) (l : List Idx) : least t m l = least s m l := by
  induction l generalizing m with
  | nil => rfl
  | cons i l ih => rw [least, least, h.before_eq, ih]

theorem removeMin_eq (h : Alike R W s t) (q : List Idx) : removeMin t q = removeMin s q := by
  cases q with
  | nil => rfl
  | cons i l => rw [removeMin, removeMin, h.least_eq]

theorem buildMerge (hR : Survives R (.treeValid, true)) (h : Alike R W s t) (hpq : Work.pq ∈ W) (hn : Work.nnodes ∈ W)
    (p : Params) : (buildMerge p s).Match R W W ws (buildMerge p t) := by
  rw [Machine.buildMerge, Machine.buildMerge, h.pq hpq, h.removeMin_eq]
  split
  · exact .raise _ h
  · rename_i a q _
    simp only [h.removeMin_eq q]
    split
    · have hroot : Alike R W { s with root := a, pq := [] } { t with root := a, pq := [] } :=
        { h with root := rfl, pq := fun _ => rfl }
      exact .leave (hroot.setFlag hR)
    · rename_i b q' _
      have hw : t.weightOf a + t.weightOf b = s.weightOf a + s.weightOf b := by
        rw [State.weightOf, State.weightOf, h.node]
        rfl
      rw [hw]
      obtain ⟨hs, ht⟩ | ⟨r, s', t', hs, ht, h'⟩ := h.alloc hn p (.internal a b (s.weightOf a + s.weightOf b))
      · rw [hs, ht]
        exact .raise _ { h with pq := fun _ => rfl }
      · rw [hs, ht]
        exact .again { h' with pq := fun _ => rfl }

theorem genStart (h : Alike R W s t) : (genStart s).Match R W ([.walk] ++ W) ws (genStart t) := by
  have hroot : t.node[t.root] = s.node[s.root] := by simp only [h.node, h.root]
  simp only [Machine.genStart, hroot]
  cases s.node[s.root] with
  | leaf v w => exact .raise _ { h with code := rfl }
  | internal l r w =>
    exact .leave { h with
      code := rfl, walk := fun _ => by simp only [h.root]
      pq := fun hw => h.pq (by simpa using hw), pending := fun hw => h.pending (by simpa using hw)
      nnodes := fun hw => h.nnodes (by simpa using hw) }

theorem genWalk (hR : Survives R (.codeValid, true)) (h : Alike R W s t) (hwalk : Work.walk ∈ W) :
    (genWalk s).Match R W W ws (genWalk t) := by
  rw [Machine.genWalk, Machine.genWalk, h.walk hwalk]
  cases s.walk with
  | nil => exact .leave (h.setFlag hR)
  | cons top rest =>
    obtain ⟨i, path⟩ := top
    have hi : t.node[i] = s.node[i] := by rw [h.node]
    simp only [hi]
    cases s.node[i] with
    | leaf v w =>
      by_cases hlen : path.length ≤ 256
      · simp only [if_pos hlen]
        exact .again { h with
          code := congrArg (Vector.set · v.val path v.isLt) h.code
          walk := fun _ => rfl }
      · simp only [if_neg hlen]
        exact .stop _
    | internal l r w => exact .again { h with walk := fun _ => rfl }

theorem serStart (h : Alike R W s t) : (serStart s).Match R W ([.walk] ++ W) ws (serStart t) := by
  exact .leave { h with
    walk := fun _ => by simp only [h.root]
    pq := fun hw => h.pq (by simpa using hw), pending := fun hw => h.pending (by simpa using hw)
    nnodes := fun hw => h.nnodes (by simpa using hw) }

theorem serWalk (h : Alike R W s t) (hwalk : Work.walk ∈ W) : (serWalk s).Match R W W ws (serWalk t) := by
  rw [Machine.serWalk, Machine.serWalk, h.walk hwalk]
  cases s.walk with
  | nil => exact .leave h
  | cons top rest =>
    obtain ⟨i, path⟩ := top
    have hi : t.node[i] = s.node[i] := by rw [h.node]
    have hrest : ∀ x, Alike R W { s with walk := x } { t with walk := x } := fun x => { h with walk := fun _ => rfl }
    simp only [hi]
    cases s.node[i] with
    | leaf v w => exact .first (.serField v) (Stage.fits_of_free ⟨rfl, rfl, rfl⟩ W ws) ((hrest _).writeSeq _)
    | internal l r w => exact .again ((hrest _).writeSeq _)

theorem rdMagic (h : Alike R W s t) (p : Params) : (rdMagic p s).Match R W W ws (rdMagic p t) := by
  obtain ⟨o, s', t', hs, ht, h'⟩ := h.readBits 32
  rw [Machine.rdMagic, Machine.rdMagic, hs, ht]
  cases o with
  | none => exact .raise _ h'
  | some m =>
    show (checkMagic p m s').Match R W W ws (checkMagic p m t')
    rw [checkMagic, checkMagic]
    split
    · exact .leave h'
    · exact .raise _ h'

theorem attach (hR : Survives R (.treeValid, true)) (h : Alike R W s t) (hn : Work.nnodes ∈ W) (p : Params) (i : Idx)
    (st : List Pending) : (attach p i st s).Match R W W ws (attach p i st t) := by
  induction st generalizing i s t with
  | nil =>
    have hroot : Alike R W { s with root := i, pending := [] } { t with root := i, pending := [] } :=
      { h with root := rfl, pending := fun _ => rfl }
    exact .leave (hroot.setFlag hR)
  | cons f st ih =>
    cases f with
    | left => exact .again { h with pending := fun _ => rfl }
    | right l =>
      rw [Machine.attach, Machine.attach]
      obtain ⟨hs, ht⟩ | ⟨j, s', t', hs, ht, h'⟩ := h.alloc hn p (.internal l i 0)
      · rw [hs, ht]
        exact .raise _ { h with pending := fun _ => rfl }
      · rw [hs, ht]
        exact ih h' j

theorem fits_desField (hflag : (Flag.treeValid, true) ∈ ws) (hpending : Work.pending ∈ W) (hn : Work.nnodes ∈ W) :
    Stage.desField.Fits W ws :=
  ⟨rfl, by simp [Stage.uses, hpending, hn], by simpa [Stage.flagWrites] using hflag⟩

theorem fits_desLoop (hflag : (Flag.treeValid, true) ∈ ws) (hpending : Work.pending ∈ W) (hn : Work.nnodes ∈ W) :
    Stage.desLoop.Fits W ws :=
  ⟨rfl, by simp [Stage.uses, hpending, hn], by simpa [Stage.flagWrites] using hflag⟩

theorem desLeaf (hR : Survives R (.treeValid, true)) (h : Alike R W s t) (hpending : Work.pending ∈ W) (hn : Work.nnodes ∈ W)
    (p : Params) (f : BitVec 9) : (desLeaf p f s).Match R W W ws (desLeaf p f t) := by
  rw [Machine.desLeaf, Machine.desLeaf]
  split
  · rename_i hf
    obtain ⟨hs, ht⟩ | ⟨i, s', t', hs, ht, h'⟩ := h.alloc hn p (.leaf ⟨f.toNat, by omega⟩ 0)
    · rw [hs, ht]
      exact .raise _ h
    · rw [hs, ht]
      simp only [h'.pending hpending]
      exact h'.attach hR hn p i _
  · exact .raise _ h

theorem desLoop (hflag : (Flag.treeValid, true) ∈ ws) (h : Alike R W s t) (hpending : Work.pending ∈ W)
    (hn : Work.nnodes ∈ W) : (desLoop s).Match R W W ws (desLoop t) := by
  obtain ⟨o, s', t', hs, ht, h'⟩ := h.readBits 1
  rw [Machine.desLoop, Machine.desLoop, hs, ht]
  cases o with
  | none => exact .raise _ h'
  | some tag =>
    show (if tag = 1#1 then Turn.instead .desField s' else desInternal s').Match R W W ws
      (if tag = 1#1 then Turn.instead .desField t' else desInternal t')
    split
    · exact .instead _ (fits_desField hflag hpending hn) h'
    · exact .again { h' with pending := fun hw => congrArg (Pending.left :: ·) (h'.pending hw) }

theorem desField (hR : Survives R (.treeValid, true)) (hflag : (Flag.treeValid, true) ∈ ws) (h : Alike R W s t)
    (hpending : Work.pending ∈ W) (hn : Work.nnodes ∈ W) (p : Params) : (desField p s).Match R W W ws (desField p t) := by
  obtain ⟨o, s', t', hs, ht, h'⟩ := h.readBits 9
  rw [Machine.desField, Machine.desField, hs, ht]
  cases o with
  | none => exact .raise _ h'
  | some f => exact (h'.desLeaf hR hpending hn p f).backTo (fits_desLoop hflag hpending hn)

theorem withCode (h : Alike R W s t) (v : Sym) {use use' : Bits → Turn} (huse : ∀ c, (use c).Match R W W ws (use' c)) :
    (withCode v use s).Match R W W ws (withCode v use' t) := by
  rw [Machine.withCode, Machine.withCode, h.code]
  split
  · exact .raise _ h
  · exact huse _

theorem encLoop (h : Alike R W s t) : (encLoop s).Match R W W ws (encLoop t) := by
  obtain ⟨o, s', t', hs, ht, h'⟩ := h.readBits 8
  rw [Machine.encLoop, Machine.encLoop, hs, ht]
  cases o with
  | none => exact .leave h'
  | some v => exact h'.withCode _ fun c => .first _ (Stage.fits_of_free ⟨rfl, rfl, rfl⟩ W ws) h'

theorem encEmit (h : Alike R W s t) (c : Bits) : (encEmit c s).Match R W W ws (encEmit c t) := by
  cases c with
  | nil => exact .leave h
  | cons b bs => exact .instead _ (Stage.fits_of_free ⟨rfl, rfl, rfl⟩ W ws) (h.writeSeq [b])

theorem decByte (h : Alike R W s t) (v : Sym) : Alike R W (decByte v s) (decByte v t) :=
  { h.writeSeq (bits 8 v.val) with cur := h.root }

theorem decMove (h : Alike R W s t) (b : Bool) {byte byte' : Sym → State → Turn}
    (hbyte : ∀ v {s t : State}, Alike R W s t → (byte v s).Match R W W ws (byte' v t)) :
    (decMove byte b s).Match R W W ws (decMove byte' b t) := by
  have hcur : t.node[t.cur] = s.node[s.cur] := by simp only [h.node, h.cur]
  rw [Machine.decMove, Machine.decMove, hcur]
  cases s.node[s.cur] with
  | leaf v w => exact .raise _ h
  | internal l r w =>
    have hmove : Alike R W { s with cur := if b then r else l } { t with cur := if b then r else l } :=
      { h with cur := rfl }
    have hto : t.node[if b then r else l] = s.node[if b then r else l] := by rw [h.node]
    simp only [hto]
    cases s.node[if b then r else l] with
    | internal l' r' w' => exact .again hmove
    | leaf v w' =>
      by_cases hv : v = sentinel
      · simp only [if_pos hv]
        exact .leave hmove
      · simp only [if_neg hv]
        exact hbyte v hmove

theorem decLoop (h : Alike R W s t) : (decLoop s).Match R W W ws (decLoop t) := by
  obtain ⟨o, s', t', hs, ht, h'⟩ := h.readBits 1
  rw [Machine.decLoop, Machine.decLoop, hs, ht]
  cases o with
  | none => exact .raise _ h'
  | some b => exact h'.decMove _ fun v _ _ hv => .first _ (Stage.fits_of_free ⟨rfl, rfl, rfl⟩ W ws) hv

end Alike

/-- One unit of work does the same in two states that agree in what its part reads, and afterwards they agree also in the
working stores the part has set up. -/
theorem turn_alike {R : BitVec 8 → BitVec 8 → Prop} {W : List Work} {s t : State} (p : Params) {st : Stage}
    (hplain : st.plain = true) (huse : st.uses ⊆ W) (hR : ∀ w ∈ st.flagWrites, Survives R w) (h : Alike R W s t) :
    (turn p st s).Match R W (st.makes ++ W) st.flagWrites (turn p st t) := by
  cases st with
  | countClear => exact .leave { h with freq := rfl }
  | countLoop => exact h.countLoop p
  | countSeal => exact h.countSeal (hR _ (by decide))
  | buildLeaves => exact h.buildLeaves p
  | buildFew => exact h.buildFew (huse (by decide)) (huse (by decide)) p
  | buildMerge => exact h.buildMerge (hR _ (by decide)) (huse (by decide)) (huse (by decide)) p
  | genStart => exact h.genStart
  | genWalk => exact h.genWalk (hR _ (by decide)) (huse (by decide))
  | wrMagic => exact .leave (h.writeSeq _)
  | serStart => exact h.serStart
  | serWalk => exact h.serWalk (huse (by decide))
  | serField v => exact .leave (h.writeSeq _)
  | encRewind => exact .leave { h with inp := congrArg (fun i : Inp => { i with pos := 0 }) h.inp }
  | encLoop => exact h.encLoop
  | encSentinel => exact h.withCode _ fun c => .instead _ (Stage.fits_of_free ⟨rfl, rfl, rfl⟩ _ _) h
  | encEmit c => exact h.encEmit c
  | rdMagic => exact h.rdMagic p
  | desStart =>
    exact .leave { h with
      pending := fun _ => rfl, nnodes := fun _ => rfl
      pq := fun hw => h.pq (by simpa [Stage.makes] using hw), walk := fun hw => h.walk (by simpa [Stage.makes] using hw) }
  | desLoop => exact h.desLoop (by decide) (huse (by decide)) (huse (by decide))
  | desField => exact h.desField (hR _ (by decide)) (by decide) (huse (by decide)) (huse (by decide)) p
  | decStart => exact .leave { h with cur := h.root }
  | decLoop => exact h.decLoop
  | decEmit v => exact .leave (h.decByte v)
  | closeOut =>
    have hclosed : Alike R W s.closeByHost t.closeByHost :=
      { h with out := congrArg (fun o : Out => { o with closed := true }) h.out }
    exact .leave (hclosed.setFlag (hR _ (by decide)))
  | implicitClear =>
    have hflags := h.lower (fs := [.freqValid, .treeValid, .codeValid, .outClosed]) hR
    exact .leave { hflags with
      nnodes := fun _ => rfl
      pq := fun hw => hflags.pq (by simpa [Stage.makes] using hw)
      walk := fun hw => hflags.walk (by simpa [Stage.makes] using hw)
      pending := fun hw => hflags.pending (by simpa [Stage.makes] using hw) }
  | discardAll => exact .leave (h.lower hR)
  | discardTree => exact .leave (h.lower hR)
  | clearAll => cases hplain
  | raise c => cases hplain

end Sys2Proof.Machine

namespace Sys2Proof.Machine

open Sys2Proof

/-! ### The flags a body writes -/

theorem getLsbD_putBit_bit (a : BitVec 8) (f g : Flag) (b : Bool) :
    (putBit a g.bit b).getLsbD f.bit = if f = g then b else a.getLsbD f.bit := by
  have hlt := g.bit_lt
  simp only [getLsbD_putBit a g.bit f.bit b (by omega), Flag.bit_inj]

/-- The flag of `w` has the value of `w` in the second state. -/
def FlagIs (w : Flag × Bool) : BitVec 8 → BitVec 8 → Prop := fun _ b => b.getLsbD w.1.bit = w.2

/-- A flag keeps its value under every write but that of the other value to it. -/
theorem survives_flagIs {v w : Flag × Bool} (h : v ≠ (w.1, !w.2)) : Survives (FlagIs w) v := by
  intro a b hb
  rw [FlagIs, getLsbD_putBit_bit]
  split <;> rename_i hf
  · obtain ⟨f, x⟩ := v
    obtain ⟨g, y⟩ := w
    cases hf
    cases x <;> cases y <;> simp at h ⊢
  · exact hb

theorem survives_true (w : Flag × Bool) : Survives (fun _ _ => True) w := fun _ _ _ => trivial

/-- All the working stores. -/
def Work.all : List Work := [.pq, .walk, .pending, .nnodes]

theorem Work.subset_all (W : List Work) : W ⊆ Work.all := fun w _ => by cases w <;> decide

theorem Alike.refl {R : BitVec 8 → BitVec 8 → Prop} {s : State} (h : R s.status s.status) (W : List Work) :
    Alike R W s s :=
  { root := rfl, cur := rfl, freq := rfl, node := rfl, code := rfl, inp := rfl, out := rfl, err := rfl, status := h
    pq := fun _ => rfl, walk := fun _ => rfl, pending := fun _ => rfl, nnodes := fun _ => rfl }

/-- `P` holds of the part that comes next, where a turn says that another part comes next. -/
def Turn.Next (P : Stage → Prop) : Turn → Prop
  | .first st _ => P st
  | .instead st _ => P st
  | _ => True

/-- A part that a part of a body puts before itself or in its own place is one of a body, and writes no other flags. -/
theorem turn_next (p : Params) {st : Stage} (hst : st.plain = true) (s : State) :
    (turn p st s).Next fun st' => st'.plain = true ∧ st'.flagWrites ⊆ st.flagWrites := by
  have h := turn_alike p hst (Work.subset_all _) (fun w _ => survives_true w) (Alike.refl (s := s) trivial Work.all)
  cases hT : turn p st s with
  | first st' u =>
    rw [hT] at h
    cases h with
    | first _ hfits _ => exact ⟨hfits.plain, hfits.flags⟩
  | instead st' u =>
    rw [hT] at h
    cases h with
    | instead _ hfits _ => exact ⟨hfits.plain, hfits.flags⟩
  | _ => trivial

/-- A flag keeps its value through a part that does not write the other value to it. -/
theorem turn_flag_kept (p : Params) {st : Stage} {w : Flag × Bool} {s : State} (hst : st.plain = true)
    (hfree : (w.1, !w.2) ∉ st.flagWrites) (hw : s.flag w.1 = w.2) :
    (turn p st s).Ends fun t => t.flag w.1 = w.2 := by
  have h := turn_alike p hst (Work.subset_all _) (fun v hv => survives_flagIs fun hvw => hfree (hvw ▸ hv))
    (Alike.refl (R := FlagIs w) hw Work.all)
  cases hT : turn p st s with
  | ended u => trivial
  | stop f => trivial
  | again u => rw [hT] at h; cases h with | again h' => exact h'.status
  | leave u => rw [hT] at h; cases h with | leave h' => exact h'.status
  | first st' u => rw [hT] at h; cases h with | first _ _ h' => exact h'.status
  | instead st' u => rw [hT] at h; cases h with | instead _ _ h' => exact h'.status
  | raise c u => rw [hT] at h; cases h with | raise _ h' => exact h'.status

/-- A turn that leaves its part has written `w`, and one that hands over to another part leaves the write to that one. -/
def Turn.Writes (w : Flag × Bool) : Turn → Prop
  | .leave s => s.flag w.1 = w.2
  | .instead st _ => w ∈ st.flagWrites
  | _ => True

theorem attach_writes (p : Params) (i : Idx) (st : List Pending) (s : State) :
    (attach p i st s).Writes (.treeValid, true) := by
  induction st generalizing i s with
  | nil => exact (State.flag_setFlag ..).trans (if_pos rfl)
  | cons f st ih =>
    cases f with
    | left => trivial
    | right l =>
      rw [attach]
      split
      · trivial
      · exact ih _ _

theorem desField_writes (p : Params) (s : State) : (desField p s).Writes (.treeValid, true) := by
  rw [desField]
  split
  · trivial
  · rename_i f s' _
    rw [desLeaf]
    split
    · split
      · trivial
      · rename_i i t _
        have h := attach_writes p i t.pending t
        cases hT : attach p i t.pending t <;> rw [hT] at h
        case leave u => exact h
        case instead st u => exact h
        case again u => exact List.mem_singleton.mpr rfl
        all_goals trivial
    · trivial

theorem lower_writes {fs : List Flag} {w : Flag × Bool} (hw : w ∈ fs.map (·, false)) (s : State) :
    (s.lower fs).flag w.1 = w.2 := by
  obtain ⟨f, hf, rfl⟩ := List.mem_map.mp hw
  exact (State.flag_lower ..).trans (if_pos hf)

/-- A part writes its flags before it is left. -/
theorem turn_writes (p : Params) {st : Stage} {w : Flag × Bool} (hw : w ∈ st.flagWrites) (s : State) :
    (turn p st s).Writes w := by
  have hset : ∀ (t : State) (f : Flag), (t.setFlag f true).flag f = true := fun t f => by simp
  cases st with
  | countSeal => obtain rfl := List.mem_singleton.mp hw; exact hset _ _
  | buildMerge =>
    obtain rfl := List.mem_singleton.mp hw
    rw [turn, buildMerge]
    split
    · trivial
    · split
      · exact hset _ _
      · split <;> trivial
  | genWalk =>
    obtain rfl := List.mem_singleton.mp hw
    rw [turn, genWalk]
    split
    · exact hset _ _
    · split
      · split <;> trivial
      · trivial
  | desLoop =>
    obtain rfl := List.mem_singleton.mp hw
    rw [turn, desLoop]
    split
    · trivial
    · split
      · exact List.mem_singleton.mpr rfl
      · trivial
  | desField => obtain rfl := List.mem_singleton.mp hw; exact desField_writes p s
  | closeOut => obtain rfl := List.mem_singleton.mp hw; exact hset _ _
  | implicitClear => exact lower_writes hw s
  | discardAll => exact lower_writes hw s
  | discardTree => exact lower_writes hw s
  | _ => cases hw

/-- A running body in which the flag of `w` has the value of `w`, or a part still to do gives it that value, and no part
still to do takes it away; or a fault about to be entered. -/
inductive Giving (w : Flag × Bool) (s : State) : Prop
  | raises (c : Cause) (h : s.todo = [.raise c])
  | gives (hplain : ∀ st ∈ s.todo, st.plain = true ∧ (w.1, !w.2) ∉ st.flagWrites)
      (h : s.flag w.1 = w.2 ∨ ∃ st ∈ s.todo, w ∈ st.flagWrites)

/-- After a unit of work in the part `st`, with the parts `td` to do, the value of the flag is still to come or is there. -/
theorem Giving.unit {w : Flag × Bool} {p : Params} {s t : State} {st : Stage} {rest : List Stage} (h : s.todo = st :: rest)
    (hs : Giving w s) (hraise : ∀ c, st ≠ .raise c) (hnext : unit p s = .next t) : Giving w t := by
  obtain ⟨c, hc⟩ | ⟨hplain, hw⟩ := hs
  · rw [h] at hc
    exact absurd (List.cons.inj hc).1 (hraise c)
  · rw [h] at hplain hw
    obtain ⟨⟨hst, hfree⟩, hrest⟩ := List.forall_mem_cons.mp hplain
    have hcontrol := turn_control p st s
    have hparts := turn_next p hst s
    have hkept : s.flag w.1 = w.2 → _ := turn_flag_kept p hst hfree
    have hwrites : w ∈ st.flagWrites → _ := fun hw => turn_writes p hw s
    rw [unit_cons p h] at hnext
    cases hT : turn p st s <;> rw [hT] at hnext hcontrol hparts hkept hwrites
    case again u =>
      cases hnext
      have htodo := hcontrol.todo.trans h
      exact .gives (htodo ▸ hplain) (hw.imp hkept fun hin => htodo ▸ hin)
    case leave u =>
      cases hnext
      have htodo : u.todo.tail = rest := congrArg List.tail (hcontrol.todo.trans h)
      refine .gives (htodo ▸ hrest) ?_
      obtain hflag | ⟨st', hst', hw'⟩ := hw
      · exact .inl (hkept hflag)
      · obtain rfl | hmem := List.mem_cons.mp hst'
        · exact .inl (hwrites hw')
        · exact .inr ⟨st', htodo ▸ hmem, hw'⟩
    case first st' u =>
      cases hnext
      have htodo := hcontrol.todo.trans h
      have hfree' : (w.1, !w.2) ∉ st'.flagWrites := fun hin => hfree (hparts.2 hin)
      exact .gives (List.forall_mem_cons.mpr ⟨⟨hparts.1, hfree'⟩, htodo ▸ hplain⟩)
        (hw.imp hkept fun ⟨st₀, hin, hw₀⟩ => ⟨st₀, List.mem_cons_of_mem _ (htodo ▸ hin), hw₀⟩)
    case instead st' u =>
      cases hnext
      have htodo : u.todo.tail = rest := congrArg List.tail (hcontrol.todo.trans h)
      have hfree' : (w.1, !w.2) ∉ st'.flagWrites := fun hin => hfree (hparts.2 hin)
      refine .gives (List.forall_mem_cons.mpr ⟨⟨hparts.1, hfree'⟩, htodo ▸ hrest⟩) ?_
      obtain hflag | ⟨st₀, hin, hw₀⟩ := hw
      · exact .inl (hkept hflag)
      · obtain rfl | hmem := List.mem_cons.mp hin
        · exact .inr ⟨st', List.mem_cons_self .., hwrites hw₀⟩
        · exact .inr ⟨st₀, List.mem_cons_of_mem _ (htodo ▸ hmem), hw₀⟩
    case raise c u =>
      cases hnext
      exact .raises c rfl
    case ended u =>
      obtain ⟨rfl, _⟩ | ⟨c, rfl, _⟩ := turn_ended p hT
      · cases hst
      · exact absurd rfl (hraise c)
    case stop f => cases hnext

/-- A command that completes has given its flags the values that its parts write. -/
theorem runBusy_flag (p : Params) {w : Flag × Bool} (hbusy : w.1 ≠ .busy) (hdone : w.1 ≠ .done) {n : Nat} {s t : State}
    (hb : s.phase = .busy) (hs : Giving w s) (hrun : runBusy p n s = .next t) : t.phase = .idle → t.flag w.1 = w.2 := by
  refine runBusy_invariant p (P := fun s => s.phase = .busy ∧ Giving w s) (Q := fun t => t.phase = .idle → t.flag w.1 = w.2)
    ?_ ?_ ⟨hb, hs⟩ hrun
  · rintro s t ⟨_, hs⟩ hnext hb
    refine ⟨hb, ?_⟩
    cases htodo : s.todo with
    | nil =>
      rw [unit_nil p htodo] at hnext
      cases hnext
      simp at hb
    | cons st rest =>
      refine hs.unit htodo ?_ hnext
      rintro c rfl
      rw [unit_raise p htodo] at hnext
      cases hnext
      simp at hb
  · rintro s t ⟨hb, hs⟩ hnext hend hidle
    obtain ⟨htodo, rfl⟩ | ⟨st, rest, htodo, hT⟩ | ⟨u, td, hcontrol, rfl⟩ := unit_next p hnext
    · obtain ⟨c, hc⟩ | ⟨_, hw⟩ := hs
      · rw [htodo] at hc
        cases hc
      · simpa [hbusy, hdone, htodo] using hw
    · obtain ⟨rfl, _⟩ | ⟨c, _, rfl⟩ := turn_ended p hT
      · obtain ⟨c, hc⟩ | ⟨hplain, _⟩ := hs
        · rw [htodo] at hc
          cases hc
        · exact absurd (hplain .clearAll (htodo ▸ List.mem_cons_self ..)).1 (by decide)
      · simp at hidle
    · exact absurd (hcontrol.phase.trans hb) hend

/-! ### A run inside another -/

/-- The parts of a body are ready in states alike in the working stores `W`: each reads only what is alike when it comes;
and at the end the stores `V` are alike. -/
def ready (V : List Work) : List Work → List Stage → Bool
  | W, [] => decide (V ⊆ W)
  | W, st :: ts => st.plain && (decide (st.uses ⊆ W) && ready V (st.makes ++ W) ts)

theorem ready_cons {V W : List Work} {st : Stage} {ts : List Stage} :
    ready V W (st :: ts) = true ↔ st.plain = true ∧ st.uses ⊆ W ∧ ready V (st.makes ++ W) ts = true := by
  rw [ready, Bool.and_eq_true, Bool.and_eq_true, decide_eq_true_iff]

theorem ready_mono {V W W' : List Work} {ts : List Stage} (h : ready V W ts = true) (hW : W ⊆ W') :
    ready V W' ts = true := by
  induction ts generalizing W W' with
  | nil => exact decide_eq_true (List.Subset.trans (of_decide_eq_true h) hW)
  | cons st ts ih =>
    obtain ⟨hplain, huse, hts⟩ := ready_cons.mp h
    exact ready_cons.mpr ⟨hplain, List.Subset.trans huse hW, ih hts (List.append_subset.mpr
      ⟨List.subset_append_left .., List.Subset.trans hW (List.subset_append_right ..)⟩)⟩

/-- How a run from `t`, which holds the parts of another run and then the parts `rest`, goes while the other ends in `u`:
to `rest`, in a state like the one in which the other completes, or into the same fault. -/
inductive Follows (R : BitVec 8 → BitVec 8 → Prop) (V : List Work) (rest : List Stage) (t u : State) : Prop
  | past {k : Nat} {s' t' : State} (hu : u = s'.finish) (hrun : Comes k t t') (ht : At rest t') (h : Alike R V s' t')
  | faults {k : Nat} {c : Cause} {s' t' : State} (hu : u = s'.raise c)
      (hrun : ∀ n, runBusy Config.params (n + k) t = .next (t'.raise c)) (h : Alike R [] s' t')

/-- What a run answers whose bound leaves room for `k` units, one that comes to it answers with room for the way there. -/
theorem Comes.ends {j k : Nat} {s t v : State} (h : Comes j s t)
    (g : ∀ n, runBusy Config.params (n + k) t = .next v) (n : Nat) : runBusy Config.params (n + (k + j)) s = .next v :=
  (congrArg (runBusy Config.params · s) (Nat.add_assoc n k j).symm).trans ((h (n + k)).trans (g n))

theorem Comes.follows {R : BitVec 8 → BitVec 8 → Prop} {V : List Work} {rest : List Stage} {j : Nat} {t v u : State}
    (h : Comes j t v) (g : Follows R V rest v u) : Follows R V rest t u := by
  obtain ⟨hu, hrun, ht, halike⟩ | ⟨hu, hrun, halike⟩ := g
  · exact .past hu (h.trans hrun) ht halike
  · exact .faults hu (h.ends hrun) halike

/-- A run from a state like that of another run, with the same parts to do first, goes as that one. -/
theorem follows_run {R : BitVec 8 → BitVec 8 → Prop} (hR : ∀ w, Survives R w) {V W : List Work} {ts rest : List Stage}
    {n : Nat} {s t u : State} (hs : At ts s) (ht : At (ts ++ rest) t) (h : Alike R W s t) (hr : ready V W ts = true)
    (hrun : runBusy Config.params n s = .next u) : Follows R V rest t u := by
  induction n generalizing s t ts W with
  | zero => cases hrun
  | succ n ih =>
    rw [runBusy_succ] at hrun
    cases ts with
    | nil =>
      rw [unit_nil _ hs.todo, resume, if_neg (by simp)] at hrun
      cases hrun
      exact .past rfl (.refl t) ht (h.mono (of_decide_eq_true hr))
    | cons st ts =>
      obtain ⟨hplain, huse, hts⟩ := ready_cons.mp hr
      have hmatch := turn_alike Config.params hplain huse (fun w _ => hR w) h
      have hcs := turn_control Config.params st s
      have hct := turn_control Config.params st t
      have hunit := unit_cons Config.params ht.todo
      rw [unit_cons Config.params hs.todo] at hrun
      generalize turn Config.params st s = T at hmatch hcs hrun
      generalize turn Config.params st t = T' at hmatch hct hunit
      have hW : W ⊆ st.makes ++ W := List.subset_append_right ..
      have hagain : ready V (st.makes ++ W) (st :: ts) = true := ready_mono hr hW
      have go : ∀ {s' t' : State} {td : List Stage}, SameControl s s' → SameControl t t' →
          resume Config.params n (.next { s' with todo := td }) = .next u →
          unit Config.params t = .next { t' with todo := td ++ rest } → Alike R (st.makes ++ W) s' t' →
          ready V (st.makes ++ W) td = true → Follows R V rest t u := by
        intro s' t' td hs' ht' hrun hunit h' hr'
        have hbs := hs'.phase.trans hs.busy
        have hbt := ht'.phase.trans ht.busy
        rw [resume, if_pos hbs] at hrun
        exact (Comes.unit hunit hbt).follows (ih (s := { s' with todo := td }) (t := { t' with todo := td ++ rest })
          ⟨hbs, rfl⟩ ⟨hbt, rfl⟩ { h' with } hr' hrun)
      cases hmatch with
      | @again s' t' h' =>
        have hs' : { s' with todo := st :: ts } = s' := by rw [← hs.todo, ← hcs.todo]
        have ht' : { t' with todo := st :: ts ++ rest } = t' := by rw [← ht.todo, ← hct.todo]
        exact go hcs hct (hs'.symm ▸ hrun) (ht'.symm ▸ hunit) h' hagain
      | @leave s' t' h' =>
        have hs' : s'.todo.tail = ts := congrArg List.tail (hcs.todo.trans hs.todo)
        have ht' : t'.todo.tail = ts ++ rest := congrArg List.tail (hct.todo.trans ht.todo)
        rw [Turn.settle, hs'] at hrun
        rw [Turn.settle, ht'] at hunit
        exact go hcs hct hrun hunit h' hts
      | @first s' t' st' hst' h' =>
        rw [Turn.settle, hcs.todo, hs.todo] at hrun
        rw [Turn.settle, hct.todo, ht.todo] at hunit
        exact go hcs hct hrun hunit h' (ready_cons.mpr ⟨hst'.plain, hst'.uses,
          ready_mono hagain (List.subset_append_right ..)⟩)
      | @instead s' t' st' hst' h' =>
        have hs' : s'.todo.tail = ts := congrArg List.tail (hcs.todo.trans hs.todo)
        have ht' : t'.todo.tail = ts ++ rest := congrArg List.tail (hct.todo.trans ht.todo)
        rw [Turn.settle, hs'] at hrun
        rw [Turn.settle, ht'] at hunit
        exact go hcs hct hrun hunit h' (ready_cons.mpr ⟨hst'.plain, hst'.uses,
          ready_mono hts (List.subset_append_right ..)⟩)
      | @raise s' t' c h' =>
        have hbs := hcs.phase.trans hs.busy
        have hbt := hct.phase.trans ht.busy
        rw [Turn.settle, resume, if_pos hbs] at hrun
        refine .faults (k := 2) (c := c) ?_ (fun m => runBusy_raise _ m hunit hbt) h'.forget
        cases n with
        | zero => cases hrun
        | succ n =>
          rw [runBusy_end _ n (settle_raise Config.params c s').2 (by simp)] at hrun
          cases hrun
          rfl
      | stop f => cases hrun

end Sys2Proof.Machine

namespace Sys2Proof.Machine

open Sys2Proof

/-! ### A composite and its commands (R190, R191) -/

/-- The two states have the same `OUT_CLOSED`. -/
def SameClosed : BitVec 8 → BitVec 8 → Prop := fun a b =>
  a.getLsbD Flag.outClosed.bit = b.getLsbD Flag.outClosed.bit

theorem survives_sameClosed (w : Flag × Bool) : Survives SameClosed w := by
  intro a b h
  rw [SameClosed, getLsbD_putBit_bit, getLsbD_putBit_bit, h]

namespace Alike

variable {V : List Work} {s t : State}

/-- Outside a run only `NNODES` is left of the working stores. -/
theorem finish (h : Alike SameClosed V s t) (hV : V ⊆ [.nnodes]) : Alike SameClosed V s.finish t :=
  { h with
    status := Eq.trans (show s.finish.flag .outClosed = s.flag .outClosed by simp) h.status
    pq := fun hw => by simpa using hV hw
    walk := fun hw => by simpa using hV hw
    pending := fun hw => by simpa using hV hw }

theorem issue {c : Command} (hc : c ∈ Command.all) (hs : s.phase = .idle) (h : Alike SameClosed V s t) :
    Alike SameClosed V (c.issue s) t := by
  have hclosed : (c.issue s).flag .outClosed = s.flag .outClosed := Command.issue_outClosed hc hs
  have hstatus : SameClosed (c.issue s).status t.status := Eq.trans hclosed h.status
  rw [c.issue_frame hs]
  exact { h with status := hstatus }

end Alike

/-- The state `t` in which a composite ends, and the state `u` in which its commands end, agree. -/
structure Agree (t u : State) : Prop where
  phase : t.phase = u.phase
  err : t.err = u.err
  inp : t.inp = u.inp
  out : t.out = u.out
  freq : t.freq = u.freq
  node : t.node = u.node
  root : t.root = u.root
  code : t.code = u.code
  cur : t.cur = u.cur
  nnodes : u.phase = .idle → t.nnodes = u.nnodes

theorem Alike.raise_agree {V : List Work} {s t : State} (h : Alike SameClosed V s t) (c : Cause) :
    Agree (t.raise c) (s.raise c) := by
  have hclosed : t.flag .outClosed = s.flag .outClosed := h.status.symm
  rw [State.raise_frame s, State.raise_frame t, hclosed, h.out]
  exact ⟨rfl, rfl, h.inp, rfl, h.freq, h.node, h.root, h.code, h.cur, fun hidle => by cases hidle⟩

/-- When the command `c`, started with the flags `F`, completes, the flag of `w` has the value of `w`. -/
abbrev Command.Gives (c : Command) (F : List (Flag × Bool)) (w : Flag × Bool) : Prop :=
  w.1 ≠ .busy ∧ w.1 ≠ .done ∧ (∀ st ∈ c.parts, st.plain = true ∧ (w.1, !w.2) ∉ st.flagWrites) ∧
    (w ∈ F ∧ w.1 ∉ c.clears ∨ ∃ st ∈ c.parts, w ∈ st.flagWrites)

theorem Command.Gives.giving {c : Command} {F : List (Flag × Bool)} {w : Flag × Bool} (h : c.Gives F w) {s : State}
    (hs : s.phase = .idle) (hF : ∀ v ∈ F, s.flag v.1 = v.2) (htodo : (c.issue s).todo = c.parts) :
    Giving w (c.issue s) := by
  obtain ⟨hbusy, hdone, hplain, hw⟩ := h
  refine .gives (htodo ▸ hplain) (hw.imp (fun ⟨hin, hclear⟩ => ?_) fun hst => htodo ▸ hst)
  rw [c.flag_issue hs, if_neg hclear, State.flag_accept, if_neg hdone, if_neg hbusy]
  exact hF w hin

/-- The commands `is`, one after the other, from flags `F` and stores `V` that a composite shares: each has the flags it
needs when it comes, and is ready. Their parts are `ps`; at the end the stores `V'` are shared. -/
inductive Chained : List (Flag × Bool) → List Work → List Instr → List Stage → List Work → Prop
  | nil (F : List (Flag × Bool)) (V : List Work) : Chained F V [] [] V
  | cons {F : List (Flag × Bool)} {V V'' : List Work} {i : Instr} {is : List Instr} {ps : List Stage} (c : Command)
      (F' : List (Flag × Bool)) (V' : List Work) (hexec : ∀ s, exec i s = c.run Config.params s)
      (hc : c ∈ Command.all ∧ c.needs ⊆ F ∧ (∀ w ∈ F', c.Gives F w) ∧ V' ⊆ [.nnodes] ∧ ready V' V c.parts = true)
      (h : Chained F' V' is ps V'') : Chained F V (i :: is) (c.parts ++ ps) V''

/-- Commands presented in `FAULT` have no effect (R217). -/
theorem Chained.execAll_fault {F : List (Flag × Bool)} {V V' : List Work} {is : List Instr} {ps : List Stage}
    (h : Chained F V is ps V') {s : State} (hs : s.phase = .fault) : execAll is s = .next s := by
  induction h with
  | nil => rfl
  | cons c _ _ hexec _ _ ih =>
    rw [execAll, hexec, c.run_not_idle _ (by rw [hs]; decide)]
    exact ih

theorem Chained.follows {F : List (Flag × Bool)} {V V' : List Work} {is : List Instr} {ps rest : List Stage}
    (h : Chained F V is ps V') {x y u : State} (hx : x.phase = .idle) (hF : ∀ w ∈ F, x.flag w.1 = w.2)
    (hy : At (ps ++ rest) y) (hxy : Alike SameClosed V x y) (hrun : execAll is x = .next u) :
    (u.phase = .idle ∧ ∃ k y', Comes k y y' ∧ At rest y' ∧ Alike SameClosed V' u y') ∨
      ∃ k c y', (∀ n, runBusy Config.params (n + k) y = .next (State.raise c y')) ∧ Agree (y'.raise c) u := by
  induction h generalizing x y with
  | nil F V =>
    cases hrun
    exact .inl ⟨hx, 0, y, .refl y, hy, hxy⟩
  | @cons F V V'' i is ps c F' V' hexec hchained h ih =>
    obtain ⟨hc, hneeds, hgives, hV', hready⟩ := hchained
    have hm : x.meets c.needs = true := by
      rw [State.meets, List.all_eq_true]
      exact fun w hw => beq_iff_eq.mpr (hF w (hneeds hw))
    obtain ⟨hbody, htodo⟩ := Command.run_of_meets Config.params hc hx hm
    rw [execAll, hexec, hbody] at hrun
    cases hend : runBusy Config.params (fuel x) (c.issue x) with
    | next v =>
      rw [hend] at hrun
      have hfollows := follows_run survives_sameClosed (rest := ps ++ rest) ⟨c.issue_busy hx, htodo⟩
        (List.append_assoc .. ▸ hy) (hxy.issue hc hx) hready hend
      obtain @⟨k, s', y', rfl, hcomes, hat, halike⟩ | @⟨k, d, s', y', rfl, hfault, halike⟩ := hfollows
      · have hidle : s'.finish.phase = .idle := by simp
        have hF' : ∀ w ∈ F', s'.finish.flag w.1 = w.2 := fun w hw =>
          runBusy_flag Config.params (hgives w hw).1 (hgives w hw).2.1 (c.issue_busy hx)
            ((hgives w hw).giving hx hF htodo) hend hidle
        obtain ⟨hu, k', z, hz, hatz, hagree⟩ | ⟨k', d, z, hz, hagree⟩ :=
          ih hidle hF' hat (halike.finish hV') hrun
        · exact .inl ⟨hu, _, z, hcomes.trans hz, hatz, hagree⟩
        · exact .inr ⟨k' + k, d, z, hcomes.ends hz, hagree⟩
      · cases (h.execAll_fault (s := s'.raise d) (by simp)).symm.trans hrun
        exact .inr ⟨k, d, y', hfault, halike.raise_agree d⟩
    | fault f => rw [hend] at hrun; cases hrun
    | refused r => rw [hend] at hrun; cases hrun

/-- R190: the commands of the compression flow. -/
theorem chained_compress : Chained [(.outClosed, false)] []
    [.count, .build, .generate, .wrmagic, .serialize, .encode, .close]
    (Command.count.parts ++ (Command.build.parts ++ (Command.generate.parts ++ (Command.wrmagic.parts ++
      (Command.serialize.parts ++ (Command.encode.parts ++ (Command.close.parts ++ []))))))) [.nnodes] :=
  .cons .count [(.outClosed, false), (.freqValid, true)] [] (fun _ => rfl) (by decide) <|
  .cons .build [(.outClosed, false), (.treeValid, true)] [.nnodes] (fun _ => rfl) (by decide) <|
  .cons .generate [(.outClosed, false), (.treeValid, true), (.codeValid, true)] [.nnodes] (fun _ => rfl) (by decide) <|
  .cons .wrmagic [(.outClosed, false), (.treeValid, true), (.codeValid, true)] [.nnodes] (fun _ => rfl) (by decide) <|
  .cons .serialize [(.outClosed, false), (.codeValid, true)] [.nnodes] (fun _ => rfl) (by decide) <|
  .cons .encode [(.outClosed, false)] [.nnodes] (fun _ => rfl) (by decide) <|
  .cons .close [] [.nnodes] (fun _ => rfl) (by decide) <|
  .nil ..

/-- R191: the commands of the decompression flow. -/
theorem chained_decompress : Chained [(.outClosed, false)] [] [.rdmagic, .deserialize, .decode, .close]
    (Command.rdmagic.parts ++ (Command.deserialize.parts ++ (Command.decode.parts ++ (Command.close.parts ++ []))))
    [.nnodes] :=
  .cons .rdmagic [(.outClosed, false)] [] (fun _ => rfl) (by decide) <|
  .cons .deserialize [(.outClosed, false), (.treeValid, true)] [.nnodes] (fun _ => rfl) (by decide) <|
  .cons .decode [(.outClosed, false)] [.nnodes] (fun _ => rfl) (by decide) <|
  .cons .close [] [.nnodes] (fun _ => rfl) (by decide) <|
  .nil ..

/-- The state in which a composite goes on after the implicit clear, to do the parts `td`. -/
def State.cleared (s : State) (td : List Stage) : State := { s.implicitClear with todo := td }

theorem State.cleared_at {s : State} (h : s.phase = .busy) (td : List Stage) : At td (s.cleared td) := ⟨h, rfl⟩

theorem Alike.cleared {s v : State} (h : Alike SameClosed [] v s) (hopen : s.flag .outClosed = false) (td : List Stage) :
    Alike SameClosed [] s (v.cleared td) :=
  have hclosed : v.implicitClear.flag .outClosed = false := by simp
  { root := h.root.symm, cur := h.cur.symm, freq := h.freq.symm, node := h.node.symm, code := h.code.symm
    inp := h.inp.symm, out := h.out.symm, err := h.err.symm
    status := hopen.trans hclosed.symm
    pq := by simp, walk := by simp, pending := by simp, nnodes := by simp }

/-- A run that answers answers the same whatever bound past a given one answers. -/
theorem runBusy_unique {n k : Nat} {s t v : State} (h : runBusy Config.params n s = .next t)
    (hv : ∀ m, runBusy Config.params (m + k) s = .next v) : t = v := by
  have hsame := (Nat.add_comm n k ▸ runBusy_mono _ h k).symm.trans (hv n)
  cases hsame
  rfl

/-- A composite's run ends as its commands do: its first part is the implicit clear, its last a discard, which writes
flags only. -/
theorem composite_agrees {c : Command} (hc : c ∈ Command.all) {discard : Stage} {is : List Instr} {ps : List Stage}
    {s t u : State} (hs : s.phase = .idle) (hopen : s.flag .outClosed = false)
    (hchain : Chained [(.outClosed, false)] [] is ps [.nnodes])
    (htodo : (c.issue s).todo = .implicitClear :: (ps ++ [discard]))
    (hdiscard : ∀ x : State, x.todo = [discard] →
      ∃ status, unit Config.params x = .next { x with status := status, todo := [] })
    (hrun : runBusy Config.params (fuel s) (c.issue s) = .next t) (hall : execAll is s = .next u) : Agree t u := by
  have hat := State.cleared_at (c.issue_busy hs) (ps ++ [discard])
  have hcomes := Comes.unit (unit_implicitClear _ htodo) hat.busy
  have halike := (Alike.issue hc hs (.refl (R := SameClosed) (s := s) rfl [])).cleared hopen (ps ++ [discard])
  obtain ⟨hu, k, y, hy, hat, halike⟩ | ⟨k, d, y, hy, hagree⟩ := hchain.follows hs
    (List.forall_mem_singleton.mpr hopen) hat halike hall
  · obtain ⟨status, hunit⟩ := hdiscard y hat.todo
    have hend := (hcomes.trans hy).trans (.unit hunit hat.busy)
    have ht := runBusy_unique (k := 1 + (k + 1) + 1) hrun fun m => hend.finishes rfl (by omega)
    rw [ht]
    exact ⟨hu.symm, halike.err, halike.inp, halike.out, halike.freq, halike.node, halike.root, halike.code, halike.cur,
      fun _ => halike.nnodes (by decide)⟩
  · rw [runBusy_unique hrun (hcomes.ends hy)]
    exact hagree

/-- Settles O42: `composite_agrees` for the compression flow. -/
theorem compressEqualsItsCommands : Obligations.CompressEqualsItsCommands := by
  unfold Obligations.CompressEqualsItsCommands
  intro s u hs hopen hall
  obtain ⟨hexec, htodo⟩ := exec_compress hs
  obtain ⟨t, ht, _⟩ := exec_compress_grown hs
  have h := composite_agrees (discard := .discardAll) (by decide) hs hopen chained_compress htodo
    (fun x hx => ⟨_, unit_discardAll _ hx⟩) (hexec.symm.trans ht) hall
  exact ⟨t, ht, h.phase, h.err, h.inp, h.out, h.freq, h.node, h.root, h.code, h.cur, h.nnodes⟩

/-- Settles O44: `composite_agrees` for the decompression flow. -/
theorem decompressEqualsItsCommands : Obligations.DecompressEqualsItsCommands := by
  unfold Obligations.DecompressEqualsItsCommands
  intro s u hs hopen hall
  obtain ⟨hexec, htodo⟩ := exec_decompress hs
  obtain ⟨t, ht, _⟩ := exec_decompress_grown hs
  have h := composite_agrees (discard := .discardTree) (by decide) hs hopen chained_decompress htodo
    (fun x hx => ⟨(x.lower [.treeValid]).status, unit_discardTree _ hx⟩) (hexec.symm.trans ht) hall
  exact ⟨t, ht, h.phase, h.err, h.inp, h.out, h.cur, h.freq, h.code, h.node, h.root, h.nnodes⟩

end Sys2Proof.Machine

namespace Sys2Proof.Machine

open Sys2Proof

/-! ### A command done unit by unit (R231, R244) -/

theorem survives_eq (w : Flag × Bool) : Survives Eq w := fun a b h => by rw [h]

/-- States that agree in all that a unit of work reads or keeps differ at most in the parts to do and in the host's
script. -/
theorem Alike.eq_of_control {s t : State} (h : Alike Eq Work.all s t) (hop : t.op = s.op) (hphase : t.phase = s.phase)
    (hrst : t.rst = s.rst) : t = { s with todo := t.todo, host := t.host } := by
  have hpq := h.pq (by decide)
  have hwalk := h.walk (by decide)
  have hpending := h.pending (by decide)
  have hnnodes := h.nnodes (by decide)
  have hstatus := h.status.symm
  obtain ⟨hroot, hcur, hfreq, hnode, hcode, hinp, hout, herr, -⟩ := h
  cases s
  cases t
  simp only at *
  subst_vars
  rfl

/-- A turn with every state that goes on changed. -/
def Turn.map (f : State → State) : Turn → Turn
  | .again s => .again (f s)
  | .leave s => .leave (f s)
  | .first st s => .first st (f s)
  | .instead st s => .instead st (f s)
  | .ended s => .ended (f s)
  | .raise c s => .raise c (f s)
  | .stop e => .stop e

theorem Turn.Match.eq_map {U W : List Work} {ws : List (Flag × Bool)} {T T' : Turn} {f : State → State}
    (h : T.Match Eq U W ws T') (hU : U = Work.all) (hW : Work.all ⊆ W) {P : State → Prop} {Q : State → Prop}
    (hT : T.Ends P) (hT' : T'.Ends Q) (hf : ∀ s t, P s → Q t → Alike Eq Work.all s t → t = f s) : T' = T.map f := by
  subst hU
  cases h with
  | again h => exact congrArg _ (hf _ _ hT hT' (h.mono hW))
  | leave h => exact congrArg _ (hf _ _ hT hT' (h.mono hW))
  | first st hst h => exact congrArg _ (hf _ _ hT hT' (h.mono hW))
  | instead st hst h => exact congrArg _ (hf _ _ hT hT' (h.mono hW))
  | raise c h => exact congrArg _ (hf _ _ hT hT' h)
  | stop e => rfl

/-- The same state under another script of the host. -/
def State.underHost (l : List HostAction) (s : State) : State := { s with host := l }

/-- The entry of a fault reads neither the parts to do nor the host's script, and leaves no part to do. -/
theorem State.raise_congr (s : State) (c : Cause) (td : List Stage) (l : List HostAction) :
    State.raise c { s with todo := td, host := l } = (s.raise c).underHost l := by
  have hclosed : ({ s with todo := td, host := l, err := c.code } : State).flag .outClosed =
    ({ s with err := c.code } : State).flag .outClosed := rfl
  simp only [State.raise, hclosed]
  split <;> rfl

/-- No unit of work reads the host's script. -/
theorem turn_underHost (p : Params) (st : Stage) (s : State) (l : List HostAction) :
    turn p st (s.underHost l) = (turn p st s).map (State.underHost l) := by
  by_cases hplain : st.plain = true
  · have hmatch := turn_alike p hplain (Work.subset_all _) (fun w _ => survives_eq w)
      (show Alike Eq Work.all s (s.underHost l) from { Alike.refl rfl Work.all with })
    refine hmatch.eq_map rfl (List.subset_append_right ..)
      (Turn.ends_and (turn_control p st s) (turn_rst p st s))
      (Turn.ends_and (turn_control p st (s.underHost l)) (turn_rst p st (s.underHost l))) ?_
    rintro u v ⟨hu, hurst⟩ ⟨hv, hvrst⟩ h
    have heq := h.eq_of_control (hv.op.trans hu.op.symm) (hv.phase.trans hu.phase.symm) (hvrst.trans hurst.symm)
    rw [hv.todo.trans (show (s.underHost l).todo = u.todo from hu.todo.symm), hv.host] at heq
    exact heq
  · cases st with
    | clearAll => rfl
    | raise c => exact congrArg Turn.ended (State.raise_congr s c s.todo l)
    | _ => exact absurd rfl hplain

theorem unit_underHost (p : Params) {s t : State} (h : unit p s = .next t) (l : List HostAction) :
    unit p (s.underHost l) = .next (t.underHost l) := by
  cases htodo : s.todo with
  | nil =>
    rw [unit_nil p htodo] at h
    cases h
    exact unit_nil p htodo
  | cons st rest =>
    rw [unit_cons p htodo] at h
    rw [unit_cons p (s := s.underHost l) htodo, turn_underHost]
    cases hT : turn p st s <;> rw [hT] at h <;> cases h <;> rfl

theorem step_underHost_tick (s : State) (l : List HostAction) : step (s.underHost (.tick :: l)) = tick (s.underHost l) :=
  step_tick rfl

/-- While the block is not `BUSY` and the host only waits for units of work, nothing happens. -/
theorem steps_ticks_not_busy {s : State} (h : s.phase ≠ .busy) (n : Nat) :
    steps n (s.underHost (List.replicate n .tick)) = .next (s.underHost []) := by
  induction n with
  | zero => rfl
  | succ n ih =>
    rw [List.replicate_succ, steps, step_underHost_tick, tick_not_busy (s := s.underHost (List.replicate n .tick)) h]
    exact ih

/-- A run done one unit of work a step. -/
theorem steps_ticks {n : Nat} {s t : State} (hb : s.phase = .busy) (h : runBusy Config.params n s = .next t) :
    steps n (s.underHost (List.replicate n .tick)) = .next (t.underHost []) := by
  induction n generalizing s with
  | zero => cases h
  | succ n ih =>
    rw [runBusy_succ] at h
    rw [List.replicate_succ, steps, step_underHost_tick, tick_busy (s := s.underHost (List.replicate n .tick)) hb]
    cases hunit : unit Config.params s with
    | next u =>
      rw [hunit, resume] at h
      rw [unit_underHost Config.params hunit]
      by_cases hu : u.phase = .busy
      · rw [if_pos hu] at h
        exact ih hu h
      · rw [if_neg hu] at h
        cases h
        exact steps_ticks_not_busy hu n
    | fault f => rw [hunit] at h; cases h
    | refused r => rw [hunit] at h; cases h

end Sys2Proof.Machine

namespace Sys2Proof.Machine

open Sys2Proof

/-! ### A command done stream unit by stream unit (R55, R89) -/

theorem Inp.pos_of_rest {i : Inp} {a tail : Bits} (h : i.rest = a ++ tail) (ha : a ≠ []) :
    i.data.length - tail.length = i.pos + a.length := by
  have hlen := congrArg List.length h
  have hpos := List.length_pos_of_ne_nil ha
  rw [Inp.rest, List.length_drop, List.length_append] at hlen
  omega

/-- The row that a decoder answers has bits. -/
theorem encode_ne_nil {sp : Space} {bs rest : Bits} {i : Instr} (h : decode sp bs = .ok (i, rest)) : encode i ≠ [] := by
  obtain ⟨-, rfl⟩ := encodeDecode sp bs rest i h
  cases i with
  | bodyCode c =>
    rw [show (Instr.bodyCode c).space = .body c.length from rfl, decode] at h
    split at h
    · rename_i hlen
      exact List.ne_nil_of_length_pos hlen.1
    · cases h
  | _ => exact List.ne_nil_of_length_pos (by simp [encode])

/-- A fetch takes the bits of the row it answers, of the space that the running part reads. -/
theorem State.fetch_row {s s' : State} {i : Instr} (h : s.fetch = some (i, s')) :
    ∃ tail, s.readSpace = some i.space ∧ s.inp.rest = encode i ++ tail ∧
      s' = { s with inp := { s.inp with pos := s.inp.pos + (encode i).length } } := by
  rw [State.fetch] at h
  split at h
  · cases h
  · rename_i sp hsp
    split at h
    · rename_i j rest hdec
      cases h
      obtain ⟨hbits, rfl⟩ := encodeDecode sp _ _ _ hdec
      exact ⟨rest, hsp, hbits.symm, by rw [Inp.pos_of_rest hbits.symm (encode_ne_nil hdec)]⟩
    · cases h

/-- After the step with the outcome `o` the run that ends in `t` has ended there, or goes on there within a smaller
bound. -/
def Advances (n : Nat) (t : State) (o : Host.Outcome State Fault Refusal) : Prop :=
  ∃ v, o = .next v ∧ (v = t ∨ v.phase = .busy ∧ ∃ m < n, runBusy Config.params m v = .next t)

theorem advances_of_resume {n m : Nat} {t v : State} (hm : m < n) (h : resume Config.params m (.next v) = .next t) :
    Advances n t (.next v) := by
  rw [resume] at h
  split at h <;> rename_i hv
  · exact ⟨v, rfl, .inr ⟨hv, m, hm, h⟩⟩
  · cases h
    exact ⟨_, rfl, .inl rfl⟩

/-- One unit of the command's own work. -/
theorem advances_unit {n : Nat} {s t : State} (h : runBusy Config.params n s = .next t) :
    Advances n t (unit Config.params s) := by
  cases n with
  | zero => cases h
  | succ n =>
    rw [runBusy_succ] at h
    cases hunit : unit Config.params s with
    | next v =>
      rw [hunit] at h
      exact advances_of_resume n.lt_succ_self h
    | fault f => rw [hunit] at h; cases h
    | refused r => rw [hunit] at h; cases h

/-- Units of work done at once, of which the last ends as `T` does, a fault being entered at once. -/
theorem advances_turn {n k : Nat} {s u t : State} {T : Turn} (h : runBusy Config.params n s = .next t)
    (hcomes : Comes k s u) (hunit : unit Config.params u = T.settle) (hb : T.Ends fun v => v.phase = .busy) :
    Advances n t T.settleWhole := by
  have hrun : runBusy Config.params n u = .next t :=
    (hcomes n).symm.trans (Nat.add_comm k n ▸ runBusy_mono _ h k)
  have hadvances := advances_unit hrun
  rw [hunit] at hadvances
  cases hT : T with
  | raise c v =>
    rw [hT] at hunit hb
    refine ⟨v.raise c, rfl, .inl ?_⟩
    have hfault := runBusy_mono _ hrun 2
    rw [Nat.add_comm, runBusy_raise _ n hunit hb] at hfault
    cases hfault
    rfl
  | _ => rw [hT] at hadvances; exact hadvances

/-- Units of work done at once. -/
theorem advances_comes {n k : Nat} {s v t : State} (h : runBusy Config.params n s = .next t)
    (hcomes : Comes (k + 1) s v) (hb : v.phase = .busy) : Advances n t (.next v) := by
  obtain hn | hn := Nat.lt_or_ge (k + 1) n
  · obtain ⟨m, rfl⟩ : ∃ m, n = m + (k + 1) := ⟨n - (k + 1), by omega⟩
    exact ⟨v, rfl, .inr ⟨hb, m, by omega, (hcomes m).symm.trans h⟩⟩
  · have hzero := runBusy_mono _ h (k + 1 - n)
    rw [Nat.sub_add_cancel hn, ← Nat.zero_add (k + 1), hcomes 0] at hzero
    cases hzero

theorem State.running_some {s : State} {st : Stage} (h : s.running = some st) : ∃ rest, s.todo = st :: rest := by
  rw [State.running] at h
  split at h
  · exact List.head?_eq_some_iff.mp h
  · cases h

/-- A turn that puts no part before the one it stands in, and does not end the command by itself. -/
def Turn.Stays : Turn → Prop
  | .first _ _ => False
  | .ended _ => False
  | _ => True

theorem attach_stays (p : Params) (i : Idx) (st : List Pending) (s : State) : (attach p i st s).Stays := by
  induction st generalizing i s with
  | nil => trivial
  | cons f st ih =>
    cases f with
    | left => trivial
    | right l =>
      rw [attach]
      split
      · trivial
      · exact ih _ _

theorem desLeaf_stays (p : Params) (f : BitVec 9) (s : State) : (desLeaf p f s).Stays := by
  rw [desLeaf]
  split
  · split
    · trivial
    · exact attach_stays ..
  · trivial

theorem desLeaf_rst (p : Params) (f : BitVec 9) (s : State) : (desLeaf p f s).Ends fun u => u.rst = s.rst :=
  Turn.ends_imp (Turn.within_ends (desLeaf_within p f s)) fun _ hu => hu .rst (by decide)

/-- The state in which DESERIALIZE, after a leaf's tag, is to read the leaf's field. -/
def State.atField (rest : List Stage) (s : State) : State := { s with todo := .desField :: rest }

theorem desLeaf_atField (p : Params) (f : BitVec 9) (s : State) (rest : List Stage) :
    desLeaf p f (s.atField rest) = (desLeaf p f s).map (State.atField rest) := by
  have halike : Alike Eq Work.all s (s.atField rest) := { Alike.refl rfl Work.all with }
  have hmatch := halike.desLeaf (ws := []) (survives_eq _) (by decide) (by decide) p f
  refine hmatch.eq_map rfl (List.Subset.refl _) (Turn.ends_and (desLeaf_control p f s) (desLeaf_rst p f s))
    (Turn.ends_and (desLeaf_control p f (s.atField rest)) (desLeaf_rst p f (s.atField rest))) ?_
  rintro u v ⟨hu, hurst⟩ ⟨hv, hvrst⟩ h
  have heq := h.eq_of_control (hv.op.trans hu.op.symm) (hv.phase.trans hu.phase.symm) (hvrst.trans hurst.symm)
  rw [hv.todo, hv.host.trans (show (s.atField rest).host = u.host from hu.host.symm)] at heq
  exact heq

/-- The leaf arm ends the same way before the part of the token and, the tag having been read on its own, before that of
the field. -/
theorem desLeaf_settleWhole (p : Params) (f : BitVec 9) {s : State} {rest : List Stage} (h : s.todo = .desLoop :: rest) :
    ((desLeaf p f (s.atField rest)).backTo .desLoop).settleWhole = (desLeaf p f s).settleWhole := by
  have hcontrol := desLeaf_control p f s
  have hstays := desLeaf_stays p f s
  rw [desLeaf_atField]
  cases hT : desLeaf p f s <;> rw [hT] at hcontrol hstays
  case again v =>
    have hv : { v with todo := .desLoop :: rest } = v := by rw [← h, ← hcontrol.todo]
    exact congrArg Host.Outcome.next hv
  case leave v =>
    have hv : v.todo.tail = rest := congrArg List.tail (hcontrol.todo.trans h)
    exact congrArg (fun td => Host.Outcome.next { v with todo := td }) hv.symm
  case first st v => exact hstays.elim
  case instead st v =>
    have hv : v.todo.tail = rest := congrArg List.tail (hcontrol.todo.trans h)
    exact congrArg (fun td => Host.Outcome.next { v with todo := st :: td }) hv.symm
  case ended v => exact hstays.elim
  case raise c v =>
    have hv := State.raise_congr v c (.desField :: rest) v.host
    exact congrArg Host.Outcome.next (hv.trans (congrArg ((v.raise c).underHost ·) (v.raise_host c).symm))
  case stop e => rfl

section Work

variable {n : Nat} {s t : State} {rest : List Stage} {tail : Bits}

theorem advances_counting (hb : s.phase = .busy) (h : s.todo = .countLoop :: rest) {v : BitVec 8}
    (hin : s.inp.rest = bits 8 v.toNat ++ tail) (hrun : runBusy Config.params n s = .next t) :
    Advances n t (exec (.literal8 v) { s with inp := { s.inp with pos := s.inp.pos + 8 } }) := by
  have hunit : unit Config.params s =
      (countLiteral Config.params v { s with inp := { s.inp with pos := s.inp.pos + 8 } }).settle := by
    rw [unit_cons _ h, turn, countLoop, s.readBits_field (by decide) v tail hin]
  rw [exec_literal8_counting (s := { s with inp := { s.inp with pos := s.inp.pos + 8 } }) hb (by rw [h]; rfl)]
  exact advances_turn hrun (.refl s) hunit (Turn.ends_imp (countLiteral_control ..) fun u hu => hu.phase.trans hb)

theorem advances_magic (hb : s.phase = .busy) (h : s.todo = .rdMagic :: rest) {m : BitVec 32}
    (hin : s.inp.rest = bits 32 m.toNat ++ tail) (hrun : runBusy Config.params n s = .next t) :
    Advances n t (exec (.magic m) { s with inp := { s.inp with pos := s.inp.pos + 32 } }) := by
  have hunit : unit Config.params s =
      (checkMagic Config.params m { s with inp := { s.inp with pos := s.inp.pos + 32 } }).settle := by
    rw [unit_cons _ h, turn, rdMagic, s.readBits_field (by decide) m tail hin]
  rw [exec_magic (s := { s with inp := { s.inp with pos := s.inp.pos + 32 } }) hb h]
  exact advances_turn hrun (.refl s) hunit (Turn.ends_imp (checkMagic_control ..) fun u hu => hu.phase.trans hb)

theorem advances_internal (hb : s.phase = .busy) (h : s.todo = .desLoop :: rest) (hin : s.inp.rest = false :: tail)
    (hrun : runBusy Config.params n s = .next t) :
    Advances n t (exec .hdrInternal { s with inp := { s.inp with pos := s.inp.pos + 1 } }) := by
  rw [exec_hdrInternal (s := { s with inp := { s.inp with pos := s.inp.pos + 1 } }) hb (by rw [h]; rfl)]
  exact advances_turn hrun (.refl s) (unit_desLoop_internal _ h hin) hb

theorem advances_encoding (hb : s.phase = .busy) (h : s.todo = .encLoop :: rest) {v : BitVec 8}
    (hin : s.inp.rest = bits 8 v.toNat ++ tail) (hrun : runBusy Config.params n s = .next t) :
    Advances n t (exec (.literal8 v) { s with inp := { s.inp with pos := s.inp.pos + 8 } }) := by
  rw [exec_literal8_encoding (s := { s with inp := { s.inp with pos := s.inp.pos + 8 } }) hb (by rw [h]; rfl),
    encLiteral, withCode]
  by_cases hcode : s.code[literalSym v] = []
  · rw [if_pos hcode]
    exact advances_turn hrun (.refl s) (unit_encLoop_missing _ h hin hcode) hb
  · rw [if_neg hcode]
    have hcomes := (Comes.unit (unit_encLoop_code _ h hin hcode) hb).trans (comes_encEmit hb rfl)
    rw [← h] at hcomes
    exact advances_comes hrun hcomes hb

theorem advances_leaf (hb : s.phase = .busy) (h : s.todo = .desLoop :: rest) {f : BitVec 9}
    (hin : s.inp.rest = true :: (bits 9 f.toNat ++ tail)) (hrun : runBusy Config.params n s = .next t) :
    Advances n t (exec (.hdrLeaf f) { s with inp := { s.inp with pos := s.inp.pos + 10 } }) := by
  have hcomes := Comes.unit (unit_desLoop_leaf _ h hin) hb
  have hrest : ({ s.inp with pos := s.inp.pos + 1 } : Inp).rest = bits 9 f.toNat ++ tail := by
    rw [Inp.rest_advance, hin]
    rfl
  have hunit : unit Config.params { s with inp := { s.inp with pos := s.inp.pos + 1 }, todo := .desField :: rest } =
      ((desLeaf Config.params f (State.atField rest { s with inp := { s.inp with pos := s.inp.pos + 10 } })).backTo
        .desLoop).settle := by
    rw [unit_cons _ rfl, turn, desField, State.readBits_field _ (by decide) f tail hrest]
    rfl
  rw [exec_hdrLeaf (s := { s with inp := { s.inp with pos := s.inp.pos + 10 } }) hb (by rw [h]; rfl),
    ← desLeaf_settleWhole Config.params f (s := { s with inp := { s.inp with pos := s.inp.pos + 10 } }) h]
  exact advances_turn hrun hcomes hunit
    (Turn.backTo_ends _ (Turn.ends_imp (desLeaf_control ..) fun u hu => hu.phase.trans hb))

end Work

/-- The walk of `codeAhead` reads the node store alone. -/
theorem codeAhead_congr {s t : State} (h : t.node = s.node) (i : Idx) (bs : Bits) :
    codeAhead t i bs = codeAhead s i bs := by
  induction bs generalizing i with
  | nil => rfl
  | cons b bs ih => simp only [codeAhead, h, ih]

/-- `codeAhead` answers the first of the bits it is given (R89). -/
theorem codeAhead_prefix {s : State} {i : Idx} {bs c : Bits} (h : codeAhead s i bs = some c) : c <+: bs := by
  induction bs generalizing i c with
  | nil => cases h
  | cons b bs ih =>
    rw [codeAhead] at h
    split at h
    · cases h
    · split at h
      · cases h
        exact ⟨bs, rfl⟩
      · obtain ⟨c', hc', rfl⟩ := Option.map_eq_some_iff.mp h
        exact List.cons_prefix_cons.mpr ⟨rfl, ih hc'⟩

section Walk

variable {s : State} {b : Bool} {l r : Idx} {w : Weight}

/-- The state with `CUR` at `i` and `IN` `n` bits on. -/
def State.walked (i : Idx) (n : Nat) (s : State) : State := { s with cur := i, inp := { s.inp with pos := s.inp.pos + n } }

theorem decBits_internal {a c : Idx} {w' : Weight} (hcur : s.node[s.cur] = .internal l r w)
    (hchild : s.node[if b then r else l] = .internal a c w') (bs : Bits) (n : Nat) :
    decBits (b :: bs) (s.walked s.cur n) = decBits bs (s.walked (if b then r else l) n) := by
  have hbit : decBit b (s.walked s.cur n) = .again (s.walked (if b then r else l) n) := by
    simp only [decBit, decMove, State.walked, hcur, hchild]
  rw [decBits, hbit]

theorem decBits_sentinel {w' : Weight} (hcur : s.node[s.cur] = .internal l r w)
    (hchild : s.node[if b then r else l] = .leaf sentinel w') (n : Nat) :
    decBits [b] (s.walked s.cur n) = .leave (s.walked (if b then r else l) n) := by
  have hbit : decBit b (s.walked s.cur n) = .leave (s.walked (if b then r else l) n) := by
    simp only [decBit, decMove, State.walked, hcur, hchild, if_true]
  rw [decBits, hbit]

theorem decBits_byte {v : Sym} {w' : Weight} (hcur : s.node[s.cur] = .internal l r w)
    (hchild : s.node[if b then r else l] = .leaf v w') (hv : v ≠ sentinel) (n : Nat) :
    decBits [b] (s.walked s.cur n) = .again ((s.walked s.root n).writeSeq (bits 8 v.val)) := by
  have hbit : decBit b (s.walked s.cur n) = .again ((s.walked s.root n).writeSeq (bits 8 v.val)) := by
    simp only [decBit, decMove, State.walked, hcur, hchild, if_neg hv]
    rfl
  rw [decBits, hbit]
  rfl

end Walk

/-- DECODE's units on the bits of one code do what the whole code does at once. -/
theorem comes_decBits {s : State} {rest : List Stage} {bs c : Bits} (hb : s.phase = .busy) (h : s.todo = .decLoop :: rest)
    (hin : s.inp.rest = bs) (hc : codeAhead s s.cur bs = some c) :
    ∃ k v, Comes (k + 1) s v ∧ v.phase = .busy ∧ (decBits c (s.walked s.cur c.length)).settleWhole = .next v := by
  induction bs generalizing s c with
  | nil => cases hc
  | cons b bs ih =>
    rw [codeAhead] at hc
    cases hcur : s.node[s.cur] with
    | leaf v w => rw [hcur] at hc; cases hc
    | internal l r w =>
      have hunit := unit_decLoop_internal Config.params h hin hcur
      rw [hcur] at hc
      cases hchild : s.node[if b then r else l] with
      | leaf v w' =>
        simp only [hchild, Option.some.injEq] at hc
        subst hc
        rw [hchild] at hunit
        by_cases hv : v = sentinel
        · subst hv
          rw [decNext_sentinel] at hunit
          refine ⟨0, _, Comes.unit hunit hb, hb, ?_⟩
          rw [decBits_sentinel hcur hchild]
          exact congrArg (fun td => Host.Outcome.next { s.walked (if b then r else l) 1 with todo := td })
            (congrArg List.tail h)
        · rw [decNext_byte rest w' hv] at hunit
          refine ⟨1, _, (Comes.unit hunit hb).trans (Comes.unit (unit_decEmit Config.params rfl) hb), hb, ?_⟩
          rw [decBits_byte hcur hchild hv, ← h]
          rfl
      | internal l' r' w' =>
        simp only [hchild, Option.map_eq_some_iff] at hc
        obtain ⟨c', hc', rfl⟩ := hc
        rw [hchild, decNext, ← h] at hunit
        have hrest : (s.walked (if b then r else l) 1).inp.rest = bs := by
          rw [State.walked, Inp.rest_advance, hin]
          rfl
        obtain ⟨k, v, hcomes, hv, hend⟩ := ih (s := s.walked (if b then r else l) 1) (c := c')
          hb h hrest ((codeAhead_congr (s := s) (t := s.walked (if b then r else l) 1) rfl _ bs).trans hc')
        refine ⟨k + 1, v, (Comes.unit hunit hb).trans hcomes, hv, ?_⟩
        rw [decBits_internal hcur hchild, ← hend]
        have hlen : s.inp.pos + (b :: c').length = s.inp.pos + 1 + c'.length := by
          rw [List.length_cons, Nat.add_comm c'.length 1, Nat.add_assoc]
        simp only [State.walked, hlen]

theorem advances_code {n : Nat} {s t : State} {rest : List Stage} {c : Bits} (hb : s.phase = .busy)
    (h : s.todo = .decLoop :: rest) (hc : codeAhead s s.cur s.inp.rest = some c)
    (hrun : runBusy Config.params n s = .next t) :
    Advances n t (exec (.bodyCode c) { s with inp := { s.inp with pos := s.inp.pos + c.length } }) := by
  obtain ⟨k, v, hcomes, hv, hend⟩ := comes_decBits hb h rfl hc
  have hexec : exec (.bodyCode c) (s.walked s.cur c.length) = (decBits c (s.walked s.cur c.length)).settleWhole := by
    rw [exec, execBodyCode, State.running_cons (s := s.walked s.cur c.length) hb h]
  rw [show ({ s with inp := { s.inp with pos := s.inp.pos + c.length } } : State) = s.walked s.cur c.length from rfl, hexec,
    hend]
  exact advances_comes hrun hcomes hv

/-! ### The steps of an idle host -/

/-- What a running command does left alone, the stream unit at `IN` or a unit of its own, is units of its work. -/
theorem advances_work {n : Nat} {s t : State} (hb : s.phase = .busy) (hrun : runBusy Config.params n s = .next t) :
    Advances n t (work s) := by
  cases hfetch : s.fetch with
  | none =>
    rw [work_unit hb hfetch]
    exact advances_unit hrun
  | some row =>
    obtain ⟨i, s'⟩ := row
    rw [work_fetched hb hfetch]
    obtain ⟨tail, hsp, hin, rfl⟩ := State.fetch_row hfetch
    rw [State.readSpace] at hsp
    split at hsp <;> rename_i hst
    · obtain ⟨rest, h⟩ := State.running_some hst
      cases i <;> cases hsp
      exact advances_counting hb h hin hrun
    · obtain ⟨rest, h⟩ := State.running_some hst
      cases i <;> cases hsp
      exact advances_encoding hb h hin hrun
    · obtain ⟨rest, h⟩ := State.running_some hst
      cases i <;> cases hsp
      exact advances_magic hb h hin hrun
    · obtain ⟨rest, h⟩ := State.running_some hst
      cases i <;> cases hsp
      · exact advances_internal hb h hin hrun
      · exact advances_leaf hb h hin hrun
    · obtain ⟨rest, h⟩ := State.running_some hst
      obtain ⟨c, hc, hspace⟩ := Option.map_eq_some_iff.mp hsp
      cases i with
      | bodyCode c' =>
        have hlen : c.length = c'.length := Space.body.inj hspace
        have hpre : c <+: c' := List.prefix_of_prefix_length_le (codeAhead_prefix hc) ⟨tail, hin.symm⟩ hlen.le
        obtain rfl := hpre.eq_of_length hlen
        exact advances_code hb h hc hrun
      | _ => cases hspace
    · cases hsp

/-- The run to its end from a state in which a command has only been accepted, and the command executed: `t` is the end of
both, or the command has no effect. -/
def RunsTo (s u t : State) : Prop :=
  (t = s ∧ u = s) ∨ u.phase = .busy ∧ ∃ n, runBusy Config.params n u = .next t

theorem runReserved_runs (op : BitVec 4) (s : State) : RunsTo s (issueReserved op s) (runReserved op s) := by
  by_cases h : s.phase = .idle
  · rw [issueReserved, if_pos h, runReserved, if_pos h]
    exact .inr ⟨rfl, 1, runBusy_end _ 0 (settle_raise Config.params .illegalCommand (s.accept op)).2 (by simp)⟩
  · rw [issueReserved, if_neg h, runReserved, if_neg h]
    exact .inl ⟨rfl, rfl⟩

theorem runClear_runs (s : State) : RunsTo s (issueClear s) (runClear s) := by
  by_cases h : s.phase = .busy
  · rw [issueClear, if_pos h, runClear, if_pos h]
    exact .inl ⟨rfl, rfl⟩
  · rw [issueClear, if_neg h, runClear, if_neg h]
    exact .inr ⟨rfl, 1, runBusy_end _ 0 (unit_clearAll Config.params rfl) (fun hb => by cases hb)⟩

theorem Command.run_runs (c : Command) {s t : State} (h : c.run Config.params s = .next t) : RunsTo s (c.issue s) t := by
  by_cases hidle : s.phase = .idle
  · rw [Command.run, if_pos hidle] at h
    exact .inr ⟨c.issue_busy hidle, _, h⟩
  · rw [c.run_not_idle _ hidle] at h
    cases h
    exact .inl ⟨rfl, if_neg hidle⟩

theorem exec_runs {i : Instr} (hi : i.space = .command) {s t : State} (h : exec i s = .next t) :
    RunsTo s (issueInstr i s) t := by
  cases i with
  | reserved0 => cases h; exact runReserved_runs ..
  | reservedE => cases h; exact runReserved_runs ..
  | reservedF => cases h; exact runReserved_runs ..
  | clear => cases h; exact runClear_runs s
  | magic | hdrInternal | hdrLeaf | bodyCode | literal8 => cases hi
  | _ => exact Command.run_runs _ h

theorem issueInstr_host (i : Instr) (s : State) : (issueInstr i s).host = s.host := by
  have hissued := issueInstr_issued i s
  generalize issueInstr i s = t at hissued ⊢
  cases hissued with
  | accepted c hc hidle => rw [c.issue_frame hidle]
  | _ => rfl

/-- The host's script is no part of what a command does. -/
theorem exec_host {i : Instr} {s t : State} (h : exec i s = .next t) : t.host = s.host :=
  (onlyTheNamedWritersWrite i s t h).2.1

theorem unit_host (p : Params) {s t : State} (h : unit p s = .next t) : t.host = s.host := by
  obtain rfl | rfl | ⟨c, rfl⟩ | ⟨u, td, hu, rfl⟩ := unit_inversion p
    (fun st rest _ => Turn.ends_imp (turn_control p st s) fun u hu => hu.host) h
  · simp
  · simp [State.clearBlock]
  · simp
  · exact hu

theorem work_host {s t : State} (h : work s = .next t) : t.host = s.host := by
  rw [work] at h
  split at h
  · split at h <;> rename_i hfetch
    · obtain ⟨pos, _, rfl⟩ := State.fetch_some hfetch
      exact (exec_host h :)
    · exact unit_host _ h
  · cases h
    rfl

/-- A run done in steps with an idle host. -/
theorem steps_of_run {n : Nat} {s t : State} (hhost : s.host = []) (hb : s.phase = .busy)
    (hrun : runBusy Config.params n s = .next t) : ∃ m, steps m s = .next t := by
  induction n using Nat.strongRecOn generalizing s with
  | ind n ih =>
    obtain ⟨v, hwork, hv⟩ := advances_work hb hrun
    have hstep : step s = .next v := (step_idle_host hhost).trans hwork
    obtain rfl | ⟨hvb, m, hm, hrest⟩ := hv
    · exact ⟨1, by rw [steps, hstep]; rfl⟩
    · obtain ⟨k, hk⟩ := ih m hm ((work_host hwork).trans hhost) hvb hrest
      exact ⟨k + 1, by rw [steps, hstep]; exact hk⟩

/-- Settles O53: a command's code is its acceptance and a run, which steps take apart (`steps_of_run`, `steps_ticks`). -/
theorem runEqualsItsSteps : Obligations.RunEqualsItsSteps := by
  unfold Obligations.RunEqualsItsSteps
  intro op s t hhost hexec
  have hself : ∀ u : State, u.host = [] → u.underHost [] = u := fun u hu => by rw [State.underHost, ← hu]
  have ht : t.host = [] := (exec_host hexec).trans hhost
  obtain ⟨rfl, hissue⟩ | ⟨hb, n, hrun⟩ := exec_runs (decodeCommand_space op) hexec
  · rw [hissue]
    exact ⟨⟨0, rfl⟩, 0, congrArg Host.Outcome.next (hself _ hhost)⟩
  · have hissue := (issueInstr_host (decodeCommand op) s).trans hhost
    exact ⟨steps_of_run hissue hb hrun, n, (steps_ticks hb hrun).trans (congrArg Host.Outcome.next (hself t ht))⟩

end Sys2Proof.Machine
